-- ==== Sys2Proof/Word.lean ====
section
/-!
DEFINITION. The widths of HUFFCORE's data (spec 00_scope R5, 10_state R26 to R32): names for bit vectors, nothing more.
-/

namespace Sys2Proof

/-- A host word (R5 `HOSTWORD_BITS` = 32). -/
abbrev Word := BitVec 32

/-- A register number of the host register space (R50). -/
abbrev RegNum := BitVec 16

/-- A command word (R5 `CMD_BITS` = 16). -/
abbrev CmdWord := BitVec 16

/-- A symbol as stored in 9 bits (R5 `LEAFSYM_BITS`, R93); the symbols proper are 0 to 256. -/
abbrev Sym := BitVec 9

/-- A count or weight (R5 `WEIGHT_BITS` = 32). -/
abbrev Weight := BitVec 32

/-- A node index, also the width of NNODES, ROOT and CUR (R28, R32, R36). -/
abbrev Idx := BitVec 10

/-- One byte of a stream (R5 `WORD_BITS` = 8). -/
abbrev Byte := BitVec 8

/-- A bit sequence in stream order, the first bit first (R8). -/
abbrev Bits := List Bool

end Sys2Proof
end

