-- ==== Sys2Proof/Machine/Bits.lean ====
section
/-!
DEFINITION. Bit sequences and fields (R9, R61, R62, R67): `bits_N`, `val`, and the packing of bytes in a stream.
-/

namespace Sys2Proof

/-- `bits_N(v)` of R9: the N bits of v, most significant first. -/
def bitsOf {n : Nat} (v : BitVec n) : Bits := (List.range n).map v.getMsbD

/-- The unsigned integer whose bits, most significant first, are p: `val(p)` of R9, as a number. -/
def natOf (p : Bits) : Nat := p.foldl (fun a b => 2 * a + b.toNat) 0

/-- `val(p)` of R9 for a field of n bits. -/
def valOf (n : Nat) (p : Bits) : BitVec n := BitVec.ofNat n (natOf p)

/-- A byte sequence as a stream: the first bit is bit 7 of the first byte (R62). -/
def bitsOfBytes (bs : List Byte) : Bits := bs.flatMap bitsOf

/-- A stream cut into groups of 8 bits, each read as a byte (R67); 1 to 7 bits left over make no byte. -/
def bytesOf : Bits → List Byte
  | b7 :: b6 :: b5 :: b4 :: b3 :: b2 :: b1 :: b0 :: rest => valOf 8 [b7, b6, b5, b4, b3, b2, b1, b0] :: bytesOf rest
  | _ => []

end Sys2Proof
end

