-- ==== Sys2Proof/Config.lean ====
section
/-!
DEFINITION. What an implementation of HUFFCORE fixes (spec 00_scope R5, R6): the constants of R5, the open parameter MAGIC,
and the one free value of the model, the word a host read returns where the spec leaves it unspecified.
-/

namespace Sys2Proof

/-- The reserved END symbol (R5, R12). -/
def endSym : Sym := 256#9

/-- The placeholder of a tree whose literal counts are all zero (R5 `PLACEHOLDER_SYM`, R128). -/
def placeholderSym : Sym := 0#9

/-- Literal byte values (R5 `ALPH`). -/
abbrev alph : Nat := 256

/-- Symbols 0 to 256 (R5 `NSYM`). -/
abbrev nsym : Nat := 257

/-- Entries of the node arena (R5 `NODE_CAP`). -/
abbrev nodeCap : Nat := 513

/-- The longest code, and the bits of PATH (R5 `MAX_CODE_LEN`, R35). -/
abbrev maxCodeLen : Nat := 256

/-- The largest weight (R130, `WEIGHT_BITS` = 32). -/
abbrev maxWeight : Nat := 2 ^ 32 - 1

/-- The parameters a model takes as arguments (R6). They are no registers (R243); State carries them unchanged, so that a
statement about every state is a statement about every MAGIC and every reading of R246. -/
structure Params where
  /-- The 32-bit magic value that identifies the stream format (R5, R91). -/
  magic : Word
  /-- The model's own: which of two rules ENCODE keeps for a byte 0x00 whose code is the placeholder's, its count being 0. If
  true, R246: the byte raises NO_CODE. If false, R174 with R172: the code is written (DESIGN CHOICE, log entry 29). -/
  zeroCountFails : Bool
  deriving DecidableEq, Repr

/-- The default MAGIC of R5, marked there as general knowledge and unverified (PRESUMED, log entry 1), and ENCODE by its
pseudocode (DESIGN CHOICE, log entry 29). -/
def Params.default : Params := ⟨0xFACE8201#32, false⟩

/-- A FREE VALUE (log entry 6): the word the n-th host read returns where R42 and R73 say any value. It has no body. -/
opaque Config.unspecified : Nat → Word

end Sys2Proof
end

