-- ==== Sys2Proof/Syntax.lean ====
section
/-!
DEFINITION. The instructions: one constructor per row of spec/opcode_table.json, the fourteen host commands of R82 and the
three stream records of R90 to R93.
-/

namespace Sys2Proof

/-- An instruction. The commands come from a host write to CMD (R84); the stream records come from IN while the engine
reads a magic or a tree header (R90, R98). -/
inductive Instr where
  /-- CLR, R111. -/
  | clr
  /-- COUNT, R113. -/
  | count
  /-- BUILD, R126. -/
  | build
  /-- WRMAGIC, R141. -/
  | wrmagic
  /-- WRHDR, R143. -/
  | wrhdr
  /-- RDMAGIC, R145. -/
  | rdmagic
  /-- RDHDR, R147. -/
  | rdhdr
  /-- DERIVE, R161. -/
  | derive
  /-- EMIT sym, R171. -/
  | emit (sym : Sym)
  /-- ENCODE, R174. -/
  | encode
  /-- FLUSH, R177. -/
  | flush
  /-- DECODE, R186. -/
  | decode
  /-- COMPRESS, R196. -/
  | compress
  /-- DECOMPRESS, R199. -/
  | decompress
  /-- STREAM.MAGIC, the 32-bit first field of a compressed stream, R91. -/
  | streamMagic (m : Word)
  /-- STREAM.HDR_INTERNAL, the one-bit record of an internal node, R92. -/
  | hdrInternal
  /-- STREAM.HDR_LEAF, the ten-bit record of a leaf, R92, R93. -/
  | hdrLeaf (sym : Sym)
  deriving DecidableEq, Repr

end Sys2Proof
end

