-- ==== Sys2Proof/WellFormed.lean ====
section
/-!
DEFINITION. Which instructions the encodings admit: the operand of EMIT and the symbol of a leaf record are symbols, 0 to
256 (R83, R86 item 4, R93).
-/

namespace Sys2Proof

/-- A 9-bit value that names a symbol (R12: an integer in 0 to 256). -/
def Sym.isSymbol (s : Sym) : Bool := s.toNat ≤ 256

/-- The operand ranges of the opcode table (R83 for EMIT, R93 for a leaf record; no other row has a range). -/
def Instr.wellFormed : Instr → Bool
  | .emit sym => sym.isSymbol
  | .hdrLeaf sym => sym.isSymbol
  | .clr | .count | .build | .wrmagic | .wrhdr | .rdmagic | .rdhdr | .derive | .encode | .flush | .decode
  | .compress | .decompress | .streamMagic _ | .hdrInternal => true

/-- The rows of Part A of the encodings, the host commands (R80); the other three rows are stream records (Part B). -/
def Instr.isCommand : Instr → Bool
  | .streamMagic _ | .hdrInternal | .hdrLeaf _ => false
  | .clr | .count | .build | .wrmagic | .wrhdr | .rdmagic | .rdhdr | .derive | .emit _ | .encode | .flush | .decode
  | .compress | .decompress => true

end Sys2Proof
end

