-- ==== Sys2Proof/Decode.lean ====
section
/-!
DEFINITION. The two encodings of 30_encoding.md: the command word (Part A, R80 to R86) and the stream records (Part B, R90
to R93), each with its decoder and its encoder. Decoding is total and refuses by name.
-/

namespace Sys2Proof

/-- Why a command word is illegal: the four items of R86. -/
inductive IllegalWord where
  /-- Item 1: the opcode is 0x0 or 0xF. -/
  | opcode
  /-- Item 2: a reserved bit, 11 to 9, is not 0. -/
  | reserved
  /-- Item 3: an operand on a command that has none. -/
  | operand
  /-- Item 4: an EMIT operand above 256. -/
  | symbol
  deriving DecidableEq, Repr

/-- The field `op` of format C, bits 15 to 12 (R81). -/
def CmdWord.op (c : CmdWord) : BitVec 4 := c.extractLsb' 12 4

/-- The field `rsv` of format C, bits 11 to 9 (R81). -/
def CmdWord.rsv (c : CmdWord) : BitVec 3 := c.extractLsb' 9 3

/-- The field `imm9` of format C, bits 8 to 0, the operand of EMIT: zero-extended, not scaled (R81, R83). -/
def CmdWord.imm9 (c : CmdWord) : Sym := c.extractLsb' 0 9

/-- The opcode map of R82 for the commands without an operand. -/
def plainCommand (op : BitVec 4) : Option Instr :=
  match op.toNat with
  | 1 => some .clr
  | 2 => some .count
  | 3 => some .build
  | 4 => some .wrmagic
  | 5 => some .wrhdr
  | 6 => some .rdmagic
  | 7 => some .rdhdr
  | 8 => some .derive
  | 10 => some .encode
  | 11 => some .flush
  | 12 => some .decode
  | 13 => some .compress
  | 14 => some .decompress
  | _ => none

/-- Decoding a command word (R82, R83), with the illegal words of R86. -/
def decodeCommand (c : CmdWord) : Except IllegalWord Instr :=
  if c.rsv ≠ 0 then .error .reserved
  else if c.op = 9 then
    if c.imm9.isSymbol then .ok (.emit c.imm9) else .error .symbol
  else match plainCommand c.op with
    | none => .error .opcode
    | some i => if c.imm9 = 0 then .ok i else .error .operand

/-- Why a stream holds no record at its front. -/
inductive NoRecord where
  /-- There are fewer bits than the record has (R98). -/
  | short
  deriving DecidableEq, Repr

/-- The magic field at the front of a stream: 32 bits, most significant first (R91). Answers the field and the rest. -/
def decodeMagic (bits : Bits) : Except NoRecord (Instr × Bits) :=
  if bits.length < 32 then .error .short
  else .ok (.streamMagic (valOf 32 (bits.take 32)), bits.drop 32)

/-- The tree-header record at the front of a stream: `0`, or `1` and 9 bits of symbol, most significant first (R92, R93,
R98). Answers the record and the rest. A leaf record of 257 to 511 decodes; RDHDR refuses it (R148). -/
def decodeHeader : Bits → Except NoRecord (Instr × Bits)
  | [] => .error .short
  | false :: rest => .ok (.hdrInternal, rest)
  | true :: rest =>
    if rest.length < 9 then .error .short
    else .ok (.hdrLeaf (valOf 9 (rest.take 9)), rest.drop 9)

/-- An instruction in the form in which the machine receives it: a command word (Part A), a stream that begins with a
magic field, or a stream that begins with a header record (Part B). Which of the three it is never depends on the bits: a
command comes through CMD, a stream through IN, and the field is told by its place in the stream (R90, R98). -/
inductive Encoded where
  /-- A word written to CMD. -/
  | command (w : CmdWord)
  /-- The bits of IN where a magic is read. -/
  | magicField (bits : Bits)
  /-- The bits of IN where a header record is read. -/
  | headerField (bits : Bits)
  deriving DecidableEq, Repr

/-- Why nothing decodes. -/
inductive Reject where
  /-- An illegal command word (R86). -/
  | illegal (r : IllegalWord)
  /-- No whole record. -/
  | noRecord (r : NoRecord)
  deriving DecidableEq, Repr

/-- The decoder: the instruction and the bits after it (none for a command, which is one word, R80). -/
def decode : Encoded → Except Reject (Instr × Bits)
  | .command w => match decodeCommand w with
    | .ok i => .ok (i, [])
    | .error r => .error (.illegal r)
  | .magicField bits => match decodeMagic bits with
    | .ok x => .ok x
    | .error r => .error (.noRecord r)
  | .headerField bits => match decodeHeader bits with
    | .ok x => .ok x
    | .error r => .error (.noRecord r)

/-- The word of a command (R82, R83). A stream record has none: the illegal word 0 stands there. -/
def commandWord : Instr → CmdWord
  | .clr => 0x1000#16
  | .count => 0x2000#16
  | .build => 0x3000#16
  | .wrmagic => 0x4000#16
  | .wrhdr => 0x5000#16
  | .rdmagic => 0x6000#16
  | .rdhdr => 0x7000#16
  | .derive => 0x8000#16
  | .emit sym => 0x9000#16 ||| sym.setWidth 16
  | .encode => 0xA000#16
  | .flush => 0xB000#16
  | .decode => 0xC000#16
  | .compress => 0xD000#16
  | .decompress => 0xE000#16
  | .streamMagic _ | .hdrInternal | .hdrLeaf _ => 0#16

/-- The bits of a stream record in stream order (R91, R92). A command has none. -/
def recordBits : Instr → Bits
  | .streamMagic m => bitsOf m
  | .hdrInternal => [false]
  | .hdrLeaf sym => true :: bitsOf sym
  | .clr | .count | .build | .wrmagic | .wrhdr | .rdmagic | .rdhdr | .derive | .emit _ | .encode | .flush | .decode
  | .compress | .decompress => []

/-- The encoder: an instruction in the form in which the machine receives it, before the given rest of the stream. -/
def encode (i : Instr) (rest : Bits) : Encoded :=
  match i with
  | .streamMagic m => .magicField (recordBits (.streamMagic m) ++ rest)
  | .hdrInternal => .headerField (recordBits .hdrInternal ++ rest)
  | .hdrLeaf sym => .headerField (recordBits (.hdrLeaf sym) ++ rest)
  | .clr | .count | .build | .wrmagic | .wrhdr | .rdmagic | .rdhdr | .derive | .emit _ | .encode | .flush | .decode
  | .compress | .decompress => .command (commandWord i)

/-- An instruction given as spec/opcode_table.json numbers its bits (log entry 24): nbits of them, in whole bytes, bit 0
the least significant. The table's rows are a 16-bit command word; the 32-bit magic; the 1-bit internal record (in a whole
byte); the 10-bit leaf record (in two bytes, bit 9 the tag). A command word and a leaf record cannot be confused: read as
a command word a leaf record has the illegal opcode 0. -/
def encodedOfTable (nbits w : Nat) : Option Encoded :=
  if nbits = 32 then some (.magicField (bitsOf (BitVec.ofNat 32 w)))
  else if nbits = 16 ∨ nbits = 10 then
    if 0x200 ≤ w ∧ w < 0x400 then some (.headerField (bitsOf (BitVec.ofNat 10 w)))
    else if nbits = 16 ∧ w < 2 ^ 16 then some (.command (BitVec.ofNat 16 w)) else none
  else if (nbits = 8 ∨ nbits = 1) ∧ w = 0 then some (.headerField (bitsOf (BitVec.ofNat 1 w)))
  else none

/-- The instruction the decoder reads from a row of the opcode table, its bits numbered as the table numbers them. -/
def decodeTableWord (nbits w : Nat) : Option Instr :=
  match encodedOfTable nbits w with
  | none => none
  | some e => match decode e with
    | .ok (i, _) => some i
    | .error _ => none

end Sys2Proof
end

