-- ==== Sys2Proof/Machine/State.lean ====
section
/-!
DEFINITION. The state of HUFFCORE (10_state.md R20), of its two channels (20_memory.md R62, R65) and of the host's side of
the port; the ways the model stops; the state after reset (R40).
-/

namespace Sys2Proof.Machine

open Sys2Proof

/-- STATE, the sequencer state (R21). -/
inductive Phase where
  /-- 0: after reset or CLR; no command has run since. -/
  | idle
  /-- 1: a command has been accepted and has not finished. -/
  | busy
  /-- 2: the last accepted command finished without a fault. -/
  | done
  /-- 3: the last accepted command raised a fault; terminal until CLR or reset. -/
  | failed
  deriving DecidableEq, Repr

/-- The faults of HUFFCORE (R210). Raising one is an effect of the machine (R222), not a stop of the model. -/
inductive ErrCode where
  /-- 0: no fault. -/
  | none
  /-- 1: the first 32 bits are not MAGIC, or there are fewer (R211). -/
  | malformedHeader
  /-- 2: out of data while reading a header record or a body bit (R212). -/
  | truncatedStream
  /-- 3: the header describes a one-node tree (R213). -/
  | degenerateTree
  /-- 4: a leaf record's symbol is 257 to 511 (R214). -/
  | badSymbol
  /-- 5: the header has more than 513 records (R215). -/
  | treeOverflow
  /-- 6: a count or a weight sum exceeds 2^32 - 1 (R217). -/
  | weightOverflow
  /-- 7: the symbol to encode has no code (R218). -/
  | noCode
  /-- 8: a command needs a table that no earlier command has produced (R219). -/
  | sequence
  /-- 9: the command word is illegal (R220). -/
  | illegalCmd
  /-- 10: a channel transaction answered err (R221). -/
  | channel
  deriving DecidableEq, Repr

/-- NODE[i] (R28). -/
structure Node where
  /-- 1 for a leaf. -/
  leaf : Bool
  /-- The symbol of a leaf; 0 in an internal node. -/
  sym : Sym
  /-- The weight; 0 after RDHDR. -/
  weight : Weight
  /-- The left child of an internal node; 0 in a leaf. -/
  left : Idx
  /-- The right child of an internal node; 0 in a leaf. -/
  right : Idx
  deriving DecidableEq, Repr

/-- CODE[s] (R31). `bits[j]`, the j-th bit in emission order, is bit j of the field. -/
structure Code where
  /-- 1 if the symbol has a code. -/
  valid : Bool
  /-- The number of bits of the code. -/
  len : BitVec 9
  /-- The bits of the code, 0 at positions from `len` on. -/
  bits : BitVec 256
  deriving DecidableEq, Repr

/-- An entry of STACK (R34). The spec leaves its layout open; log entry 13. -/
inductive Frame where
  /-- WRHDR: a node still to be written (R143). -/
  | visit (i : Idx)
  /-- DERIVE: a pending right child, and the length of PATH at its parent (R162). -/
  | right (i : Idx) (depth : Nat)
  /-- RDHDR: an internal node whose left subtree is being read (R147). -/
  | opened (i : Idx)
  /-- RDHDR: an internal node whose right subtree is being read, and its left child (R147). -/
  | half (i : Idx) (left : Idx)
  deriving DecidableEq, Repr

/-- A line of a command's pseudocode, as the sequencer holds it while the command runs (log entry 3). -/
inductive Task where
  /-- COUNT: FREQ[0..255] <- 0 (R113). -/
  | countClear
  /-- COUNT: one turn of the counting loop (R113). -/
  | countByte
  /-- COUNT: IN.rewind() (R113). -/
  | rewind
  /-- BUILD and RDHDR: TV, CV, the arena, NNODES, ROOT cleared, PQ and STACK emptied (R126, R147). -/
  | treeClear
  /-- BUILD: insert_leaves() (R127, R128). -/
  | insertLeaves
  /-- BUILD: the merge loop, one merge_step() a turn (R126, R129). -/
  | merge
  /-- BUILD: ROOT <- PQ.removeMin(); TV <- 1 (R131). -/
  | takeRoot
  /-- DERIVE: CV <- 0, the code table cleared, the walk started at ROOT (R161). -/
  | codeClear
  /-- DERIVE: dfs at a node (R162). -/
  | walk (i : Idx)
  /-- DERIVE: CV <- 1 (R161). -/
  | codeDone
  /-- WRMAGIC: OUT.write(32, MAGIC) (R141). -/
  | writeMagic
  /-- WRHDR: wr(ROOT) (R143). -/
  | writeTree
  /-- WRHDR: the next node of the pre-order walk (R143). -/
  | writeNode
  /-- WRHDR: OUT.write(9, sym) of a leaf (R143). -/
  | writeSym (sym : Sym)
  /-- RDMAGIC: IN.read(32) and its check (R145). -/
  | readMagic
  /-- RDHDR: IN.read(1) of a record's tag (R147). -/
  | readTag
  /-- RDHDR: IN.read(9) of a leaf's symbol, for node i (R147). -/
  | readSym (i : Idx)
  /-- RDHDR: ROOT <- rd(), the one-node check, TV <- 1 (R147, R150). -/
  | checkRoot (i : Idx)
  /-- ENCODE: one turn of the encoding loop (R174). -/
  | encodeByte
  /-- emit(sym): the NO_CODE check (R172, R173). -/
  | emit (sym : Sym)
  /-- emit(sym): OUT.write(1, bits[j]) and the bits after it (R172). -/
  | emitBit (sym : Sym) (j : Nat)
  /-- DECODE: CUR <- ROOT (R186). -/
  | decodeStart
  /-- DECODE: IN.read(1) and one step of the walk (R186, R187). -/
  | decodeBit
  /-- DECODE: OUT.write(8, sym) of a decoded symbol, CUR <- ROOT (R186). -/
  | decodeOut (sym : Sym)
  /-- OUT.flush() (R174, R177, R186). -/
  | flush
  deriving DecidableEq, Repr

/-- How the IN channel answers its next transaction (R56, R58; log entry 8). -/
inductive InAnswer where
  /-- As the reference channel answers (R63, R64). -/
  | plain
  /-- `err`, leaving the position at `pos` (at the end of the data if that is less). On a rewind, `spends` says whether the
  one rewind counts as used by it; the spec says neither (DESIGN CHOICE, log entry 8). -/
  | error (pos : Nat) (spends : Bool)
  /-- A rewind is answered `ok` also if the one rewind is used: R247 leaves that answer to a channel other than the reference
  one (DESIGN CHOICE, log entry 8). A read is answered as the reference channel does. -/
  | granted
  /-- No answer, ever (R252). -/
  | never
  deriving DecidableEq, Repr

/-- How the OUT channel answers its next transaction (R59, R60; log entry 8). -/
inductive OutAnswer where
  /-- As the reference channel answers (R66, R67). -/
  | plain
  /-- `err`, after taking `taken` bits (all of them if there are fewer), and closing if `closes`. -/
  | error (taken : Nat) (closes : Bool)
  /-- No answer, ever (R252). -/
  | never
  deriving DecidableEq, Repr

/-- A bound IN channel (R62). With `script = []` and `replay = data` it is the reference channel. -/
structure InChan where
  /-- IN.data: the bits the host bound. -/
  data : Bits
  /-- IN.pos. -/
  pos : Nat
  /-- IN.rewound: the one rewind has been used. -/
  rewound : Bool
  /-- The bits delivered after a rewind: `data` on a channel that keeps R58; R246 says what happens on one that does
  not (log entry 9). -/
  replay : Bits
  /-- The answers of the coming transactions; where the list ends, the reference channel's. -/
  script : List InAnswer
  deriving DecidableEq, Repr

/-- A bound OUT channel (R65). With `script = []` and `pad = 0` it is the reference channel. -/
structure OutChan where
  /-- OUT.data: the bits taken so far. -/
  data : Bits
  /-- OUT.closed. -/
  closed : Bool
  /-- The padding bits a flush appends, the first one in bit 0: unconstrained by R60, zeros in the reference channel
  (R67). -/
  pad : BitVec 7
  /-- The answers of the coming transactions; where the list ends, the reference channel's. -/
  script : List OutAnswer
  deriving DecidableEq, Repr

/-- What the host does (R50, R51, R240, R242). -/
inductive HostAct where
  /-- host_write(a, d). -/
  | write (a : RegNum) (d : Word)
  /-- host_read(a). -/
  | read (a : RegNum)
  /-- The reset input. -/
  | reset
  /-- BIND IN: fresh data, position 0, the rewind not used. -/
  | bindIn (data replay : Bits) (script : List InAnswer)
  /-- BIND OUT: an empty open sink. -/
  | bindOut (pad : BitVec 7) (script : List OutAnswer)
  deriving DecidableEq, Repr

/-- When the host acts (log entry 5). -/
inductive Pace where
  /-- When STATE is not BUSY (R245). -/
  | waits
  /-- When STATE is not BUSY, as part of a sequence that stops if STATE reads FAILED (R87). -/
  | sequenced
  /-- Without waiting: once n more engine steps have been made, or as soon as STATE is not BUSY (R244, R241). -/
  | early (n : Nat)
  deriving DecidableEq, Repr

/-- A coming action of the host. -/
structure HostEvent where
  /-- When it happens. -/
  pace : Pace
  /-- What it is. -/
  act : HostAct
  deriving DecidableEq, Repr

/-- The model's stops. Each is SAFE: the model stops where the spec says nothing. None is raised in a state that a run
from reset reaches, since R37 holds whenever TV is 1 and the walks keep STACK in order (log entry 15). -/
inductive Fault where
  /-- WRHDR, DERIVE, DECODE, RDHDR or BUILD reads a node index of 513 or more, which R28 does not have. Safe. -/
  | nodeIndex
  /-- BUILD takes the least entry of an empty PQ (R131 says one is left). Safe. -/
  | queueEmpty
  /-- WRHDR, DERIVE or RDHDR finds an entry on STACK that another command's walk would have put there. Safe. -/
  | stackEntry
  /-- WRHDR, DERIVE or DECODE meets a leaf whose sym is above 256 (R37 item 5 says there is none). Safe. -/
  | leafSymbol
  /-- DERIVE would make PATH longer than 256 bits (R28 says no leaf is deeper). Safe. -/
  | pathLength
  deriving DecidableEq, Repr

/-- What the model refuses. -/
inductive Refusal where
  /-- An instruction without a meaning yet, raised by `exec` alone; there is none. Safe. -/
  | notModelled (mnemonic : String)
  /-- The host binds a stream while STATE is BUSY: no transition (93_implementation_defined.md U16; log entry 11), raised
  by `hostAct`. Safe. -/
  | bindWhileBusy
  deriving DecidableEq, Repr

/-- The whole state. -/
structure State where
  /-- The constants of the block (R6, R243); no operation writes them. -/
  params : Params
  /-- STATE (R21). -/
  phase : Phase
  /-- ERR (R24). -/
  err : ErrCode
  /-- TV, tree valid (R25). -/
  tv : Bool
  /-- CV, code table valid (R25). -/
  cv : Bool
  /-- OVR, a command write was dropped (R25). -/
  ovr : Bool
  /-- CMD: the word of the command that is running, 0 between commands (R23; log entry 4). -/
  cmd : CmdWord
  /-- FREQ[0..255] (R26); FREQ[256] is wired to 1 in `State.freqOf` (R27). -/
  freq : Vector Weight 256
  /-- NODE[0..512] (R28). -/
  node : Vector Node 513
  /-- NNODES (R32). -/
  nnodes : Idx
  /-- ROOT (R32). -/
  root : Idx
  /-- CODE[0..256] (R31). -/
  code : Vector Code 257
  /-- CUR (R36). -/
  cur : Idx
  /-- PQ, a set of node indices without repeats (R33). -/
  pq : List Idx
  /-- STACK, the top entry first (R34). -/
  stack : List Frame
  /-- PATH, the edge out of the root first (R35). -/
  path : Bits
  /-- What the running command has still to do (log entry 3). -/
  todo : List Task
  /-- The IN channel, if bound (R62, R242). -/
  inp : Option InChan
  /-- The OUT channel, if bound (R65, R242). -/
  out : Option OutChan
  /-- The host's coming actions, the next one first (log entry 5). -/
  host : List HostEvent
  /-- The word the host's last read returned, on the host's side (log entry 5). -/
  rdata : Word
  /-- How many reads the host has made (log entry 6). -/
  draws : Nat
  deriving DecidableEq, Repr

/-- An all-zero arena entry (R28, R40). -/
def Node.zero : Node := ⟨false, 0#9, 0#32, 0#10, 0#10⟩

/-- A leaf (R28, R127, R147). -/
def Node.mkLeaf (sym : Sym) (weight : Weight) : Node := ⟨true, sym, weight, 0#10, 0#10⟩

/-- An internal node (R28, R129, R147). -/
def Node.mkInternal (weight : Weight) (left right : Idx) : Node := ⟨false, 0#9, weight, left, right⟩

/-- An entry of the code table without a code (R31, R40). -/
def Code.none : Code := ⟨false, 0#9, 0#256⟩

/-- The state right after power-on reset: every element of R20 at the value of R40. No stream is bound (R242; log entry
10), and the model's own fields are at the values of log entry 18. -/
def State.reset : State where
  params := Params.default
  phase := .idle
  err := .none
  tv := false
  cv := false
  ovr := false
  cmd := 0#16
  freq := Vector.replicate 256 0#32
  node := Vector.replicate 513 Node.zero
  nnodes := 0#10
  root := 0#10
  code := Vector.replicate 257 Code.none
  cur := 0#10
  pq := []
  stack := []
  path := []
  todo := []
  inp := none
  out := none
  host := []
  rdata := 0#32
  draws := 0

/-- What a step answers. -/
abbrev Result := Host.Outcome State Fault Refusal

end Sys2Proof.Machine
end

