-- ==== Sys2Proof/Machine/Ops.lean ====
section
/-!
DEFINITION. The shared operations: accepting, dropping, completing a command (R84); fault entry (R222) and the return from
it (R111, R225); the host's clock of engine steps; the channel transactions with the reference channels' answers (R56 to
R67, R242) and the implicit CHANNEL check of R10.
-/

namespace Sys2Proof.Machine

open Sys2Proof

/-! ### The life of a command -/

/-- Fault entry, `fail(E)` (R222). OVR keeps its value, the tables and the channels are left as they stand (R42, R223). -/
def State.fail (s : State) (e : ErrCode) : State :=
  { s with err := e, tv := false, cv := false, phase := .failed, pq := [], stack := [], path := [], cmd := 0#16,
           todo := [] }

/-- Every element of R20 at its reset value; the channels are not touched (R40, R41, R240, R241). CLR and the reset input
both do exactly this; it is the only way out of FAILED (R225). -/
def State.clear (s : State) : State :=
  { State.reset with params := s.params, inp := s.inp, out := s.out, host := s.host, rdata := s.rdata,
                     draws := s.draws }

/-- Acceptance of a command word: STATE <- BUSY (R84). -/
def State.accept (s : State) (w : CmdWord) : State :=
  { s with phase := .busy, cmd := w, todo := [] }

/-- A dropped write to CMD: OVR <- 1 and nothing else (R84). -/
def State.drop (s : State) : State := { s with ovr := true }

/-- The end of a command's pseudocode: STATE <- DONE (R84). PQ, STACK and PATH are empty outside BUSY (R33 to R35) and CMD
holds nothing between commands (R23). -/
def State.complete (s : State) : State :=
  { s with phase := .done, cmd := 0#16, pq := [], stack := [], path := [], todo := [] }

/-- The command goes on with the given lines. -/
def State.goOn (s : State) (ts : List Task) : Result := .next { s with todo := ts }

/-- The command raises a fault (R222). -/
def State.raise (s : State) (e : ErrCode) : Result := .next (s.fail e)

/-! ### The host's actions in time -/

/-- One engine step passes: an early action of the host comes one step nearer (log entry 5). -/
def tickHost : List HostEvent → List HostEvent
  | ⟨.early (n + 1), a⟩ :: rest => ⟨.early n, a⟩ :: rest
  | es => es

/-- One engine step passes. -/
def State.tick (s : State) : State := { s with host := tickHost s.host }

/-- The host's next action happens now: in BUSY only an early one that is due, otherwise any (R245). -/
def State.eventDue (s : State) : Bool :=
  match s.host with
  | [] => false
  | e :: _ => match s.phase, e.pace with
    | .busy, .early 0 => true
    | .busy, _ => false
    | _, _ => true

/-- The host's next action, if there is one, waits for the engine. -/
def State.quiet (s : State) : Bool :=
  match s.host with
  | ⟨.early _, _⟩ :: _ => false
  | _ => true

/-! ### IN -/

/-- What a read transaction answers (R56). -/
inductive ReadAnswer (n : Nat) where
  /-- The n bits. -/
  | value (v : BitVec n)
  /-- Out of data. -/
  | eod
  /-- The channel's own error. -/
  | err
  /-- No answer. -/
  | never

/-- What a rewind, a write or a flush answers (R58 to R60). -/
inductive Ack where
  /-- Done. -/
  | ok
  /-- The channel's own error. -/
  | err
  /-- No answer. -/
  | never

/-- The answer the script holds for the coming transaction, and the channel after taking it. -/
def InChan.nextAnswer (c : InChan) : InAnswer × InChan :=
  match c.script with
  | [] => (.plain, c)
  | .never :: _ => (.never, c)
  | a :: rest => (a, { c with script := rest })

/-- IN.read(n) of the reference channel (R63): the n bits and the position moved by n; or eod, the bits left being lost. -/
def InChan.plainRead (c : InChan) (n : Nat) : ReadAnswer n × InChan :=
  if c.pos + n ≤ c.data.length then
    (.value (valOf n ((c.data.drop c.pos).take n)), { c with pos := c.pos + n })
  else (.eod, { c with pos := c.data.length })

/-- The channel's own error, leaving the position at `p`, or at the end of the data if that is less. -/
def InChan.spoil (c : InChan) (p : Nat) : InChan := { c with pos := min p c.data.length }

/-- IN.read(n) (R56, R63). -/
def InChan.read (c : InChan) (n : Nat) : ReadAnswer n × InChan :=
  match c.nextAnswer with
  | (.plain, c') | (.granted, c') => c'.plainRead n
  | (.error p _, c') => (.err, c'.spoil p)
  | (.never, c') => (.never, c')

/-- An accepted rewind (R58): the channel is at its start, delivers `replay` from now on (R246), and its one rewind is used. -/
def InChan.restart (c : InChan) : InChan := { c with data := c.replay, pos := 0, rewound := true }

/-- IN.rewind() of the reference channel (R64): once. A second rewind of another channel, whose answer R247 leaves to the
channel, is `InAnswer.granted` (DESIGN CHOICE, log entry 8). -/
def InChan.plainRewind (c : InChan) : Ack × InChan := if c.rewound then (.err, c) else (.ok, c.restart)

/-- IN.rewind() (R58, R64, R247). The spec does not say what a rewind answered `err` by the channel's own error leaves: whether it
uses up the one rewind is data of the answer, and it delivers the same bits as before (DESIGN CHOICE, log entry 8). -/
def InChan.rewind (c : InChan) : Ack × InChan :=
  match c.nextAnswer with
  | (.plain, c') => c'.plainRewind
  | (.granted, c') => (.ok, c'.restart)
  | (.error p spends, c') => (.err, { c'.spoil p with rewound := c'.rewound || spends })
  | (.never, c') => (.never, c')

/-- A freshly bound IN channel (R62, R242). -/
def InChan.bind (data replay : Bits) (script : List InAnswer) : InChan := ⟨data, 0, false, replay, script⟩

/-- The reference channel bound to the given bits (R62). -/
def InChan.reference (data : Bits) : InChan := InChan.bind data data []

/-! ### OUT -/

/-- The answer the script holds for the coming transaction, and the channel after taking it. -/
def OutChan.nextAnswer (c : OutChan) : OutAnswer × OutChan :=
  match c.script with
  | [] => (.plain, c)
  | .never :: _ => (.never, c)
  | a :: rest => (a, { c with script := rest })

/-- The padding a flush appends (R60, R67): (8 - (|OUT.data| mod 8)) mod 8 bits. -/
def OutChan.padding (c : OutChan) : Bits := (List.range ((8 - c.data.length % 8) % 8)).map c.pad.getLsbD

/-- Taking the first `taken` of some bits before answering err. -/
def OutChan.spoil (c : OutChan) (p : Bits) (taken : Nat) (closes : Bool) : OutChan :=
  { c with data := c.data ++ p.take taken, closed := c.closed || closes }

/-- OUT.write(n, v) of the reference channel (R66, R61): the bits of v, most significant first. -/
def OutChan.plainWrite (c : OutChan) {n : Nat} (v : BitVec n) : Ack × OutChan :=
  if c.closed then (.err, c) else (.ok, { c with data := c.data ++ bitsOf v })

/-- OUT.write(n, v) (R59). -/
def OutChan.write (c : OutChan) {n : Nat} (v : BitVec n) : Ack × OutChan :=
  match c.nextAnswer with
  | (.plain, c') => c'.plainWrite v
  | (.error k cl, c') => (.err, c'.spoil (bitsOf v) k cl)
  | (.never, c') => (.never, c')

/-- OUT.flush() of the reference channel (R67). -/
def OutChan.plainFlush (c : OutChan) : Ack × OutChan :=
  if c.closed then (.err, c) else (.ok, { c with data := c.data ++ c.padding, closed := true })

/-- OUT.flush() (R60). -/
def OutChan.flush (c : OutChan) : Ack × OutChan :=
  match c.nextAnswer with
  | (.plain, c') => c'.plainFlush
  | (.error k cl, c') => (.err, c'.spoil c'.padding k cl)
  | (.never, c') => (.never, c')

/-- A freshly bound OUT channel (R65, R242). -/
def OutChan.bind (pad : BitVec 7) (script : List OutAnswer) : OutChan := ⟨[], false, pad, script⟩

/-- The reference channel (R65, R67). -/
def OutChan.reference : OutChan := OutChan.bind 0#7 []

/-- The byte sequence of an OUT stream (R67). -/
def OutChan.bytes (c : OutChan) : List Byte := bytesOf c.data

/-! ### The engine's transactions

Each is followed by `if result = err then fail(CHANNEL)` (R10, R221). A channel that does not answer leaves the engine
where it is (R252). An unbound channel answers err (R242). -/

/-- One read transaction: `k` goes on with the value, or with nothing for eod. -/
def State.readIn (s : State) (n : Nat) (k : Option (BitVec n) → State → Result) : Result :=
  match s.inp with
  | none => s.raise .channel
  | some c => match c.read n with
    | (.value v, c') => k (some v) { s with inp := some c' }
    | (.eod, c') => k none { s with inp := some c' }
    | (.err, c') => State.raise { s with inp := some c' } .channel
    | (.never, _) => .next s

/-- One rewind transaction. -/
def State.rewindIn (s : State) (k : State → Result) : Result :=
  match s.inp with
  | none => s.raise .channel
  | some c => match c.rewind with
    | (.ok, c') => k { s with inp := some c' }
    | (.err, c') => State.raise { s with inp := some c' } .channel
    | (.never, _) => .next s

/-- One write transaction. -/
def State.writeOut (s : State) {n : Nat} (v : BitVec n) (k : State → Result) : Result :=
  match s.out with
  | none => s.raise .channel
  | some c => match c.write v with
    | (.ok, c') => k { s with out := some c' }
    | (.err, c') => State.raise { s with out := some c' } .channel
    | (.never, _) => .next s

/-- One flush transaction. -/
def State.flushOut (s : State) (k : State → Result) : Result :=
  match s.out with
  | none => s.raise .channel
  | some c => match c.flush with
    | (.ok, c') => k { s with out := some c' }
    | (.err, c') => State.raise { s with out := some c' } .channel
    | (.never, _) => .next s

end Sys2Proof.Machine
end

