-- ==== Sys2Proof/Machine/Operands.lean ====
section
/-!
DEFINITION. The operand forms: reading and writing entries of FREQ, NODE and CODE (R26 to R31), a path as a code (R163),
and the words of the host's windows (R52 to R55).
-/

namespace Sys2Proof.Machine

open Sys2Proof

/-! ### FREQ -/

/-- FREQ[s] (R26). FREQ[256] is hardwired to 1 (R27); there is no entry above it. -/
def State.freqOf (s : State) (sym : Sym) : Weight := s.freq[sym.toNat]?.getD 1#32

/-- FREQ[s] <- w; a write to FREQ[256] leaves it 1 (R27). -/
def State.setFreq (s : State) (sym : Sym) (w : Weight) : State :=
  { s with freq := s.freq.setIfInBounds sym.toNat w }

/-- FREQ[0..255] <- 0 (R113). -/
def State.clearFreq (s : State) : State := { s with freq := Vector.replicate 256 0#32 }

/-! ### NODE -/

/-- NODE[i]; nothing for an index R28 does not have. -/
def State.nodeAt? (s : State) (i : Idx) : Option Node := s.node[i.toNat]?

/-- NODE[i] <- x. -/
def State.setNode (s : State) (i : Idx) (x : Node) : State :=
  { s with node := s.node.setIfInBounds i.toNat x }

/-- Reading NODE[i] in a command: `k` goes on with the entry. -/
def State.withNode (s : State) (i : Idx) (k : Node → Result) : Result :=
  match s.nodeAt? i with
  | none => .fault .nodeIndex
  | some x => k x

/-- The child a bit leads to: 0 is left, 1 is right (R95, R187). -/
def Node.child (x : Node) (bit : Bool) : Idx := if bit then x.right else x.left

/-- The weight of NODE[i], as PQ's comparator reads it (R33). -/
def State.weightOf (s : State) (i : Idx) : Weight := (s.nodeAt? i).elim 0#32 Node.weight

/-! ### CODE -/

/-- CODE[s]; no code for a value that is no symbol. -/
def State.codeOf (s : State) (sym : Sym) : Code := s.code[sym.toNat]?.getD Code.none

/-- CODE[s] <- c. -/
def State.setCode (s : State) (sym : Sym) (c : Code) : State :=
  { s with code := s.code.setIfInBounds sym.toNat c }

/-- CODE[0..256] <- no code (R161). -/
def State.clearCode (s : State) : State := { s with code := Vector.replicate 257 Code.none }

/-- A path as a code (R163): bits[j] is the j-th edge from the root, 0 from its length on. -/
def Code.ofPath (p : Bits) : Code := ⟨true, BitVec.ofNat 9 p.length, (BitVec.ofBoolListLE p).setWidth 256⟩

/-- `code(s)` as a bit sequence (R31): bits[0] to bits[len-1]. -/
def Code.toBits (c : Code) : Bits := (List.range c.len.toNat).map c.bits.getLsbD

/-! ### The words of the host's windows -/

/-- NODE_LINK[i] (R54): leaf in bit 31, sym in 28 to 20, left in 19 to 10, right in 9 to 0. -/
def Node.linkWord (x : Node) : Word := BitVec.ofBool x.leaf ++ 0#2 ++ x.sym ++ x.left ++ x.right

/-- Word 0 of CODE[s] (R55): valid in bit 31, len in 8 to 0. -/
def Code.headWord (c : Code) : Word := BitVec.ofBool c.valid ++ 0#22 ++ c.len

/-- Word k of CODE[s] for k in 1 to 8 (R55): code bit j is bit 31 - (j mod 32) of word 1 + (j div 32). -/
def Code.bitsWord (c : Code) (k : Nat) : Word :=
  valOf 32 ((List.range 32).map fun t => c.bits.getLsbD (32 * (k - 1) + t))

end Sys2Proof.Machine
end

