-- ==== Sys2Proof/Machine/Flags.lean ====
section
/-!
DEFINITION. The flags and the status: the numbers of STATE and ERR (R21, R210), STATUS (R22), the level outputs (R39), the
flag preconditions of R85, and the flag writes of R25. HUFFCORE has no condition codes (R25).
-/

namespace Sys2Proof.Machine

open Sys2Proof

/-- The value of STATE (R21). -/
def Phase.toBits : Phase → BitVec 2
  | .idle => 0
  | .busy => 1
  | .done => 2
  | .failed => 3

/-- The value of ERR (R210). -/
def ErrCode.toBits : ErrCode → BitVec 4
  | .none => 0
  | .malformedHeader => 1
  | .truncatedStream => 2
  | .degenerateTree => 3
  | .badSymbol => 4
  | .treeOverflow => 5
  | .weightOverflow => 6
  | .noCode => 7
  | .sequence => 8
  | .illegalCmd => 9
  | .channel => 10

/-- STATUS (R22): STATE in bits 1 to 0, TV 2, CV 3, OVR 4, ERR in 11 to 8, the others 0. -/
def State.statusWord (s : State) : Word :=
  0#20 ++ s.err.toBits ++ 0#3 ++ BitVec.ofBool s.ovr ++ BitVec.ofBool s.cv ++ BitVec.ofBool s.tv ++ s.phase.toBits

/-- The output `busy` (R39). -/
def State.busyOut (s : State) : Bool := s.phase = .busy

/-- The output `done` (R39). -/
def State.doneOut (s : State) : Bool := s.phase = .done

/-- The output `error` (R39). -/
def State.errorOut (s : State) : Bool := s.phase = .failed

/-- No precondition on the flags (R85, the last row). -/
def State.noPrecondition (_ : State) : Bool := true

/-- TV = 1, required by WRHDR, DERIVE and DECODE (R85). -/
def State.hasTree (s : State) : Bool := s.tv

/-- CV = 1, required by EMIT and ENCODE (R85). -/
def State.hasCodes (s : State) : Bool := s.cv

/-- TV <- 0; CV <- 0, at the start of BUILD and RDHDR (R25). -/
def State.dropTree (s : State) : State := { s with tv := false, cv := false }

/-- TV <- 1, at the successful end of BUILD and RDHDR (R25). -/
def State.treeValid (s : State) : State := { s with tv := true }

/-- CV <- 0, at the start of DERIVE (R25). -/
def State.dropCodes (s : State) : State := { s with cv := false }

/-- CV <- 1, at the end of DERIVE (R25). -/
def State.codesValid (s : State) : State := { s with cv := true }

end Sys2Proof.Machine
end

