-- ==== Sys2Proof/Machine/BuildSteps.lean ====
section
/-!
DEFINITION. The priority queue (R33, R132) and the lines of BUILD's pseudocode (R126 to R131), one engine step each. Every
line is given the lines that follow it.
-/

namespace Sys2Proof.Machine

open Sys2Proof

/-! ### PQ -/

/-- The order of PQ (R33, R132): (weight, index) lexicographically, unsigned. -/
def State.precedes (s : State) (a b : Idx) : Bool :=
  (s.weightOf a).toNat < (s.weightOf b).toNat ||
    ((s.weightOf a).toNat = (s.weightOf b).toNat && a.toNat < b.toNat)

/-- The entry of a queue that precedes every other, starting from one of them. -/
def State.leastOf (s : State) (a : Idx) (q : List Idx) : Idx :=
  q.foldl (fun m i => if s.precedes i m then i else m) a

/-- PQ.insert(i) (R33). -/
def State.pqInsert (s : State) (i : Idx) : State := { s with pq := i :: s.pq }

/-- PQ.removeMin() (R33): the least entry, and the state without it. -/
def State.removeMin (s : State) : Option (Idx × State) :=
  match s.pq with
  | [] => none
  | a :: q => some (s.leastOf a q, { s with pq := (a :: q).erase (s.leastOf a q) })

/-! ### The lines -/

/-- The program of BUILD (R126). -/
def buildProgram : List Task := [.treeClear, .insertLeaves, .merge, .takeRoot]

/-- `TV <- 0; CV <- 0; NODE[0..512] <- all fields 0; NNODES <- 0; ROOT <- 0; PQ <- empty` (R126), the same start for RDHDR
(R147). STACK is empty at the start of either (R34). -/
def State.clearTree (s : State) : State :=
  { s.dropTree with node := Vector.replicate 513 Node.zero, nnodes := 0#10, root := 0#10, pq := [], stack := [] }

/-- The first line of BUILD and RDHDR. -/
def treeClear (ts : List Task) (s : State) : Result := s.clearTree.goOn ts

/-- `i <- NNODES; NODE[i] <- x; NNODES <- NNODES + 1` (R127, R129). -/
def State.addNode (s : State) (x : Node) : State :=
  { s.setNode s.nnodes x with nnodes := s.nnodes + 1#10 }

/-- `i <- NNODES; NODE[i] <- x; NNODES <- NNODES + 1; PQ.insert(i)` (R127, R129). -/
def State.queueNode (s : State) (x : Node) : State := (s.addNode x).pqInsert s.nnodes

/-- The symbols 0 to 256, ascending (R127). -/
def allSymbols : List Sym := (List.range nsym).map (BitVec.ofNat 9)

/-- `empty <- (FREQ[s] = 0 for every s in 0..255)` (R127). -/
def State.literalsEmpty (s : State) : Bool := s.freq.toList.all fun w => w = 0#32

/-- The body of insert_leaves() for one symbol, with the placeholder (R127, R128). -/
def insertLeaf (empty : Bool) (s : State) (sym : Sym) : State :=
  if 0 < (s.freqOf sym).toNat ∨ (empty ∧ sym = placeholderSym) then s.queueNode (Node.mkLeaf sym (s.freqOf sym)) else s

/-- insert_leaves() (R127). -/
def State.insertLeaves (s : State) : State := allSymbols.foldl (insertLeaf s.literalsEmpty) s

/-- The second line of BUILD. -/
def insertLeaves (ts : List Task) (s : State) : Result := s.insertLeaves.goOn ts

/-- `w <- NODE[a].weight + NODE[b].weight`, exact, `require(w <= 2^32 - 1, WEIGHT_OVERFLOW)` and the new node (R129, R130). -/
def mergePair (a b : Idx) (s : State) (k : State → Result) : Result :=
  let w := (s.weightOf a).toNat + (s.weightOf b).toNat
  if w ≤ maxWeight then k (s.queueNode (Node.mkInternal (BitVec.ofNat 32 w) a b)) else s.raise .weightOverflow

/-- `while |PQ| > 1: merge_step()` (R126, R129): one turn. The first removed is the left child. -/
def merge (ts : List Task) (s : State) : Result :=
  if s.pq.length ≤ 1 then s.goOn ts
  else match s.removeMin with
    | none => .fault .queueEmpty
    | some (a, s1) => match s1.removeMin with
      | none => .fault .queueEmpty
      | some (b, s2) => mergePair a b s2 fun s3 => s3.goOn (.merge :: ts)

/-- `ROOT <- PQ.removeMin(); TV <- 1` (R126, R131). -/
def takeRoot (ts : List Task) (s : State) : Result :=
  match s.removeMin with
  | none => .fault .queueEmpty
  | some (r, s') => State.goOn { s'.treeValid with root := r } ts

end Sys2Proof.Machine
end

