-- ==== Sys2Proof/Machine/CountSteps.lean ====
section
/-!
DEFINITION. The lines of COUNT's pseudocode (R113), one engine step each. Every line is given the lines that follow it.
-/

namespace Sys2Proof.Machine

open Sys2Proof

/-- The program of COUNT (R113). -/
def countProgram : List Task := [.countClear, .countByte, .rewind]

/-- `for s in 0..255: FREQ[s] <- 0`. -/
def countClear (ts : List Task) (s : State) : Result := s.clearFreq.goOn ts

/-- The counting of one value: `require(FREQ[v] < 2^32 - 1, WEIGHT_OVERFLOW); FREQ[v] <- FREQ[v] + 1` (R113, R114). -/
def countValue (v : Byte) (s : State) (k : State → Result) : Result :=
  let sym : Sym := v.setWidth 9
  if (s.freqOf sym).toNat < maxWeight then k (s.setFreq sym (s.freqOf sym + 1#32)) else s.raise .weightOverflow

/-- One turn of the loop: `r <- IN.read(8); if r = eod: break`, then the counting of the value. -/
def countByte (ts : List Task) (s : State) : Result :=
  s.readIn 8 fun r s' => match r with
    | none => s'.goOn ts
    | some v => countValue v s' fun s'' => s''.goOn (.countByte :: ts)

/-- `IN.rewind()` (R115). -/
def rewind (ts : List Task) (s : State) : Result := s.rewindIn fun s' => s'.goOn ts

end Sys2Proof.Machine
end

