-- ==== Sys2Proof/Machine/DecodeSteps.lean ====
section
/-!
DEFINITION. The lines of DECODE's pseudocode (R186 to R188), one engine step each. Every line is given the lines that follow
it.
-/

namespace Sys2Proof.Machine

open Sys2Proof

/-- The program of DECODE (R186). -/
def decodeProgram : List Task := [.decodeStart, .decodeBit, .flush]

/-- `CUR <- ROOT` (R186). -/
def decodeStart (ts : List Task) (s : State) : Result := State.goOn { s with cur := s.root } ts

/-- What follows the move to CUR (R187): END ends the loop, another leaf is written, an internal node reads on. -/
def arrive (ts : List Task) (s : State) : Result :=
  s.withNode s.cur fun x =>
    if x.leaf then
      if x.sym = endSym then s.goOn ts else s.goOn (.decodeOut x.sym :: .decodeBit :: ts)
    else s.goOn (.decodeBit :: ts)

/-- `r <- IN.read(1); if r = eod: fail(TRUNCATED_STREAM)` and one step of the walk (R186 to R188). -/
def decodeBit (ts : List Task) (s : State) : Result :=
  s.readIn 1 fun r s' => match r with
    | none => s'.raise .truncatedStream
    | some b => s'.withNode s'.cur fun x => arrive ts { s' with cur := x.child (b = 1#1) }

/-- `OUT.write(8, NODE[CUR].sym); CUR <- ROOT`, the symbol being 0 to 255 (R186, R187). -/
def decodeOut (sym : Sym) (ts : List Task) (s : State) : Result :=
  if sym.toNat < alph then
    s.writeOut (sym.setWidth 8) fun s' => State.goOn { s' with cur := s'.root } ts
  else .fault .leafSymbol

end Sys2Proof.Machine
end

