-- ==== Sys2Proof/Machine/DeriveSteps.lean ====
section
/-!
DEFINITION. The lines of DERIVE's pseudocode (R161 to R164), one engine step each: the walk with PATH and the pending right
children on STACK (R162). Every line is given the lines that follow it.
-/

namespace Sys2Proof.Machine

open Sys2Proof

/-- The program of DERIVE (R161). -/
def deriveProgram : List Task := [.codeClear, .codeDone]

/-- `CV <- 0; CODE[0..256] <- no code; dfs(ROOT, [])` (R161). -/
def codeClear (ts : List Task) (s : State) : Result :=
  State.goOn { s.clearCode.dropCodes with path := [], stack := [] } (.walk s.root :: ts)

/-- dfs has returned: the pending right child is next, on the path of its parent and a `1`; with none pending the walk is over
(R162). -/
def walkOn (ts : List Task) (s : State) : Result :=
  match s.stack with
  | [] => State.goOn { s with path := [] } ts
  | .right r d :: st => State.goOn { s with path := s.path.take d ++ [true], stack := st } (.walk r :: ts)
  | _ :: _ => .fault .stackEntry

/-- dfs(i, PATH) (R162): a leaf records the path as its symbol's code (R163, R164); an internal node is left by `0`, its
right child pending. -/
def walk (i : Idx) (ts : List Task) (s : State) : Result :=
  s.withNode i fun x =>
    if x.leaf then
      if x.sym.isSymbol then walkOn ts (s.setCode x.sym (Code.ofPath s.path)) else .fault .leafSymbol
    else if s.path.length < maxCodeLen then
      State.goOn { s with path := s.path ++ [false], stack := .right x.right s.path.length :: s.stack }
        (.walk x.left :: ts)
    else .fault .pathLength

/-- `CV <- 1` (R161). -/
def codeDone (ts : List Task) (s : State) : Result := s.codesValid.goOn ts

end Sys2Proof.Machine
end

