-- ==== Sys2Proof/Machine/EncodeSteps.lean ====
section
/-!
DEFINITION. The lines of EMIT, ENCODE and FLUSH (R171 to R177), one engine step each. Every line is given the lines that
follow it.
-/

namespace Sys2Proof.Machine

open Sys2Proof

/-- The program of EMIT sym (R171). -/
def emitProgram (sym : Sym) : List Task := [.emit sym]

/-- The program of ENCODE (R174). -/
def encodeProgram : List Task := [.encodeByte, .emit endSym, .flush]

/-- The program of FLUSH (R177). -/
def flushProgram : List Task := [.flush]

/-- `require(CODE[s].valid = 1, NO_CODE)` (R172, R173), then the bits from j = 0 on. -/
def emit (sym : Sym) (ts : List Task) (s : State) : Result :=
  if (s.codeOf sym).valid then s.goOn (.emitBit sym 0 :: ts) else s.raise .noCode

/-- `for j in 0 .. CODE[s].len - 1: OUT.write(1, CODE[s].bits[j])` (R172): one turn. -/
def emitBit (sym : Sym) (j : Nat) (ts : List Task) (s : State) : Result :=
  if j < (s.codeOf sym).len.toNat then
    s.writeOut (BitVec.ofBool ((s.codeOf sym).bits.getLsbD j)) fun s' => s'.goOn (.emitBit sym (j + 1) :: ts)
  else s.goOn ts

/-- A symbol that has a leaf in a tree of BUILD although its count was 0: the placeholder, the only leaf of weight 0, at index 0
(R128). In a tree of RDHDR every weight is 0, ROOT's as well (R28). -/
def State.isPlaceholder (s : State) (sym : Sym) : Bool :=
  sym = placeholderSym && s.weightOf s.root ≠ 0#32 && s.nodeAt? 0#10 = some (Node.mkLeaf placeholderSym 0#32)

/-- R246: ENCODE fails at a byte whose value was counted 0 times, also if the placeholder's code is there for it. R174 and R172 write
that code; which of the two a block does is its parameter (DESIGN CHOICE, log entry 29). -/
def State.refusesByte (s : State) (v : Byte) : Bool := s.params.zeroCountFails && s.isPlaceholder (v.setWidth 9)

/-- One turn of ENCODE's loop: `r <- IN.read(8); if r = eod: break; emit(r.value)` (R174), with the check of R246. -/
def encodeByte (ts : List Task) (s : State) : Result :=
  s.readIn 8 fun r s' => match r with
    | none => s'.goOn ts
    | some v =>
      if s'.refusesByte v then s'.raise .noCode else s'.goOn (.emit (v.setWidth 9) :: .encodeByte :: ts)

/-- `OUT.flush()` (R174, R177, R186). -/
def flushStep (ts : List Task) (s : State) : Result := s.flushOut fun s' => s'.goOn ts

end Sys2Proof.Machine
end

