-- ==== Sys2Proof/Machine/HeaderSteps.lean ====
section
/-!
DEFINITION. The lines of WRMAGIC, WRHDR, RDMAGIC and RDHDR (R141 to R150), one engine step each, the recursion of R143 and
R147 run on STACK (R34, R144). Every line is given the lines that follow it.
-/

namespace Sys2Proof.Machine

open Sys2Proof

/-! ### WRMAGIC and WRHDR -/

/-- The program of WRMAGIC (R141). -/
def wrmagicProgram : List Task := [.writeMagic]

/-- `OUT.write(32, MAGIC)` (R141). -/
def writeMagic (ts : List Task) (s : State) : Result := s.writeOut s.params.magic fun s' => s'.goOn ts

/-- The program of WRHDR (R143). -/
def wrhdrProgram : List Task := [.writeTree]

/-- `wr(ROOT)` (R143): ROOT is the one node still to be written. -/
def writeTree (ts : List Task) (s : State) : Result :=
  State.goOn { s with stack := [.visit s.root] } (.writeNode :: ts)

/-- What wr(i) does with NODE[i] (R143): a leaf is `1` and then its symbol; an internal node is `0`, then its left subtree,
then its right subtree. -/
def writeRecord (x : Node) (st : List Frame) (ts : List Task) (s : State) : Result :=
  if x.leaf then
    s.writeOut 1#1 fun s' => State.goOn { s' with stack := st } (.writeSym x.sym :: .writeNode :: ts)
  else
    s.writeOut 0#1 fun s' =>
      State.goOn { s' with stack := .visit x.left :: .visit x.right :: st } (.writeNode :: ts)

/-- The next call of wr (R143); with none pending, wr(ROOT) has returned. -/
def writeNode (ts : List Task) (s : State) : Result :=
  match s.stack with
  | [] => s.goOn ts
  | .visit i :: st => s.withNode i fun x => writeRecord x st ts s
  | _ :: _ => .fault .stackEntry

/-- `OUT.write(9, NODE[i].sym)` (R143, R93: WRHDR never writes 257 to 511). -/
def writeSym (sym : Sym) (ts : List Task) (s : State) : Result :=
  if sym.isSymbol then s.writeOut sym fun s' => s'.goOn ts else .fault .leafSymbol

/-! ### RDMAGIC -/

/-- The program of RDMAGIC (R145). -/
def rdmagicProgram : List Task := [.readMagic]

/-- `if r.value != MAGIC: fail(MALFORMED_HEADER)` (R145). -/
def checkMagic (m : Word) (ts : List Task) (s : State) : Result :=
  if m = s.params.magic then s.goOn ts else s.raise .malformedHeader

/-- `r <- IN.read(32); if r = eod: fail(MALFORMED_HEADER)` and the check of the value (R145, R146). -/
def readMagic (ts : List Task) (s : State) : Result :=
  s.readIn 32 fun r s' => match r with
    | none => s'.raise .malformedHeader
    | some m => checkMagic m ts s'

/-! ### RDHDR -/

/-- The program of RDHDR (R147). -/
def rdhdrProgram : List Task := [.treeClear, .readTag]

/-- rd() returns node i to its caller (R147): the left subtree of an open node, which then reads its right subtree; the right
subtree, which closes the node and returns it in turn; or the whole tree. -/
def closeNode : List Frame → Idx → List Task → State → Result
  | [], i, ts, s => State.goOn { s with stack := [] } (.checkRoot i :: ts)
  | .opened p :: st, i, ts, s => State.goOn { s with stack := .half p i :: st } (.readTag :: ts)
  | .half p l :: st, i, ts, s => closeNode st p ts (s.setNode p (Node.mkInternal 0#32 l i))
  | .visit _ :: _, _, _, _ => .fault .stackEntry
  | .right _ _ :: _, _, _, _ => .fault .stackEntry

/-- What rd() does once it has its tag (R147, R149): `require(NNODES < NODE_CAP, TREE_OVERFLOW); i <- NNODES;
NNODES <- NNODES + 1`, then a leaf reads its symbol and an internal node its left subtree. -/
def tagRead (tag : Bool) (ts : List Task) (s : State) : Result :=
  if s.nnodes.toNat < nodeCap then
    if tag then State.goOn { s with nnodes := s.nnodes + 1#10 } (.readSym s.nnodes :: ts)
    else State.goOn { s with nnodes := s.nnodes + 1#10, stack := .opened s.nnodes :: s.stack } (.readTag :: ts)
  else s.raise .treeOverflow

/-- `t <- IN.read(1); if t = eod: fail(TRUNCATED_STREAM)` (R147). -/
def readTag (ts : List Task) (s : State) : Result :=
  s.readIn 1 fun r s' => match r with
    | none => s'.raise .truncatedStream
    | some t => tagRead (t = 1#1) ts s'

/-- What rd() does once it has a leaf's symbol (R147, R148): `require(s.value <= 256, BAD_SYMBOL)` and the leaf. -/
def symRead (i : Idx) (sym : Sym) (ts : List Task) (s : State) : Result :=
  if sym.isSymbol then closeNode s.stack i ts (s.setNode i (Node.mkLeaf sym 0#32)) else s.raise .badSymbol

/-- `s <- IN.read(9); if s = eod: fail(TRUNCATED_STREAM)` (R147). -/
def readSym (i : Idx) (ts : List Task) (s : State) : Result :=
  s.readIn 9 fun r s' => match r with
    | none => s'.raise .truncatedStream
    | some sym => symRead i sym ts s'

/-- `ROOT <- rd(); require(NODE[ROOT].leaf = 0, DEGENERATE_TREE); TV <- 1` (R147, R150). -/
def checkRoot (i : Idx) (ts : List Task) (s : State) : Result :=
  State.withNode { s with root := i } i fun x =>
    if x.leaf then State.raise { s with root := i } .degenerateTree
    else State.goOn (State.treeValid { s with root := i }) ts

end Sys2Proof.Machine
end

