-- ==== Sys2Proof/Machine/Engine.lean ====
section
/-!
DEFINITION. The engine: one engine step (R70, R251), running a command until it ends or a host action falls into it, and the
acceptance of a command with the checks of R85 (R84).
-/

namespace Sys2Proof.Machine

open Sys2Proof

/-- A line of a command's pseudocode, given the lines that follow it. -/
def runTask (t : Task) (ts : List Task) (s : State) : Result :=
  match t with
  | .countClear => countClear ts s
  | .countByte => countByte ts s
  | .rewind => rewind ts s
  | .treeClear => treeClear ts s
  | .insertLeaves => insertLeaves ts s
  | .merge => merge ts s
  | .takeRoot => takeRoot ts s
  | .codeClear => codeClear ts s
  | .walk i => walk i ts s
  | .codeDone => codeDone ts s
  | .writeMagic => writeMagic ts s
  | .writeTree => writeTree ts s
  | .writeNode => writeNode ts s
  | .writeSym sym => writeSym sym ts s
  | .readMagic => readMagic ts s
  | .readTag => readTag ts s
  | .readSym i => readSym i ts s
  | .checkRoot i => checkRoot i ts s
  | .encodeByte => encodeByte ts s
  | .emit sym => emit sym ts s
  | .emitBit sym j => emitBit sym j ts s
  | .decodeStart => decodeStart ts s
  | .decodeBit => decodeBit ts s
  | .decodeOut sym => decodeOut sym ts s
  | .flush => flushStep ts s

/-- One engine step of a BUSY engine: its next line, or, at the end of the pseudocode, STATE <- DONE (R84). -/
def engineStep (s : State) : Result :=
  match s.todo with
  | [] => .next s.tick.complete
  | t :: ts => runTask t ts s.tick

/-- The engine can make its next step now: it is BUSY and no host action falls before it. -/
def State.running (s : State) : Bool := s.phase = .busy && !s.eventDue

/-- At most n engine steps, until the command has ended or a host action falls into it. -/
def drive : Nat → State → Result
  | 0, s => .next s
  | n + 1, s =>
    if s.running then
      match engineStep s with
      | .next s' => drive n s'
      | .fault f => .fault f
      | .refused r => .refused r
    else .next s

/-- The most bits one pass over IN can deliver. -/
def State.inBits (s : State) : Nat := s.inp.elim 0 fun c => max c.data.length c.replay.length

/-- A number of engine steps no smaller than a program takes whose channels answer and whose tree keeps R37 (R252: bounded by
the tables and the bits of IN). A command that reached it would stay BUSY and go on in the next step. -/
def budget (program : List Task) (s : State) : Nat := program.length * (4096 + 128 * s.inBits)

/-- A command (R84, R85): dropped in BUSY and FAILED; accepted in IDLE and DONE, then SEQUENCE if its flag precondition
fails, otherwise its pseudocode runs. -/
def issue (w : CmdWord) (pre : State → Bool) (program : List Task) (s : State) : Result :=
  match s.phase with
  | .busy | .failed => .next s.drop
  | .idle | .done =>
    if pre s then drive (budget program s) { s.accept w with todo := program }
    else .next ((s.accept w).fail .sequence)

/-- An illegal command word (R84, R85, R220): dropped in BUSY and FAILED, otherwise accepted and failed. -/
def illegal (w : CmdWord) (s : State) : Result :=
  match s.phase with
  | .busy | .failed => .next s.drop
  | .idle | .done => .next ((s.accept w).fail .illegalCmd)

end Sys2Proof.Machine
end

