-- ==== Sys2Proof/Machine/Build.lean ====
section
/-!
DEFINITION. The command BUILD (41_tree_build.md).
-/

namespace Sys2Proof.Machine

open Sys2Proof

/-- BUILD (R126). -/
def execBuild (s : State) : Result := issue (commandWord .build) State.noPrecondition buildProgram s

end Sys2Proof.Machine
end

