-- ==== Sys2Proof/Machine/Codec.lean ====
section
/-!
DEFINITION. The commands COMPRESS and DECOMPRESS (46_codec.md): the bodies of other commands one after another in one BUSY
period, with no acceptance check between them.
-/

namespace Sys2Proof.Machine

open Sys2Proof

/-- The program of COMPRESS: the bodies of COUNT, BUILD, DERIVE, WRMAGIC, WRHDR, ENCODE (R196). -/
def compressProgram : List Task :=
  countProgram ++ buildProgram ++ deriveProgram ++ wrmagicProgram ++ wrhdrProgram ++ encodeProgram

/-- The program of DECOMPRESS: the bodies of RDMAGIC, RDHDR, DECODE (R199). -/
def decompressProgram : List Task := rdmagicProgram ++ rdhdrProgram ++ decodeProgram

/-- COMPRESS (R196). -/
def execCompress (s : State) : Result := issue (commandWord .compress) State.noPrecondition compressProgram s

/-- DECOMPRESS (R199). -/
def execDecompress (s : State) : Result := issue (commandWord .decompress) State.noPrecondition decompressProgram s

end Sys2Proof.Machine
end

