-- ==== Sys2Proof/Machine/Control.lean ====
section
/-!
DEFINITION. The commands CLR and COUNT (40_control_and_count.md).
-/

namespace Sys2Proof.Machine

open Sys2Proof

/-- CLR (R111): accepted in IDLE, DONE and FAILED, dropped in BUSY; afterwards STATE is IDLE. It is atomic here: no host action
falls between its acceptance, STATE <- BUSY (R84), and its end, where R251 leaves the delay open (DESIGN CHOICE, log
entry 2). R111's corner case says that CLR in IDLE changes nothing; a FREQ entry that the host wrote in IDLE is cleared all the
same, as R111's pseudocode and R41 have it (DEDUCED, log entry 28). -/
def execClr (s : State) : Result :=
  match s.phase with
  | .busy => .next s.drop
  | .idle | .done | .failed => .next s.clear

/-- COUNT (R113). -/
def execCount (s : State) : Result := issue (commandWord .count) State.noPrecondition countProgram s

end Sys2Proof.Machine
end

