-- ==== Sys2Proof/Machine/Decoder.lean ====
section
/-!
DEFINITION. The command DECODE (45_decoder.md).
-/

namespace Sys2Proof.Machine

open Sys2Proof

/-- DECODE (R186), which needs TV (R85). -/
def execDecode (s : State) : Result := issue (commandWord .decode) State.hasTree decodeProgram s

end Sys2Proof.Machine
end

