-- ==== Sys2Proof/Machine/Derive.lean ====
section
/-!
DEFINITION. The command DERIVE (43_code_table.md).
-/

namespace Sys2Proof.Machine

open Sys2Proof

/-- DERIVE (R161), which needs TV (R85). -/
def execDerive (s : State) : Result := issue (commandWord .derive) State.hasTree deriveProgram s

end Sys2Proof.Machine
end

