-- ==== Sys2Proof/Machine/Encoder.lean ====
section
/-!
DEFINITION. The commands EMIT, ENCODE and FLUSH (44_encoder.md).
-/

namespace Sys2Proof.Machine

open Sys2Proof

/-- EMIT sym (R171), which needs CV (R85). An operand above 256 makes the word illegal (R86 item 4), which is checked before
the precondition (R85). -/
def execEmit (sym : Sym) (s : State) : Result :=
  if sym.isSymbol then issue (commandWord (.emit sym)) State.hasCodes (emitProgram sym) s
  else illegal (commandWord (.emit sym)) s

/-- ENCODE (R174), which needs CV (R85). -/
def execEncode (s : State) : Result := issue (commandWord .encode) State.hasCodes encodeProgram s

/-- FLUSH (R177). -/
def execFlush (s : State) : Result := issue (commandWord .flush) State.noPrecondition flushProgram s

end Sys2Proof.Machine
end

