-- ==== Sys2Proof/Machine/Header.lean ====
section
/-!
DEFINITION. The commands WRMAGIC, WRHDR, RDMAGIC and RDHDR (42_tree_header.md).
-/

namespace Sys2Proof.Machine

open Sys2Proof

/-- WRMAGIC (R141). -/
def execWrmagic (s : State) : Result := issue (commandWord .wrmagic) State.noPrecondition wrmagicProgram s

/-- WRHDR (R143), which needs TV (R85). -/
def execWrhdr (s : State) : Result := issue (commandWord .wrhdr) State.hasTree wrhdrProgram s

/-- RDMAGIC (R145). -/
def execRdmagic (s : State) : Result := issue (commandWord .rdmagic) State.noPrecondition rdmagicProgram s

/-- RDHDR (R147). -/
def execRdhdr (s : State) : Result := issue (commandWord .rdhdr) State.noPrecondition rdhdrProgram s

end Sys2Proof.Machine
end

