-- ==== Sys2Proof/Machine/Stream.lean ====
section
/-!
DEFINITION. The three stream records as instructions (30_encoding.md R90 to R93, log entry 12): what a BUSY engine that is
reading a magic or a tree header does with the record that stands next in IN. The record's bits are taken by the channel
transactions of RDMAGIC and RDHDR (R145, R147); its operand is what those transactions return. An engine that is not reading
such a record reads none (R232, R72), and nothing changes.
-/

namespace Sys2Proof.Machine

open Sys2Proof

/-- STREAM.MAGIC m: IN.read(32), and m is checked (R91, R145). -/
def execStreamMagic (m : Word) (s : State) : Result :=
  match s.phase, s.todo with
  | .busy, .readMagic :: ts => s.tick.readIn 32 fun r s' => match r with
    | none => s'.raise .malformedHeader
    | some _ => checkMagic m ts s'
  | _, _ => .next s

/-- The tag of a record: IN.read(1), and `tag` is acted on (R147, R149). -/
def recordTag (tag : Bool) (ts : List Task) (s : State) : Result :=
  s.tick.readIn 1 fun r s' => match r with
    | none => s'.raise .truncatedStream
    | some _ => tagRead tag ts s'

/-- STREAM.HDR_INTERNAL: the record `0` (R92, R147). -/
def execHdrInternal (s : State) : Result :=
  match s.phase, s.todo with
  | .busy, .readTag :: ts => recordTag false ts s
  | _, _ => .next s

/-- The symbol of a leaf record: IN.read(9), and `sym` is acted on (R93, R147, R148). -/
def recordSym (sym : Sym) (s : State) : Result :=
  match s.phase, s.todo with
  | .busy, .readSym i :: ts => s.tick.readIn 9 fun r s' => match r with
    | none => s'.raise .truncatedStream
    | some _ => symRead i sym ts s'
  | _, _ => .next s

/-- STREAM.HDR_LEAF sym: the record `1` and 9 bits (R92, R93, R147): its tag, then, unless that failed, its symbol. -/
def execHdrLeaf (sym : Sym) (s : State) : Result :=
  match s.phase, s.todo with
  | .busy, .readTag :: ts => match recordTag true ts s with
    | .next s' => recordSym sym s'
    | .fault f => .fault f
    | .refused r => .refused r
  | _, _ => .next s

end Sys2Proof.Machine
end

