-- ==== Sys2Proof/Machine/Dispatch.lean ====
section
/-!
DEFINITION. The dispatch: one arm per instruction, one direct call of its meaning.
-/

namespace Sys2Proof.Machine

open Sys2Proof

def exec (i : Instr) (s : State) : Host.Outcome State Fault Refusal :=
  match i with
  | .clr => Sys2Proof.Machine.execClr s
  | .count => Sys2Proof.Machine.execCount s
  | .build => Sys2Proof.Machine.execBuild s
  | .wrmagic => Sys2Proof.Machine.execWrmagic s
  | .wrhdr => Sys2Proof.Machine.execWrhdr s
  | .rdmagic => Sys2Proof.Machine.execRdmagic s
  | .rdhdr => Sys2Proof.Machine.execRdhdr s
  | .derive => Sys2Proof.Machine.execDerive s
  | .emit sym => Sys2Proof.Machine.execEmit sym s
  | .encode => Sys2Proof.Machine.execEncode s
  | .flush => Sys2Proof.Machine.execFlush s
  | .decode => Sys2Proof.Machine.execDecode s
  | .compress => Sys2Proof.Machine.execCompress s
  | .decompress => Sys2Proof.Machine.execDecompress s
  | .streamMagic m => Sys2Proof.Machine.execStreamMagic m s
  | .hdrInternal => Sys2Proof.Machine.execHdrInternal s
  | .hdrLeaf sym => Sys2Proof.Machine.execHdrLeaf sym s

end Sys2Proof.Machine
end

