-- ==== Sys2Proof/Machine/HostPort.lean ====
section
/-!
DEFINITION. The host register space (20_memory.md R51 to R55, R73, R74) and the host's actions (R84, R240, R242).
-/

namespace Sys2Proof.Machine

open Sys2Proof

/-- What a register number names (R52). -/
inductive Reg where
  /-- 0x0000. -/
  | cmd
  /-- 0x0001. -/
  | status
  /-- 0x0002. -/
  | root
  /-- 0x0003. -/
  | nnodes
  /-- 0x0400 + s, s in 0 to 256. -/
  | freq (sym : Sym)
  /-- 0x0800 + i, i in 0 to 512. -/
  | nodeLink (i : Idx)
  /-- 0x0C00 + i, i in 0 to 512. -/
  | nodeWeight (i : Idx)
  /-- 0x1000 + 16*s + k, s in 0 to 256, k in 0 to 8. -/
  | codeWord (sym : Sym) (k : Nat)
  /-- Every other number (R74). -/
  | unmapped
  deriving DecidableEq, Repr

/-- The register map (R52). -/
def regOf (a : RegNum) : Reg :=
  let n := a.toNat
  if n = 0 then .cmd
  else if n = 1 then .status
  else if n = 2 then .root
  else if n = 3 then .nnodes
  else if 0x400 ≤ n ∧ n ≤ 0x500 then .freq (BitVec.ofNat 9 (n - 0x400))
  else if 0x800 ≤ n ∧ n ≤ 0xA00 then .nodeLink (BitVec.ofNat 10 (n - 0x800))
  else if 0xC00 ≤ n ∧ n ≤ 0xE00 then .nodeWeight (BitVec.ofNat 10 (n - 0xC00))
  else if 0x1000 ≤ n ∧ n ≤ 0x2008 ∧ n % 16 ≤ 8 then .codeWord (BitVec.ofNat 9 ((n - 0x1000) / 16)) (n % 16)
  else .unmapped

/-- The content of a register, as it reads in IDLE and DONE (R22, R23, R52 to R55, R74). -/
def State.regWord (s : State) : Reg → Word
  | .cmd => 0
  | .status => s.statusWord
  | .root => s.root.setWidth 32
  | .nnodes => s.nnodes.setWidth 32
  | .freq sym => s.freqOf sym
  | .nodeLink i => (s.nodeAt? i).elim 0 Node.linkWord
  | .nodeWeight i => (s.nodeAt? i).elim 0 Node.weight
  | .codeWord sym k => if k = 0 then (s.codeOf sym).headWord else (s.codeOf sym).bitsWord k
  | .unmapped => 0

/-- The registers whose reading is unspecified in BUSY and FAILED (R42, R73). CMD, STATUS and the unmapped numbers read the
same in every state (R22, R23, R74), and so does FREQ[256] (R27, R42; log entry 7). -/
def Reg.guarded : Reg → Bool
  | .cmd | .status | .unmapped => false
  | .freq sym => sym ≠ endSym
  | .root | .nnodes | .nodeLink _ | .nodeWeight _ | .codeWord _ _ => true

/-- The tables may be read and FREQ written: STATE is IDLE or DONE (R73). -/
def State.open? (s : State) : Bool := s.phase = .idle || s.phase = .done

/-- host_read(a) (R51, R52, R73): the register's content, or a free value where the spec leaves any (log entry 6). -/
def State.hostRead (s : State) (a : RegNum) : Word :=
  if (regOf a).guarded && !s.open? then Config.unspecified s.draws else s.regWord (regOf a)

/-- A host read happens: no state of the machine changes (R51); the host has the word. -/
def State.takeRead (s : State) (a : RegNum) : State := { s with rdata := s.hostRead a, draws := s.draws + 1 }

/-- host_write(a, d) to a register other than CMD (R52, R53, R73, R74): only the FREQ window, and only in IDLE and DONE. -/
def State.storeReg (s : State) (r : Reg) (d : Word) : State :=
  match r with
  | .freq sym => if s.open? then s.setFreq sym d else s
  | .cmd | .status | .root | .nnodes | .nodeLink _ | .nodeWeight _ | .codeWord _ _ | .unmapped => s

/-- A command word is presented (R23, R84, R85): a legal one is its instruction, an illegal one is failed or dropped. -/
def writeCmd (w : CmdWord) (s : State) : Result :=
  match decodeCommand w with
  | .ok i => exec i s
  | .error _ => illegal w s

/-- host_write(a, d) (R23, R51): bits 31 to 16 of a word for CMD are ignored. -/
def hostWrite (a : RegNum) (d : Word) (s : State) : Result :=
  match regOf a with
  | .cmd => writeCmd (d.extractLsb' 0 16) s
  | r => .next (s.storeReg r d)

/-- An action of the host. Reset acts in any state (R240); a stream is bound between commands (R242, R250). -/
def hostAct (a : HostAct) (s : State) : Result :=
  match a with
  | .write r d => hostWrite r d s
  | .read r => .next (s.takeRead r)
  | .reset => .next s.clear
  | .bindIn data replay script =>
    if s.phase = .busy then .refused .bindWhileBusy
    else .next { s with inp := some (InChan.bind data replay script) }
  | .bindOut pad script =>
    if s.phase = .busy then .refused .bindWhileBusy
    else .next { s with out := some (OutChan.bind pad script) }

/-- The host's next action: one of a sequence is skipped once STATE reads FAILED (R87, R253). P3 of 95_test_vectors.md goes on after
a command that ended in FAILED; the model's choice between the two is log entry 22. -/
def hostEvent (e : HostEvent) (s : State) : Result :=
  if e.pace = .sequenced ∧ s.phase = .failed then .next s else hostAct e.act s

/-- The stream record a BUSY engine takes next from IN: it is reading a magic or a header record, the channel answers as the
reference channel and holds the whole record, and no host action falls into it (R98; log entry 12). -/
def fetchRecord (s : State) : Option Instr :=
  match s.phase, s.todo, s.inp with
  | .busy, t :: _, some c =>
    if c.script = [] ∧ s.quiet then
      match t with
      | .readMagic => (decodeMagic (c.data.drop c.pos)).toOption.map Prod.fst
      | .readTag => (decodeHeader (c.data.drop c.pos)).toOption.map Prod.fst
      | _ => none
    else none
  | _, _, _ => none

/-- The engine's turn: a record of the stream if one is next, otherwise one engine step; in IDLE, DONE and FAILED the engine
does nothing until CMD is written (R232). -/
def engineTurn (s : State) : Result :=
  if s.phase = .busy then
    match fetchRecord s with
    | some i => exec i s
    | none => engineStep s
  else .next s

/-- One step of the whole: the host's action if one is due, otherwise the engine's turn. -/
def turn (s : State) : Result :=
  if s.eventDue then
    match s.host with
    | e :: rest => hostEvent e { s with host := rest }
    | [] => .next s
  else engineTurn s

/-- `s` about to take the given command word or stream record (log entry 17): a command word is the host's next write to CMD;
a record stands in IN before an engine that is reading it. -/
def State.withEncoded (s : State) : Encoded → State
  | .command w => { s with host := ⟨.early 0, .write 0#16 (w.setWidth 32)⟩ :: s.host }
  | .magicField bits =>
    { s with phase := .busy, todo := [.readMagic], host := [], inp := some (InChan.reference bits) }
  | .headerField bits =>
    { s with phase := .busy, todo := [.readTag], host := [], inp := some (InChan.reference bits) }

end Sys2Proof.Machine
end

