-- ==== Sys2Proof/Machine/Step.lean ====
section
/-!
DEFINITION. One step of the machine, and the placing of an instruction where the step takes its next one.
-/

namespace Sys2Proof.Machine

open Sys2Proof

/-- One step: the host's action if one is due, otherwise the engine's turn (`turn`). -/
def step (s : State) : Host.Outcome State Fault Refusal := turn s

/-- `s` with an instruction of spec/opcode_table.json where `step` takes its next one: a command word as the host's next write
to CMD, a stream record at the front of IN before an engine that reads it (log entry 17). -/
def State.withFetchWord (s : State) (nbits w : Nat) : State :=
  match encodedOfTable nbits w with
  | some e => s.withEncoded e
  | none => s

end Sys2Proof.Machine
end

