-- ==== Sys2Proof/Machine/Asm.lean ====
section
/-!
DEFINITION. The assembler syntax of R87, its two host directives, and what a sequence of lines means: the host's actions. A
text is a list of characters, lines split at line feeds (log entry 21).
-/

namespace Sys2Proof.Machine

open Sys2Proof

/-- A line (R87). -/
inductive AsmLine where
  /-- Nothing but a comment. -/
  | empty
  /-- A command. -/
  | command (i : Instr)
  /-- BIND IN and the stream's bytes. -/
  | bindIn (bytes : List Byte)
  /-- BIND OUT. -/
  | bindOut
  /-- FREQ[s] = n. -/
  | setFreq (sym n : Nat)
  deriving DecidableEq, Repr

/-- A decimal digit. -/
def decDigit (c : Char) : Option Nat := if '0' ≤ c ∧ c ≤ '9' then some (c.toNat - 48) else none

/-- A hexadecimal digit, in either case. -/
def hexDigit (c : Char) : Option Nat :=
  if '0' ≤ c ∧ c ≤ '9' then some (c.toNat - 48)
  else if 'a' ≤ c ∧ c ≤ 'f' then some (c.toNat - 87)
  else if 'A' ≤ c ∧ c ≤ 'F' then some (c.toNat - 55)
  else none

/-- Digits after a number read so far. -/
def digitsFrom (base : Nat) (digit : Char → Option Nat) : Nat → List Char → Option Nat
  | a, [] => some a
  | a, c :: cs => match digit c with
    | some d => digitsFrom base digit (base * a + d) cs
    | none => none

/-- A decimal number, or a hexadecimal one after `0x` (R87). -/
def asmNumber : List Char → Option Nat
  | [] => none
  | ['0', 'x'] => none
  | '0' :: 'x' :: cs => digitsFrom 16 hexDigit 0 cs
  | cs => digitsFrom 10 decDigit 0 cs

/-- The operand of EMIT: END, or a number 0 to 256 (R87). -/
def asmSymbol (w : List Char) : Option Sym :=
  if w = ['E', 'N', 'D'] then some endSym
  else match asmNumber w with
    | some n => if n ≤ 256 then some (BitVec.ofNat 9 n) else none
    | none => none

/-- The mnemonics of the commands without an operand (R82, R87: upper case). -/
def asmCommands : List (List Char × Instr) :=
  [(['C', 'L', 'R'], .clr), (['C', 'O', 'U', 'N', 'T'], .count), (['B', 'U', 'I', 'L', 'D'], .build),
   (['W', 'R', 'M', 'A', 'G', 'I', 'C'], .wrmagic), (['W', 'R', 'H', 'D', 'R'], .wrhdr),
   (['R', 'D', 'M', 'A', 'G', 'I', 'C'], .rdmagic), (['R', 'D', 'H', 'D', 'R'], .rdhdr),
   (['D', 'E', 'R', 'I', 'V', 'E'], .derive), (['E', 'N', 'C', 'O', 'D', 'E'], .encode),
   (['F', 'L', 'U', 'S', 'H'], .flush), (['D', 'E', 'C', 'O', 'D', 'E'], .decode),
   (['C', 'O', 'M', 'P', 'R', 'E', 'S', 'S'], .compress),
   (['D', 'E', 'C', 'O', 'M', 'P', 'R', 'E', 'S', 'S'], .decompress)]

/-- A byte of a BIND IN line: two hexadecimal digits. -/
def asmByte : List Char → Option Byte
  | [h, l] => match hexDigit h, hexDigit l with
    | some a, some b => some (BitVec.ofNat 8 (16 * a + b))
    | _, _ => none
  | _ => none

/-- The symbol of `FREQ[s]`. -/
def asmFreq : List Char → Option Nat
  | 'F' :: 'R' :: 'E' :: 'Q' :: '[' :: cs =>
    if cs.getLast? = some ']' then asmNumber cs.dropLast else none
  | _ => none

/-- The words of a line before its comment: split at blanks. -/
def asmWords (cs : List Char) : List (List Char) :=
  ((cs.takeWhile (· ≠ ';')).splitOnP fun c => c = ' ' || c = '\t' || c = '\r').filter (· ≠ [])

/-- A line as words (R87); nothing if it is none of the forms. -/
def asmLine : List (List Char) → Option AsmLine
  | [] => some .empty
  | [m] => (asmCommands.lookup m).map .command
  | ['B', 'I', 'N', 'D'] :: ['I', 'N'] :: bs => (bs.mapM asmByte).map .bindIn
  | [['B', 'I', 'N', 'D'], ['O', 'U', 'T']] => some .bindOut
  | [['E', 'M', 'I', 'T'], w] => (asmSymbol w).map fun s => .command (.emit s)
  | [f, ['='], w] => match asmFreq f, asmNumber w with
    | some s, some n => if s ≤ 256 ∧ n ≤ maxWeight then some (.setFreq s n) else none
    | _, _ => none
  | _ => none

/-- A text as lines. -/
def assemble (text : List Char) : Option (List AsmLine) :=
  (text.splitOn '\n').mapM fun l => asmLine (asmWords l)

/-- The host action of a line (R52, R87, R242): the streams bound are reference channels. -/
def AsmLine.act : AsmLine → Option HostAct
  | .empty => none
  | .command i => some (.write 0#16 ((commandWord i).setWidth 32))
  | .bindIn bytes => some (.bindIn (bitsOfBytes bytes) (bitsOfBytes bytes) [])
  | .bindOut => some (.bindOut 0#7 [])
  | .setFreq sym n => some (.write (BitVec.ofNat 16 (0x400 + sym)) (BitVec.ofNat 32 n))

/-- What a sequence of lines means (R87): the host's actions in order. Up to the first command the host only waits for STATE
not to be BUSY; after it, it also stops if STATE reads FAILED. P3 of 95_test_vectors.md does not stop there: the model follows
R87, and `asmPersistent` is the host of P3 (DEDUCED, log entry 22). -/
def asmEvents : Pace → List AsmLine → List HostEvent
  | _, [] => []
  | p, l :: ls =>
    let p' := match l with
      | .command _ => Pace.sequenced
      | _ => p
    match l.act with
    | some a => ⟨p, a⟩ :: asmEvents p' ls
    | none => asmEvents p' ls

/-- The same lines by a host that goes on when STATE reads FAILED, as P3 of 95_test_vectors.md does (log entry 22). -/
def asmPersistent (ls : List AsmLine) : List HostEvent := (ls.filterMap AsmLine.act).map fun a => ⟨.waits, a⟩

/-- The host actions of a program's text (R87). -/
def asmProgram (text : List Char) : Option (List HostEvent) := (assemble text).map (asmEvents .waits)

end Sys2Proof.Machine
end

