-- ==== Sys2Proof/Safety.lean ====
section
/-!
DEFINITION. The terms in which claims are stated: the abstract tree of R11 and the arena that holds it, the header, codes and
body of a tree (R92, R95, R161), the invariants of R24, R25, R33 to R38, the states in which a command runs undisturbed, and
the result of a run (R253).
-/

namespace Sys2Proof.Safety

open Sys2Proof Sys2Proof.Machine

/-! ### Trees (R11) -/

/-- A tree with its weights (R11). -/
inductive Tree where
  /-- A leaf. -/
  | leaf (sym : Sym) (weight : Weight)
  /-- An internal node. -/
  | node (weight : Weight) (left right : Tree)
  deriving DecidableEq, Repr

/-- A tree with its weights erased (R11). -/
inductive Shape where
  /-- A leaf. -/
  | leaf (sym : Sym)
  /-- An internal node. -/
  | node (left right : Shape)
  deriving DecidableEq, Repr

/-- `shape(T)` (R11). -/
def Tree.shape : Tree → Shape
  | .leaf sym _ => .leaf sym
  | .node _ l r => .node l.shape r.shape

/-- The weight of the root. -/
def Tree.weight : Tree → Weight
  | .leaf _ w => w
  | .node w _ _ => w

/-- Every internal weight is the exact sum of its children's (R37 item 6, R130). -/
def Tree.weightsSum : Tree → Prop
  | .leaf _ _ => True
  | .node w l r => w.toNat = l.weight.toNat + r.weight.toNat ∧ l.weightsSum ∧ r.weightsSum

/-- The leaves' symbols in the order of the walk (R162). -/
def Shape.symbols : Shape → List Sym
  | .leaf sym => [sym]
  | .node l r => l.symbols ++ r.symbols

/-- L, the number of leaves. -/
def Shape.leaves : Shape → Nat
  | .leaf _ => 1
  | .node l r => l.leaves + r.leaves

/-- The number of edges to the deepest leaf. -/
def Shape.depth : Shape → Nat
  | .leaf _ => 0
  | .node l r => 1 + max l.depth r.depth

/-- A tree with at least two leaves (R37 item 2): the root is an internal node. -/
def Shape.branches : Shape → Bool
  | .leaf _ => false
  | .node _ _ => true

/-- The tree RDHDR makes of a shape: every weight 0 (R28, R147). -/
def Shape.bare : Shape → Tree
  | .leaf sym => .leaf sym 0#32
  | .node l r => .node 0#32 l.bare r.bare

/-- H(T), the header of a tree (R92): the records of its nodes in pre-order. -/
def Shape.header : Shape → Bits
  | .leaf sym => recordBits (.hdrLeaf sym)
  | .node l r => recordBits .hdrInternal ++ l.header ++ r.header

/-- The leaves with their paths from the root, in the order of the walk: `false` is left, `true` is right (R162). -/
def Shape.paths : Shape → List (Sym × Bits)
  | .leaf sym => [(sym, [])]
  | .node l r =>
    (l.paths.map fun x => (x.1, false :: x.2)) ++ (r.paths.map fun x => (x.1, true :: x.2))

/-- The path of the last leaf in the walk that holds a symbol (R164). -/
def Shape.lastPath (t : Shape) (sym : Sym) : Option Bits := (t.paths.reverse.find? fun x => x.1 = sym).map Prod.snd

/-- The code table of a tree (R161 to R164). -/
def Shape.codeTable (t : Shape) : Vector Code 257 :=
  Vector.ofFn fun i : Fin 257 => (t.lastPath (BitVec.ofNat 9 i.val)).elim Code.none Code.ofPath

/-- `bits` leads from the root to a leaf holding `sym` (R38 item 2). -/
def Shape.leads : Shape → Bits → Sym → Prop
  | .leaf sym, [], s => s = sym
  | .leaf _, _ :: _, _ => False
  | .node _ _, [], _ => False
  | .node l r, b :: bs, s => if b then r.leads bs s else l.leads bs s

/-- `bits` is the codes of the given symbols one after another, each code the path of a leaf holding it (R95). -/
def Shape.spells (t : Shape) : List Sym → Bits → Prop
  | [], bits => bits = []
  | s :: ss, bits => ∃ p rest, bits = p ++ rest ∧ t.leads p s ∧ t.spells ss rest

/-- The arena holds the tree at an index, its nodes in pre-order at the given indices (R11). -/
def holds (s : State) : Tree → Idx → List Idx → Prop
  | .leaf sym w, i, ixs => s.nodeAt? i = some (Node.mkLeaf sym w) ∧ ixs = [i]
  | .node w l r, i, ixs => ∃ a b la lb, s.nodeAt? i = some (Node.mkInternal w a b) ∧
      holds s l a la ∧ holds s r b lb ∧ ixs = i :: (la ++ lb)

/-- The arena holds the tree at ROOT. -/
def holdsRoot (s : State) (t : Tree) : Prop := ∃ ixs, holds s t s.root ixs

/-- Node i completes a right subtree: it closes the half-read nodes `fs`, the innermost first, each a node of RDHDR with its left
child (R147). The outermost node closed, and the state. -/
def closeHalves (fs : List (Idx × Idx)) (i : Idx) (s : State) : Idx × State :=
  fs.foldl (fun x f => (f.1, x.2.setNode f.1 (Node.mkInternal 0#32 f.2 x.1))) (i, s)

/-- Items 1 to 5 of R37 for a tree in the arena. -/
def treeInv (s : State) : Prop :=
  3 ≤ s.nnodes.toNat ∧ s.nnodes.toNat % 2 = 1 ∧ s.nnodes.toNat ≤ 513 ∧ s.root.toNat < s.nnodes.toNat ∧
  ∃ t ixs, holds s t s.root ixs ∧ t.shape.branches = true ∧ (∀ sym ∈ t.shape.symbols, sym.toNat ≤ 256) ∧
    ixs.Nodup ∧ ixs.length = s.nnodes.toNat ∧ ∀ i ∈ ixs, i.toNat < s.nnodes.toNat

/-- Item 6 of R37, which holds after BUILD. -/
def builtInv (s : State) : Prop :=
  ∃ t, holdsRoot s t ∧ t.shape.symbols.count endSym = 1 ∧ t.shape.symbols.Nodup ∧ t.weightsSum

/-- Entries from NNODES on are all-zero (R28). -/
def arenaTail (s : State) : Prop := ∀ i : Nat, s.nnodes.toNat ≤ i → i < 513 → s.node[i]? = some Node.zero

/-- One bit sequence begins with the other: the first `|p|` bits of `q` are `p` (R38 item 4). -/
def begins (p q : Bits) : Prop := ∃ rest, q = p ++ rest

/-! ### Counting -/

/-- The whole 8-bit values that IN still has (R113, R117). -/
def bytesLeft (c : InChan) : List Byte := bytesOf (c.data.drop c.pos)

/-- FREQ[0..255] as a count of some bytes (R26, R113). -/
def countTable (bs : List Byte) : Vector Weight 256 :=
  Vector.ofFn fun i : Fin 256 => BitVec.ofNat 32 (bs.count (BitVec.ofNat 8 i.val))

/-- The sum of FREQ[s] over all s, END included (R133). -/
def freqSum (s : State) : Nat := (allSymbols.map fun sym => (s.freqOf sym).toNat).sum

/-- The symbols BUILD gives a leaf (R127, R128), ascending. -/
def leafSymbols (s : State) : List Sym :=
  allSymbols.filter fun sym => 0 < (s.freqOf sym).toNat || (s.literalsEmpty && sym = placeholderSym)

/-! ### States in which a command runs undisturbed -/

/-- STATE is IDLE or DONE and no host action falls into the next command. -/
def ready (s : State) : Prop := (s.phase = .idle ∨ s.phase = .done) ∧ s.quiet = true

/-- IN is bound, answers as the reference channel does, and has exactly these bits left. -/
def inHas (s : State) (c : InChan) (bits : Bits) : Prop :=
  s.inp = some c ∧ c.script = [] ∧ c.pos ≤ c.data.length ∧ c.data.drop c.pos = bits

/-- OUT is bound and open and answers as the reference channel does, but for its padding bits. -/
def outOpen (s : State) (c : OutChan) : Prop := s.out = some c ∧ c.script = [] ∧ c.closed = false

/-- The channel with some more bits read. -/
def advance (c : InChan) (n : Nat) : InChan := { c with pos := c.pos + n }

/-- The channel with some more bits taken. -/
def append (c : OutChan) (p : Bits) : OutChan := { c with data := c.data ++ p }

/-- The channel after a flush (R67). -/
def flushed (c : OutChan) : OutChan := { c with data := c.data ++ c.padding, closed := true }

/-- The state of a command that ran without a fault, as far as the command itself wrote nothing (R84). -/
def finished (s : State) (inp : Option InChan) (out : Option OutChan) : State :=
  { s.complete with inp := inp, out := out }

/-! ### Invariants of every step -/

/-- R24 and R222: ERR is the code of a fault exactly in FAILED, and FAILED has neither a tree nor a code table. -/
def errInv (s : State) : Prop := (s.err = .none ↔ s.phase ≠ .failed) ∧ (s.phase = .failed → s.tv = false ∧ s.cv = false)

/-- R23 and R33 to R35: outside BUSY nothing of a command is left. -/
def hiddenInv (s : State) : Prop :=
  s.phase ≠ .busy → s.cmd = 0#16 ∧ s.pq = [] ∧ s.stack = [] ∧ s.path = [] ∧ s.todo = []

/-- The lines still to come never set CV without a valid tree: TV as it stands when each line runs. -/
def codesAfterTree : Bool → List Task → Prop
  | _, [] => True
  | tv, .codeDone :: ts => tv = true ∧ codesAfterTree tv ts
  | _, .treeClear :: ts => codesAfterTree false ts
  | _, .takeRoot :: ts => codesAfterTree true ts
  | _, .checkRoot _ :: ts => codesAfterTree true ts
  | _, .readTag :: ts => codesAfterTree true ts
  | _, .readSym _ :: ts => codesAfterTree true ts
  | tv, .countClear :: ts => codesAfterTree tv ts
  | tv, .countByte :: ts => codesAfterTree tv ts
  | tv, .rewind :: ts => codesAfterTree tv ts
  | tv, .insertLeaves :: ts => codesAfterTree tv ts
  | tv, .merge :: ts => codesAfterTree tv ts
  | tv, .codeClear :: ts => codesAfterTree tv ts
  | tv, .walk _ :: ts => codesAfterTree tv ts
  | tv, .writeMagic :: ts => codesAfterTree tv ts
  | tv, .writeTree :: ts => codesAfterTree tv ts
  | tv, .writeNode :: ts => codesAfterTree tv ts
  | tv, .writeSym _ :: ts => codesAfterTree tv ts
  | tv, .readMagic :: ts => codesAfterTree tv ts
  | tv, .encodeByte :: ts => codesAfterTree tv ts
  | tv, .emit _ :: ts => codesAfterTree tv ts
  | tv, .emitBit _ _ :: ts => codesAfterTree tv ts
  | tv, .decodeStart :: ts => codesAfterTree tv ts
  | tv, .decodeBit :: ts => codesAfterTree tv ts
  | tv, .decodeOut _ :: ts => codesAfterTree tv ts
  | tv, .flush :: ts => codesAfterTree tv ts

/-- R38: a valid code table stands beside a valid tree, and the command that is running keeps it so. -/
def codesInv (s : State) : Prop := (s.cv = true → s.tv = true) ∧ (s.phase = .busy → codesAfterTree s.tv s.todo)

/-- An entry of the code table as R31 has it: at most 256 bits, 0 from `len` on, and all 0 if not valid. -/
def codeEntryOk (c : Code) : Prop :=
  c.len.toNat ≤ 256 ∧ (∀ j, c.len.toNat ≤ j → c.bits.getLsbD j = false) ∧ (c.valid = false → c = Code.none)

/-- R31 for the whole table, and what keeps it so while DERIVE runs: PATH has at most 256 bits (R35), and the pending right
children hang from nodes less than 256 edges deep (R28). -/
def codeInv (s : State) : Prop :=
  (∀ sym, codeEntryOk (s.codeOf sym)) ∧ s.path.length ≤ 256 ∧ ∀ i d, Frame.right i d ∈ s.stack → d < 256

/-- R62: a bound IN stands at one of its bits or at their end. -/
def positionInv (s : State) : Prop := ∀ c, s.inp = some c → c.pos ≤ c.data.length

/-! ### The end of a run (R253) -/

/-- The result of a run (R253). The tables are part of it only in IDLE and DONE. -/
structure RunResult where
  /-- STATUS. -/
  status : Word
  /-- FREQ, NODE, NNODES, ROOT and CODE, in IDLE and DONE. -/
  tables : Option (Vector Weight 256 × Vector Node 513 × Idx × Idx × Vector Code 257)
  /-- IN.pos. -/
  inPos : Option Nat
  /-- The bits of OUT and whether it is closed. -/
  outBits : Option (Bits × Bool)
  deriving DecidableEq, Repr

/-- The result of a run that ends in a state (R253). -/
def runResult (s : State) : RunResult where
  status := s.statusWord
  tables := if s.open? then some (s.freq, s.node, s.nnodes, s.root, s.code) else none
  inPos := s.inp.map fun c => c.pos
  outBits := s.out.map fun c => (c.data, c.closed)

end Sys2Proof.Safety
end

