-- ==== Sys2Proof/Certificates/Slice0/Obligations.lean ====
section
/-!
DEFINITION. The statements for the provers, from the numbered rules of spec/. A statement that a command answers a next state
gives that state whole wherever it can, as the state before it with the fields the command writes; what is not named there
is unchanged (the command's frame).
-/

open Sys2Proof Sys2Proof.Machine Sys2Proof.Safety

/-! ### Encodings -/

/-- R82, R83, R91 to R93: every well-formed instruction is what the decoder reads from its encoding, and the rest of the
stream stands after a record. -/
def Obligations.DecodeInvertsEncode : Prop :=
  ∀ (i : Instr) (rest : Bits), i.wellFormed = true →
    decode (encode i rest) = .ok (i, if i.isCommand then [] else rest)

/-- R82, R83, R91 to R93: what the decoder reads encodes to what was read, and a command it reads has an operand in range. -/
def Obligations.EncodeInvertsDecode : Prop :=
  ∀ (e : Encoded) (i : Instr) (rest : Bits), decode e = .ok (i, rest) →
    encode i rest = e ∧ (i.isCommand = true → i.wellFormed = true)

/-- R86: the illegal words, their number, and that every illegal word is treated alike. -/
def Obligations.LegalCommandWords : Prop :=
  (∀ c : CmdWord, (∃ r, decodeCommand c = .error r) ↔
    (c.op = 0 ∨ c.op = 15 ∨ c.rsv ≠ 0 ∨ (c.op ≠ 9 ∧ c.imm9 ≠ 0) ∨ (c.op = 9 ∧ 256 < c.imm9.toNat))) ∧
  (List.range 65536).countP (fun n => (decodeCommand (BitVec.ofNat 16 n)).isOk) = 270 ∧
  (∀ (c c' : CmdWord) (r r' : IllegalWord) (s : State),
    decodeCommand c = .error r → decodeCommand c' = .error r' → writeCmd c s = writeCmd c' s)

/-- R82 and R92: some words, written out from the opcode map and the header grammar, decode to what they stand for. -/
def Obligations.SampleWordsDecode : Prop :=
  decodeCommand 0b0001000000000000#16 = .ok .clr ∧
  decodeCommand 0b0011000000000000#16 = .ok .build ∧
  decodeCommand 0b1001000001000001#16 = .ok (.emit 0x41#9) ∧
  decodeCommand 0b1001000100000000#16 = .ok (.emit endSym) ∧
  decodeCommand 0b1110000000000000#16 = .ok .decompress ∧
  decodeHeader [false, true] = .ok (.hdrInternal, [true]) ∧
  decodeHeader [true, false, false, true, false, false, false, false, false, true, false] =
    .ok (.hdrLeaf 0x41#9, [false])

/-! ### Steps -/

/-- R23, R72, R84: when the host's due action writes to CMD a word whose low half decodes, the step is that instruction; bits 31
to 16 are ignored. (A host that stops its sequence on FAILED, R87, is the one exception.) -/
def Obligations.StepRunsPresentedCommand : Prop :=
  ∀ (s : State) (p : Pace) (d : Word) (rest : List HostEvent) (i : Instr),
    s.host = ⟨p, .write 0#16 d⟩ :: rest → s.eventDue = true → ¬ (p = .sequenced ∧ s.phase = .failed) →
    decodeCommand (d.extractLsb' 0 16) = .ok i → step s = exec i { s with host := rest }

/-- R98, R145, R147: when a BUSY engine is to read a magic or a header record and a reference channel holds a whole one, the
step is that record. -/
def Obligations.StepRunsNextRecord : Prop :=
  ∀ (s : State) (c : InChan) (ts : List Task) (i : Instr) (rest : Bits),
    s.phase = .busy → s.quiet = true → s.inp = some c → c.script = [] →
    (s.todo = .readTag :: ts → decodeHeader (c.data.drop c.pos) = .ok (i, rest) → step s = exec i s) ∧
    (s.todo = .readMagic :: ts → decodeMagic (c.data.drop c.pos) = .ok (i, rest) → step s = exec i s)

/-- R232, R241, R244, R252: the step in the other cases. Outside BUSY nothing happens without the host; in BUSY a reset clears
all but the channels, a write to CMD is dropped and sets OVR, a write to the FREQ window is ignored; a channel that does not
answer a read, a rewind, a write or a flush leaves the engine where it is. -/
def Obligations.HostAndEngineTurns : Prop :=
  (∀ s : State, s.phase ≠ .busy → s.host = [] → step s = .next s) ∧
  (∀ (s : State) (rest : List HostEvent), s.phase = .busy → s.host = ⟨.early 0, .reset⟩ :: rest →
    step s = .next (State.clear { s with host := rest })) ∧
  (∀ (s : State) (d : Word) (rest : List HostEvent), s.phase = .busy → s.host = ⟨.early 0, .write 0#16 d⟩ :: rest →
    step s = .next { s with host := rest, ovr := true }) ∧
  (∀ (s : State) (a : RegNum) (d : Word) (rest : List HostEvent), s.phase = .busy → a ≠ 0#16 →
    s.host = ⟨.early 0, .write a d⟩ :: rest → step s = .next { s with host := rest }) ∧
  (∀ (s : State) (c : InChan) (as : List InAnswer), s.inp = some c → c.script = .never :: as →
    (∀ (n : Nat) (k : Option (BitVec n) → State → Result), s.readIn n k = .next s) ∧
    (∀ k : State → Result, s.rewindIn k = .next s) ∧
    (∀ ts : List Task, s.phase = .busy → s.quiet = true → s.todo = .countByte :: ts ∨ s.todo = .rewind :: ts →
      step s = .next s)) ∧
  (∀ (s : State) (c : OutChan) (as : List OutAnswer), s.out = some c → c.script = .never :: as →
    (∀ (n : Nat) (v : BitVec n) (k : State → Result), s.writeOut v k = .next s) ∧
    (∀ k : State → Result, s.flushOut k = .next s) ∧
    (∀ ts : List Task, s.phase = .busy → s.quiet = true → s.todo = .writeMagic :: ts ∨ s.todo = .flush :: ts →
      step s = .next s))

/-! ### Acceptance, faults, reset -/

/-- R84, R41, R111: in BUSY a word written to CMD is dropped and OVR set; in FAILED only CLR is taken; in IDLE, DONE and FAILED CLR
runs and leaves the cleared state. That it ends within the write is the model's choice (log entry 2), and so is that it clears
in IDLE what the host wrote to FREQ (R41 before R111's corner case, log entry 28). -/
def Obligations.DroppedCommands : Prop :=
  (∀ (w : CmdWord) (s : State), s.phase = .busy → writeCmd w s = .next { s with ovr := true }) ∧
  (∀ (w : CmdWord) (s : State), s.phase = .failed → w ≠ 0x1000#16 → writeCmd w s = .next { s with ovr := true }) ∧
  (∀ s : State, s.phase ≠ .busy → writeCmd 0x1000#16 s = .next s.clear)

/-- R85: the two checks at acceptance, in their order, before any effect; every command but the five named needs no flag. -/
def Obligations.ChecksAtAcceptance : Prop :=
  (∀ (w : CmdWord) (r : IllegalWord) (s : State), s.phase = .idle ∨ s.phase = .done →
    decodeCommand w = .error r → writeCmd w s = .next (s.fail .illegalCmd)) ∧
  (∀ s : State, s.phase = .idle ∨ s.phase = .done → s.tv = false →
    exec .wrhdr s = .next (s.fail .sequence) ∧ exec .derive s = .next (s.fail .sequence) ∧
    exec .decode s = .next (s.fail .sequence)) ∧
  (∀ (s : State) (sym : Sym), s.phase = .idle ∨ s.phase = .done → s.cv = false → sym.toNat ≤ 256 →
    exec (.emit sym) s = .next (s.fail .sequence) ∧ exec .encode s = .next (s.fail .sequence)) ∧
  (∀ (i : Instr) (s t : State), s.phase = .idle ∨ s.phase = .done → exec i s = .next t → s.err ≠ .sequence →
    t.err = .sequence →
    ((i = .wrhdr ∨ i = .derive ∨ i = .decode) ∧ s.tv = false) ∨
    ((i = .encode ∨ ∃ sym, i = .emit sym) ∧ s.cv = false))

/-- R41, R111, R240: CLR and reset write every element of R20 with its reset value and touch no channel; they differ only in
that reset acts in every state and CLR is dropped in BUSY. That CLR ends at once, also where a host action is due early, is the
model's choice (log entry 2), and so is that it clears in IDLE what the host wrote to FREQ (R41 before R111's corner case, log
entry 28). -/
def Obligations.ClrAndReset : Prop :=
  (∀ s : State, hostAct .reset s = .next s.clear) ∧
  (∀ s : State, s.phase ≠ .busy → exec .clr s = .next s.clear) ∧
  (∀ s : State, s.phase = .busy → exec .clr s = .next { s with ovr := true }) ∧
  (∀ s : State, s.clear = { State.reset with params := s.params, inp := s.inp, out := s.out, host := s.host,
                                             rdata := s.rdata, draws := s.draws })

/-- R40: what reset leaves. -/
def Obligations.ResetValues : Prop :=
  let s := State.reset
  s.phase = .idle ∧ s.err = .none ∧ s.tv = false ∧ s.cv = false ∧ s.ovr = false ∧ s.cmd = 0#16 ∧
  (∀ sym : Sym, sym.toNat < 256 → s.freqOf sym = 0#32) ∧ s.freqOf endSym = 1#32 ∧
  (∀ i : Idx, i.toNat < 513 → s.nodeAt? i = some ⟨false, 0#9, 0#32, 0#10, 0#10⟩) ∧ s.nnodes = 0#10 ∧ s.root = 0#10 ∧
  (∀ sym : Sym, s.codeOf sym = ⟨false, 0#9, 0#256⟩) ∧ s.cur = 0#10 ∧
  s.pq = [] ∧ s.stack = [] ∧ s.path = [] ∧ s.busyOut = false ∧ s.doneOut = false ∧ s.errorOut = false ∧
  s.statusWord = 0#32

/-- R222: fault entry. The tables, CUR, OVR and the channels keep their values and the command is over. -/
def Obligations.FaultEntry : Prop :=
  ∀ (s : State) (e : ErrCode),
    (s.fail e).err = e ∧ (s.fail e).tv = false ∧ (s.fail e).cv = false ∧ (s.fail e).phase = .failed ∧
    (s.fail e).busyOut = false ∧ (s.fail e).doneOut = false ∧ (s.fail e).errorOut = true ∧
    (s.fail e).pq = [] ∧ (s.fail e).stack = [] ∧ (s.fail e).path = [] ∧ (s.fail e).todo = [] ∧
    (s.fail e).ovr = s.ovr ∧ (s.fail e).freq = s.freq ∧ (s.fail e).node = s.node ∧ (s.fail e).nnodes = s.nnodes ∧
    (s.fail e).root = s.root ∧ (s.fail e).code = s.code ∧ (s.fail e).cur = s.cur ∧ (s.fail e).inp = s.inp ∧
    (s.fail e).out = s.out

/-- R226: in FAILED the fault stays, whatever happens, but for CLR and reset. -/
def Obligations.FaultIsSticky : Prop :=
  ∀ s t : State, s.phase = .failed → step s = .next t →
    (∃ p rest, s.host = ⟨p, .reset⟩ :: rest) ∨
    (∃ p d rest, s.host = ⟨p, .write 0#16 d⟩ :: rest ∧ d.extractLsb' 0 16 = 0x1000#16) ∨
    (t.phase = .failed ∧ t.err = s.err)

/-! ### The host register space -/

/-- R22: STATUS reads its fields in every state, its reserved bits as 0, and a write to it is ignored. -/
def Obligations.StatusRegister : Prop :=
  ∀ s : State,
    (s.hostRead 1#16).extractLsb' 0 2 = s.phase.toBits ∧ (s.hostRead 1#16).getLsbD 2 = s.tv ∧
    (s.hostRead 1#16).getLsbD 3 = s.cv ∧ (s.hostRead 1#16).getLsbD 4 = s.ovr ∧
    (s.hostRead 1#16).extractLsb' 5 3 = 0#3 ∧ (s.hostRead 1#16).extractLsb' 8 4 = s.err.toBits ∧
    (s.hostRead 1#16).extractLsb' 12 20 = 0#20 ∧ ∀ d : Word, hostWrite 1#16 d s = .next s

/-- R53, R27, R42: the FREQ window in IDLE and DONE; FREQ[256] is 1 in every state, a write leaves it, and it reads 1 in IDLE, DONE
and FAILED. -/
def Obligations.FreqWindow : Prop :=
  (∀ (s : State) (n : Nat), s.open? = true → n ≤ 256 →
    s.hostRead (BitVec.ofNat 16 (0x400 + n)) = s.freqOf (BitVec.ofNat 9 n)) ∧
  (∀ (s : State) (n : Nat) (d : Word), s.open? = true → n < 256 →
    ∃ t, hostWrite (BitVec.ofNat 16 (0x400 + n)) d s = .next t ∧ t = { s with freq := t.freq } ∧
      t.hostRead (BitVec.ofNat 16 (0x400 + n)) = d ∧
      ∀ m : Nat, m ≤ 256 → m ≠ n → t.freqOf (BitVec.ofNat 9 m) = s.freqOf (BitVec.ofNat 9 m)) ∧
  (∀ (s : State) (d : Word), hostWrite 0x500#16 d s = .next s ∧ s.freqOf endSym = 1#32 ∧
    (s.phase ≠ .busy → s.hostRead 0x500#16 = 1#32))

/-- R54: the NODE windows in IDLE and DONE; writes are ignored; beyond NNODES they read 0 where the arena is as R28 has it. -/
def Obligations.NodeWindows : Prop :=
  (∀ (s : State) (i : Idx) (x : Node), s.open? = true → s.nodeAt? i = some x →
    let w := s.hostRead (BitVec.ofNat 16 (0x800 + i.toNat))
    w.getLsbD 31 = x.leaf ∧ w.extractLsb' 29 2 = 0#2 ∧ w.extractLsb' 20 9 = x.sym ∧ w.extractLsb' 10 10 = x.left ∧
    w.extractLsb' 0 10 = x.right ∧ s.hostRead (BitVec.ofNat 16 (0xC00 + i.toNat)) = x.weight) ∧
  (∀ (s : State) (i : Idx), s.open? = true → arenaTail s → s.nnodes.toNat ≤ i.toNat → i.toNat < 513 →
    s.hostRead (BitVec.ofNat 16 (0x800 + i.toNat)) = 0#32 ∧ s.hostRead (BitVec.ofNat 16 (0xC00 + i.toNat)) = 0#32) ∧
  (∀ (s : State) (i : Nat) (d : Word), i < 513 →
    hostWrite (BitVec.ofNat 16 (0x800 + i)) d s = .next s ∧ hostWrite (BitVec.ofNat 16 (0xC00 + i)) d s = .next s)

/-- R55: the CODE window in IDLE and DONE, code bit j in bit 31 - (j mod 32) of word 1 + (j div 32); bits from `len` on read 0
where the table is as R31 has it; writes are ignored. -/
def Obligations.CodeWindow : Prop :=
  (∀ (s : State) (n : Nat), s.open? = true → n ≤ 256 →
    let w := s.hostRead (BitVec.ofNat 16 (0x1000 + 16 * n))
    w.getLsbD 31 = (s.codeOf (BitVec.ofNat 9 n)).valid ∧ w.extractLsb' 0 9 = (s.codeOf (BitVec.ofNat 9 n)).len ∧
    w.extractLsb' 9 22 = 0#22) ∧
  (∀ (s : State) (n j : Nat), s.open? = true → n ≤ 256 → j < 256 →
    (s.hostRead (BitVec.ofNat 16 (0x1000 + 16 * n + 1 + j / 32))).getLsbD (31 - j % 32) =
      (s.codeOf (BitVec.ofNat 9 n)).bits.getLsbD j ∧
    (codeEntryOk (s.codeOf (BitVec.ofNat 9 n)) → (s.codeOf (BitVec.ofNat 9 n)).len.toNat ≤ j →
      (s.hostRead (BitVec.ofNat 16 (0x1000 + 16 * n + 1 + j / 32))).getLsbD (31 - j % 32) = false)) ∧
  (∀ (s : State) (n k : Nat) (d : Word), n ≤ 256 → k ≤ 8 →
    hostWrite (BitVec.ofNat 16 (0x1000 + 16 * n + k)) d s = .next s)

/-- R74, R52, R23: every number outside the map reads 0 and ignores writes in every state (in BUSY by log entry 7); ROOT and NNODES
read with their unused bits 0 in IDLE and DONE and ignore writes; CMD reads 0. -/
def Obligations.UnmappedRegisters : Prop :=
  (∀ (s : State) (a : RegNum) (d : Word), 3 < a.toNat →
    ¬ (0x400 ≤ a.toNat ∧ a.toNat ≤ 0x500) → ¬ (0x800 ≤ a.toNat ∧ a.toNat ≤ 0xA00) →
    ¬ (0xC00 ≤ a.toNat ∧ a.toNat ≤ 0xE00) → ¬ (0x1000 ≤ a.toNat ∧ a.toNat ≤ 0x2008 ∧ a.toNat % 16 ≤ 8) →
    s.hostRead a = 0#32 ∧ hostWrite a d s = .next s) ∧
  (∀ (s : State) (d : Word), s.open? = true →
    s.hostRead 2#16 = s.root.setWidth 32 ∧ s.hostRead 3#16 = s.nnodes.setWidth 32 ∧
    hostWrite 2#16 d s = .next s ∧ hostWrite 3#16 d s = .next s) ∧
  (∀ s : State, s.hostRead 0#16 = 0#32)

/-- R73, R42: in BUSY and FAILED a write to the FREQ window is ignored, and ROOT, NNODES and the windows read the free value of
log entry 6, but for FREQ[256]. -/
def Obligations.BusyAndFailedAccess : Prop :=
  ∀ (s : State), s.phase = .busy ∨ s.phase = .failed →
    (∀ (n : Nat) (d : Word), n ≤ 256 → hostWrite (BitVec.ofNat 16 (0x400 + n)) d s = .next s) ∧
    s.hostRead 1#16 = s.statusWord ∧
    s.hostRead 2#16 = Config.unspecified s.draws ∧ s.hostRead 3#16 = Config.unspecified s.draws ∧
    (∀ n : Nat, n < 256 → s.hostRead (BitVec.ofNat 16 (0x400 + n)) = Config.unspecified s.draws) ∧
    (∀ n : Nat, n < 513 → s.hostRead (BitVec.ofNat 16 (0x800 + n)) = Config.unspecified s.draws ∧
      s.hostRead (BitVec.ofNat 16 (0xC00 + n)) = Config.unspecified s.draws) ∧
    (∀ n k : Nat, n ≤ 256 → k ≤ 8 → s.hostRead (BitVec.ofNat 16 (0x1000 + 16 * n + k)) = Config.unspecified s.draws)

/-- R51: a host read changes nothing of the machine and hands the host the word; a host write to any register but CMD changes
nothing but FREQ. -/
def Obligations.HostAccessEffects : Prop :=
  (∀ (s : State) (a : RegNum),
    hostAct (.read a) s = .next { s with rdata := s.hostRead a, draws := s.draws + 1 }) ∧
  (∀ (s : State) (a : RegNum) (d : Word), a ≠ 0#16 →
    ∃ t, hostAct (.write a d) s = .next t ∧ t = { s with freq := t.freq })

/-! ### The channels -/

/-- R63 and R64: the reference IN channel. -/
def Obligations.InReferenceChannel : Prop :=
  (∀ (c : InChan) (n : Nat), c.script = [] → c.pos + n ≤ c.data.length →
    c.read n = (.value (valOf n ((c.data.drop c.pos).take n)), { c with pos := c.pos + n })) ∧
  (∀ (c : InChan) (n : Nat), c.script = [] → c.data.length < c.pos + n →
    c.read n = (.eod, { c with pos := c.data.length }) ∧
    ∀ m : Nat, 0 < m → InChan.read { c with pos := c.data.length } m = (.eod, { c with pos := c.data.length })) ∧
  (∀ c : InChan, c.script = [] → c.replay = c.data →
    (c.rewound = false → c.rewind = (.ok, { c with pos := 0, rewound := true })) ∧
    (c.rewound = true → c.rewind = (.err, c))) ∧
  (∀ (data replay : Bits) (script : List InAnswer), (InChan.bind data replay script).rewound = false ∧
    (InChan.bind data replay script).pos = 0)

/-- R66 and R61: the reference OUT channel's write appends the bits of the field, the most significant first; a field read back
is the field written. -/
def Obligations.OutWriteMsbFirst : Prop :=
  (∀ (c : OutChan) (n : Nat) (v : BitVec n), c.script = [] →
    (c.closed = false → c.write v = (.ok, { c with data := c.data ++ bitsOf v })) ∧
    (c.closed = true → c.write v = (.err, c))) ∧
  (∀ (n : Nat) (v : BitVec n), (bitsOf v).length = n ∧ valOf n (bitsOf v) = v ∧
    ∀ k : Nat, k < n → (bitsOf v)[k]? = some (v.getLsbD (n - 1 - k)))

/-- R67: the reference OUT channel's flush. -/
def Obligations.OutFlushPads : Prop :=
  ∀ c : OutChan, c.script = [] →
    (c.closed = true → c.flush = (.err, c)) ∧
    (c.closed = false → ∃ p : Bits, c.flush = (.ok, { c with data := c.data ++ p, closed := true }) ∧
      p.length = (8 - c.data.length % 8) % 8 ∧ (c.data.length + p.length) % 8 = 0 ∧
      (c.pad = 0#7 → p = List.replicate ((8 - c.data.length % 8) % 8) false)) ∧
    ∀ (bs : List Byte), c.data = bitsOfBytes bs → c.bytes = bs

/-- R10, R221, R242: a read, a rewind, a write or a flush that answers err fails the command with CHANNEL, and an unbound channel
answers err to each of them; with IN unbound every command that reads IN fails so at its first read; with OUT unbound WRMAGIC,
FLUSH and WRHDR, EMIT and ENCODE where the code has a bit to write, and DECODE fail so at their first transaction on OUT. -/
def Obligations.ChannelErrIsFault : Prop :=
  (∀ (s : State) (c : InChan) (p : Nat) (spends : Bool) (as : List InAnswer), s.inp = some c →
    c.script = .error p spends :: as →
    (∀ (n : Nat) (k : Option (BitVec n) → State → Result),
      ∃ c', s.readIn n k = .next (State.fail { s with inp := some c' } .channel)) ∧
    (∀ k : State → Result, ∃ c', s.rewindIn k = .next (State.fail { s with inp := some c' } .channel))) ∧
  (∀ (s : State) (c : OutChan) (p : Nat) (cl : Bool) (as : List OutAnswer), s.out = some c →
    c.script = .error p cl :: as →
    (∀ (n : Nat) (v : BitVec n) (k : State → Result),
      ∃ c', s.writeOut v k = .next (State.fail { s with out := some c' } .channel)) ∧
    (∀ k : State → Result, ∃ c', s.flushOut k = .next (State.fail { s with out := some c' } .channel))) ∧
  (∀ s : State, s.inp = none →
    (∀ (n : Nat) (k : Option (BitVec n) → State → Result), s.readIn n k = .next (s.fail .channel)) ∧
    (∀ k : State → Result, s.rewindIn k = .next (s.fail .channel))) ∧
  (∀ s : State, s.out = none →
    (∀ (n : Nat) (v : BitVec n) (k : State → Result), s.writeOut v k = .next (s.fail .channel)) ∧
    (∀ k : State → Result, s.flushOut k = .next (s.fail .channel))) ∧
  (∀ s : State, ready s → s.inp = none →
    exec .count s = .next (s.clearFreq.fail .channel) ∧ exec .rdmagic s = .next (s.fail .channel) ∧
    exec .rdhdr s = .next (s.clearTree.fail .channel) ∧
    (s.cv = true → exec .encode s = .next (s.fail .channel)) ∧
    (s.tv = true → exec .decode s = .next (State.fail { s with cur := s.root } .channel)) ∧
    exec .compress s = .next (s.clearFreq.fail .channel) ∧ exec .decompress s = .next (s.fail .channel)) ∧
  (∀ s : State, ready s → s.out = none →
    exec .wrmagic s = .next (s.fail .channel) ∧ exec .flush s = .next (s.fail .channel) ∧
    (∀ x, s.tv = true → s.nodeAt? s.root = some x → exec .wrhdr s = .next (s.fail .channel)) ∧
    (∀ sym : Sym, s.cv = true → sym.toNat ≤ 256 → (s.codeOf sym).valid = true → 0 < (s.codeOf sym).len.toNat →
      exec (.emit sym) s = .next (s.fail .channel)) ∧
    (∀ (c : InChan) (v : Byte) (rest : Bits), s.cv = true → inHas s c (bitsOf v ++ rest) →
      s.refusesByte v = false → (s.codeOf (v.setWidth 9)).valid = true → 0 < (s.codeOf (v.setWidth 9)).len.toNat →
      exec .encode s = .next (State.fail { s with inp := some (advance c 8) } .channel)) ∧
    (∀ (c : InChan) (bits : Bits), s.cv = true → inHas s c bits → bits.length < 8 → (s.codeOf endSym).valid = true →
      exec .encode s = .next (State.fail { s with inp := some { c with pos := c.data.length } } .channel)) ∧
    (∀ (c : InChan) (t : Tree) (p rest : Bits) (sym : Sym), s.tv = true → holdsRoot s t → t.shape.branches = true →
      inHas s c (p ++ rest) → t.shape.leads p sym → sym.toNat ≤ 256 →
      ∃ cur, exec .decode s = .next (State.fail { s with inp := some (advance c p.length), cur := cur } .channel)))

/-! ### COUNT -/

/-- R113, R114, R117: COUNT leaves in FREQ[0..255] how often each byte value occurs among the whole bytes IN had, IN rewound, and
everything else as it was; for an empty IN too. -/
def Obligations.CountCounts : Prop :=
  ∀ (s : State) (c : InChan) (bits : Bits), ready s → inHas s c bits → c.rewound = false → bits.length < 2 ^ 32 →
    exec .count s = .next
      { finished s (some { c with data := c.replay, pos := 0, rewound := true }) s.out with
        freq := countTable (bytesOf bits) }

/-- R115, R217: COUNT's faults. The second rewind of a bound stream answers err, after the counting; a count that would pass
2^32 - 1 is not written. -/
def Obligations.CountFaults : Prop :=
  (∀ (s : State) (c : InChan) (bits : Bits), ready s → inHas s c bits → c.rewound = true → bits.length < 2 ^ 32 →
    exec .count s = .next (State.fail { s with inp := some { c with pos := c.data.length },
                                               freq := countTable (bytesOf bits) } .channel)) ∧
  (∀ (s : State) (c : InChan) (v : Byte) (rest : Bits) (ts : List Task), s.phase = .busy → s.quiet = true →
    s.todo = .countByte :: ts → inHas s c (bitsOf v ++ rest) → s.freqOf (v.setWidth 9) = 0xFFFFFFFF#32 →
    engineStep s = .next (State.fail { s with inp := some (advance c 8) } .weightOverflow))

/-! ### BUILD -/

/-- R126, R127, R29, R131: if the counts' sum fits in 32 bits, BUILD ends in DONE with TV set and CV cleared, 2L - 1 nodes, the
last one the root, the L leaves first in ascending symbol order with their counts, and nothing else written. -/
def Obligations.BuildCompletes : Prop :=
  ∀ s : State, ready s → freqSum s ≤ maxWeight →
    ∃ t, exec .build s = .next t ∧
      t = { s.complete with tv := true, cv := false, node := t.node, nnodes := t.nnodes, root := t.root } ∧
      2 ≤ (leafSymbols s).length ∧ (leafSymbols s).length ≤ 257 ∧
      t.nnodes.toNat = 2 * (leafSymbols s).length - 1 ∧ t.root.toNat = 2 * (leafSymbols s).length - 2 ∧
      arenaTail t ∧
      ∀ (k : Nat) (sym : Sym), (leafSymbols s)[k]? = some sym → t.node[k]? = some (Node.mkLeaf sym (s.freqOf sym))

/-- R133: what BUILD guarantees when it ends without a fault: the six items of R37, the number of nodes and the root, the leaves in
ascending symbol order, the root's weight, and that the arena is a function of FREQ alone. -/
def Obligations.BuildGuarantees : Prop :=
  (∀ s t : State, ready s → exec .build s = .next t → t.phase = .done →
    treeInv t ∧ builtInv t ∧ (t.weightOf t.root).toNat = freqSum s ∧
    t.nnodes.toNat = 2 * (leafSymbols s).length - 1 ∧ t.root.toNat = 2 * (leafSymbols s).length - 2 ∧
    ∀ (k : Nat) (sym : Sym), (leafSymbols s)[k]? = some sym → t.node[k]? = some (Node.mkLeaf sym (s.freqOf sym))) ∧
  (∀ s s' t t' : State, ready s → ready s' → s.freq = s'.freq → exec .build s = .next t → exec .build s' = .next t' →
    t.phase = .done → t'.phase = .done ∧ t.node = t'.node ∧ t.nnodes = t'.nnodes ∧ t.root = t'.root)

/-- R130, R217: if the counts' sum does not fit in 32 bits, BUILD fails with WEIGHT_OVERFLOW, and FREQ, the code table and the
channels are as they were. -/
def Obligations.BuildOverflows : Prop :=
  ∀ s : State, ready s → maxWeight < freqSum s →
    ∃ t, exec .build s = .next t ∧
      t = { s.fail .weightOverflow with node := t.node, nnodes := t.nnodes, root := t.root }

/-- R132, R33: removeMin takes out the entry that precedes every other by (weight, index), weights unsigned, and only it. -/
def Obligations.RemoveMinLeast : Prop :=
  (∀ s : State, s.pq ≠ [] → ∃ m t, s.removeMin = some (m, t)) ∧
  ∀ (s t : State) (m : Idx), s.removeMin = some (m, t) →
    m ∈ s.pq ∧ t = { s with pq := s.pq.erase m } ∧
    ∀ i ∈ s.pq, i ≠ m →
      (s.weightOf m).toNat < (s.weightOf i).toNat ∨
      ((s.weightOf m).toNat = (s.weightOf i).toNat ∧ m.toNat < i.toNat)

/-- R129, R130: one merge step: the first removed is the left child, the second the right one, the weight is the exact sum; a sum
above 2^32 - 1 fails before the node is written. -/
def Obligations.MergeStep : Prop :=
  ∀ (s s1 s2 : State) (a b : Idx) (ts : List Task), s.phase = .busy → s.quiet = true → s.todo = .merge :: ts →
    1 < s.pq.length → s.removeMin = some (a, s1) → s1.removeMin = some (b, s2) →
    ((s.weightOf a).toNat + (s.weightOf b).toNat ≤ maxWeight → engineStep s = .next
      { s with node := s.node.setIfInBounds s.nnodes.toNat
                 (Node.mkInternal (BitVec.ofNat 32 ((s.weightOf a).toNat + (s.weightOf b).toNat)) a b),
               nnodes := s.nnodes + 1#10, pq := s.nnodes :: s2.pq }) ∧
    (maxWeight < (s.weightOf a).toNat + (s.weightOf b).toNat → engineStep s = .next (s.fail .weightOverflow))

/-- R128: with every literal count zero BUILD makes the tree of the placeholder and END, and DERIVE then gives the placeholder
the code 0 and END the code 1. -/
def Obligations.PlaceholderTree : Prop :=
  ∀ s : State, ready s → (∀ sym : Sym, sym.toNat < 256 → s.freqOf sym = 0#32) →
    ∃ t u, exec .build s = .next t ∧ exec .derive t = .next u ∧ u.phase = .done ∧
      t = { s.complete with tv := true, cv := false, node := t.node, nnodes := 3#10, root := 2#10 } ∧
      holds t (.node 1#32 (.leaf 0#9 0#32) (.leaf endSym 1#32)) 2#10 [2#10, 0#10, 1#10] ∧
      (u.codeOf 0#9).toBits = [false] ∧ (u.codeOf endSym).toBits = [true]

/-! ### The magic and the tree header -/

/-- R141, R91: WRMAGIC writes the 32 bits of MAGIC, most significant first, and nothing else; a closed OUT fails it. -/
def Obligations.WritesMagic : Prop :=
  (∀ (s : State) (c : OutChan), ready s → outOpen s c →
    exec .wrmagic s = .next (finished s s.inp (some (append c (bitsOf s.params.magic))))) ∧
  (∀ (s : State) (c : OutChan), ready s → s.out = some c → c.script = [] → c.closed = true →
    exec .wrmagic s = .next (s.fail .channel))

/-- R143, R92, R94: WRHDR writes the header of the tree at ROOT, 11L - 1 bits, and nothing else. -/
def Obligations.WritesHeader : Prop :=
  (∀ (s : State) (c : OutChan) (t : Tree), ready s → s.tv = true → outOpen s c → holdsRoot s t →
    t.shape.leaves ≤ 257 → (∀ sym ∈ t.shape.symbols, sym.toNat ≤ 256) →
    exec .wrhdr s = .next (finished s s.inp (some (append c t.shape.header)))) ∧
  (∀ t : Shape, t.header.length = 11 * t.leaves - 1)

/-- R145 and R146: RDMAGIC takes 32 bits and compares them all; another value, and fewer than 32 bits, fail it. -/
def Obligations.ChecksMagic : Prop :=
  (∀ (s : State) (c : InChan) (m : Word) (rest : Bits), ready s → inHas s c (bitsOf m ++ rest) →
    (m = s.params.magic → exec .rdmagic s = .next (finished s (some (advance c 32)) s.out)) ∧
    (m ≠ s.params.magic →
      exec .rdmagic s = .next (State.fail { s with inp := some (advance c 32) } .malformedHeader))) ∧
  (∀ (s : State) (c : InChan) (bits : Bits), ready s → inHas s c bits → bits.length < 32 →
    exec .rdmagic s =
      .next (State.fail { s with inp := some { c with pos := c.data.length } } .malformedHeader))

/-- R147, R151, R30: RDHDR reads the header of every tree of 2 to 257 leaves, whatever symbols 0 to 256 they hold, and leaves that
tree at ROOT = 0 with all weights 0, its nodes numbered 0 to 2L - 2 in the pre-order of the header; it reads no further bit and
writes nothing but the arena, the flags and IN. -/
def Obligations.ReadsHeader : Prop :=
  ∀ (s : State) (c : InChan) (t : Shape) (rest : Bits), ready s → inHas s c (t.header ++ rest) →
    t.branches = true → t.leaves ≤ 257 → (∀ sym ∈ t.symbols, sym.toNat ≤ 256) →
    ∃ u, exec .rdhdr s = .next u ∧
      u = { finished s (some (advance c t.header.length)) s.out with
            tv := true, cv := false, node := u.node, nnodes := u.nnodes, root := 0#10 } ∧
      u.nnodes.toNat = 2 * t.leaves - 1 ∧
      holds u t.bare 0#10 ((List.range (2 * t.leaves - 1)).map (BitVec.ofNat 10)) ∧ treeInv u ∧ arenaTail u

/-- R152: WRHDR and RDHDR are inverses in shape and leaf values. -/
def Obligations.HeaderRoundTrip : Prop :=
  (∀ (s : State) (c : OutChan), ready s → s.tv = true → treeInv s → outOpen s c →
    ∃ t h, exec .wrhdr s = .next t ∧ t.out = some (append c h) ∧
      ∀ (u : State) (d : InChan) (rest : Bits), ready u → inHas u d (h ++ rest) →
        ∃ v x y, exec .rdhdr u = .next v ∧ v.phase = .done ∧ v.inp = some (advance d h.length) ∧
          holdsRoot s x ∧ holdsRoot v y ∧ y.shape = x.shape) ∧
  (∀ (u v : State) (d : InChan) (bits : Bits) (c : OutChan), ready u → inHas u d bits → exec .rdhdr u = .next v →
    v.phase = .done → outOpen v c →
    ∃ h rest t, bits = h ++ rest ∧ v.inp = some (advance d h.length) ∧ exec .wrhdr v = .next t ∧
      t.out = some (append c h))

/-- R148 to R150, R153: RDHDR's faults and how far IN has moved. A header of one leaf record, a symbol above 256, a header that
ends early, and the tag of a 514th record. -/
def Obligations.HeaderFaults : Prop :=
  (∀ (s : State) (c : InChan) (sym : Sym) (rest : Bits), ready s → inHas s c (true :: bitsOf sym ++ rest) →
    ∃ t, exec .rdhdr s = .next t ∧ t.phase = .failed ∧ t.tv = false ∧ t.inp = some (advance c 10) ∧
      t.err = if sym.toNat ≤ 256 then .degenerateTree else .badSymbol) ∧
  (∀ (s : State) (c : InChan) (t : Shape) (bits more : Bits), ready s → inHas s c bits → t.header = bits ++ more →
    more ≠ [] → t.leaves ≤ 257 → (∀ sym ∈ t.symbols, sym.toNat ≤ 256) →
    ∃ u, exec .rdhdr s = .next u ∧ u.phase = .failed ∧ u.err = .truncatedStream ∧
      u.inp = some { c with pos := c.data.length }) ∧
  (∀ (s : State) (c : InChan) (b : Bool) (rest : Bits) (ts : List Task), s.phase = .busy → s.quiet = true →
    s.todo = .readTag :: ts → inHas s c (b :: rest) → 513 ≤ s.nnodes.toNat →
    engineStep s = .next (State.fail { s with inp := some (advance c 1) } .treeOverflow))

/-- R37, R151, R210: whatever bits IN holds, RDHDR ends: in DONE with a tree that has items 1 to 5 of R37, or in FAILED with one of
its four codes; OUT is not touched. -/
def Obligations.ReadHeaderIsSound : Prop :=
  ∀ (s : State) (c : InChan) (bits : Bits), ready s → inHas s c bits →
    ∃ t, exec .rdhdr s = .next t ∧ t.out = s.out ∧ t.freq = s.freq ∧ t.code = s.code ∧
      ((t.phase = .done ∧ t.tv = true ∧ t.cv = false ∧ treeInv t ∧ arenaTail t) ∨
       (t.phase = .failed ∧ (t.err = .truncatedStream ∨ t.err = .treeOverflow ∨ t.err = .badSymbol ∨
          t.err = .degenerateTree)))

/-! ### DERIVE -/

/-- R161 to R164: DERIVE fills the code table with the path of the last visited leaf of each symbol and clears every other entry;
nothing else is written but CV. -/
def Obligations.DerivesCodes : Prop :=
  ∀ (s : State) (t : Tree), ready s → s.tv = true → holdsRoot s t → t.shape.leaves ≤ 257 →
    (∀ sym ∈ t.shape.symbols, sym.toNat ≤ 256) →
    exec .derive s = .next { s.complete with cv := true, code := t.shape.codeTable }

/-- R203, R38, R165: in every derived code table no code begins another, a symbol has a code exactly if a leaf holds it, the code
leads to that leaf, and every code of a branching tree has 1 to 256 bits. -/
def Obligations.CodesArePrefixFree : Prop :=
  ∀ (s u : State) (t : Tree), ready s → s.tv = true → holdsRoot s t → t.shape.leaves ≤ 257 →
    (∀ sym ∈ t.shape.symbols, sym.toNat ≤ 256) → exec .derive s = .next u →
    (∀ a b : Sym, a ≠ b → (u.codeOf a).valid = true → (u.codeOf b).valid = true →
      ¬ begins (u.codeOf a).toBits (u.codeOf b).toBits) ∧
    (∀ a : Sym, (u.codeOf a).valid = true ↔ a ∈ t.shape.symbols) ∧
    (∀ a : Sym, (u.codeOf a).valid = true → t.shape.leads (u.codeOf a).toBits a) ∧
    (t.shape.branches = true → ∀ a : Sym, (u.codeOf a).valid = true →
      1 ≤ (u.codeOf a).len.toNat ∧ (u.codeOf a).len.toNat ≤ 256)

/-! ### EMIT, ENCODE, FLUSH -/

/-- R171 to R173: EMIT writes the bits of the symbol's code, first bit first, and nothing else; without a code it fails before any
bit is written. -/
def Obligations.EmitWritesCode : Prop :=
  ∀ (s : State) (sym : Sym) (c : OutChan), ready s → s.cv = true → sym.toNat ≤ 256 → outOpen s c →
    ((s.codeOf sym).valid = true →
      exec (.emit sym) s = .next (finished s s.inp (some (append c (s.codeOf sym).toBits)))) ∧
    ((s.codeOf sym).valid = false → exec (.emit sym) s = .next (s.fail .noCode))

/-- R174, R95, R96: ENCODE writes the codes of IN's whole bytes in order, then END's code once, then flushes; no table is written.
In a block that goes by R246 no byte may be the placeholder's; in one that goes by R174 and R172 any may (the model's choice to
carry both, log entry 29). -/
def Obligations.EncodeWritesBody : Prop :=
  ∀ (s : State) (c : InChan) (d : OutChan) (bits : Bits), ready s → s.cv = true → inHas s c bits → outOpen s d →
    (∀ sym, codeEntryOk (s.codeOf sym)) →
    (∀ v ∈ bytesOf bits, (s.codeOf (v.setWidth 9)).valid = true) → (s.codeOf endSym).valid = true →
    (s.params.zeroCountFails = false ∨ ∀ v ∈ bytesOf bits, s.isPlaceholder (v.setWidth 9) = false) →
    exec .encode s = .next (finished s (some { c with pos := c.data.length })
      (some (flushed (append d ((bytesOf bits).flatMap (fun v => (s.codeOf (v.setWidth 9)).toBits) ++
        (s.codeOf endSym).toBits)))))

/-- R173, R176, R246: ENCODE at a byte without a code, and at the end when END has none: NO_CODE, the earlier codes written, OUT not
flushed. In a block that goes by R246 (the model's choice to carry both readings, log entry 29) so it does at the placeholder's
byte. -/
def Obligations.EncodeWithoutCode : Prop :=
  ∀ (s : State) (c : InChan) (d : OutChan) (good : List Byte), ready s → s.cv = true → outOpen s d →
    (∀ sym, codeEntryOk (s.codeOf sym)) →
    (∀ v ∈ good, (s.codeOf (v.setWidth 9)).valid = true ∧ s.refusesByte v = false) →
    (∀ (bad : Byte) (rest : Bits), inHas s c (bitsOfBytes good ++ bitsOf bad ++ rest) →
      (s.codeOf (bad.setWidth 9)).valid = false ∨
        (s.params.zeroCountFails = true ∧ s.isPlaceholder (bad.setWidth 9) = true) →
      exec .encode s = .next (State.fail { s with
        inp := some (advance c (8 * good.length + 8)),
        out := some (append d (good.flatMap fun v => (s.codeOf (v.setWidth 9)).toBits)) } .noCode)) ∧
    (inHas s c (bitsOfBytes good) → (s.codeOf endSym).valid = false →
      exec .encode s = .next (State.fail { s with
        inp := some { c with pos := c.data.length },
        out := some (append d (good.flatMap fun v => (s.codeOf (v.setWidth 9)).toBits)) } .noCode))

/-- R177: FLUSH pads and closes OUT and writes nothing else; on a closed OUT it fails. -/
def Obligations.FlushCloses : Prop :=
  (∀ (s : State) (c : OutChan), ready s → outOpen s c →
    exec .flush s = .next (finished s s.inp (some { c with data := c.data ++ c.padding, closed := true }))) ∧
  (∀ (s : State) (c : OutChan), ready s → s.out = some c → c.script = [] → c.closed = true →
    exec .flush s = .next (s.fail .channel))

/-! ### DECODE -/

/-- R186, R187, R189: DECODE of the codes of some bytes followed by END's code writes those bytes, takes exactly those bits of IN
whatever follows them, flushes OUT, and writes nothing else but CUR. -/
def Obligations.DecodeReturnsBytes : Prop :=
  ∀ (s : State) (c : InChan) (d : OutChan) (t : Tree) (bs : List Byte) (body last rest : Bits), ready s → s.tv = true →
    holdsRoot s t → t.shape.branches = true → inHas s c (body ++ last ++ rest) → outOpen s d →
    t.shape.spells (bs.map fun b => b.setWidth 9) body → t.shape.leads last endSym →
    ∃ cur, exec .decode s = .next
      { finished s (some (advance c (body.length + last.length))) (some (flushed (append d (bitsOfBytes bs)))) with
        cur := cur }

/-- R188: DECODE of a body that ends before END, between two codes or inside one: TRUNCATED_STREAM, the bytes so far written, OUT
not flushed. -/
def Obligations.DecodeTruncated : Prop :=
  ∀ (s : State) (c : InChan) (d : OutChan) (t : Tree) (bs : List Byte) (body part more : Bits) (sym : Sym), ready s →
    s.tv = true → holdsRoot s t → t.shape.branches = true → inHas s c (body ++ part) → outOpen s d →
    t.shape.spells (bs.map fun b => b.setWidth 9) body → t.shape.leads (part ++ more) sym → more ≠ [] →
    ∃ cur, exec .decode s = .next (State.fail { s with
      inp := some { c with pos := c.data.length }, out := some (append d (bitsOfBytes bs)), cur := cur }
      .truncatedStream)

/-! ### COMPRESS and DECOMPRESS -/

/-- R206, R196, R199: the six commands one after another leave the state that COMPRESS leaves, and the three that DECOMPRESS
leaves, also when the last of them fails. -/
def Obligations.CodecStepsAgree : Prop :=
  (∀ s s1 s2 s3 s4 s5 t : State, ready s →
    exec .count s = .next s1 → s1.phase = .done → exec .build s1 = .next s2 → s2.phase = .done →
    exec .derive s2 = .next s3 → s3.phase = .done → exec .wrmagic s3 = .next s4 → s4.phase = .done →
    exec .wrhdr s4 = .next s5 → s5.phase = .done → exec .encode s5 = .next t → t.phase ≠ .busy →
    exec .compress s = .next t) ∧
  (∀ s s1 s2 t : State, ready s →
    exec .rdmagic s = .next s1 → s1.phase = .done → exec .rdhdr s1 = .next s2 → s2.phase = .done →
    exec .decode s2 = .next t → t.phase ≠ .busy → exec .decompress s = .next t)

/-- R196, R90 to R96: COMPRESS of a byte sequence ends in DONE with TV and CV set, FREQ, the arena and the code table written and IN
read twice, and OUT has received the magic, the header of the tree, the codes of the bytes and the code of END, then the
padding. -/
def Obligations.CompressWritesFormat : Prop :=
  ∀ (s : State) (d : OutChan) (bs : List Byte), ready s → s.inp = some (InChan.reference (bitsOfBytes bs)) →
    outOpen s d → bs.length < 2 ^ 32 - 1 →
    ∃ (t : State) (x : Tree) (body last : Bits), exec .compress s = .next t ∧
      t = { finished s
              (some { InChan.reference (bitsOfBytes bs) with pos := 8 * bs.length, rewound := true })
              (some (flushed (append d (bitsOf s.params.magic ++ x.shape.header ++ body ++ last)))) with
            tv := true, cv := true, freq := countTable bs, code := x.shape.codeTable, node := t.node,
            nnodes := t.nnodes, root := t.root } ∧
      holdsRoot t x ∧ treeInv t ∧ x.shape.spells (bs.map fun b => b.setWidth 9) body ∧ x.shape.leads last endSym

/-- R199, R90: DECOMPRESS of a stream in that format ends in DONE with TV set and CV cleared, has taken exactly the engine-written
bits of IN, and OUT has received the bytes. -/
def Obligations.DecompressReadsFormat : Prop :=
  ∀ (s : State) (c : InChan) (d : OutChan) (t : Shape) (bs : List Byte) (body last rest : Bits), ready s →
    inHas s c (bitsOf s.params.magic ++ t.header ++ body ++ last ++ rest) → outOpen s d → t.branches = true →
    t.leaves ≤ 257 → (∀ sym ∈ t.symbols, sym.toNat ≤ 256) → t.spells (bs.map fun b => b.setWidth 9) body →
    t.leads last endSym →
    ∃ u, exec .decompress s = .next u ∧ treeInv u ∧
      u = { finished s (some (advance c (32 + t.header.length + body.length + last.length)))
              (some (flushed (append d (bitsOfBytes bs)))) with
            tv := true, cv := false, node := u.node, nnodes := u.nnodes, root := 0#10, cur := u.cur }

/-- R201: the round trip, for every byte sequence, every MAGIC and every padding. -/
def Obligations.RoundTrip : Prop :=
  ∀ (s : State) (bs : List Byte) (pad : BitVec 7), ready s → bs.length < 2 ^ 32 - 1 →
    s.inp = some (InChan.reference (bitsOfBytes bs)) → s.out = some (OutChan.bind pad []) →
    ∃ t o, exec .compress s = .next t ∧ t.phase = .done ∧ t.out = some o ∧ o.closed = true ∧
      ∀ (u : State) (pad' : BitVec 7), ready u → u.params = s.params → u.inp = some (InChan.reference o.data) →
        u.out = some (OutChan.bind pad' []) →
        ∃ v o', exec .decompress u = .next v ∧ v.phase = .done ∧ v.out = some o' ∧ o'.closed = true ∧
          o'.data = bitsOfBytes bs

/-- R197, R200, R75: every line of COUNT, BUILD and DERIVE leaves OUT untouched, so COMPRESS writes nothing before its magic; on a
stream whose rewind is used up, and on one whose counts or whose weights do not fit (in COUNT or in BUILD), COMPRESS fails with
OUT untouched; a fault of the magic or the header, and a header that ends early, leave OUT untouched in DECOMPRESS. -/
def Obligations.NoOutputBeforeItsTime : Prop :=
  (∀ (s t : State) (x : Task) (ts : List Task), s.phase = .busy → s.quiet = true → s.todo = x :: ts →
    (x ∈ countProgram ++ buildProgram ++ deriveProgram ∨ ∃ i, x = .walk i) → engineStep s = .next t → t.out = s.out) ∧
  (∀ (s : State) (c : InChan) (bits : Bits), ready s → inHas s c bits → c.rewound = true → bits.length < 2 ^ 32 →
    exec .compress s = .next (State.fail { s with inp := some { c with pos := c.data.length },
                                                  freq := countTable (bytesOf bits) } .channel)) ∧
  (∀ (s : State) (bs : List Byte), ready s → s.inp = some (InChan.reference (bitsOfBytes bs)) →
    maxWeight ≤ bs.length →
    ∃ t, exec .compress s = .next t ∧ t.phase = .failed ∧ t.err = .weightOverflow ∧ t.out = s.out ∧
      ((∀ v : Byte, bs.count v ≤ maxWeight) →
        t = { s.fail .weightOverflow with
              inp := some { InChan.reference (bitsOfBytes bs) with rewound := true }, freq := countTable bs,
              node := t.node, nnodes := t.nnodes, root := t.root })) ∧
  (∀ s t : State, ready s → s.err = .none → exec .decompress s = .next t →
    (t.err = .malformedHeader ∨ t.err = .badSymbol ∨ t.err = .treeOverflow ∨ t.err = .degenerateTree) → t.out = s.out) ∧
  (∀ (s : State) (c : InChan) (t : Shape) (bits more : Bits), ready s → inHas s c (bitsOf s.params.magic ++ bits) →
    t.header = bits ++ more → more ≠ [] → t.leaves ≤ 257 → (∀ sym ∈ t.symbols, sym.toNat ≤ 256) →
    ∃ u, exec .decompress s = .next u ∧
      u = { State.fail { s with inp := some { c with pos := c.data.length } } .truncatedStream with
            node := u.node, nnodes := u.nnodes, root := 0#10 })

/-! ### The stream records as instructions -/

/-- R91, R145: the engine that is reading a magic takes a magic record: the right one lets it go on, any other fails it; an engine
that is not reading one, BUSY with another line or not BUSY, takes none (log entry 12). -/
def Obligations.MagicRecord : Prop :=
  (∀ (s : State) (c : InChan) (m : Word) (rest : Bits) (ts : List Task), s.phase = .busy → s.quiet = true →
    s.todo = .readMagic :: ts → inHas s c (bitsOf m ++ rest) →
    (m = s.params.magic → exec (.streamMagic m) s = .next { s with inp := some (advance c 32), todo := ts }) ∧
    (m ≠ s.params.magic →
      exec (.streamMagic m) s = .next (State.fail { s with inp := some (advance c 32) } .malformedHeader))) ∧
  (∀ (s : State) (m : Word), s.phase ≠ .busy ∨ (∀ ts, s.todo ≠ .readMagic :: ts) → exec (.streamMagic m) s = .next s)

/-- R92, R147 to R149: the engine that is reading a header takes a header record: an internal record opens a node; a leaf record
is a node at index NNODES and closes all the nodes it completes, the innermost first, until it comes to a node whose right
subtree is still to be read or to the whole tree; a symbol above 256 and a 514th record fail it; an engine that is not about to
read a record, BUSY with another line or not BUSY, takes none (log entry 12). -/
def Obligations.HeaderRecords : Prop :=
  (∀ (s : State) (c : InChan) (rest : Bits) (ts : List Task), s.phase = .busy → s.quiet = true →
    s.todo = .readTag :: ts → inHas s c (false :: rest) →
    (s.nnodes.toNat < 513 → exec .hdrInternal s = .next
      { s with inp := some (advance c 1), nnodes := s.nnodes + 1#10, stack := .opened s.nnodes :: s.stack }) ∧
    (513 ≤ s.nnodes.toNat →
      exec .hdrInternal s = .next (State.fail { s with inp := some (advance c 1) } .treeOverflow))) ∧
  (∀ (s : State) (c : InChan) (sym : Sym) (rest : Bits) (ts : List Task), s.phase = .busy → s.quiet = true →
    s.todo = .readTag :: ts → inHas s c (true :: bitsOf sym ++ rest) →
    (513 ≤ s.nnodes.toNat →
      exec (.hdrLeaf sym) s = .next (State.fail { s with inp := some (advance c 1) } .treeOverflow)) ∧
    (s.nnodes.toNat < 513 → 256 < sym.toNat → exec (.hdrLeaf sym) s = .next
      (State.fail { s with inp := some (advance c 10), nnodes := s.nnodes + 1#10 } .badSymbol)) ∧
    (s.nnodes.toNat < 513 → sym.toNat ≤ 256 →
      let s' : State := { s with inp := some (advance c 10), nnodes := s.nnodes + 1#10,
                                 node := s.node.setIfInBounds s.nnodes.toNat (Node.mkLeaf sym 0#32) }
      ∀ (fs : List (Idx × Idx)) (st : List Frame), s.stack = (fs.map fun f => .half f.1 f.2) ++ st →
        let x := closeHalves fs s.nnodes s'
        (st = [] → exec (.hdrLeaf sym) s = .next { x.2 with stack := [], todo := .checkRoot x.1 :: ts }) ∧
        (∀ q st', st = .opened q :: st' →
          exec (.hdrLeaf sym) s = .next { x.2 with stack := .half q x.1 :: st', todo := .readTag :: ts }))) ∧
  (∀ (s : State) (sym : Sym), s.phase ≠ .busy ∨ (∀ ts, s.todo ≠ .readTag :: ts) →
    exec .hdrInternal s = .next s ∧ exec (.hdrLeaf sym) s = .next s)

/-! ### Invariants of every step -/

/-- R24, R222, R23, R33 to R35: every step keeps that ERR is set exactly in FAILED, that FAILED has no tree and no code table, and
that nothing of a command is left outside BUSY. -/
def Obligations.FaultAndHiddenStateKept : Prop :=
  ∀ s t : State, errInv s → hiddenInv s → step s = .next t → errInv t ∧ hiddenInv t

/-- R38, R25: every step keeps that CV stands only beside TV. -/
def Obligations.CodesOnlyWithTreeKept : Prop :=
  ∀ s t : State, codesInv s → step s = .next t → codesInv t

/-- R31, R28, R35: every step keeps the form of the code table's entries and the bounds of PATH and of the pending children. -/
def Obligations.CodeEntriesKept : Prop :=
  ∀ s t : State, codeInv s → step s = .next t → codeInv t

/-- R62, R50, R243: every step keeps IN's position within its data and keeps MAGIC; it only appends to OUT and never opens a closed
OUT, unless it is a due BIND OUT, which leaves the fresh OUT of that binding. -/
def Obligations.ChannelsKept : Prop :=
  (∀ s t : State, positionInv s → step s = .next t → positionInv t) ∧
  (∀ s t : State, step s = .next t → t.params = s.params ∧
    ((s.eventDue = true ∧ ∃ p pad script rest, s.host = ⟨p, .bindOut pad script⟩ :: rest ∧
        t.out = some (OutChan.bind pad script)) ∨
     ∀ c, s.out = some c → ∃ c' p, t.out = some c' ∧ c'.data = c.data ++ p ∧ (c.closed = true → c'.closed = true)))

/-- R37, R28: every instruction that is issued in IDLE or DONE and has ended keeps that a valid tree has items 1 to 5 of R37, and
that in IDLE and DONE the entries from NNODES on are zero. -/
def Obligations.TreeInvariantsKept : Prop :=
  ∀ (i : Instr) (s t : State), ready s → (s.tv = true → treeInv s) → arenaTail s → exec i s = .next t →
    t.phase ≠ .busy → (t.tv = true → treeInv t) ∧ (t.open? = true → arenaTail t)

/-- The state after reset meets the invariants that every step keeps, and so does the state after CLR. -/
def Obligations.ResetMeetsInvariants : Prop :=
  errInv State.reset ∧ hiddenInv State.reset ∧ codesInv State.reset ∧ codeInv State.reset ∧ positionInv State.reset ∧
  State.reset.tv = false ∧ arenaTail State.reset ∧
  ∀ s : State, errInv s.clear ∧ hiddenInv s.clear ∧ codesInv s.clear ∧ codeInv s.clear ∧ s.clear.tv = false ∧
    arenaTail s.clear
end

