-- ==== Sys2Proof/Laws/Bits.lean ====
section
/-!
SUPPORT. Bit sequences and fields: a field's bits read back as the field, bytes packed and cut are the bytes.
-/

namespace Sys2Proof

@[simp] theorem length_bitsOf {n : Nat} (v : BitVec n) : (bitsOf v).length = n := by simp [bitsOf]

theorem getElem_bitsOf {n : Nat} (v : BitVec n) (k : Nat) (h : k < (bitsOf v).length) :
    (bitsOf v)[k] = v.getLsbD (n - 1 - k) := by
  have hk : k < n := by simpa using h
  simp [bitsOf, BitVec.getMsbD, hk]

theorem natOf_append_singleton (p : Bits) (b : Bool) : natOf (p ++ [b]) = 2 * natOf p + b.toNat := by
  simp [natOf]

/-- The first k bits of a field are the field shifted right. -/
theorem natOf_take_bitsOf {n : Nat} (v : BitVec n) (k : Nat) (h : k ≤ n) :
    natOf ((List.range k).map v.getMsbD) = v.toNat / 2 ^ (n - k) := by
  induction k with
  | zero => simp [natOf, Nat.div_eq_of_lt v.isLt]
  | succ k ih =>
    rw [List.range_succ, List.map_append, List.map_singleton, natOf_append_singleton, ih (by omega)]
    have e : n - k = (n - (k + 1)) + 1 := by omega
    rw [e, pow_succ, ← Nat.div_div_eq_div_mul]
    have hb : (v.getMsbD k).toNat = v.toNat / 2 ^ (n - (k + 1)) % 2 := by
      have hk : k < n := by omega
      have e2 : n - 1 - k = n - (k + 1) := by omega
      simp only [BitVec.getMsbD, hk, decide_true, Bool.true_and, BitVec.getLsbD, e2, Nat.testBit_eq_decide_div_mod_eq]
      have := Nat.mod_two_eq_zero_or_one (v.toNat / 2 ^ (n - (k + 1)))
      rcases this with h | h <;> simp [h]
    rw [hb]
    omega

@[simp] theorem natOf_bitsOf {n : Nat} (v : BitVec n) : natOf (bitsOf v) = v.toNat := by
  simpa [bitsOf] using natOf_take_bitsOf v n le_rfl

/-- `val(bits_n(v)) = v` (R9). -/
@[simp] theorem valOf_bitsOf {n : Nat} (v : BitVec n) : valOf n (bitsOf v) = v := by simp [valOf]

theorem natOf_lt (p : Bits) : natOf p < 2 ^ p.length := by
  induction p using List.reverseRecOn with
  | nil => simp [natOf]
  | append_singleton p b ih =>
    rw [natOf_append_singleton, List.length_append, List.length_singleton, pow_succ]
    cases b <;> simp <;> omega

theorem toNat_valOf (p : Bits) : (valOf p.length p).toNat = natOf p := by
  simp [valOf, Nat.mod_eq_of_lt (natOf_lt p)]

theorem natOf_inj : ∀ (p q : Bits), p.length = q.length → natOf p = natOf q → p = q := by
  intro p
  induction p using List.reverseRecOn with
  | nil => intro q h _; exact (List.length_eq_zero_iff.mp h.symm).symm
  | append_singleton p b ih =>
    intro q hl hv
    rcases List.eq_nil_or_concat q with rfl | ⟨q', c, rfl⟩
    · simp at hl
    · simp only [List.concat_eq_append] at hl hv ⊢
      rw [natOf_append_singleton, natOf_append_singleton] at hv
      have hl' : p.length = q'.length := by simpa using hl
      have hbc : b.toNat = c.toNat := by cases b <;> cases c <;> simp at hv ⊢ <;> omega
      have hpq : natOf p = natOf q' := by omega
      rw [ih q' hl' hpq]
      cases b <;> cases c <;> simp_all

/-- The bits of the value of a bit sequence are the sequence (R9). -/
theorem bitsOf_valOf (n : Nat) (p : Bits) (h : p.length = n) : bitsOf (valOf n p) = p := by
  subst h
  apply natOf_inj
  · simp
  · rw [natOf_bitsOf, toNat_valOf]

/-- Eight bits at the front are one byte (R67). -/
theorem bytesOf_append (p rest : Bits) (h : p.length = 8) : bytesOf (p ++ rest) = valOf 8 p :: bytesOf rest := by
  match p, h with
  | [a, b, c, d, e, f, g, i], _ => rfl

theorem bytesOf_short (p : Bits) (h : p.length < 8) : bytesOf p = [] := by
  rcases p with _ | ⟨a, _ | ⟨b, _ | ⟨c, _ | ⟨d, _ | ⟨e, _ | ⟨f, _ | ⟨g, _ | ⟨i, p⟩⟩⟩⟩⟩⟩⟩⟩ <;>
    first | rfl | (simp at h; omega)

/-- A byte sequence survives the packing into a stream and back (R62, R67). -/
theorem bytesOf_bitsOfBytes (bs : List Byte) (p : Bits) (h : p.length < 8) : bytesOf (bitsOfBytes bs ++ p) = bs := by
  induction bs with
  | nil => simpa [bitsOfBytes] using bytesOf_short p h
  | cons b bs ih =>
    have e : bitsOfBytes (b :: bs) ++ p = bitsOf b ++ (bitsOfBytes bs ++ p) := by simp [bitsOfBytes]
    rw [e, bytesOf_append _ _ (by simp), valOf_bitsOf, ih]

@[simp] theorem length_bitsOfBytes (bs : List Byte) : (bitsOfBytes bs).length = 8 * bs.length := by
  induction bs with
  | nil => rfl
  | cons b bs ih =>
    have e : bitsOfBytes (b :: bs) = bitsOf b ++ bitsOfBytes bs := by simp [bitsOfBytes]
    rw [e]; simp [ih]; omega

end Sys2Proof
end

