-- ==== Sys2Proof/Laws/State.lean ====
section
/-!
SUPPORT. One lemma per field of State and named update: what the field is after the update. All are true by rfl.
-/

namespace Sys2Proof.Machine

open Sys2Proof

/-! ### `State.fail` -/

@[simp] theorem State.fail_params (s : State) (e : ErrCode) : (s.fail e).params = s.params := rfl
@[simp] theorem State.fail_phase (s : State) (e : ErrCode) : (s.fail e).phase = .failed := rfl
@[simp] theorem State.fail_err (s : State) (e : ErrCode) : (s.fail e).err = e := rfl
@[simp] theorem State.fail_tv (s : State) (e : ErrCode) : (s.fail e).tv = false := rfl
@[simp] theorem State.fail_cv (s : State) (e : ErrCode) : (s.fail e).cv = false := rfl
@[simp] theorem State.fail_ovr (s : State) (e : ErrCode) : (s.fail e).ovr = s.ovr := rfl
@[simp] theorem State.fail_cmd (s : State) (e : ErrCode) : (s.fail e).cmd = 0#16 := rfl
@[simp] theorem State.fail_freq (s : State) (e : ErrCode) : (s.fail e).freq = s.freq := rfl
@[simp] theorem State.fail_node (s : State) (e : ErrCode) : (s.fail e).node = s.node := rfl
@[simp] theorem State.fail_nnodes (s : State) (e : ErrCode) : (s.fail e).nnodes = s.nnodes := rfl
@[simp] theorem State.fail_root (s : State) (e : ErrCode) : (s.fail e).root = s.root := rfl
@[simp] theorem State.fail_code (s : State) (e : ErrCode) : (s.fail e).code = s.code := rfl
@[simp] theorem State.fail_cur (s : State) (e : ErrCode) : (s.fail e).cur = s.cur := rfl
@[simp] theorem State.fail_pq (s : State) (e : ErrCode) : (s.fail e).pq = [] := rfl
@[simp] theorem State.fail_stack (s : State) (e : ErrCode) : (s.fail e).stack = [] := rfl
@[simp] theorem State.fail_path (s : State) (e : ErrCode) : (s.fail e).path = [] := rfl
@[simp] theorem State.fail_todo (s : State) (e : ErrCode) : (s.fail e).todo = [] := rfl
@[simp] theorem State.fail_inp (s : State) (e : ErrCode) : (s.fail e).inp = s.inp := rfl
@[simp] theorem State.fail_out (s : State) (e : ErrCode) : (s.fail e).out = s.out := rfl
@[simp] theorem State.fail_host (s : State) (e : ErrCode) : (s.fail e).host = s.host := rfl
@[simp] theorem State.fail_rdata (s : State) (e : ErrCode) : (s.fail e).rdata = s.rdata := rfl
@[simp] theorem State.fail_draws (s : State) (e : ErrCode) : (s.fail e).draws = s.draws := rfl

/-! ### `State.accept` -/

@[simp] theorem State.accept_params (s : State) (w : CmdWord) : (s.accept w).params = s.params := rfl
@[simp] theorem State.accept_phase (s : State) (w : CmdWord) : (s.accept w).phase = .busy := rfl
@[simp] theorem State.accept_err (s : State) (w : CmdWord) : (s.accept w).err = s.err := rfl
@[simp] theorem State.accept_tv (s : State) (w : CmdWord) : (s.accept w).tv = s.tv := rfl
@[simp] theorem State.accept_cv (s : State) (w : CmdWord) : (s.accept w).cv = s.cv := rfl
@[simp] theorem State.accept_ovr (s : State) (w : CmdWord) : (s.accept w).ovr = s.ovr := rfl
@[simp] theorem State.accept_cmd (s : State) (w : CmdWord) : (s.accept w).cmd = w := rfl
@[simp] theorem State.accept_freq (s : State) (w : CmdWord) : (s.accept w).freq = s.freq := rfl
@[simp] theorem State.accept_node (s : State) (w : CmdWord) : (s.accept w).node = s.node := rfl
@[simp] theorem State.accept_nnodes (s : State) (w : CmdWord) : (s.accept w).nnodes = s.nnodes := rfl
@[simp] theorem State.accept_root (s : State) (w : CmdWord) : (s.accept w).root = s.root := rfl
@[simp] theorem State.accept_code (s : State) (w : CmdWord) : (s.accept w).code = s.code := rfl
@[simp] theorem State.accept_cur (s : State) (w : CmdWord) : (s.accept w).cur = s.cur := rfl
@[simp] theorem State.accept_pq (s : State) (w : CmdWord) : (s.accept w).pq = s.pq := rfl
@[simp] theorem State.accept_stack (s : State) (w : CmdWord) : (s.accept w).stack = s.stack := rfl
@[simp] theorem State.accept_path (s : State) (w : CmdWord) : (s.accept w).path = s.path := rfl
@[simp] theorem State.accept_todo (s : State) (w : CmdWord) : (s.accept w).todo = [] := rfl
@[simp] theorem State.accept_inp (s : State) (w : CmdWord) : (s.accept w).inp = s.inp := rfl
@[simp] theorem State.accept_out (s : State) (w : CmdWord) : (s.accept w).out = s.out := rfl
@[simp] theorem State.accept_host (s : State) (w : CmdWord) : (s.accept w).host = s.host := rfl
@[simp] theorem State.accept_rdata (s : State) (w : CmdWord) : (s.accept w).rdata = s.rdata := rfl
@[simp] theorem State.accept_draws (s : State) (w : CmdWord) : (s.accept w).draws = s.draws := rfl

/-! ### `State.drop` -/

@[simp] theorem State.drop_params (s : State) : (s.drop).params = s.params := rfl
@[simp] theorem State.drop_phase (s : State) : (s.drop).phase = s.phase := rfl
@[simp] theorem State.drop_err (s : State) : (s.drop).err = s.err := rfl
@[simp] theorem State.drop_tv (s : State) : (s.drop).tv = s.tv := rfl
@[simp] theorem State.drop_cv (s : State) : (s.drop).cv = s.cv := rfl
@[simp] theorem State.drop_ovr (s : State) : (s.drop).ovr = true := rfl
@[simp] theorem State.drop_cmd (s : State) : (s.drop).cmd = s.cmd := rfl
@[simp] theorem State.drop_freq (s : State) : (s.drop).freq = s.freq := rfl
@[simp] theorem State.drop_node (s : State) : (s.drop).node = s.node := rfl
@[simp] theorem State.drop_nnodes (s : State) : (s.drop).nnodes = s.nnodes := rfl
@[simp] theorem State.drop_root (s : State) : (s.drop).root = s.root := rfl
@[simp] theorem State.drop_code (s : State) : (s.drop).code = s.code := rfl
@[simp] theorem State.drop_cur (s : State) : (s.drop).cur = s.cur := rfl
@[simp] theorem State.drop_pq (s : State) : (s.drop).pq = s.pq := rfl
@[simp] theorem State.drop_stack (s : State) : (s.drop).stack = s.stack := rfl
@[simp] theorem State.drop_path (s : State) : (s.drop).path = s.path := rfl
@[simp] theorem State.drop_todo (s : State) : (s.drop).todo = s.todo := rfl
@[simp] theorem State.drop_inp (s : State) : (s.drop).inp = s.inp := rfl
@[simp] theorem State.drop_out (s : State) : (s.drop).out = s.out := rfl
@[simp] theorem State.drop_host (s : State) : (s.drop).host = s.host := rfl
@[simp] theorem State.drop_rdata (s : State) : (s.drop).rdata = s.rdata := rfl
@[simp] theorem State.drop_draws (s : State) : (s.drop).draws = s.draws := rfl

/-! ### `State.complete` -/

@[simp] theorem State.complete_params (s : State) : (s.complete).params = s.params := rfl
@[simp] theorem State.complete_phase (s : State) : (s.complete).phase = .done := rfl
@[simp] theorem State.complete_err (s : State) : (s.complete).err = s.err := rfl
@[simp] theorem State.complete_tv (s : State) : (s.complete).tv = s.tv := rfl
@[simp] theorem State.complete_cv (s : State) : (s.complete).cv = s.cv := rfl
@[simp] theorem State.complete_ovr (s : State) : (s.complete).ovr = s.ovr := rfl
@[simp] theorem State.complete_cmd (s : State) : (s.complete).cmd = 0#16 := rfl
@[simp] theorem State.complete_freq (s : State) : (s.complete).freq = s.freq := rfl
@[simp] theorem State.complete_node (s : State) : (s.complete).node = s.node := rfl
@[simp] theorem State.complete_nnodes (s : State) : (s.complete).nnodes = s.nnodes := rfl
@[simp] theorem State.complete_root (s : State) : (s.complete).root = s.root := rfl
@[simp] theorem State.complete_code (s : State) : (s.complete).code = s.code := rfl
@[simp] theorem State.complete_cur (s : State) : (s.complete).cur = s.cur := rfl
@[simp] theorem State.complete_pq (s : State) : (s.complete).pq = [] := rfl
@[simp] theorem State.complete_stack (s : State) : (s.complete).stack = [] := rfl
@[simp] theorem State.complete_path (s : State) : (s.complete).path = [] := rfl
@[simp] theorem State.complete_todo (s : State) : (s.complete).todo = [] := rfl
@[simp] theorem State.complete_inp (s : State) : (s.complete).inp = s.inp := rfl
@[simp] theorem State.complete_out (s : State) : (s.complete).out = s.out := rfl
@[simp] theorem State.complete_host (s : State) : (s.complete).host = s.host := rfl
@[simp] theorem State.complete_rdata (s : State) : (s.complete).rdata = s.rdata := rfl
@[simp] theorem State.complete_draws (s : State) : (s.complete).draws = s.draws := rfl

/-! ### `State.clear` -/

@[simp] theorem State.clear_params (s : State) : (s.clear).params = s.params := rfl
@[simp] theorem State.clear_phase (s : State) : (s.clear).phase = .idle := rfl
@[simp] theorem State.clear_err (s : State) : (s.clear).err = .none := rfl
@[simp] theorem State.clear_tv (s : State) : (s.clear).tv = false := rfl
@[simp] theorem State.clear_cv (s : State) : (s.clear).cv = false := rfl
@[simp] theorem State.clear_ovr (s : State) : (s.clear).ovr = false := rfl
@[simp] theorem State.clear_cmd (s : State) : (s.clear).cmd = 0#16 := rfl
@[simp] theorem State.clear_freq (s : State) : (s.clear).freq = Vector.replicate 256 0#32 := rfl
@[simp] theorem State.clear_node (s : State) : (s.clear).node = Vector.replicate 513 Node.zero := rfl
@[simp] theorem State.clear_nnodes (s : State) : (s.clear).nnodes = 0#10 := rfl
@[simp] theorem State.clear_root (s : State) : (s.clear).root = 0#10 := rfl
@[simp] theorem State.clear_code (s : State) : (s.clear).code = Vector.replicate 257 Code.none := rfl
@[simp] theorem State.clear_cur (s : State) : (s.clear).cur = 0#10 := rfl
@[simp] theorem State.clear_pq (s : State) : (s.clear).pq = [] := rfl
@[simp] theorem State.clear_stack (s : State) : (s.clear).stack = [] := rfl
@[simp] theorem State.clear_path (s : State) : (s.clear).path = [] := rfl
@[simp] theorem State.clear_todo (s : State) : (s.clear).todo = [] := rfl
@[simp] theorem State.clear_inp (s : State) : (s.clear).inp = s.inp := rfl
@[simp] theorem State.clear_out (s : State) : (s.clear).out = s.out := rfl
@[simp] theorem State.clear_host (s : State) : (s.clear).host = s.host := rfl
@[simp] theorem State.clear_rdata (s : State) : (s.clear).rdata = s.rdata := rfl
@[simp] theorem State.clear_draws (s : State) : (s.clear).draws = s.draws := rfl

/-! ### `State.tick` -/

@[simp] theorem State.tick_params (s : State) : (s.tick).params = s.params := rfl
@[simp] theorem State.tick_phase (s : State) : (s.tick).phase = s.phase := rfl
@[simp] theorem State.tick_err (s : State) : (s.tick).err = s.err := rfl
@[simp] theorem State.tick_tv (s : State) : (s.tick).tv = s.tv := rfl
@[simp] theorem State.tick_cv (s : State) : (s.tick).cv = s.cv := rfl
@[simp] theorem State.tick_ovr (s : State) : (s.tick).ovr = s.ovr := rfl
@[simp] theorem State.tick_cmd (s : State) : (s.tick).cmd = s.cmd := rfl
@[simp] theorem State.tick_freq (s : State) : (s.tick).freq = s.freq := rfl
@[simp] theorem State.tick_node (s : State) : (s.tick).node = s.node := rfl
@[simp] theorem State.tick_nnodes (s : State) : (s.tick).nnodes = s.nnodes := rfl
@[simp] theorem State.tick_root (s : State) : (s.tick).root = s.root := rfl
@[simp] theorem State.tick_code (s : State) : (s.tick).code = s.code := rfl
@[simp] theorem State.tick_cur (s : State) : (s.tick).cur = s.cur := rfl
@[simp] theorem State.tick_pq (s : State) : (s.tick).pq = s.pq := rfl
@[simp] theorem State.tick_stack (s : State) : (s.tick).stack = s.stack := rfl
@[simp] theorem State.tick_path (s : State) : (s.tick).path = s.path := rfl
@[simp] theorem State.tick_todo (s : State) : (s.tick).todo = s.todo := rfl
@[simp] theorem State.tick_inp (s : State) : (s.tick).inp = s.inp := rfl
@[simp] theorem State.tick_out (s : State) : (s.tick).out = s.out := rfl
@[simp] theorem State.tick_host (s : State) : (s.tick).host = tickHost s.host := rfl
@[simp] theorem State.tick_rdata (s : State) : (s.tick).rdata = s.rdata := rfl
@[simp] theorem State.tick_draws (s : State) : (s.tick).draws = s.draws := rfl

/-! ### `State.setFreq` -/

@[simp] theorem State.setFreq_params (s : State) (sym : Sym) (w : Weight) : (s.setFreq sym w).params = s.params := rfl
@[simp] theorem State.setFreq_phase (s : State) (sym : Sym) (w : Weight) : (s.setFreq sym w).phase = s.phase := rfl
@[simp] theorem State.setFreq_err (s : State) (sym : Sym) (w : Weight) : (s.setFreq sym w).err = s.err := rfl
@[simp] theorem State.setFreq_tv (s : State) (sym : Sym) (w : Weight) : (s.setFreq sym w).tv = s.tv := rfl
@[simp] theorem State.setFreq_cv (s : State) (sym : Sym) (w : Weight) : (s.setFreq sym w).cv = s.cv := rfl
@[simp] theorem State.setFreq_ovr (s : State) (sym : Sym) (w : Weight) : (s.setFreq sym w).ovr = s.ovr := rfl
@[simp] theorem State.setFreq_cmd (s : State) (sym : Sym) (w : Weight) : (s.setFreq sym w).cmd = s.cmd := rfl
@[simp] theorem State.setFreq_freq (s : State) (sym : Sym) (w : Weight) : (s.setFreq sym w).freq = s.freq.setIfInBounds sym.toNat w := rfl
@[simp] theorem State.setFreq_node (s : State) (sym : Sym) (w : Weight) : (s.setFreq sym w).node = s.node := rfl
@[simp] theorem State.setFreq_nnodes (s : State) (sym : Sym) (w : Weight) : (s.setFreq sym w).nnodes = s.nnodes := rfl
@[simp] theorem State.setFreq_root (s : State) (sym : Sym) (w : Weight) : (s.setFreq sym w).root = s.root := rfl
@[simp] theorem State.setFreq_code (s : State) (sym : Sym) (w : Weight) : (s.setFreq sym w).code = s.code := rfl
@[simp] theorem State.setFreq_cur (s : State) (sym : Sym) (w : Weight) : (s.setFreq sym w).cur = s.cur := rfl
@[simp] theorem State.setFreq_pq (s : State) (sym : Sym) (w : Weight) : (s.setFreq sym w).pq = s.pq := rfl
@[simp] theorem State.setFreq_stack (s : State) (sym : Sym) (w : Weight) : (s.setFreq sym w).stack = s.stack := rfl
@[simp] theorem State.setFreq_path (s : State) (sym : Sym) (w : Weight) : (s.setFreq sym w).path = s.path := rfl
@[simp] theorem State.setFreq_todo (s : State) (sym : Sym) (w : Weight) : (s.setFreq sym w).todo = s.todo := rfl
@[simp] theorem State.setFreq_inp (s : State) (sym : Sym) (w : Weight) : (s.setFreq sym w).inp = s.inp := rfl
@[simp] theorem State.setFreq_out (s : State) (sym : Sym) (w : Weight) : (s.setFreq sym w).out = s.out := rfl
@[simp] theorem State.setFreq_host (s : State) (sym : Sym) (w : Weight) : (s.setFreq sym w).host = s.host := rfl
@[simp] theorem State.setFreq_rdata (s : State) (sym : Sym) (w : Weight) : (s.setFreq sym w).rdata = s.rdata := rfl
@[simp] theorem State.setFreq_draws (s : State) (sym : Sym) (w : Weight) : (s.setFreq sym w).draws = s.draws := rfl

/-! ### `State.clearFreq` -/

@[simp] theorem State.clearFreq_params (s : State) : (s.clearFreq).params = s.params := rfl
@[simp] theorem State.clearFreq_phase (s : State) : (s.clearFreq).phase = s.phase := rfl
@[simp] theorem State.clearFreq_err (s : State) : (s.clearFreq).err = s.err := rfl
@[simp] theorem State.clearFreq_tv (s : State) : (s.clearFreq).tv = s.tv := rfl
@[simp] theorem State.clearFreq_cv (s : State) : (s.clearFreq).cv = s.cv := rfl
@[simp] theorem State.clearFreq_ovr (s : State) : (s.clearFreq).ovr = s.ovr := rfl
@[simp] theorem State.clearFreq_cmd (s : State) : (s.clearFreq).cmd = s.cmd := rfl
@[simp] theorem State.clearFreq_freq (s : State) : (s.clearFreq).freq = Vector.replicate 256 0#32 := rfl
@[simp] theorem State.clearFreq_node (s : State) : (s.clearFreq).node = s.node := rfl
@[simp] theorem State.clearFreq_nnodes (s : State) : (s.clearFreq).nnodes = s.nnodes := rfl
@[simp] theorem State.clearFreq_root (s : State) : (s.clearFreq).root = s.root := rfl
@[simp] theorem State.clearFreq_code (s : State) : (s.clearFreq).code = s.code := rfl
@[simp] theorem State.clearFreq_cur (s : State) : (s.clearFreq).cur = s.cur := rfl
@[simp] theorem State.clearFreq_pq (s : State) : (s.clearFreq).pq = s.pq := rfl
@[simp] theorem State.clearFreq_stack (s : State) : (s.clearFreq).stack = s.stack := rfl
@[simp] theorem State.clearFreq_path (s : State) : (s.clearFreq).path = s.path := rfl
@[simp] theorem State.clearFreq_todo (s : State) : (s.clearFreq).todo = s.todo := rfl
@[simp] theorem State.clearFreq_inp (s : State) : (s.clearFreq).inp = s.inp := rfl
@[simp] theorem State.clearFreq_out (s : State) : (s.clearFreq).out = s.out := rfl
@[simp] theorem State.clearFreq_host (s : State) : (s.clearFreq).host = s.host := rfl
@[simp] theorem State.clearFreq_rdata (s : State) : (s.clearFreq).rdata = s.rdata := rfl
@[simp] theorem State.clearFreq_draws (s : State) : (s.clearFreq).draws = s.draws := rfl

/-! ### `State.setNode` -/

@[simp] theorem State.setNode_params (s : State) (i : Idx) (x : Node) : (s.setNode i x).params = s.params := rfl
@[simp] theorem State.setNode_phase (s : State) (i : Idx) (x : Node) : (s.setNode i x).phase = s.phase := rfl
@[simp] theorem State.setNode_err (s : State) (i : Idx) (x : Node) : (s.setNode i x).err = s.err := rfl
@[simp] theorem State.setNode_tv (s : State) (i : Idx) (x : Node) : (s.setNode i x).tv = s.tv := rfl
@[simp] theorem State.setNode_cv (s : State) (i : Idx) (x : Node) : (s.setNode i x).cv = s.cv := rfl
@[simp] theorem State.setNode_ovr (s : State) (i : Idx) (x : Node) : (s.setNode i x).ovr = s.ovr := rfl
@[simp] theorem State.setNode_cmd (s : State) (i : Idx) (x : Node) : (s.setNode i x).cmd = s.cmd := rfl
@[simp] theorem State.setNode_freq (s : State) (i : Idx) (x : Node) : (s.setNode i x).freq = s.freq := rfl
@[simp] theorem State.setNode_node (s : State) (i : Idx) (x : Node) : (s.setNode i x).node = s.node.setIfInBounds i.toNat x := rfl
@[simp] theorem State.setNode_nnodes (s : State) (i : Idx) (x : Node) : (s.setNode i x).nnodes = s.nnodes := rfl
@[simp] theorem State.setNode_root (s : State) (i : Idx) (x : Node) : (s.setNode i x).root = s.root := rfl
@[simp] theorem State.setNode_code (s : State) (i : Idx) (x : Node) : (s.setNode i x).code = s.code := rfl
@[simp] theorem State.setNode_cur (s : State) (i : Idx) (x : Node) : (s.setNode i x).cur = s.cur := rfl
@[simp] theorem State.setNode_pq (s : State) (i : Idx) (x : Node) : (s.setNode i x).pq = s.pq := rfl
@[simp] theorem State.setNode_stack (s : State) (i : Idx) (x : Node) : (s.setNode i x).stack = s.stack := rfl
@[simp] theorem State.setNode_path (s : State) (i : Idx) (x : Node) : (s.setNode i x).path = s.path := rfl
@[simp] theorem State.setNode_todo (s : State) (i : Idx) (x : Node) : (s.setNode i x).todo = s.todo := rfl
@[simp] theorem State.setNode_inp (s : State) (i : Idx) (x : Node) : (s.setNode i x).inp = s.inp := rfl
@[simp] theorem State.setNode_out (s : State) (i : Idx) (x : Node) : (s.setNode i x).out = s.out := rfl
@[simp] theorem State.setNode_host (s : State) (i : Idx) (x : Node) : (s.setNode i x).host = s.host := rfl
@[simp] theorem State.setNode_rdata (s : State) (i : Idx) (x : Node) : (s.setNode i x).rdata = s.rdata := rfl
@[simp] theorem State.setNode_draws (s : State) (i : Idx) (x : Node) : (s.setNode i x).draws = s.draws := rfl

/-! ### `State.setCode` -/

@[simp] theorem State.setCode_params (s : State) (sym : Sym) (c : Code) : (s.setCode sym c).params = s.params := rfl
@[simp] theorem State.setCode_phase (s : State) (sym : Sym) (c : Code) : (s.setCode sym c).phase = s.phase := rfl
@[simp] theorem State.setCode_err (s : State) (sym : Sym) (c : Code) : (s.setCode sym c).err = s.err := rfl
@[simp] theorem State.setCode_tv (s : State) (sym : Sym) (c : Code) : (s.setCode sym c).tv = s.tv := rfl
@[simp] theorem State.setCode_cv (s : State) (sym : Sym) (c : Code) : (s.setCode sym c).cv = s.cv := rfl
@[simp] theorem State.setCode_ovr (s : State) (sym : Sym) (c : Code) : (s.setCode sym c).ovr = s.ovr := rfl
@[simp] theorem State.setCode_cmd (s : State) (sym : Sym) (c : Code) : (s.setCode sym c).cmd = s.cmd := rfl
@[simp] theorem State.setCode_freq (s : State) (sym : Sym) (c : Code) : (s.setCode sym c).freq = s.freq := rfl
@[simp] theorem State.setCode_node (s : State) (sym : Sym) (c : Code) : (s.setCode sym c).node = s.node := rfl
@[simp] theorem State.setCode_nnodes (s : State) (sym : Sym) (c : Code) : (s.setCode sym c).nnodes = s.nnodes := rfl
@[simp] theorem State.setCode_root (s : State) (sym : Sym) (c : Code) : (s.setCode sym c).root = s.root := rfl
@[simp] theorem State.setCode_code (s : State) (sym : Sym) (c : Code) : (s.setCode sym c).code = s.code.setIfInBounds sym.toNat c := rfl
@[simp] theorem State.setCode_cur (s : State) (sym : Sym) (c : Code) : (s.setCode sym c).cur = s.cur := rfl
@[simp] theorem State.setCode_pq (s : State) (sym : Sym) (c : Code) : (s.setCode sym c).pq = s.pq := rfl
@[simp] theorem State.setCode_stack (s : State) (sym : Sym) (c : Code) : (s.setCode sym c).stack = s.stack := rfl
@[simp] theorem State.setCode_path (s : State) (sym : Sym) (c : Code) : (s.setCode sym c).path = s.path := rfl
@[simp] theorem State.setCode_todo (s : State) (sym : Sym) (c : Code) : (s.setCode sym c).todo = s.todo := rfl
@[simp] theorem State.setCode_inp (s : State) (sym : Sym) (c : Code) : (s.setCode sym c).inp = s.inp := rfl
@[simp] theorem State.setCode_out (s : State) (sym : Sym) (c : Code) : (s.setCode sym c).out = s.out := rfl
@[simp] theorem State.setCode_host (s : State) (sym : Sym) (c : Code) : (s.setCode sym c).host = s.host := rfl
@[simp] theorem State.setCode_rdata (s : State) (sym : Sym) (c : Code) : (s.setCode sym c).rdata = s.rdata := rfl
@[simp] theorem State.setCode_draws (s : State) (sym : Sym) (c : Code) : (s.setCode sym c).draws = s.draws := rfl

/-! ### `State.clearCode` -/

@[simp] theorem State.clearCode_params (s : State) : (s.clearCode).params = s.params := rfl
@[simp] theorem State.clearCode_phase (s : State) : (s.clearCode).phase = s.phase := rfl
@[simp] theorem State.clearCode_err (s : State) : (s.clearCode).err = s.err := rfl
@[simp] theorem State.clearCode_tv (s : State) : (s.clearCode).tv = s.tv := rfl
@[simp] theorem State.clearCode_cv (s : State) : (s.clearCode).cv = s.cv := rfl
@[simp] theorem State.clearCode_ovr (s : State) : (s.clearCode).ovr = s.ovr := rfl
@[simp] theorem State.clearCode_cmd (s : State) : (s.clearCode).cmd = s.cmd := rfl
@[simp] theorem State.clearCode_freq (s : State) : (s.clearCode).freq = s.freq := rfl
@[simp] theorem State.clearCode_node (s : State) : (s.clearCode).node = s.node := rfl
@[simp] theorem State.clearCode_nnodes (s : State) : (s.clearCode).nnodes = s.nnodes := rfl
@[simp] theorem State.clearCode_root (s : State) : (s.clearCode).root = s.root := rfl
@[simp] theorem State.clearCode_code (s : State) : (s.clearCode).code = Vector.replicate 257 Code.none := rfl
@[simp] theorem State.clearCode_cur (s : State) : (s.clearCode).cur = s.cur := rfl
@[simp] theorem State.clearCode_pq (s : State) : (s.clearCode).pq = s.pq := rfl
@[simp] theorem State.clearCode_stack (s : State) : (s.clearCode).stack = s.stack := rfl
@[simp] theorem State.clearCode_path (s : State) : (s.clearCode).path = s.path := rfl
@[simp] theorem State.clearCode_todo (s : State) : (s.clearCode).todo = s.todo := rfl
@[simp] theorem State.clearCode_inp (s : State) : (s.clearCode).inp = s.inp := rfl
@[simp] theorem State.clearCode_out (s : State) : (s.clearCode).out = s.out := rfl
@[simp] theorem State.clearCode_host (s : State) : (s.clearCode).host = s.host := rfl
@[simp] theorem State.clearCode_rdata (s : State) : (s.clearCode).rdata = s.rdata := rfl
@[simp] theorem State.clearCode_draws (s : State) : (s.clearCode).draws = s.draws := rfl

/-! ### `State.dropTree` -/

@[simp] theorem State.dropTree_params (s : State) : (s.dropTree).params = s.params := rfl
@[simp] theorem State.dropTree_phase (s : State) : (s.dropTree).phase = s.phase := rfl
@[simp] theorem State.dropTree_err (s : State) : (s.dropTree).err = s.err := rfl
@[simp] theorem State.dropTree_tv (s : State) : (s.dropTree).tv = false := rfl
@[simp] theorem State.dropTree_cv (s : State) : (s.dropTree).cv = false := rfl
@[simp] theorem State.dropTree_ovr (s : State) : (s.dropTree).ovr = s.ovr := rfl
@[simp] theorem State.dropTree_cmd (s : State) : (s.dropTree).cmd = s.cmd := rfl
@[simp] theorem State.dropTree_freq (s : State) : (s.dropTree).freq = s.freq := rfl
@[simp] theorem State.dropTree_node (s : State) : (s.dropTree).node = s.node := rfl
@[simp] theorem State.dropTree_nnodes (s : State) : (s.dropTree).nnodes = s.nnodes := rfl
@[simp] theorem State.dropTree_root (s : State) : (s.dropTree).root = s.root := rfl
@[simp] theorem State.dropTree_code (s : State) : (s.dropTree).code = s.code := rfl
@[simp] theorem State.dropTree_cur (s : State) : (s.dropTree).cur = s.cur := rfl
@[simp] theorem State.dropTree_pq (s : State) : (s.dropTree).pq = s.pq := rfl
@[simp] theorem State.dropTree_stack (s : State) : (s.dropTree).stack = s.stack := rfl
@[simp] theorem State.dropTree_path (s : State) : (s.dropTree).path = s.path := rfl
@[simp] theorem State.dropTree_todo (s : State) : (s.dropTree).todo = s.todo := rfl
@[simp] theorem State.dropTree_inp (s : State) : (s.dropTree).inp = s.inp := rfl
@[simp] theorem State.dropTree_out (s : State) : (s.dropTree).out = s.out := rfl
@[simp] theorem State.dropTree_host (s : State) : (s.dropTree).host = s.host := rfl
@[simp] theorem State.dropTree_rdata (s : State) : (s.dropTree).rdata = s.rdata := rfl
@[simp] theorem State.dropTree_draws (s : State) : (s.dropTree).draws = s.draws := rfl

/-! ### `State.treeValid` -/

@[simp] theorem State.treeValid_params (s : State) : (s.treeValid).params = s.params := rfl
@[simp] theorem State.treeValid_phase (s : State) : (s.treeValid).phase = s.phase := rfl
@[simp] theorem State.treeValid_err (s : State) : (s.treeValid).err = s.err := rfl
@[simp] theorem State.treeValid_tv (s : State) : (s.treeValid).tv = true := rfl
@[simp] theorem State.treeValid_cv (s : State) : (s.treeValid).cv = s.cv := rfl
@[simp] theorem State.treeValid_ovr (s : State) : (s.treeValid).ovr = s.ovr := rfl
@[simp] theorem State.treeValid_cmd (s : State) : (s.treeValid).cmd = s.cmd := rfl
@[simp] theorem State.treeValid_freq (s : State) : (s.treeValid).freq = s.freq := rfl
@[simp] theorem State.treeValid_node (s : State) : (s.treeValid).node = s.node := rfl
@[simp] theorem State.treeValid_nnodes (s : State) : (s.treeValid).nnodes = s.nnodes := rfl
@[simp] theorem State.treeValid_root (s : State) : (s.treeValid).root = s.root := rfl
@[simp] theorem State.treeValid_code (s : State) : (s.treeValid).code = s.code := rfl
@[simp] theorem State.treeValid_cur (s : State) : (s.treeValid).cur = s.cur := rfl
@[simp] theorem State.treeValid_pq (s : State) : (s.treeValid).pq = s.pq := rfl
@[simp] theorem State.treeValid_stack (s : State) : (s.treeValid).stack = s.stack := rfl
@[simp] theorem State.treeValid_path (s : State) : (s.treeValid).path = s.path := rfl
@[simp] theorem State.treeValid_todo (s : State) : (s.treeValid).todo = s.todo := rfl
@[simp] theorem State.treeValid_inp (s : State) : (s.treeValid).inp = s.inp := rfl
@[simp] theorem State.treeValid_out (s : State) : (s.treeValid).out = s.out := rfl
@[simp] theorem State.treeValid_host (s : State) : (s.treeValid).host = s.host := rfl
@[simp] theorem State.treeValid_rdata (s : State) : (s.treeValid).rdata = s.rdata := rfl
@[simp] theorem State.treeValid_draws (s : State) : (s.treeValid).draws = s.draws := rfl

/-! ### `State.dropCodes` -/

@[simp] theorem State.dropCodes_params (s : State) : (s.dropCodes).params = s.params := rfl
@[simp] theorem State.dropCodes_phase (s : State) : (s.dropCodes).phase = s.phase := rfl
@[simp] theorem State.dropCodes_err (s : State) : (s.dropCodes).err = s.err := rfl
@[simp] theorem State.dropCodes_tv (s : State) : (s.dropCodes).tv = s.tv := rfl
@[simp] theorem State.dropCodes_cv (s : State) : (s.dropCodes).cv = false := rfl
@[simp] theorem State.dropCodes_ovr (s : State) : (s.dropCodes).ovr = s.ovr := rfl
@[simp] theorem State.dropCodes_cmd (s : State) : (s.dropCodes).cmd = s.cmd := rfl
@[simp] theorem State.dropCodes_freq (s : State) : (s.dropCodes).freq = s.freq := rfl
@[simp] theorem State.dropCodes_node (s : State) : (s.dropCodes).node = s.node := rfl
@[simp] theorem State.dropCodes_nnodes (s : State) : (s.dropCodes).nnodes = s.nnodes := rfl
@[simp] theorem State.dropCodes_root (s : State) : (s.dropCodes).root = s.root := rfl
@[simp] theorem State.dropCodes_code (s : State) : (s.dropCodes).code = s.code := rfl
@[simp] theorem State.dropCodes_cur (s : State) : (s.dropCodes).cur = s.cur := rfl
@[simp] theorem State.dropCodes_pq (s : State) : (s.dropCodes).pq = s.pq := rfl
@[simp] theorem State.dropCodes_stack (s : State) : (s.dropCodes).stack = s.stack := rfl
@[simp] theorem State.dropCodes_path (s : State) : (s.dropCodes).path = s.path := rfl
@[simp] theorem State.dropCodes_todo (s : State) : (s.dropCodes).todo = s.todo := rfl
@[simp] theorem State.dropCodes_inp (s : State) : (s.dropCodes).inp = s.inp := rfl
@[simp] theorem State.dropCodes_out (s : State) : (s.dropCodes).out = s.out := rfl
@[simp] theorem State.dropCodes_host (s : State) : (s.dropCodes).host = s.host := rfl
@[simp] theorem State.dropCodes_rdata (s : State) : (s.dropCodes).rdata = s.rdata := rfl
@[simp] theorem State.dropCodes_draws (s : State) : (s.dropCodes).draws = s.draws := rfl

/-! ### `State.codesValid` -/

@[simp] theorem State.codesValid_params (s : State) : (s.codesValid).params = s.params := rfl
@[simp] theorem State.codesValid_phase (s : State) : (s.codesValid).phase = s.phase := rfl
@[simp] theorem State.codesValid_err (s : State) : (s.codesValid).err = s.err := rfl
@[simp] theorem State.codesValid_tv (s : State) : (s.codesValid).tv = s.tv := rfl
@[simp] theorem State.codesValid_cv (s : State) : (s.codesValid).cv = true := rfl
@[simp] theorem State.codesValid_ovr (s : State) : (s.codesValid).ovr = s.ovr := rfl
@[simp] theorem State.codesValid_cmd (s : State) : (s.codesValid).cmd = s.cmd := rfl
@[simp] theorem State.codesValid_freq (s : State) : (s.codesValid).freq = s.freq := rfl
@[simp] theorem State.codesValid_node (s : State) : (s.codesValid).node = s.node := rfl
@[simp] theorem State.codesValid_nnodes (s : State) : (s.codesValid).nnodes = s.nnodes := rfl
@[simp] theorem State.codesValid_root (s : State) : (s.codesValid).root = s.root := rfl
@[simp] theorem State.codesValid_code (s : State) : (s.codesValid).code = s.code := rfl
@[simp] theorem State.codesValid_cur (s : State) : (s.codesValid).cur = s.cur := rfl
@[simp] theorem State.codesValid_pq (s : State) : (s.codesValid).pq = s.pq := rfl
@[simp] theorem State.codesValid_stack (s : State) : (s.codesValid).stack = s.stack := rfl
@[simp] theorem State.codesValid_path (s : State) : (s.codesValid).path = s.path := rfl
@[simp] theorem State.codesValid_todo (s : State) : (s.codesValid).todo = s.todo := rfl
@[simp] theorem State.codesValid_inp (s : State) : (s.codesValid).inp = s.inp := rfl
@[simp] theorem State.codesValid_out (s : State) : (s.codesValid).out = s.out := rfl
@[simp] theorem State.codesValid_host (s : State) : (s.codesValid).host = s.host := rfl
@[simp] theorem State.codesValid_rdata (s : State) : (s.codesValid).rdata = s.rdata := rfl
@[simp] theorem State.codesValid_draws (s : State) : (s.codesValid).draws = s.draws := rfl

/-! ### `State.pqInsert` -/

@[simp] theorem State.pqInsert_params (s : State) (i : Idx) : (s.pqInsert i).params = s.params := rfl
@[simp] theorem State.pqInsert_phase (s : State) (i : Idx) : (s.pqInsert i).phase = s.phase := rfl
@[simp] theorem State.pqInsert_err (s : State) (i : Idx) : (s.pqInsert i).err = s.err := rfl
@[simp] theorem State.pqInsert_tv (s : State) (i : Idx) : (s.pqInsert i).tv = s.tv := rfl
@[simp] theorem State.pqInsert_cv (s : State) (i : Idx) : (s.pqInsert i).cv = s.cv := rfl
@[simp] theorem State.pqInsert_ovr (s : State) (i : Idx) : (s.pqInsert i).ovr = s.ovr := rfl
@[simp] theorem State.pqInsert_cmd (s : State) (i : Idx) : (s.pqInsert i).cmd = s.cmd := rfl
@[simp] theorem State.pqInsert_freq (s : State) (i : Idx) : (s.pqInsert i).freq = s.freq := rfl
@[simp] theorem State.pqInsert_node (s : State) (i : Idx) : (s.pqInsert i).node = s.node := rfl
@[simp] theorem State.pqInsert_nnodes (s : State) (i : Idx) : (s.pqInsert i).nnodes = s.nnodes := rfl
@[simp] theorem State.pqInsert_root (s : State) (i : Idx) : (s.pqInsert i).root = s.root := rfl
@[simp] theorem State.pqInsert_code (s : State) (i : Idx) : (s.pqInsert i).code = s.code := rfl
@[simp] theorem State.pqInsert_cur (s : State) (i : Idx) : (s.pqInsert i).cur = s.cur := rfl
@[simp] theorem State.pqInsert_pq (s : State) (i : Idx) : (s.pqInsert i).pq = i :: s.pq := rfl
@[simp] theorem State.pqInsert_stack (s : State) (i : Idx) : (s.pqInsert i).stack = s.stack := rfl
@[simp] theorem State.pqInsert_path (s : State) (i : Idx) : (s.pqInsert i).path = s.path := rfl
@[simp] theorem State.pqInsert_todo (s : State) (i : Idx) : (s.pqInsert i).todo = s.todo := rfl
@[simp] theorem State.pqInsert_inp (s : State) (i : Idx) : (s.pqInsert i).inp = s.inp := rfl
@[simp] theorem State.pqInsert_out (s : State) (i : Idx) : (s.pqInsert i).out = s.out := rfl
@[simp] theorem State.pqInsert_host (s : State) (i : Idx) : (s.pqInsert i).host = s.host := rfl
@[simp] theorem State.pqInsert_rdata (s : State) (i : Idx) : (s.pqInsert i).rdata = s.rdata := rfl
@[simp] theorem State.pqInsert_draws (s : State) (i : Idx) : (s.pqInsert i).draws = s.draws := rfl

/-! ### `State.clearTree` -/

@[simp] theorem State.clearTree_params (s : State) : (s.clearTree).params = s.params := rfl
@[simp] theorem State.clearTree_phase (s : State) : (s.clearTree).phase = s.phase := rfl
@[simp] theorem State.clearTree_err (s : State) : (s.clearTree).err = s.err := rfl
@[simp] theorem State.clearTree_tv (s : State) : (s.clearTree).tv = false := rfl
@[simp] theorem State.clearTree_cv (s : State) : (s.clearTree).cv = false := rfl
@[simp] theorem State.clearTree_ovr (s : State) : (s.clearTree).ovr = s.ovr := rfl
@[simp] theorem State.clearTree_cmd (s : State) : (s.clearTree).cmd = s.cmd := rfl
@[simp] theorem State.clearTree_freq (s : State) : (s.clearTree).freq = s.freq := rfl
@[simp] theorem State.clearTree_node (s : State) : (s.clearTree).node = Vector.replicate 513 Node.zero := rfl
@[simp] theorem State.clearTree_nnodes (s : State) : (s.clearTree).nnodes = 0#10 := rfl
@[simp] theorem State.clearTree_root (s : State) : (s.clearTree).root = 0#10 := rfl
@[simp] theorem State.clearTree_code (s : State) : (s.clearTree).code = s.code := rfl
@[simp] theorem State.clearTree_cur (s : State) : (s.clearTree).cur = s.cur := rfl
@[simp] theorem State.clearTree_pq (s : State) : (s.clearTree).pq = [] := rfl
@[simp] theorem State.clearTree_stack (s : State) : (s.clearTree).stack = [] := rfl
@[simp] theorem State.clearTree_path (s : State) : (s.clearTree).path = s.path := rfl
@[simp] theorem State.clearTree_todo (s : State) : (s.clearTree).todo = s.todo := rfl
@[simp] theorem State.clearTree_inp (s : State) : (s.clearTree).inp = s.inp := rfl
@[simp] theorem State.clearTree_out (s : State) : (s.clearTree).out = s.out := rfl
@[simp] theorem State.clearTree_host (s : State) : (s.clearTree).host = s.host := rfl
@[simp] theorem State.clearTree_rdata (s : State) : (s.clearTree).rdata = s.rdata := rfl
@[simp] theorem State.clearTree_draws (s : State) : (s.clearTree).draws = s.draws := rfl

/-! ### `State.addNode` -/

@[simp] theorem State.addNode_params (s : State) (x : Node) : (s.addNode x).params = s.params := rfl
@[simp] theorem State.addNode_phase (s : State) (x : Node) : (s.addNode x).phase = s.phase := rfl
@[simp] theorem State.addNode_err (s : State) (x : Node) : (s.addNode x).err = s.err := rfl
@[simp] theorem State.addNode_tv (s : State) (x : Node) : (s.addNode x).tv = s.tv := rfl
@[simp] theorem State.addNode_cv (s : State) (x : Node) : (s.addNode x).cv = s.cv := rfl
@[simp] theorem State.addNode_ovr (s : State) (x : Node) : (s.addNode x).ovr = s.ovr := rfl
@[simp] theorem State.addNode_cmd (s : State) (x : Node) : (s.addNode x).cmd = s.cmd := rfl
@[simp] theorem State.addNode_freq (s : State) (x : Node) : (s.addNode x).freq = s.freq := rfl
@[simp] theorem State.addNode_node (s : State) (x : Node) : (s.addNode x).node = s.node.setIfInBounds s.nnodes.toNat x := rfl
@[simp] theorem State.addNode_nnodes (s : State) (x : Node) : (s.addNode x).nnodes = s.nnodes + 1#10 := rfl
@[simp] theorem State.addNode_root (s : State) (x : Node) : (s.addNode x).root = s.root := rfl
@[simp] theorem State.addNode_code (s : State) (x : Node) : (s.addNode x).code = s.code := rfl
@[simp] theorem State.addNode_cur (s : State) (x : Node) : (s.addNode x).cur = s.cur := rfl
@[simp] theorem State.addNode_pq (s : State) (x : Node) : (s.addNode x).pq = s.pq := rfl
@[simp] theorem State.addNode_stack (s : State) (x : Node) : (s.addNode x).stack = s.stack := rfl
@[simp] theorem State.addNode_path (s : State) (x : Node) : (s.addNode x).path = s.path := rfl
@[simp] theorem State.addNode_todo (s : State) (x : Node) : (s.addNode x).todo = s.todo := rfl
@[simp] theorem State.addNode_inp (s : State) (x : Node) : (s.addNode x).inp = s.inp := rfl
@[simp] theorem State.addNode_out (s : State) (x : Node) : (s.addNode x).out = s.out := rfl
@[simp] theorem State.addNode_host (s : State) (x : Node) : (s.addNode x).host = s.host := rfl
@[simp] theorem State.addNode_rdata (s : State) (x : Node) : (s.addNode x).rdata = s.rdata := rfl
@[simp] theorem State.addNode_draws (s : State) (x : Node) : (s.addNode x).draws = s.draws := rfl

/-! ### `State.queueNode` -/

@[simp] theorem State.queueNode_params (s : State) (x : Node) : (s.queueNode x).params = s.params := rfl
@[simp] theorem State.queueNode_phase (s : State) (x : Node) : (s.queueNode x).phase = s.phase := rfl
@[simp] theorem State.queueNode_err (s : State) (x : Node) : (s.queueNode x).err = s.err := rfl
@[simp] theorem State.queueNode_tv (s : State) (x : Node) : (s.queueNode x).tv = s.tv := rfl
@[simp] theorem State.queueNode_cv (s : State) (x : Node) : (s.queueNode x).cv = s.cv := rfl
@[simp] theorem State.queueNode_ovr (s : State) (x : Node) : (s.queueNode x).ovr = s.ovr := rfl
@[simp] theorem State.queueNode_cmd (s : State) (x : Node) : (s.queueNode x).cmd = s.cmd := rfl
@[simp] theorem State.queueNode_freq (s : State) (x : Node) : (s.queueNode x).freq = s.freq := rfl
@[simp] theorem State.queueNode_node (s : State) (x : Node) : (s.queueNode x).node = s.node.setIfInBounds s.nnodes.toNat x := rfl
@[simp] theorem State.queueNode_nnodes (s : State) (x : Node) : (s.queueNode x).nnodes = s.nnodes + 1#10 := rfl
@[simp] theorem State.queueNode_root (s : State) (x : Node) : (s.queueNode x).root = s.root := rfl
@[simp] theorem State.queueNode_code (s : State) (x : Node) : (s.queueNode x).code = s.code := rfl
@[simp] theorem State.queueNode_cur (s : State) (x : Node) : (s.queueNode x).cur = s.cur := rfl
@[simp] theorem State.queueNode_pq (s : State) (x : Node) : (s.queueNode x).pq = s.nnodes :: s.pq := rfl
@[simp] theorem State.queueNode_stack (s : State) (x : Node) : (s.queueNode x).stack = s.stack := rfl
@[simp] theorem State.queueNode_path (s : State) (x : Node) : (s.queueNode x).path = s.path := rfl
@[simp] theorem State.queueNode_todo (s : State) (x : Node) : (s.queueNode x).todo = s.todo := rfl
@[simp] theorem State.queueNode_inp (s : State) (x : Node) : (s.queueNode x).inp = s.inp := rfl
@[simp] theorem State.queueNode_out (s : State) (x : Node) : (s.queueNode x).out = s.out := rfl
@[simp] theorem State.queueNode_host (s : State) (x : Node) : (s.queueNode x).host = s.host := rfl
@[simp] theorem State.queueNode_rdata (s : State) (x : Node) : (s.queueNode x).rdata = s.rdata := rfl
@[simp] theorem State.queueNode_draws (s : State) (x : Node) : (s.queueNode x).draws = s.draws := rfl

/-! ### `State.takeRead` -/

@[simp] theorem State.takeRead_params (s : State) (a : RegNum) : (s.takeRead a).params = s.params := rfl
@[simp] theorem State.takeRead_phase (s : State) (a : RegNum) : (s.takeRead a).phase = s.phase := rfl
@[simp] theorem State.takeRead_err (s : State) (a : RegNum) : (s.takeRead a).err = s.err := rfl
@[simp] theorem State.takeRead_tv (s : State) (a : RegNum) : (s.takeRead a).tv = s.tv := rfl
@[simp] theorem State.takeRead_cv (s : State) (a : RegNum) : (s.takeRead a).cv = s.cv := rfl
@[simp] theorem State.takeRead_ovr (s : State) (a : RegNum) : (s.takeRead a).ovr = s.ovr := rfl
@[simp] theorem State.takeRead_cmd (s : State) (a : RegNum) : (s.takeRead a).cmd = s.cmd := rfl
@[simp] theorem State.takeRead_freq (s : State) (a : RegNum) : (s.takeRead a).freq = s.freq := rfl
@[simp] theorem State.takeRead_node (s : State) (a : RegNum) : (s.takeRead a).node = s.node := rfl
@[simp] theorem State.takeRead_nnodes (s : State) (a : RegNum) : (s.takeRead a).nnodes = s.nnodes := rfl
@[simp] theorem State.takeRead_root (s : State) (a : RegNum) : (s.takeRead a).root = s.root := rfl
@[simp] theorem State.takeRead_code (s : State) (a : RegNum) : (s.takeRead a).code = s.code := rfl
@[simp] theorem State.takeRead_cur (s : State) (a : RegNum) : (s.takeRead a).cur = s.cur := rfl
@[simp] theorem State.takeRead_pq (s : State) (a : RegNum) : (s.takeRead a).pq = s.pq := rfl
@[simp] theorem State.takeRead_stack (s : State) (a : RegNum) : (s.takeRead a).stack = s.stack := rfl
@[simp] theorem State.takeRead_path (s : State) (a : RegNum) : (s.takeRead a).path = s.path := rfl
@[simp] theorem State.takeRead_todo (s : State) (a : RegNum) : (s.takeRead a).todo = s.todo := rfl
@[simp] theorem State.takeRead_inp (s : State) (a : RegNum) : (s.takeRead a).inp = s.inp := rfl
@[simp] theorem State.takeRead_out (s : State) (a : RegNum) : (s.takeRead a).out = s.out := rfl
@[simp] theorem State.takeRead_host (s : State) (a : RegNum) : (s.takeRead a).host = s.host := rfl
@[simp] theorem State.takeRead_rdata (s : State) (a : RegNum) : (s.takeRead a).rdata = s.hostRead a := rfl
@[simp] theorem State.takeRead_draws (s : State) (a : RegNum) : (s.takeRead a).draws = s.draws + 1 := rfl

end Sys2Proof.Machine
end

