-- ==== Sys2Proof/Laws/Engine.lean ====
section
/-!
SUPPORT. How a command runs: a run of engine steps as a relation, what `drive` and `issue` answer when such a run reaches the
end of the command, and each line's engine step in a state no host action disturbs.
-/

namespace Sys2Proof.Machine

open Sys2Proof

/-! ### Host actions that wait -/

theorem tickHost_of_quiet (s : State) (h : s.quiet = true) : tickHost s.host = s.host := by
  unfold State.quiet at h
  unfold tickHost
  split <;> simp_all

theorem State.tick_of_quiet {s : State} (h : s.quiet = true) : s.tick = s := by
  unfold State.tick
  rw [tickHost_of_quiet s h]

/-- Whether a host action disturbs the engine depends on the host's actions alone. -/
theorem State.quiet_congr {s t : State} (h : t.host = s.host) : t.quiet = s.quiet := by
  unfold State.quiet; rw [h]

/-- In BUSY a waiting host action is not due. -/
theorem State.eventDue_of_busy {s : State} (hq : s.quiet = true) (hb : s.phase = .busy) : s.eventDue = false := by
  unfold State.quiet at hq
  unfold State.eventDue
  rcases hh : s.host with _ | ⟨⟨p, a⟩, rest⟩
  · rfl
  · rw [hh] at hq
    rcases p with _ | _ | n <;> simp_all

theorem State.running_of_quiet {s : State} (hq : s.quiet = true) (hb : s.phase = .busy) : s.running = true := by
  simp [State.running, hb, State.eventDue_of_busy hq hb]

theorem State.running_busy {s : State} (h : s.running = true) : s.phase = .busy := by
  simp [State.running] at h; exact h.1

/-! ### Runs of engine steps -/

/-- k engine steps lead from one state to another, the engine being able to make each of them. -/
def Runs : Nat → State → State → Prop
  | 0, s, t => s = t
  | k + 1, s, t => s.running = true ∧ ∃ m, engineStep s = .next m ∧ Runs k m t

theorem runs_zero (s : State) : Runs 0 s s := rfl

theorem runs_succ {k : Nat} {s m t : State} (hr : s.running = true) (hs : engineStep s = .next m)
    (h : Runs k m t) : Runs (k + 1) s t := ⟨hr, m, hs, h⟩

theorem runs_one {s t : State} (hr : s.running = true) (hs : engineStep s = .next t) : Runs 1 s t :=
  runs_succ hr hs (runs_zero t)

theorem runs_trans {j k : Nat} {s t u : State} (h1 : Runs j s t) (h2 : Runs k t u) : Runs (j + k) s u := by
  induction j generalizing s with
  | zero => cases h1; simpa using h2
  | succ j ih =>
    obtain ⟨hr, m, hs, hm⟩ := h1
    have e : j + 1 + k = (j + k) + 1 := by omega
    rw [e]
    exact ⟨hr, m, hs, ih hm⟩

/-! ### drive -/

theorem drive_of_not_running (n : Nat) {s : State} (h : s.running = false) : drive n s = .next s := by
  cases n <;> simp [drive, h]

theorem drive_succ {n : Nat} {s m : State} (hr : s.running = true) (hs : engineStep s = .next m) :
    drive (n + 1) s = drive n m := by
  simp [drive, hr, hs]

theorem drive_of_runs {k : Nat} (n : Nat) {s t : State} (h : Runs k s t) : drive (k + n) s = drive n t := by
  induction k generalizing s with
  | zero => cases h; simp
  | succ k ih =>
    obtain ⟨hr, m, hs, hm⟩ := h
    have e : k + 1 + n = (k + n) + 1 := by omega
    rw [e, drive_succ hr hs, ih hm]

/-- A run within the budget that ends the command is what drive answers. -/
theorem drive_eq_of_runs {k n : Nat} {s t : State} (h : Runs k s t) (hk : k ≤ n) (hb : t.running = false) :
    drive n s = .next t := by
  obtain ⟨d, rfl⟩ := Nat.exists_eq_add_of_le hk
  rw [drive_of_runs d h, drive_of_not_running d hb]

/-- Whatever drive answers as a next state it reached by a run of engine steps. -/
theorem runs_of_drive {n : Nat} {s t : State} (h : drive n s = .next t) :
    ∃ k ≤ n, Runs k s t ∧ (k = n ∨ t.running = false) := by
  induction n generalizing s with
  | zero => cases h; exact ⟨0, le_rfl, rfl, Or.inl rfl⟩
  | succ n ih =>
    unfold drive at h
    by_cases hr : s.running = true
    · rw [if_pos hr] at h
      cases hs : engineStep s with
      | next m =>
        rw [hs] at h
        obtain ⟨k, hk, hm, hd⟩ := ih h
        exact ⟨k + 1, by omega, ⟨hr, m, hs, hm⟩, hd.imp (congrArg (· + 1)) id⟩
      | fault f => rw [hs] at h; cases h
      | refused r => rw [hs] at h; cases h
    · rw [if_neg hr] at h
      cases h
      exact ⟨0, by omega, rfl, Or.inr (by simpa using hr)⟩

/-- What every engine step keeps, every run keeps. -/
theorem runs_invariant {P : State → Prop} (hP : ∀ s t, s.running = true → engineStep s = .next t → P s → P t)
    {k : Nat} {s t : State} (h : Runs k s t) (hs : P s) : P t := by
  induction k generalizing s with
  | zero => cases h; exact hs
  | succ k ih =>
    obtain ⟨hr, m, he, hm⟩ := h
    exact ih hm (hP s m hr he hs)

/-- What every engine step keeps, drive keeps. -/
theorem drive_invariant {P : State → Prop} (hP : ∀ s t, s.running = true → engineStep s = .next t → P s → P t)
    {n : Nat} {s t : State} (h : drive n s = .next t) (hs : P s) : P t := by
  obtain ⟨k, _, hr, _⟩ := runs_of_drive h
  exact runs_invariant hP hr hs

/-! ### issue -/

/-- The state in which an accepted command begins its pseudocode. -/
def State.begin (s : State) (w : CmdWord) (program : List Task) : State := { s.accept w with todo := program }

theorem issue_of_runs {w : CmdWord} {pre : State → Bool} {program : List Task} {s t : State} {k : Nat}
    (hp : s.phase = .idle ∨ s.phase = .done) (hpre : pre s = true) (h : Runs k (s.begin w program) t)
    (hk : k ≤ budget program s) (ht : t.running = false) : issue w pre program s = .next t := by
  rcases hp with hp | hp <;> simp [issue, hp, hpre] <;> exact drive_eq_of_runs h hk ht

theorem issue_sequence {w : CmdWord} {pre : State → Bool} {program : List Task} {s : State}
    (hp : s.phase = .idle ∨ s.phase = .done) (hpre : pre s = false) :
    issue w pre program s = .next (s.fail .sequence) := by
  rcases hp with hp | hp <;> simp [issue, hp, hpre] <;> rfl

theorem issue_dropped {w : CmdWord} {pre : State → Bool} {program : List Task} {s : State}
    (hp : s.phase = .busy ∨ s.phase = .failed) : issue w pre program s = .next s.drop := by
  rcases hp with hp | hp <;> simp [issue, hp]

theorem issue_accepted {w : CmdWord} {pre : State → Bool} {program : List Task} {s : State}
    (hp : s.phase = .idle ∨ s.phase = .done) (hpre : pre s = true) :
    issue w pre program s = drive (budget program s) (s.begin w program) := by
  rcases hp with hp | hp <;> simp [issue, hp, hpre, State.begin]

/-- A command is dropped or accepted, as STATE says (R84). -/
theorem phase_cases (s : State) :
    (s.phase = .busy ∨ s.phase = .failed) ∨ (s.phase = .idle ∨ s.phase = .done) := by
  cases s.phase <;> simp

/-- Everything issue can do. -/
theorem issue_cases {w : CmdWord} {pre : State → Bool} {program : List Task} {s t : State}
    (h : issue w pre program s = .next t) :
    ((s.phase = .busy ∨ s.phase = .failed) ∧ t = s.drop) ∨
    ((s.phase = .idle ∨ s.phase = .done) ∧ pre s = false ∧ t = s.fail .sequence) ∨
    ((s.phase = .idle ∨ s.phase = .done) ∧ pre s = true ∧
      drive (budget program s) (s.begin w program) = .next t) := by
  rcases phase_cases s with hp | hp
  · rw [issue_dropped hp] at h; cases h
    exact Or.inl ⟨hp, rfl⟩
  right
  cases hpre : pre s
  · rw [issue_sequence hp hpre] at h; cases h
    exact Or.inl ⟨hp, rfl, rfl⟩
  · rw [issue_accepted hp hpre] at h
    exact Or.inr ⟨hp, rfl, h⟩

theorem illegal_dropped {w : CmdWord} {s : State} (hp : s.phase = .busy ∨ s.phase = .failed) :
    illegal w s = .next s.drop := by
  rcases hp with hp | hp <;> simp [illegal, hp]

theorem illegal_accepted {w : CmdWord} {s : State} (hp : s.phase = .idle ∨ s.phase = .done) :
    illegal w s = .next (s.fail .illegalCmd) := by
  rcases hp with hp | hp <;> simp [illegal, hp] <;> rfl

/-- Everything the presentation of an illegal word can do (R84, R85). -/
theorem illegal_cases {w : CmdWord} {s t : State} (h : illegal w s = .next t) :
    ((s.phase = .busy ∨ s.phase = .failed) ∧ t = s.drop) ∨
    ((s.phase = .idle ∨ s.phase = .done) ∧ t = s.fail .illegalCmd) := by
  rcases phase_cases s with hp | hp
  · rw [illegal_dropped hp] at h; cases h
    exact Or.inl ⟨hp, rfl⟩
  · rw [illegal_accepted hp] at h; cases h
    exact Or.inr ⟨hp, rfl⟩

/-! ### One engine step -/

theorem engineStep_cons {s : State} {t : Task} {ts : List Task} (hq : s.quiet = true) (h : s.todo = t :: ts) :
    engineStep s = runTask t ts s := by
  simp [engineStep, h, State.tick_of_quiet hq]

theorem engineStep_nil {s : State} (hq : s.quiet = true) (h : s.todo = []) :
    engineStep s = .next s.complete := by
  simp [engineStep, h, State.tick_of_quiet hq]

/-- A line that goes on in one step is a run of one step. -/
theorem runs_task {s t : State} {x : Task} {ts : List Task} (hq : s.quiet = true) (hb : s.phase = .busy)
    (h : s.todo = x :: ts) (hx : runTask x ts s = .next t) : Runs 1 s t :=
  runs_one (State.running_of_quiet hq hb) (by rw [engineStep_cons hq h, hx])

/-- The end of the pseudocode is a run of one step. -/
theorem runs_complete {s : State} (hq : s.quiet = true) (hb : s.phase = .busy) (h : s.todo = []) :
    Runs 1 s s.complete :=
  runs_one (State.running_of_quiet hq hb) (engineStep_nil hq h)

theorem complete_not_running (s : State) : s.complete.running = false := by simp [State.running]

theorem fail_not_running (s : State) (e : ErrCode) : (s.fail e).running = false := by simp [State.running]

end Sys2Proof.Machine
end

