-- ==== Sys2Proof/Laws/Channels.lean ====
section
/-!
SUPPORT. What the engine's channel transactions answer on a channel that answers as the reference channel does, and
everything they can do on any channel.
-/

namespace Sys2Proof.Machine

open Sys2Proof Sys2Proof.Safety

/-! ### On a channel that answers as the reference channel -/

theorem InChan.read_plain {c : InChan} (h : c.script = []) (n : Nat) : c.read n = c.plainRead n := by
  simp [InChan.read, InChan.nextAnswer, h]

theorem InChan.rewind_plain {c : InChan} (h : c.script = []) : c.rewind = c.plainRewind := by
  simp [InChan.rewind, InChan.nextAnswer, h]

theorem OutChan.write_plain {c : OutChan} (h : c.script = []) {n : Nat} (v : BitVec n) : c.write v = c.plainWrite v := by
  simp [OutChan.write, OutChan.nextAnswer, h]

theorem OutChan.flush_plain {c : OutChan} (h : c.script = []) : c.flush = c.plainFlush := by
  simp [OutChan.flush, OutChan.nextAnswer, h]

/-- A read of a field that stands next in IN (R63). -/
theorem State.readIn_value {s : State} {c : InChan} {p rest : Bits} {n : Nat} {k : Option (BitVec n) → State → Result}
    (h : inHas s c (p ++ rest)) (hn : p.length = n) :
    s.readIn n k = k (some (valOf n p)) { s with inp := some (advance c n) } := by
  obtain ⟨hi, hs, hp, hd⟩ := h
  have hl : c.data.length - c.pos = n + rest.length := by
    have := congrArg List.length hd
    simp [hn] at this
    omega
  have hr : c.read n = (.value (valOf n p), advance c n) := by
    rw [InChan.read_plain hs, InChan.plainRead, if_pos (by omega), hd]
    have : (p ++ rest).take n = p := by rw [← hn]; simp
    rw [this]
    rfl
  unfold State.readIn
  rw [hi]
  simp only [hr]

/-- A read of more bits than IN has left (R63). -/
theorem State.readIn_eod {s : State} {c : InChan} {bits : Bits} {n : Nat} {k : Option (BitVec n) → State → Result}
    (h : inHas s c bits) (hn : bits.length < n) :
    s.readIn n k = k none { s with inp := some { c with pos := c.data.length } } := by
  obtain ⟨hi, hs, hp, hd⟩ := h
  have hl : c.data.length - c.pos = bits.length := by
    have := congrArg List.length hd
    simpa using this
  have hr : c.read n = (.eod, { c with pos := c.data.length }) := by
    rw [InChan.read_plain hs, InChan.plainRead, if_neg (by omega)]
  unfold State.readIn
  rw [hi]
  simp only [hr]

/-- A write to an open OUT (R66). -/
theorem State.writeOut_open {s : State} {c : OutChan} {n : Nat} {v : BitVec n} {k : State → Result}
    (h : outOpen s c) : s.writeOut v k = k { s with out := some (append c (bitsOf v)) } := by
  obtain ⟨ho, hs, hc⟩ := h
  have hr : c.write v = (.ok, append c (bitsOf v)) := by
    rw [OutChan.write_plain hs, OutChan.plainWrite, if_neg (by simp [hc])]
    rfl
  unfold State.writeOut
  rw [ho]
  simp only [hr]

/-- A flush of an open OUT (R67). -/
theorem State.flushOut_open {s : State} {c : OutChan} {k : State → Result} (h : outOpen s c) :
    s.flushOut k = k { s with out := some (flushed c) } := by
  obtain ⟨ho, hs, hc⟩ := h
  have hr : c.flush = (.ok, flushed c) := by
    rw [OutChan.flush_plain hs, OutChan.plainFlush, if_neg (by simp [hc])]
    rfl
  unfold State.flushOut
  rw [ho]
  simp only [hr]

/-- After a read the rest is what IN has left. -/
theorem inHas_advance {s : State} {c : InChan} {p rest : Bits} (h : inHas s c (p ++ rest)) (t : State)
    (ht : t.inp = some (advance c p.length)) : inHas t (advance c p.length) rest := by
  obtain ⟨_, hs, hp, hd⟩ := h
  have hl : c.data.length - c.pos = p.length + rest.length := by
    have := congrArg List.length hd
    simpa using this
  refine ⟨ht, hs, ?_, ?_⟩
  · simp [advance]; omega
  · simp only [advance]
    rw [← List.drop_drop, hd]
    simp

/-- After a write OUT is still open. -/
theorem outOpen_append {s : State} {c : OutChan} {p : Bits} (h : outOpen s c) (t : State)
    (ht : t.out = some (append c p)) : outOpen t (append c p) := ⟨ht, h.2.1, h.2.2⟩

@[simp] theorem append_nil (c : OutChan) : append c [] = c := by simp [append]

theorem append_append (c : OutChan) (p q : Bits) : append (append c p) q = append c (p ++ q) := by simp [append]

@[simp] theorem advance_zero (c : InChan) : advance c 0 = c := rfl

theorem advance_advance (c : InChan) (m n : Nat) : advance (advance c m) n = advance c (m + n) := by
  simp [advance, Nat.add_assoc]

/-! ### On any channel -/

/-- Everything a read transaction can do (R10, R56, R242, R252). -/
theorem State.readIn_cases {s t : State} {n : Nat} {k : Option (BitVec n) → State → Result}
    (h : s.readIn n k = .next t) :
    (∃ c, t = State.fail { s with inp := c } .channel) ∨ t = s ∨
    (∃ r c, k r { s with inp := some c } = .next t) := by
  unfold State.readIn at h
  split at h
  · rename_i hi
    left; exact ⟨none, by cases h; rw [← hi]⟩
  · split at h
    · right; right; exact ⟨_, _, h⟩
    · right; right; exact ⟨_, _, h⟩
    · left; cases h; exact ⟨_, rfl⟩
    · right; left; cases h; rfl

/-- Everything a rewind transaction can do. -/
theorem State.rewindIn_cases {s t : State} {k : State → Result} (h : s.rewindIn k = .next t) :
    (∃ c, t = State.fail { s with inp := c } .channel) ∨ t = s ∨ (∃ c, k { s with inp := some c } = .next t) := by
  unfold State.rewindIn at h
  split at h
  · rename_i hi
    left; exact ⟨none, by cases h; rw [← hi]⟩
  · split at h
    · right; right; exact ⟨_, h⟩
    · left; cases h; exact ⟨_, rfl⟩
    · right; left; cases h; rfl

/-- Everything a write transaction can do. -/
theorem State.writeOut_cases {s t : State} {n : Nat} {v : BitVec n} {k : State → Result} (h : s.writeOut v k = .next t) :
    (∃ c, t = State.fail { s with out := c } .channel) ∨ t = s ∨ (∃ c, k { s with out := some c } = .next t) := by
  unfold State.writeOut at h
  split at h
  · rename_i hi
    left; exact ⟨none, by cases h; rw [← hi]⟩
  · split at h
    · right; right; exact ⟨_, h⟩
    · left; cases h; exact ⟨_, rfl⟩
    · right; left; cases h; rfl

/-- Everything a flush transaction can do. -/
theorem State.flushOut_cases {s t : State} {k : State → Result} (h : s.flushOut k = .next t) :
    (∃ c, t = State.fail { s with out := c } .channel) ∨ t = s ∨ (∃ c, k { s with out := some c } = .next t) := by
  unfold State.flushOut at h
  split at h
  · rename_i hi
    left; exact ⟨none, by cases h; rw [← hi]⟩
  · split at h
    · right; right; exact ⟨_, h⟩
    · left; cases h; exact ⟨_, rfl⟩
    · right; left; cases h; rfl

/-- A read leaves the position within the data (R62, R63). -/
theorem InChan.read_within {c : InChan} (h : c.pos ≤ c.data.length) (n : Nat) :
    (c.read n).2.pos ≤ (c.read n).2.data.length := by
  unfold InChan.read InChan.nextAnswer
  rcases c.script with _ | ⟨a, as⟩
  · simp only [InChan.plainRead]; split <;> simp [*]
  · cases a with
    | plain => simp only [InChan.plainRead]; split <;> simp [*]
    | granted => simp only [InChan.plainRead]; split <;> simp [*]
    | error p sp => simp [InChan.spoil]
    | never => simpa

/-- A rewind leaves the position within the data (R62, R64). -/
theorem InChan.rewind_within {c : InChan} (h : c.pos ≤ c.data.length) : c.rewind.2.pos ≤ c.rewind.2.data.length := by
  unfold InChan.rewind InChan.nextAnswer
  rcases c.script with _ | ⟨a, as⟩
  · simp only [InChan.plainRewind]; split <;> simp [h, InChan.restart]
  · cases a with
    | plain => simp only [InChan.plainRewind]; split <;> simp [h, InChan.restart]
    | granted => simp [InChan.restart]
    | error p sp => simp [InChan.spoil]
    | never => simpa

/-- A write only appends, and never opens a closed channel (R59, R65, R66). -/
theorem OutChan.write_grows (c : OutChan) {n : Nat} (v : BitVec n) :
    ∃ p, (c.write v).2.data = c.data ++ p ∧ (c.closed = true → (c.write v).2.closed = true) := by
  unfold OutChan.write OutChan.nextAnswer
  rcases c.script with _ | ⟨a, as⟩
  · simp only [OutChan.plainWrite]
    split
    · exact ⟨[], by simp, id⟩
    · exact ⟨_, rfl, id⟩
  · cases a with
    | plain =>
      simp only [OutChan.plainWrite]
      split
      · exact ⟨[], by simp, id⟩
      · exact ⟨_, rfl, id⟩
    | error k cl => exact ⟨_, rfl, fun h => by simp [OutChan.spoil]; exact Or.inl h⟩
    | never => exact ⟨[], by simp, id⟩

/-- A flush only appends, and never opens a closed channel (R60, R65, R67). -/
theorem OutChan.flush_grows (c : OutChan) :
    ∃ p, c.flush.2.data = c.data ++ p ∧ (c.closed = true → c.flush.2.closed = true) := by
  unfold OutChan.flush OutChan.nextAnswer
  rcases c.script with _ | ⟨a, as⟩
  · simp only [OutChan.plainFlush]
    split
    · exact ⟨[], by simp, id⟩
    · exact ⟨_, rfl, fun _ => rfl⟩
  · cases a with
    | plain =>
      simp only [OutChan.plainFlush]
      split
      · exact ⟨[], by simp, id⟩
      · exact ⟨_, rfl, fun _ => rfl⟩
    | error k cl => exact ⟨_, rfl, fun h => by simp [OutChan.spoil]; exact Or.inl h⟩
    | never => exact ⟨[], by simp, id⟩

end Sys2Proof.Machine
end

