-- ==== Sys2Proof/Laws/Port.lean ====
section
/-!
SUPPORT. The host register space: which number names which register (R52), what an update of FREQ, NODE or CODE leaves of the
other entries, and the bits of the windows' words (R54, R55).
-/

namespace Sys2Proof.Machine

open Sys2Proof

/-! ### Register numbers -/

theorem regOf_zero : regOf 0#16 = .cmd := by decide
theorem regOf_one : regOf 1#16 = .status := by decide
theorem regOf_two : regOf 2#16 = .root := by decide
theorem regOf_three : regOf 3#16 = .nnodes := by decide

theorem regOf_cmd {a : RegNum} (h : regOf a = .cmd) : a = 0#16 := by
  unfold regOf at h
  simp only at h
  split at h
  · exact BitVec.eq_of_toNat_eq (by simpa)
  · repeat' split at h
    all_goals cases h

theorem regOf_freq {n : Nat} (h : n ≤ 256) : regOf (BitVec.ofNat 16 (0x400 + n)) = .freq (BitVec.ofNat 9 n) := by
  have e : (BitVec.ofNat 16 (0x400 + n)).toNat = 0x400 + n := by rw [BitVec.toNat_ofNat]; omega
  simp only [regOf, e]
  repeat rw [if_neg (by omega)]
  rw [if_pos (by omega), Nat.add_sub_cancel_left]

theorem regOf_nodeLink {n : Nat} (h : n < 513) :
    regOf (BitVec.ofNat 16 (0x800 + n)) = .nodeLink (BitVec.ofNat 10 n) := by
  have e : (BitVec.ofNat 16 (0x800 + n)).toNat = 0x800 + n := by rw [BitVec.toNat_ofNat]; omega
  simp only [regOf, e]
  repeat rw [if_neg (by omega)]
  rw [if_pos (by omega), Nat.add_sub_cancel_left]

theorem regOf_nodeWeight {n : Nat} (h : n < 513) :
    regOf (BitVec.ofNat 16 (0xC00 + n)) = .nodeWeight (BitVec.ofNat 10 n) := by
  have e : (BitVec.ofNat 16 (0xC00 + n)).toNat = 0xC00 + n := by rw [BitVec.toNat_ofNat]; omega
  simp only [regOf, e]
  repeat rw [if_neg (by omega)]
  rw [if_pos (by omega), Nat.add_sub_cancel_left]

theorem regOf_codeWord {n k : Nat} (h : n ≤ 256) (hk : k ≤ 8) :
    regOf (BitVec.ofNat 16 (0x1000 + 16 * n + k)) = .codeWord (BitVec.ofNat 9 n) k := by
  have e : (BitVec.ofNat 16 (0x1000 + 16 * n + k)).toNat = 0x1000 + 16 * n + k := by rw [BitVec.toNat_ofNat]; omega
  have e1 : (0x1000 + 16 * n + k - 0x1000) / 16 = n := by omega
  have e2 : (0x1000 + 16 * n + k) % 16 = k := by omega
  simp only [regOf, e]
  repeat rw [if_neg (by omega)]
  rw [if_pos (by omega), e1, e2]

theorem regOf_unmapped {a : RegNum} (h0 : 3 < a.toNat) (h1 : ¬ (0x400 ≤ a.toNat ∧ a.toNat ≤ 0x500))
    (h2 : ¬ (0x800 ≤ a.toNat ∧ a.toNat ≤ 0xA00)) (h3 : ¬ (0xC00 ≤ a.toNat ∧ a.toNat ≤ 0xE00))
    (h4 : ¬ (0x1000 ≤ a.toNat ∧ a.toNat ≤ 0x2008 ∧ a.toNat % 16 ≤ 8)) : regOf a = .unmapped := by
  simp only [regOf]
  repeat rw [if_neg (by omega)]

/-! ### Entries -/

theorem toNat_ofNat_sym {n : Nat} (h : n ≤ 256) : (BitVec.ofNat 9 n).toNat = n := by
  rw [BitVec.toNat_ofNat]; omega

theorem State.freqOf_setFreq (s : State) {a : Sym} (b : Sym) (w : Weight) (ha : a.toNat < 256) :
    (s.setFreq a w).freqOf b = if a = b then w else s.freqOf b := by
  simp only [State.freqOf, State.setFreq_freq]
  by_cases h : a = b
  · subst h; simp [ha]
  · have : a.toNat ≠ b.toNat := fun e => h (BitVec.eq_of_toNat_eq e)
    simp [h, this]

/-- A write beyond FREQ[255] changes nothing: FREQ[256] is wired (R27). -/
theorem State.setFreq_beyond (s : State) {a : Sym} (w : Weight) (ha : 256 ≤ a.toNat) : s.setFreq a w = s := by
  have : s.freq.setIfInBounds a.toNat w = s.freq := by
    apply Vector.ext
    intro i hi
    rw [Vector.getElem_setIfInBounds, if_neg (by omega)]
  simp only [State.setFreq, this]

theorem State.freqOf_end (s : State) : s.freqOf endSym = 1#32 := by simp [State.freqOf, endSym]

theorem State.nodeAt_setNode (s : State) {i : Idx} (j : Idx) (x : Node) (hi : i.toNat < 513) :
    (s.setNode i x).nodeAt? j = if i = j then some x else s.nodeAt? j := by
  simp only [State.nodeAt?, State.setNode_node]
  by_cases h : i = j
  · subst h; simp [hi]
  · have : i.toNat ≠ j.toNat := fun e => h (BitVec.eq_of_toNat_eq e)
    simp [h, this]

theorem State.nodeAt_lt {s : State} {i : Idx} {x : Node} (h : s.nodeAt? i = some x) : i.toNat < 513 := by
  unfold State.nodeAt? at h
  by_contra hc
  simp [hc] at h

theorem State.codeOf_setCode (s : State) {a : Sym} (b : Sym) (c : Code) (ha : a.toNat ≤ 256) :
    (s.setCode a c).codeOf b = if a = b then c else s.codeOf b := by
  simp only [State.codeOf, State.setCode_code]
  by_cases h : a = b
  · subst h; simp [show a.toNat < 257 by omega]
  · have : a.toNat ≠ b.toNat := fun e => h (BitVec.eq_of_toNat_eq e)
    simp [h, this]

/-! ### The bits of the windows' words -/

theorem getLsbD_append' {m n : Nat} (x : BitVec m) (y : BitVec n) (i : Nat) :
    (x ++ y).getLsbD i = if i < n then y.getLsbD i else x.getLsbD (i - n) := BitVec.getLsbD_append

theorem Node.linkWord_bit (x : Node) (k : Nat) : x.linkWord.getLsbD k =
    if k < 10 then x.right.getLsbD k else if k < 20 then x.left.getLsbD (k - 10)
    else if k < 29 then x.sym.getLsbD (k - 20) else if k < 31 then false else (BitVec.ofBool x.leaf).getLsbD (k - 31) := by
  have e : x.linkWord.getLsbD k = (BitVec.ofBool x.leaf ++ 0#2 ++ x.sym ++ x.left ++ x.right).getLsbD k := rfl
  rw [e, getLsbD_append', getLsbD_append', getLsbD_append', getLsbD_append']
  simp only [Nat.sub_sub, BitVec.getLsbD_zero]
  by_cases c1 : k < 10
  · simp [c1]
  by_cases c2 : k < 20
  · simp [c1, c2, show k - 10 < 10 by omega]
  by_cases c3 : k < 29
  · simp [c1, c2, c3, show ¬ k - 10 < 10 by omega, show k - 20 < 9 by omega]
  by_cases c4 : k < 31
  · simp [c1, c2, c3, c4, show ¬ k - 10 < 10 by omega, show ¬ k - 20 < 9 by omega, show k - 29 < 2 by omega]
  · simp [c1, c2, c3, c4, show ¬ k - 10 < 10 by omega, show ¬ k - 20 < 9 by omega, show ¬ k - 29 < 2 by omega]

theorem Code.headWord_bit (c : Code) (k : Nat) : c.headWord.getLsbD k =
    if k < 9 then c.len.getLsbD k else if k < 31 then false else (BitVec.ofBool c.valid).getLsbD (k - 31) := by
  have e : c.headWord.getLsbD k = (BitVec.ofBool c.valid ++ 0#22 ++ c.len).getLsbD k := rfl
  rw [e, getLsbD_append', getLsbD_append']
  simp only [Nat.sub_sub, BitVec.getLsbD_zero]
  by_cases c1 : k < 9
  · simp [c1]
  by_cases c4 : k < 31
  · simp [c1, c4, show k - 9 < 22 by omega]
  · simp [c1, c4, show ¬ k - 9 < 22 by omega]

end Sys2Proof.Machine
end

