-- ==== Sys2Proof/Laws/Codes.lean ====
section
/-!
SUPPORT. Entries of the code table: a stored path reads back as the path, and it has the form R31 gives an entry.
-/

namespace Sys2Proof.Machine

open Sys2Proof Sys2Proof.Safety

theorem length_ofPath {p : Bits} (h : p.length ≤ 256) : (Code.ofPath p).len.toNat = p.length := by
  simp [Code.ofPath]; omega

theorem bit_ofPath (p : Bits) (j : Nat) (h : j < 256) : (Code.ofPath p).bits.getLsbD j = p.getD j false := by
  simp only [Code.ofPath]
  rw [BitVec.getLsbD_setWidth]
  simp [h, BitVec.getLsbD_ofBoolListLE, List.getD]

/-- The bits of a stored path are the path (R163, R31). -/
theorem toBits_ofPath {p : Bits} (h : p.length ≤ 256) : (Code.ofPath p).toBits = p := by
  unfold Code.toBits
  rw [length_ofPath h]
  apply List.ext_getElem
  · simp
  · intro j h1 h2
    simp only [List.getElem_map, List.getElem_range]
    rw [bit_ofPath p j (by omega)]
    simp [List.getD, h2]

theorem codeEntryOk_none : codeEntryOk Code.none := ⟨by simp [Code.none], by simp [Code.none], fun _ => rfl⟩

theorem codeEntryOk_ofPath {p : Bits} (h : p.length ≤ 256) : codeEntryOk (Code.ofPath p) := by
  refine ⟨by rw [length_ofPath h]; exact h, ?_, by simp [Code.ofPath]⟩
  intro j hj
  rw [length_ofPath h] at hj
  by_cases hlt : j < 256
  · rw [bit_ofPath p j hlt]
    simp [List.getD, List.getElem?_eq_none hj]
  · exact BitVec.getLsbD_of_ge _ _ (by omega)

end Sys2Proof.Machine
end

