-- ==== Sys2Proof/Laws/Decode.lean ====
section
/-!
SUPPORT. The decoders and encoders: the fields of an EMIT word, what a legal command word is, the records at the front of a
stream.
-/

namespace Sys2Proof

/-! ### Command words -/

theorem op_emit (sym : Sym) : CmdWord.op (0x9000#16 ||| sym.setWidth 16) = 9#4 := by
  have h := sym.isLt
  apply BitVec.eq_of_toNat_eq
  simp only [CmdWord.op, BitVec.extractLsb'_toNat, BitVec.toNat_or]
  have e3 : (BitVec.setWidth 16 sym).toNat = sym.toNat := by simp; omega
  have e4 : (0x9000#16).toNat = 2 ^ 9 * 72 := by decide
  rw [e3, e4, ← Nat.two_pow_add_eq_or_of_lt h, Nat.shiftRight_eq_div_pow]
  simp; omega

theorem rsv_emit (sym : Sym) : CmdWord.rsv (0x9000#16 ||| sym.setWidth 16) = 0#3 := by
  have h := sym.isLt
  apply BitVec.eq_of_toNat_eq
  simp only [CmdWord.rsv, BitVec.extractLsb'_toNat, BitVec.toNat_or]
  have e3 : (BitVec.setWidth 16 sym).toNat = sym.toNat := by simp; omega
  have e4 : (0x9000#16).toNat = 2 ^ 9 * 72 := by decide
  rw [e3, e4, ← Nat.two_pow_add_eq_or_of_lt h, Nat.shiftRight_eq_div_pow]
  simp; omega

theorem imm9_emit (sym : Sym) : CmdWord.imm9 (0x9000#16 ||| sym.setWidth 16) = sym := by
  have h := sym.isLt
  apply BitVec.eq_of_toNat_eq
  simp only [CmdWord.imm9, BitVec.extractLsb'_toNat, BitVec.toNat_or]
  have e3 : (BitVec.setWidth 16 sym).toNat = sym.toNat := by simp; omega
  have e4 : (0x9000#16).toNat = 2 ^ 9 * 72 := by decide
  rw [e3, e4, ← Nat.two_pow_add_eq_or_of_lt h, Nat.shiftRight_eq_div_pow]
  simp; omega

theorem decodeCommand_emit (sym : Sym) :
    decodeCommand (commandWord (.emit sym)) = if sym.isSymbol then .ok (.emit sym) else .error .symbol := by
  simp only [decodeCommand, commandWord, op_emit, rsv_emit, imm9_emit]
  simp

/-- Everything a command word can decode to: a well-formed command, of which it is the word. -/
theorem decodeCommand_facts {c : CmdWord} {i : Instr} (h : decodeCommand c = .ok i) :
    i.isCommand = true ∧ i.wellFormed = true ∧ commandWord i = c := by
  unfold decodeCommand at h
  split at h
  · cases h
  rename_i hr
  simp only [ne_eq, not_not] at hr
  have key : ∀ n : Nat, c.op.toNat = n → c.imm9 = 0 → c = BitVec.ofNat 16 (n * 4096) := by
    intro n hn h9
    have h1 : c.rsv = 0#3 := hr
    have h9 : c.imm9 = 0#9 := h9
    have e1 := congrArg BitVec.toNat h1
    have e9 := congrArg BitVec.toNat h9
    simp [CmdWord.rsv, CmdWord.imm9, CmdWord.op, BitVec.extractLsb'_toNat, Nat.shiftRight_eq_div_pow] at e1 e9 hn
    apply BitVec.eq_of_toNat_eq
    simp
    have := c.isLt
    omega
  split at h
  · rename_i hop
    split at h
    · rename_i hs
      cases h
      refine ⟨rfl, hs, ?_⟩
      have h1 : c.rsv = 0#3 := hr
      have e1 := congrArg BitVec.toNat h1
      have eo := congrArg BitVec.toNat hop
      simp [CmdWord.rsv, CmdWord.op, BitVec.extractLsb'_toNat, Nat.shiftRight_eq_div_pow] at e1 eo
      apply BitVec.eq_of_toNat_eq
      simp only [commandWord, CmdWord.imm9]
      rw [BitVec.toNat_or]
      have hlt := c.isLt
      have e3 : (BitVec.setWidth 16 (BitVec.extractLsb' 0 9 c)).toNat = c.toNat % 512 := by
        simp [BitVec.extractLsb'_toNat]
        omega
      rw [e3]
      have e4 : (0x9000#16).toNat = 2 ^ 9 * 72 := by decide
      rw [e4, ← Nat.two_pow_add_eq_or_of_lt (by omega : c.toNat % 512 < 2 ^ 9)]
      omega
    · cases h
  · split at h
    · cases h
    · rename_i j hj
      split at h
      · rename_i h9
        cases h
        unfold plainCommand at hj
        split at hj <;> cases hj <;> refine ⟨rfl, rfl, ?_⟩ <;>
        · rename_i e
          exact (key _ e h9).symm
      · cases h

/-! ### Stream records -/

theorem decodeMagic_bits (m : Word) (rest : Bits) : decodeMagic (bitsOf m ++ rest) = .ok (.streamMagic m, rest) := by
  have h : ¬ (bitsOf m ++ rest).length < 32 := by simp
  rw [decodeMagic, if_neg h, List.take_left' (by simp), List.drop_left' (by simp), valOf_bitsOf]

theorem decodeHeader_leaf (sym : Sym) (rest : Bits) :
    decodeHeader (true :: (bitsOf sym ++ rest)) = .ok (.hdrLeaf sym, rest) := by
  have h : ¬ (bitsOf sym ++ rest).length < 9 := by simp
  rw [decodeHeader, if_neg h, List.take_left' (by simp), List.drop_left' (by simp), valOf_bitsOf]

end Sys2Proof
end

