-- ==== Sys2Proof/Laws/Exec.lean ====
section
/-!
SUPPORT. The commands' acceptance (R84): what every command word does in BUSY and in FAILED.
-/

namespace Sys2Proof.Machine

open Sys2Proof

/-- In BUSY every command is dropped. -/
theorem exec_busy (i : Instr) (hi : i.isCommand = true) (s : State) (hb : s.phase = .busy) :
    exec i s = .next s.drop := by
  cases i <;> simp_all [exec, Instr.isCommand, execClr, execCount, execBuild, execWrmagic, execWrhdr, execRdmagic, execRdhdr, execDerive,
    execEmit, execEncode, execFlush, execDecode, execCompress, execDecompress, issue_dropped, illegal]

/-- In FAILED every command but CLR is dropped. -/
theorem exec_failed (i : Instr) (hi : i.isCommand = true) (hc : i ≠ .clr) (s : State) (hb : s.phase = .failed) :
    exec i s = .next s.drop := by
  cases i <;> simp_all [exec, Instr.isCommand, execCount, execBuild, execWrmagic, execWrhdr, execRdmagic, execRdhdr, execDerive,
    execEmit, execEncode, execFlush, execDecode, execCompress, execDecompress, issue_dropped, illegal]

end Sys2Proof.Machine
end

