-- ==== Sys2Proof/Laws/Lines.lean ====
section
/-!
SUPPORT. One lemma for each shared operation of the commands' lines, which says everything it can do, and what every line does
to STATE and ERR.
-/

namespace Sys2Proof.Machine

open Sys2Proof

/-- removeMin takes an entry of PQ out of it and touches nothing else (R33). -/
theorem removeMin_cases {s t : State} {m : Idx} (h : s.removeMin = some (m, t)) : ∃ q, t = { s with pq := q } := by
  unfold State.removeMin at h
  split at h <;> cases h
  exact ⟨_, rfl⟩

/-- Everything the return of rd() can do (R147). -/
theorem closeNode_cases {st : List Frame} {i : Idx} {ts : List Task} {s t : State} (h : closeNode st i ts s = .next t) :
    ∃ node st' todo, t = { s with node := node, stack := st', todo := todo } ∧
      ((∃ j, todo = .checkRoot j :: ts) ∨ todo = .readTag :: ts) ∧
      (∀ f ∈ st', (∃ j l, f = .half j l) ∨ f ∈ st) := by
  induction st generalizing i s with
  | nil => cases h; exact ⟨_, _, _, rfl, Or.inl ⟨_, rfl⟩, by simp⟩
  | cons f st ih =>
    cases f with
    | visit _ => cases h
    | right _ _ => cases h
    | opened p => cases h; exact ⟨_, _, _, rfl, Or.inr rfl, by
        intro f hf
        rcases List.mem_cons.1 hf with rfl | hf
        · exact Or.inl ⟨_, _, rfl⟩
        · exact Or.inr (List.mem_cons_of_mem _ hf)⟩
    | half p l =>
      obtain ⟨n, st', td, rfl, h1, h2⟩ := ih h
      exact ⟨n, st', td, rfl, h1, fun f hf => (h2 f hf).imp id (List.mem_cons_of_mem _)⟩

/-- The return of rd() through half-read nodes closes them (R147). -/
theorem closeNode_halves (fs : List (Idx × Idx)) (st : List Frame) (i : Idx) (ts : List Task) (s : State) :
    closeNode ((fs.map fun f => .half f.1 f.2) ++ st) i ts s =
      closeNode st (Safety.closeHalves fs i s).1 ts (Safety.closeHalves fs i s).2 := by
  induction fs generalizing i s with
  | nil => rfl
  | cons f fs ih => exact ih f.1 (s.setNode f.1 (Node.mkInternal 0#32 f.2 i))

/-- A block that goes by R174 and R172 refuses no byte for its count. -/
theorem refusesByte_lenient {s : State} (h : s.params.zeroCountFails = false) (v : Byte) : s.refusesByte v = false := by
  simp [State.refusesByte, h]

/-- Only the byte 0x00 can be the placeholder's (R128). -/
theorem refusesByte_of_ne_zero {s : State} {v : Byte} (h : v ≠ 0#8) : s.refusesByte v = false := by
  have : v.setWidth 9 ≠ placeholderSym := by
    intro e
    have := congrArg BitVec.toNat e
    simp [placeholderSym] at this
    exact h (BitVec.eq_of_toNat_eq (by simp; omega))
  simp [State.refusesByte, State.isPlaceholder, this]

/-- After RDHDR no symbol is the placeholder: ROOT's weight is 0 (R28, R147). -/
theorem refusesByte_bare {s : State} (h : s.weightOf s.root = 0#32) (v : Byte) : s.refusesByte v = false := by
  simp [State.refusesByte, State.isPlaceholder, h]

/-- What a refusal depends on: the parameter and the arena. -/
theorem refusesByte_congr {s t : State} (hp : t.params = s.params) (hn : t.node = s.node) (hr : t.root = s.root) (v : Byte) :
    t.refusesByte v = s.refusesByte v := by
  have hi : ∀ i, t.nodeAt? i = s.nodeAt? i := fun i => by simp only [State.nodeAt?, hn]
  have hw : t.weightOf t.root = s.weightOf s.root := by rw [State.weightOf, State.weightOf, hr, hi]
  rw [State.refusesByte, State.refusesByte, State.isPlaceholder, State.isPlaceholder, hp, hw, hi]

/-- A line that reads a node goes on with it or stops the model. -/
theorem withNode_cases {s t : State} {i : Idx} {k : Node → Result} (h : s.withNode i k = .next t) : ∃ x, k x = .next t := by
  unfold State.withNode at h
  split at h
  · cases h
  · exact ⟨_, h⟩

/-- insert_leaves() writes the arena, NNODES and PQ alone (R127). -/
theorem insertLeaves_frame (s : State) : ∃ n m q, s.insertLeaves = { s with node := n, nnodes := m, pq := q } := by
  unfold State.insertLeaves
  generalize s.literalsEmpty = e
  generalize allSymbols = l
  induction l generalizing s with
  | nil => exact ⟨_, _, _, rfl⟩
  | cons a l ih =>
    simp only [List.foldl_cons]
    have : ∃ n m q, insertLeaf e s a = { s with node := n, nnodes := m, pq := q } := by
      unfold insertLeaf; split
      · exact ⟨_, _, _, rfl⟩
      · exact ⟨_, _, _, rfl⟩
    obtain ⟨n, m, q, h⟩ := this
    rw [h]
    obtain ⟨n', m', q', h'⟩ := ih { s with node := n, nnodes := m, pq := q }
    exact ⟨n', m', q', by rw [h']⟩

/-- Everything a merge of two nodes can do (R129, R130). -/
theorem mergePair_cases {a b : Idx} {s t : State} {k : State → Result} (h : mergePair a b s k = .next t) :
    t = s.fail .weightOverflow ∨ ∃ x, k (s.queueNode x) = .next t := by
  unfold mergePair at h
  simp only at h
  split at h
  · exact Or.inr ⟨_, h⟩
  · left; cases h; rfl

/-- Everything the counting of a byte can do (R113). -/
theorem countValue_cases {v : Byte} {s t : State} {k : State → Result} (h : countValue v s k = .next t) :
    t = s.fail .weightOverflow ∨ ∃ a w, k (s.setFreq a w) = .next t := by
  unfold countValue at h
  simp only at h
  split at h
  · exact Or.inr ⟨_, _, h⟩
  · left; cases h; rfl

/-! ### STATE, ERR and CMD -/

/-- What a line does to STATE, ERR and CMD: it raises a fault, or it leaves the three alone. -/
def Phased (s t : State) : Prop :=
  (∃ s' e, e ≠ .none ∧ t = State.fail s' e) ∨ (t.phase = s.phase ∧ t.err = s.err ∧ t.cmd = s.cmd)

theorem phased_refl (s : State) : Phased s s := Or.inr ⟨rfl, rfl, rfl⟩

theorem phased_fail (s s' : State) {e : ErrCode} (he : e ≠ .none := by decide) : Phased s (s'.fail e) :=
  Or.inl ⟨s', e, he, rfl⟩

theorem phased_raise {s s' t : State} {e : ErrCode} (h : s'.raise e = .next t) (he : e ≠ .none := by decide) :
    Phased s t := by
  cases h; exact phased_fail _ _ he

theorem phased_goOn {s s' t : State} {ts : List Task} (h : s'.goOn ts = .next t)
    (hs : s'.phase = s.phase ∧ s'.err = s.err ∧ s'.cmd = s.cmd := by exact ⟨rfl, rfl, rfl⟩) : Phased s t := by
  cases h; exact Or.inr hs

theorem phased_readIn {s t : State} {n : Nat} {k : Option (BitVec n) → State → Result} (h : s.readIn n k = .next t)
    (hk : ∀ r c, k r { s with inp := some c } = .next t → Phased s t) : Phased s t := by
  rcases State.readIn_cases h with ⟨c, rfl⟩ | rfl | ⟨r, c, h⟩
  · exact phased_fail _ _
  · exact phased_refl _
  · exact hk r c h

theorem phased_rewindIn {s t : State} {k : State → Result} (h : s.rewindIn k = .next t)
    (hk : ∀ c, k { s with inp := some c } = .next t → Phased s t) : Phased s t := by
  rcases State.rewindIn_cases h with ⟨c, rfl⟩ | rfl | ⟨c, h⟩
  · exact phased_fail _ _
  · exact phased_refl _
  · exact hk c h

theorem phased_writeOut {s t : State} {n : Nat} {v : BitVec n} {k : State → Result} (h : s.writeOut v k = .next t)
    (hk : ∀ c, k { s with out := some c } = .next t → Phased s t) : Phased s t := by
  rcases State.writeOut_cases h with ⟨c, rfl⟩ | rfl | ⟨c, h⟩
  · exact phased_fail _ _
  · exact phased_refl _
  · exact hk c h

theorem phased_flushOut {s t : State} {k : State → Result} (h : s.flushOut k = .next t)
    (hk : ∀ c, k { s with out := some c } = .next t → Phased s t) : Phased s t := by
  rcases State.flushOut_cases h with ⟨c, rfl⟩ | rfl | ⟨c, h⟩
  · exact phased_fail _ _
  · exact phased_refl _
  · exact hk c h

/-- A line raises a fault or leaves STATE, ERR and CMD alone. -/
theorem runTask_phase {x : Task} {ts : List Task} {s t : State} (h : runTask x ts s = .next t) : Phased s t := by
  cases x <;> simp only [runTask] at h
  case countClear => exact phased_goOn h
  case countByte =>
    refine phased_readIn h fun r c h => ?_
    cases r with
    | none => exact phased_goOn h
    | some v =>
      rcases countValue_cases h with rfl | ⟨a, w, h⟩
      · exact phased_fail _ _
      · exact phased_goOn h
  case rewind => exact phased_rewindIn h fun c h => phased_goOn h
  case treeClear => exact phased_goOn h
  case insertLeaves =>
    obtain ⟨n, m, q, e⟩ := insertLeaves_frame s
    unfold insertLeaves at h; rw [e] at h
    exact phased_goOn h
  case merge =>
    unfold merge at h
    split at h
    · exact phased_goOn h
    · split at h
      · cases h
      · rename_i a s1 h1
        split at h
        · cases h
        · rename_i b s2 h2
          obtain ⟨q1, rfl⟩ := removeMin_cases h1
          obtain ⟨q2, rfl⟩ := removeMin_cases h2
          rcases mergePair_cases h with rfl | ⟨x, h⟩
          · exact phased_fail _ _
          · exact phased_goOn h
  case takeRoot =>
    unfold takeRoot at h
    split at h
    · cases h
    · rename_i a s1 h1
      obtain ⟨q1, rfl⟩ := removeMin_cases h1
      exact phased_goOn h
  case codeClear => exact phased_goOn h
  case walk =>
    obtain ⟨x, h⟩ := withNode_cases h
    split at h
    · split at h
      · unfold walkOn at h
        split at h
        · exact phased_goOn h
        · exact phased_goOn h
        · cases h
      · cases h
    · split at h
      · exact phased_goOn h
      · cases h
  case codeDone => exact phased_goOn h
  case writeMagic => exact phased_writeOut h fun c h => phased_goOn h
  case writeTree => exact phased_goOn h
  case writeNode =>
    unfold writeNode at h
    split at h
    · exact phased_goOn h
    · obtain ⟨x, h⟩ := withNode_cases h
      unfold writeRecord at h
      split at h <;> exact phased_writeOut h fun c h => phased_goOn h
    · cases h
  case writeSym =>
    unfold writeSym at h
    split at h
    · exact phased_writeOut h fun c h => phased_goOn h
    · cases h
  case readMagic =>
    refine phased_readIn h fun r c h => ?_
    cases r with
    | none => exact phased_raise h
    | some m =>
      simp only [checkMagic] at h
      split at h
      · exact phased_goOn h
      · exact phased_raise h
  case readTag =>
    refine phased_readIn h fun r c h => ?_
    cases r with
    | none => exact phased_raise h
    | some b =>
      simp only [tagRead] at h
      split at h
      · split at h <;> exact phased_goOn h
      · exact phased_raise h
  case readSym =>
    refine phased_readIn h fun r c h => ?_
    cases r with
    | none => exact phased_raise h
    | some sym =>
      simp only [symRead] at h
      split at h
      · obtain ⟨n, st, td, rfl, _⟩ := closeNode_cases h
        exact Or.inr ⟨rfl, rfl, rfl⟩
      · exact phased_raise h
  case checkRoot =>
    obtain ⟨x, h⟩ := withNode_cases h
    split at h
    · exact phased_raise h
    · exact phased_goOn h
  case encodeByte =>
    refine phased_readIn h fun r c h => ?_
    cases r with
    | none => exact phased_goOn h
    | some v =>
      simp only at h
      split at h
      · exact phased_raise h
      · exact phased_goOn h
  case emit =>
    unfold emit at h
    split at h
    · exact phased_goOn h
    · exact phased_raise h
  case emitBit =>
    unfold emitBit at h
    split at h
    · exact phased_writeOut h fun c h => phased_goOn h
    · exact phased_goOn h
  case decodeStart => exact phased_goOn h
  case decodeBit =>
    refine phased_readIn h fun r c h => ?_
    cases r with
    | none => exact phased_raise h
    | some b =>
      obtain ⟨x, h⟩ := withNode_cases h
      obtain ⟨y, h⟩ := withNode_cases h
      split at h
      · split at h <;> exact phased_goOn h
      · exact phased_goOn h
  case decodeOut =>
    unfold decodeOut at h
    split at h
    · exact phased_writeOut h fun c h => phased_goOn h
    · cases h
  case flush => exact phased_flushOut h fun c h => phased_goOn h

end Sys2Proof.Machine
end

