-- ==== Sys2Proof/Laws/PerInstr.lean ====
section
/-!
SUPPORT. The family EncodingLength: how long every instruction's encoding is, and what its fixed bits are (R80 to R83, R91,
R92, R94).
-/

namespace Sys2Proof.Laws.EncodingLength

open Sys2Proof

/-- A command is one word whose reserved field is 0 and no bits of a stream (R80, R81, R86 item 2); a magic is 32 bits, an
internal record 1, a leaf record 10 (R91, R92, R94). -/
def Statement (i : Instr) : Prop :=
  match i with
  | .streamMagic _ => (recordBits i).length = 32
  | .hdrInternal => (recordBits i).length = 1
  | .hdrLeaf _ => (recordBits i).length = 10 ∧ (recordBits i).head? = some true
  | .emit sym => recordBits i = [] ∧ (commandWord i).op = 9 ∧ (commandWord i).rsv = 0 ∧ (commandWord i).imm9 = sym
  | .clr | .count | .build | .wrmagic | .wrhdr | .rdmagic | .rdhdr | .derive | .encode | .flush | .decode | .compress
  | .decompress => recordBits i = [] ∧ (commandWord i).rsv = 0 ∧ (commandWord i).imm9 = 0

theorem clr : Statement .clr := ⟨rfl, by decide, by decide⟩
theorem count : Statement .count := ⟨rfl, by decide, by decide⟩
theorem build : Statement .build := ⟨rfl, by decide, by decide⟩
theorem wrmagic : Statement .wrmagic := ⟨rfl, by decide, by decide⟩
theorem wrhdr : Statement .wrhdr := ⟨rfl, by decide, by decide⟩
theorem rdmagic : Statement .rdmagic := ⟨rfl, by decide, by decide⟩
theorem rdhdr : Statement .rdhdr := ⟨rfl, by decide, by decide⟩
theorem derive : Statement .derive := ⟨rfl, by decide, by decide⟩
theorem emit (sym : Sym) : Statement (.emit sym) := ⟨rfl, op_emit sym, rsv_emit sym, imm9_emit sym⟩
theorem encode : Statement .encode := ⟨rfl, by decide, by decide⟩
theorem flush : Statement .flush := ⟨rfl, by decide, by decide⟩
theorem decode : Statement .decode := ⟨rfl, by decide, by decide⟩
theorem compress : Statement .compress := ⟨rfl, by decide, by decide⟩
theorem decompress : Statement .decompress := ⟨rfl, by decide, by decide⟩
theorem streamMagic (m : Word) : Statement (.streamMagic m) := length_bitsOf m
theorem hdrInternal : Statement .hdrInternal := rfl
theorem hdrLeaf (sym : Sym) : Statement (.hdrLeaf sym) := ⟨by simp [recordBits], rfl⟩

end Sys2Proof.Laws.EncodingLength
end

