-- ==== Sys2Proof/Laws/Step.lean ====
section
/-!
SUPPORT. Everything a step can do: the host's due action, or engine steps, or nothing. A stream record that is taken as an
instruction is one or two engine steps, so what every engine step and every host action keeps, every step keeps.
-/

namespace Sys2Proof.Machine

open Sys2Proof Sys2Proof.Safety

/-- Everything a step can do. -/
theorem step_cases {s t : State} (h : step s = .next t) :
    (∃ e rest, s.eventDue = true ∧ s.host = e :: rest ∧ hostEvent e { s with host := rest } = .next t) ∨
    (s.eventDue = false ∧ s.phase = .busy ∧
      ((∃ i, fetchRecord s = some i ∧ exec i s = .next t) ∨ (fetchRecord s = none ∧ engineStep s = .next t))) ∨
    (s.eventDue = false ∧ s.phase ≠ .busy ∧ t = s) := by
  simp only [step, turn] at h
  by_cases he : s.eventDue = true
  · left
    rw [if_pos he] at h
    cases hh : s.host with
    | nil => simp [State.eventDue, hh] at he
    | cons e rest => rw [hh] at h; exact ⟨e, rest, he, rfl, h⟩
  · rw [if_neg he] at h
    have he' : s.eventDue = false := by simpa using he
    right
    by_cases hb : s.phase = .busy
    · left
      rw [engineTurn, if_pos hb] at h
      refine ⟨he', hb, ?_⟩
      cases hf : fetchRecord s with
      | none => rw [hf] at h; exact Or.inr ⟨rfl, h⟩
      | some i => rw [hf] at h; exact Or.inl ⟨i, rfl, h⟩
    · right
      rw [engineTurn, if_neg hb] at h
      cases h
      exact ⟨he', hb, rfl⟩

/-- What a fetched record says of the state: the engine reads such a record, and IN holds it next. -/
theorem fetchRecord_cases {s : State} {i : Instr} (h : fetchRecord s = some i) :
    s.phase = .busy ∧ s.quiet = true ∧ ∃ c ts, s.inp = some c ∧ c.script = [] ∧
      ((s.todo = .readMagic :: ts ∧ ∃ rest, decodeMagic (c.data.drop c.pos) = .ok (i, rest)) ∨
       (s.todo = .readTag :: ts ∧ ∃ rest, decodeHeader (c.data.drop c.pos) = .ok (i, rest))) := by
  unfold fetchRecord at h
  split at h
  · rename_i x ts c hb ht hi
    split at h
    · rename_i hc
      refine ⟨hb, hc.2, c, ts, hi, hc.1, ?_⟩
      split at h
      · left; refine ⟨ht, ?_⟩
        cases hd : decodeMagic (c.data.drop c.pos) with
        | error e => simp [hd, Except.toOption] at h
        | ok x => simp [hd, Except.toOption] at h; subst h; exact ⟨x.2, rfl⟩
      · right; refine ⟨ht, ?_⟩
        cases hd : decodeHeader (c.data.drop c.pos) with
        | error e => simp [hd, Except.toOption] at h
        | ok x => simp [hd, Except.toOption] at h; subst h; exact ⟨x.2, rfl⟩
      · cases h
    · cases h
  · cases h

theorem decodeMagic_ok {bits rest : Bits} {i : Instr} (h : decodeMagic bits = .ok (i, rest)) :
    ∃ m, i = .streamMagic m ∧ bits = bitsOf m ++ rest := by
  unfold decodeMagic at h
  split at h
  · cases h
  · rename_i hl
    cases h
    exact ⟨_, rfl, by rw [bitsOf_valOf _ _ (by simp; omega)]; simp⟩

theorem decodeHeader_ok {bits rest : Bits} {i : Instr} (h : decodeHeader bits = .ok (i, rest)) :
    (i = .hdrInternal ∧ bits = false :: rest) ∨ ∃ sym, i = .hdrLeaf sym ∧ bits = true :: (bitsOf sym ++ rest) := by
  rcases bits with _ | ⟨b, r⟩
  · cases h
  cases b
  · cases h; exact Or.inl ⟨rfl, rfl⟩
  · right
    simp only [decodeHeader] at h
    split at h
    · cases h
    · rename_i hl
      cases h
      exact ⟨_, rfl, by rw [bitsOf_valOf _ _ (by simp; omega)]; simp⟩

/-- Bits that stand next in IN are within its data. -/
theorem inHas_of_drop {s : State} {c : InChan} {bits : Bits} (hi : s.inp = some c) (hs : c.script = [])
    (hd : c.data.drop c.pos = bits) (hne : bits ≠ []) : inHas s c bits := by
  refine ⟨hi, hs, ?_, hd⟩
  by_contra hc
  rw [List.drop_eq_nil_of_le (by omega)] at hd
  exact hne hd.symm

/-- The magic record is the engine step that reads the magic. -/
theorem streamMagic_engineStep {s : State} {c : InChan} {m : Word} {rest : Bits} {ts : List Task} (hb : s.phase = .busy)
    (hq : s.quiet = true) (ht : s.todo = .readMagic :: ts) (hi : inHas s c (bitsOf m ++ rest)) :
    exec (.streamMagic m) s = engineStep s := by
  rw [engineStep_cons hq ht]
  simp only [exec, execStreamMagic, hb, ht, runTask, readMagic, State.tick_of_quiet hq]
  rw [State.readIn_value hi (by simp), State.readIn_value hi (by simp)]
  simp

/-- The internal record is the engine step that reads the tag. -/
theorem hdrInternal_engineStep {s : State} {c : InChan} {rest : Bits} {ts : List Task} (hb : s.phase = .busy)
    (hq : s.quiet = true) (ht : s.todo = .readTag :: ts) (hi : inHas s c (false :: rest)) :
    exec .hdrInternal s = engineStep s := by
  have hi' : inHas s c ([false] ++ rest) := hi
  rw [engineStep_cons hq ht]
  simp only [exec, execHdrInternal, recordTag, hb, ht, runTask, readTag, State.tick_of_quiet hq]
  rw [State.readIn_value (n := 1) hi' rfl, State.readIn_value (n := 1) hi' rfl]
  rfl

/-- The tag of the leaf record is the engine step that reads the tag. -/
theorem recordTag_engineStep {s : State} {c : InChan} {rest : Bits} {ts : List Task}
    (hq : s.quiet = true) (ht : s.todo = .readTag :: ts) (hi : inHas s c (true :: rest)) :
    recordTag true ts s = engineStep s := by
  have hi' : inHas s c ([true] ++ rest) := hi
  rw [engineStep_cons hq ht]
  simp only [recordTag, runTask, readTag, State.tick_of_quiet hq]
  rw [State.readIn_value (n := 1) hi' rfl, State.readIn_value (n := 1) hi' rfl]
  rfl

/-- What the reading of a leaf's tag leaves: the reading of its symbol, or TREE_OVERFLOW (R149). -/
theorem recordTag_true {s : State} {c : InChan} {rest : Bits} {ts : List Task} (hq : s.quiet = true)
    (hi : inHas s c (true :: rest)) : recordTag true ts s =
      if s.nnodes.toNat < nodeCap then
        .next { s with inp := some (advance c 1), nnodes := s.nnodes + 1#10, todo := .readSym s.nnodes :: ts }
      else .next (State.fail { s with inp := some (advance c 1) } .treeOverflow) := by
  have hi' : inHas s c ([true] ++ rest) := hi
  simp only [recordTag, State.tick_of_quiet hq]
  rw [State.readIn_value (n := 1) hi' rfl]
  simp only [tagRead]
  split <;> rfl

/-- The leaf record is the two engine steps that read the tag and the symbol, or the one that finds the arena full. -/
theorem hdrLeaf_engineStep {s : State} {c : InChan} {sym : Sym} {rest : Bits} {ts : List Task} (hb : s.phase = .busy)
    (hq : s.quiet = true) (ht : s.todo = .readTag :: ts) (hi : inHas s c (true :: (bitsOf sym ++ rest))) :
    (s.nnodes.toNat < nodeCap ∧ ∃ m, engineStep s = .next m ∧ m.phase = .busy ∧ m.quiet = true ∧
      exec (.hdrLeaf sym) s = engineStep m) ∨
    (¬ s.nnodes.toNat < nodeCap ∧ exec (.hdrLeaf sym) s = engineStep s) := by
  have he := recordTag_engineStep hq ht hi
  have hr := recordTag_true (ts := ts) hq hi
  have hx : exec (.hdrLeaf sym) s = match recordTag true ts s with
      | .next s' => recordSym sym s'
      | .fault f => .fault f
      | .refused r => .refused r := by
    simp only [exec, execHdrLeaf, hb, ht] <;> rfl
  by_cases hn : s.nnodes.toNat < nodeCap
  · left
    rw [if_pos hn] at hr
    refine ⟨hn, _, he.symm.trans hr, hb, hq, ?_⟩
    rw [hx, hr]
    generalize hm : ({ s with inp := some (advance c 1), nnodes := s.nnodes + 1#10, todo := .readSym s.nnodes :: ts } :
      State) = m
    have hmq : m.quiet = true := by rw [← hm]; exact hq
    have hmb : m.phase = .busy := by rw [← hm]; exact hb
    have hmt : m.todo = .readSym s.nnodes :: ts := by rw [← hm]
    have hi2 : inHas m (advance c 1) (bitsOf sym ++ rest) := inHas_advance (p := [true]) hi _ (by rw [← hm]; rfl)
    rw [engineStep_cons hmq hmt]
    simp only [recordSym, hmb, hmt, runTask, readSym]
    rw [State.tick_of_quiet hmq, State.readIn_value hi2 (by simp), State.readIn_value hi2 (by simp)]
    simp
  · right
    rw [if_neg hn] at hr
    refine ⟨hn, ?_⟩
    rw [← he, hx, hr]
    simp [recordSym]

/-- A record that is taken as an instruction is a run of engine steps. -/
theorem runs_of_record {s t : State} {i : Instr} (hf : fetchRecord s = some i) (h : exec i s = .next t) :
    ∃ k, 1 ≤ k ∧ Runs k s t := by
  obtain ⟨hb, hq, c, ts, hi, hs, hd⟩ := fetchRecord_cases hf
  have hr := State.running_of_quiet hq hb
  rcases hd with ⟨ht, rest, hd⟩ | ⟨ht, rest, hd⟩
  · obtain ⟨m, rfl, hbits⟩ := decodeMagic_ok hd
    have hh : inHas s c (bitsOf m ++ rest) := inHas_of_drop hi hs hbits
      (fun e => by have := congrArg List.length e; simp at this)
    rw [streamMagic_engineStep hb hq ht hh] at h
    exact ⟨1, le_rfl, runs_one hr h⟩
  · rcases decodeHeader_ok hd with ⟨rfl, hbits⟩ | ⟨sym, rfl, hbits⟩
    · rw [hdrInternal_engineStep hb hq ht (inHas_of_drop hi hs hbits (by simp))] at h
      exact ⟨1, le_rfl, runs_one hr h⟩
    · rcases hdrLeaf_engineStep hb hq ht (inHas_of_drop hi hs hbits (by simp)) with ⟨_, m, hm, hmb, hmq, hx⟩ | ⟨_, hx⟩
      · rw [hx] at h
        exact ⟨2, by omega, runs_succ hr hm (runs_one (State.running_of_quiet hmq hmb) h)⟩
      · rw [hx] at h
        exact ⟨1, le_rfl, runs_one hr h⟩

/-- The pseudocode an accepted command may start, with the flag it needs (R85). -/
def startable (s : State) (program : List Task) : Prop :=
  program ∈ [countProgram, buildProgram, wrmagicProgram, rdmagicProgram, rdhdrProgram, flushProgram, compressProgram,
    decompressProgram] ∨
  (s.tv = true ∧ program ∈ [wrhdrProgram, deriveProgram, decodeProgram]) ∨
  (s.cv = true ∧ (program = encodeProgram ∨ ∃ sym, program = emitProgram sym))

/-- Everything a command can do. -/
inductive CommandOutcome (i : Instr) (s : State) : State → Prop where
  /-- It is dropped (R84). -/
  | dropped (hp : s.phase = .busy ∨ s.phase = .failed) : CommandOutcome i s s.drop
  /-- CLR clears the machine (R111). -/
  | cleared (hi : i = .clr) (hp : s.phase ≠ .busy) : CommandOutcome i s s.clear
  /-- It fails at acceptance (R85). -/
  | failed (e : ErrCode) (he : e ≠ .none) (hp : s.phase = .idle ∨ s.phase = .done) : CommandOutcome i s (s.fail e)
  /-- Its pseudocode runs (R84). -/
  | ran (k : Nat) (w : CmdWord) (program : List Task) (t : State) (hp : s.phase = .idle ∨ s.phase = .done)
    (hs : startable s program) (hr : Runs k (s.begin w program) t) : CommandOutcome i s t

theorem issue_outcome {i : Instr} {w : CmdWord} {pre : State → Bool} {program : List Task} {s t : State}
    (h : issue w pre program s = .next t) (hs : pre s = true → startable s program) : CommandOutcome i s t := by
  rcases issue_cases h with ⟨hp, rfl⟩ | ⟨hp, _, rfl⟩ | ⟨hp, hpre, hd⟩
  · exact .dropped hp
  · exact .failed _ (by decide) hp
  · obtain ⟨k, _, hr, _⟩ := runs_of_drive hd
    exact .ran k w program t hp (hs hpre) hr

theorem illegal_outcome {i : Instr} {w : CmdWord} {s t : State} (h : illegal w s = .next t) : CommandOutcome i s t := by
  rcases illegal_cases h with ⟨hp, rfl⟩ | ⟨hp, rfl⟩
  · exact .dropped hp
  · exact .failed _ (by decide) hp

/-- A command is one of these. -/
theorem exec_command_cases {s t : State} {i : Instr} (hi : i.isCommand = true) (h : exec i s = .next t) :
    CommandOutcome i s t := by
  cases i with
  | clr =>
    simp only [exec, execClr] at h
    split at h <;> rename_i hp <;> cases h
    · exact .dropped (Or.inl hp)
    all_goals exact .cleared rfl (by simp [hp])
  | emit sym =>
    simp only [exec, execEmit] at h
    split at h
    · exact issue_outcome h fun hp => Or.inr (Or.inr ⟨hp, Or.inr ⟨sym, rfl⟩⟩)
    · exact illegal_outcome h
  | encode => exact issue_outcome h fun hp => Or.inr (Or.inr ⟨hp, Or.inl rfl⟩)
  | wrhdr => exact issue_outcome h fun hp => Or.inr (Or.inl ⟨hp, by simp⟩)
  | derive => exact issue_outcome h fun hp => Or.inr (Or.inl ⟨hp, by simp⟩)
  | decode => exact issue_outcome h fun hp => Or.inr (Or.inl ⟨hp, by simp⟩)
  | count => exact issue_outcome h fun _ => Or.inl (by simp)
  | build => exact issue_outcome h fun _ => Or.inl (by simp)
  | wrmagic => exact issue_outcome h fun _ => Or.inl (by simp)
  | rdmagic => exact issue_outcome h fun _ => Or.inl (by simp)
  | rdhdr => exact issue_outcome h fun _ => Or.inl (by simp)
  | flush => exact issue_outcome h fun _ => Or.inl (by simp)
  | compress => exact issue_outcome h fun _ => Or.inl (by simp)
  | decompress => exact issue_outcome h fun _ => Or.inl (by simp)
  | streamMagic m => cases hi
  | hdrInternal => cases hi
  | hdrLeaf sym => cases hi

/-- Everything a host action can do. -/
inductive HostOutcome (a : HostAct) (s : State) : State → Prop where
  /-- A read (R51). -/
  | read (r : RegNum) (ha : a = .read r) : HostOutcome a s (s.takeRead r)
  /-- The reset input (R240). -/
  | reset (ha : a = .reset) : HostOutcome a s s.clear
  /-- BIND IN (R242). -/
  | bindIn (d rp : Bits) (sc : List InAnswer) (ha : a = .bindIn d rp sc) (hp : s.phase ≠ .busy) :
    HostOutcome a s { s with inp := some (InChan.bind d rp sc) }
  /-- BIND OUT (R242). -/
  | bindOut (pad : BitVec 7) (sc : List OutAnswer) (ha : a = .bindOut pad sc) (hp : s.phase ≠ .busy) :
    HostOutcome a s { s with out := some (OutChan.bind pad sc) }
  /-- A write to a register other than CMD (R53, R73, R74). -/
  | store (r : RegNum) (d : Word) (ha : a = .write r d) (hr : r ≠ 0#16) : HostOutcome a s (s.storeReg (regOf r) d)
  /-- A legal word for CMD (R84). -/
  | command (d : Word) (i : Instr) (t : State) (ha : a = .write 0#16 d)
    (hd : decodeCommand (d.extractLsb' 0 16) = .ok i) (hx : exec i s = .next t) : HostOutcome a s t
  /-- An illegal word for CMD (R86). -/
  | illegalWord (d : Word) (e : IllegalWord) (t : State) (ha : a = .write 0#16 d)
    (hd : decodeCommand (d.extractLsb' 0 16) = .error e) (hx : illegal (d.extractLsb' 0 16) s = .next t) :
    HostOutcome a s t

/-- A host action is one of these. -/
theorem hostAct_cases {a : HostAct} {s t : State} (h : hostAct a s = .next t) : HostOutcome a s t := by
  cases a with
  | read r => cases h; exact .read r rfl
  | reset => cases h; exact .reset rfl
  | bindIn d rp sc =>
    simp only [hostAct] at h
    split at h <;> rename_i hb <;> cases h
    exact .bindIn d rp sc rfl hb
  | bindOut pad sc =>
    simp only [hostAct] at h
    split at h <;> rename_i hb <;> cases h
    exact .bindOut pad sc rfl hb
  | write r d =>
    simp only [hostAct, hostWrite] at h
    split at h <;> rename_i hr
    · obtain rfl := regOf_cmd hr
      unfold writeCmd at h
      split at h <;> rename_i hd
      · exact .command d _ t rfl hd h
      · exact .illegalWord d _ t rfl hd h
    · cases h
      refine .store r d rfl ?_
      rintro rfl
      exact hr regOf_zero

/-- What every engine step, every single action of the host, a fault at acceptance and the start of a command keep, every step
keeps. -/
theorem step_keeps {P : State → Prop}
    (hE : ∀ s t, s.running = true → engineStep s = .next t → P s → P t)
    (hHost : ∀ s rest, P s → P { s with host := rest })
    (hRead : ∀ s r, P s → P (s.takeRead r))
    (hClear : ∀ s, P s → P s.clear)
    (hIn : ∀ s d rp sc, s.phase ≠ .busy → P s → P { s with inp := some (InChan.bind d rp sc) })
    (hOut : ∀ s pad sc, s.phase ≠ .busy → P s → P { s with out := some (OutChan.bind pad sc) })
    (hStore : ∀ s r d, P s → P (s.storeReg r d))
    (hDrop : ∀ s, P s → P s.drop)
    (hFail : ∀ s e, (s.phase = .idle ∨ s.phase = .done) → e ≠ .none → P s → P (s.fail e))
    (hBegin : ∀ s w program, (s.phase = .idle ∨ s.phase = .done) → startable s program → P s → P (s.begin w program))
    {s t : State} (hs : P s) (h : step s = .next t) : P t := by
  have hC : ∀ i s t, CommandOutcome i s t → P s → P t := by
    intro i s t h hs
    cases h with
    | dropped => exact hDrop _ hs
    | cleared => exact hClear _ hs
    | failed e he hp => exact hFail _ _ hp he hs
    | ran k w program _ hp hm hr => exact runs_invariant hE hr (hBegin _ _ _ hp hm hs)
  rcases step_cases h with ⟨e, rest, he, hh, hv⟩ | ⟨he, hb, ⟨i, hf, hx⟩ | ⟨_, hx⟩⟩ | ⟨_, _, rfl⟩
  · have hs' := hHost s rest hs
    generalize { s with host := rest } = s' at hs' hv
    unfold hostEvent at hv
    split at hv
    · cases hv; exact hs'
    · cases hostAct_cases hv with
      | read r => exact hRead _ _ hs'
      | reset => exact hClear _ hs'
      | bindIn d rp sc _ hp => exact hIn _ _ _ _ hp hs'
      | bindOut pad sc _ hp => exact hOut _ _ _ hp hs'
      | store r d => exact hStore _ _ _ hs'
      | command d i _ _ hd hx => exact hC _ _ _ (exec_command_cases (decodeCommand_facts hd).1 hx) hs'
      | illegalWord d e _ _ _ hx => exact hC .clr _ _ (illegal_outcome hx) hs'
  · obtain ⟨k, _, hr⟩ := runs_of_record hf hx
    exact runs_invariant hE hr hs
  · exact hE s t (by simp [State.running, hb, he]) hx hs
  · exact hs

end Sys2Proof.Machine
end

