-- ==== Sys2Proof/Tests/Slice0.lean ====
section
/-!
SUPPORT. The model's own tests: well-formedness, words written out from the encodings of spec/30_encoding.md, the examples of the
rules and the vectors of spec/95_test_vectors.md, one command each, and for every obligation with hypotheses a state and
operands that meet them.
-/

namespace Sys2Proof.Tests

open Sys2Proof Sys2Proof.Machine Sys2Proof.Safety

/-! The tests are checked one after another, not each in a thread of its own. -/
set_option Elab.async false

/-! ### Small states -/

/-- The next state, if there is one. -/
def after (r : Result) : Option State :=
  match r with
  | .next s => some s
  | .fault _ => none
  | .refused _ => none

/-- A bit string. -/
def bitsText (cs : List Char) : Bits := cs.filterMap fun c => if c = '0' then some false else if c = '1' then some true else none

/-- Streams bound: IN with the given bits, OUT empty. -/
def withStreams (s : State) (bits : Bits) : State :=
  { s with inp := some (InChan.reference bits), out := some OutChan.reference }

/-- The bits OUT has. -/
def outBits (s : State) : Bits := s.out.elim [] OutChan.data

/-- The position of IN. -/
def inPos (s : State) : Nat := s.inp.elim 0 InChan.pos

/-- The channel of `withStreams`. -/
def inC (bits : Bits) : InChan := InChan.reference bits

/-- The shape of the example of R126, R143, R147, R161, R186. -/
def exShape : Shape := .node (.leaf 0x41#9) (.node (.leaf 0x42#9) (.leaf endSym))

/-- The tree of the example of R126. -/
def exTree : Tree := .node 4#32 (.leaf 0x41#9 2#32) (.node 2#32 (.leaf 0x42#9 1#32) (.leaf endSym 1#32))

/-- The state after BUILD in the example of R126. -/
@[irreducible] def built : State :=
  { ((((State.reset.setNode 0#10 (Node.mkLeaf 0x41#9 2#32)).setNode 1#10 (Node.mkLeaf 0x42#9 1#32)).setNode 2#10
      (Node.mkLeaf endSym 1#32)).setNode 3#10 (Node.mkInternal 2#32 1#10 2#10)).setNode 4#10
      (Node.mkInternal 4#32 0#10 3#10) with
    phase := .done, tv := true, nnodes := 5#10, root := 4#10 }

/-- The same with the codes of the example of R161. -/
@[irreducible] def coded : State :=
  { ((built.setCode 0x41#9 (Code.ofPath [false])).setCode 0x42#9 (Code.ofPath [true, false])).setCode endSym
      (Code.ofPath [true, true]) with cv := true }

/-- The counts of the example of R113. -/
@[irreducible] def counted : State := (State.reset.setFreq 0x41#9 2#32).setFreq 0x42#9 1#32

/-- The header of the example of R143. -/
def exHeader : Bits := bitsText ['0', '1', '0', '0', '1', '0', '0', '0', '0', '0', '1', '0', '1', '0', '0', '1', '0', '0', '0',
  '0', '1', '0', '1', '1', '0', '0', '0', '0', '0', '0', '0', '0']

/-- The bytes 41 41 42. -/
def exBytes : List Byte := [0x41#8, 0x41#8, 0x42#8]

/-- The body and the END code of the example of R174. -/
def exBody : Bits := [false, false, true, false, true, true]

/-- The stream of the example of R196: FA CE 82 01 48 29 0B 00 2C. -/
def exStream : Bits := bitsOfBytes [0xFA#8, 0xCE#8, 0x82#8, 0x01#8, 0x48#8, 0x29#8, 0x0B#8, 0x00#8, 0x2C#8]

/-- A BUSY engine with the given lines to come. -/
def busyWith (s : State) (ts : List Task) : State := { s with phase := .busy, todo := ts }

/-! ### Well-formedness (R86 item 4, R93) -/

theorem test_emit_257_ill_formed : (Instr.emit 257#9).wellFormed = false := by decide
theorem test_emit_256_well_formed : (Instr.emit 256#9).wellFormed = true := by decide
theorem test_leaf_257_ill_formed : (Instr.hdrLeaf 257#9).wellFormed = false := by decide
theorem test_leaf_256_well_formed : (Instr.hdrLeaf 256#9).wellFormed = true := by decide

/-! ### Words written out from R81, R82, R83, R91, R92 -/

theorem test_decode_clr : decodeCommand 0b0001000000000000#16 = .ok .clr := by decide
theorem test_decode_count : decodeCommand 0b0010000000000000#16 = .ok .count := by decide
theorem test_decode_build : decodeCommand 0b0011000000000000#16 = .ok .build := by decide
theorem test_decode_wrmagic : decodeCommand 0b0100000000000000#16 = .ok .wrmagic := by decide
theorem test_decode_wrhdr : decodeCommand 0b0101000000000000#16 = .ok .wrhdr := by decide
theorem test_decode_rdmagic : decodeCommand 0b0110000000000000#16 = .ok .rdmagic := by decide
theorem test_decode_rdhdr : decodeCommand 0b0111000000000000#16 = .ok .rdhdr := by decide
theorem test_decode_derive : decodeCommand 0b1000000000000000#16 = .ok .derive := by decide
theorem test_decode_emit : decodeCommand 0b1001000001000010#16 = .ok (.emit 0x42#9) := by decide
theorem test_decode_emit_end : decodeCommand 0b1001000100000000#16 = .ok (.emit endSym) := by decide
theorem test_decode_encode : decodeCommand 0b1010000000000000#16 = .ok .encode := by decide
theorem test_decode_flush : decodeCommand 0b1011000000000000#16 = .ok .flush := by decide
theorem test_decode_decode : decodeCommand 0b1100000000000000#16 = .ok .decode := by decide
theorem test_decode_compress : decodeCommand 0b1101000000000000#16 = .ok .compress := by decide
theorem test_decode_decompress : decodeCommand 0b1110000000000000#16 = .ok .decompress := by decide
theorem test_decode_illegal :
    decodeCommand 0x0000#16 = .error .opcode ∧ decodeCommand 0xF000#16 = .error .opcode ∧
    decodeCommand 0x1200#16 = .error .reserved ∧ decodeCommand 0x1001#16 = .error .operand ∧
    decodeCommand 0x9101#16 = .error .symbol := by decide
theorem test_decode_magic : decodeMagic (bitsText ['1', '1', '1', '1', '1', '0', '1', '0', '1', '1', '0', '0', '1', '1', '1', '0',
    '1', '0', '0', '0', '0', '0', '1', '0', '0', '0', '0', '0', '0', '0', '0', '1', '1', '0']) =
    .ok (.streamMagic 0xFACE8201#32, [true, false]) := by decide
theorem test_decode_magic_short : decodeMagic (List.replicate 31 true) = .error .short := by decide
theorem test_decode_internal : decodeHeader [false, true] = .ok (.hdrInternal, [true]) := by decide
theorem test_decode_leaf : decodeHeader (bitsText ['1', '0', '0', '1', '0', '0', '0', '0', '1', '0', '1']) =
    .ok (.hdrLeaf 0x42#9, [true]) := by decide
theorem test_decode_leaf_short : decodeHeader [true, false, false, false, false, false, false, false, false] =
    .error .short := by decide

/-! ### The opcode table's numbering (log entry 24) and the first step after reset -/

theorem test_table_words :
    decodeTableWord 16 0x9041 = some (.emit 0x41#9) ∧ decodeTableWord 8 0 = some .hdrInternal ∧
    decodeTableWord 16 0x241 = some (.hdrLeaf 0x41#9) ∧
    decodeTableWord 32 0xFACE8201 = some (.streamMagic 0xFACE8201#32) ∧ decodeTableWord 16 0x0 = none := by decide
theorem test_first_step_command :
    (after (step (State.reset.withFetchWord 16 0xB000))).map (fun t => t.err) = some .channel := by decide +kernel
theorem test_first_step_leaf :
    (after (step (State.reset.withFetchWord 16 0x241))).map (fun t => (t.nodeAt? 0#10, t.todo)) =
      some (some (Node.mkLeaf 0x41#9 0#32), [.checkRoot 0#10]) := by decide +kernel

/-! ### CLR, acceptance (R111, V-words of 95) -/

theorem test_clr_after_fault :
    (State.fail State.reset .malformedHeader).statusWord = 0x103#32 ∧
    (after (exec .clr (State.fail State.reset .malformedHeader))).map State.statusWord = some 0#32 := by decide +kernel
theorem test_illegal_word_fails : (after (writeCmd 0x1200#16 State.reset)).map State.statusWord = some 0x903#32 := by decide +kernel
theorem test_sequence_fault : (after (exec .wrhdr State.reset)).map State.statusWord = some 0x803#32 := by decide +kernel
theorem test_dropped_in_busy :
    (after (exec .count (busyWith State.reset [.countByte]))).map State.statusWord = some 0x11#32 := by decide +kernel

/-- R41 and the pseudocode of R111: CLR in IDLE clears what the host wrote to FREQ (log entry 28). -/
theorem test_clr_in_idle : counted.phase = .idle ∧ (after (exec .clr counted)).map (fun t => (t.freqOf 0x41#9, t.phase)) =
    some (0#32, .idle) := by decide +kernel

/-! ### COUNT (the example of R113) -/

theorem test_count : (after (exec .count (withStreams State.reset (bitsOfBytes exBytes)))).map
    (fun t => (t.freqOf 0x41#9, t.freqOf 0x42#9, t.freqOf 0x43#9, t.freqOf endSym, inPos t, t.phase)) =
    some (2#32, 1#32, 0#32, 1#32, 0, .done) := by decide +kernel
/-- R115, R64: a second COUNT on one bound stream. -/
theorem test_count_twice : ((after (exec .count (withStreams State.reset (bitsOfBytes exBytes)))).bind
    fun t => after (exec .count t)).map State.statusWord = some 0xA03#32 := by decide +kernel

/-! ### BUILD (the examples of R126 and R128) -/

theorem test_build : (after (exec .build counted)).map
    (fun t => ([t.nodeAt? 0#10, t.nodeAt? 1#10, t.nodeAt? 2#10, t.nodeAt? 3#10, t.nodeAt? 4#10], t.nnodes, t.root, t.tv)) =
    some ([some (Node.mkLeaf 0x41#9 2#32), some (Node.mkLeaf 0x42#9 1#32), some (Node.mkLeaf 256#9 1#32),
      some (Node.mkInternal 2#32 1#10 2#10), some (Node.mkInternal 4#32 0#10 3#10)], 5#10, 4#10, true) := by decide +kernel
theorem test_build_overflow :
    (after (exec .build (State.reset.setFreq 0#9 0xFFFFFFFF#32))).map State.statusWord = some 0x603#32 := by decide +kernel

/-! ### WRMAGIC, RDMAGIC (the examples of R141 and R145) -/

theorem test_wrmagic : (after (exec .wrmagic (withStreams State.reset []))).map outBits =
    some (bitsText ['1', '1', '1', '1', '1', '0', '1', '0', '1', '1', '0', '0', '1', '1', '1', '0', '1', '0', '0', '0', '0', '0',
      '1', '0', '0', '0', '0', '0', '0', '0', '0', '1']) := by decide +kernel
theorem test_rdmagic : (after (exec .rdmagic (withStreams State.reset exStream))).map (fun t => (t.phase, inPos t)) =
    some (.done, 32) := by decide +kernel
theorem test_rdmagic_wrong : (after (exec .rdmagic (withStreams State.reset
    (bitsOfBytes [0xFA#8, 0xCE#8, 0x82#8, 0x00#8])))).map State.statusWord = some 0x103#32 := by decide +kernel

/-! ### WRHDR, RDHDR (the examples of R143 and R147) -/

theorem test_wrhdr : (after (exec .wrhdr (withStreams built []))).map outBits = some exHeader := by decide +kernel
theorem test_rdhdr : (after (exec .rdhdr (withStreams State.reset exHeader))).map
    (fun t => ([t.nodeAt? 0#10, t.nodeAt? 1#10, t.nodeAt? 2#10, t.nodeAt? 3#10, t.nodeAt? 4#10], t.nnodes, t.root, t.tv)) =
    some ([some (Node.mkInternal 0#32 1#10 2#10), some (Node.mkLeaf 0x41#9 0#32), some (Node.mkInternal 0#32 3#10 4#10),
      some (Node.mkLeaf 0x42#9 0#32), some (Node.mkLeaf 256#9 0#32)], 5#10, 0#10, true) := by decide +kernel
theorem test_rdhdr_bad_symbol : (after (exec .rdhdr (withStreams State.reset
    (bitsText ['1', '1', '0', '0', '0', '0', '0', '0', '0', '1'])))).map (fun t => (t.statusWord, inPos t)) =
    some (0x403#32, 10) := by decide +kernel

/-! ### DERIVE (the example of R161) -/

theorem test_derive : (after (exec .derive built)).map
    (fun t => ((t.codeOf 0x41#9).toBits, (t.codeOf 0x42#9).toBits, (t.codeOf endSym).toBits, (t.codeOf 0#9).valid, t.cv)) =
    some ([false], [true, false], [true, true], false, true) := by decide +kernel

/-! ### EMIT, ENCODE, FLUSH (the examples of R171, R174, R177) -/

theorem test_emit : (after (exec (.emit 0x42#9) (withStreams coded []))).map outBits = some [true, false] := by decide +kernel
theorem test_emit_no_code : (after (exec (.emit 0x43#9) (withStreams coded []))).map (fun t => (t.statusWord, outBits t)) =
    some (0x703#32, []) := by decide +kernel
theorem test_encode : (after (exec .encode (withStreams coded (bitsOfBytes exBytes)))).map (fun t => (outBits t, t.phase)) =
    some (exBody ++ [false, false], .done) := by decide +kernel
theorem test_encode_no_code : (after (exec .encode (withStreams coded (bitsOfBytes [0x41#8, 0x43#8])))).map
    (fun t => (t.statusWord, outBits t)) = some (0x703#32, [false]) := by decide +kernel
theorem test_flush : (after (exec .flush { State.reset with out := some { OutChan.reference with
    data := List.replicate 54 true } })).map (fun t => (outBits t).length) = some 56 := by decide +kernel
theorem test_flush_twice : (after (exec .flush { State.reset with out := some { OutChan.reference with
    closed := true } })).map State.statusWord = some 0xA03#32 := by decide +kernel

/-! ### DECODE (V12), COMPRESS and DECOMPRESS (V3, the examples of R196 and R199) -/

theorem test_decode : (after (exec .decode (withStreams built (exBody ++ [true, false, true])))).map
    (fun t => (outBits t, inPos t, t.phase)) = some (bitsOfBytes exBytes, 6, .done) := by decide +kernel
theorem test_decode_truncated : (after (exec .decode (withStreams built [false, false, true]))).map
    (fun t => (outBits t, t.statusWord)) = some (bitsOfBytes [0x41#8, 0x41#8], 0x203#32) := by decide +kernel
theorem test_compress : (after (exec .compress (withStreams State.reset (bitsOfBytes exBytes)))).map
    (fun t => (outBits t, t.statusWord)) = some (exStream, 0xE#32) := by decide +kernel
/-- The empty input: V1 of 95_test_vectors.md, 56 bits. -/
theorem test_compress_empty : (after (exec .compress (withStreams State.reset []))).map
    (fun t => (outBits t).length) = some 56 := by decide +kernel
/-- The state after BUILD and DERIVE of an all-zero FREQ (R128), in a block that goes by R246 or not. -/
def placeholderState (strict : Bool) : State :=
  { ((((State.reset.setNode 0#10 (Node.mkLeaf 0#9 0#32)).setNode 1#10 (Node.mkLeaf endSym 1#32)).setNode 2#10
      (Node.mkInternal 1#32 0#10 1#10)).setCode 0#9 (Code.ofPath [false])).setCode endSym (Code.ofPath [true]) with
    params := { Params.default with zeroCountFails := strict }, phase := .done, tv := true, cv := true, nnodes := 3#10,
    root := 2#10 }
/-- R246 in a block that goes by it: COMPRESS whose second pass delivers a byte counted 0 times fails with NO_CODE after the magic and
the header, 32 + 21 bits. -/
theorem test_compress_zero_count : (after (exec .compress { withStreams State.reset [] with
    params := { Params.default with zeroCountFails := true },
    inp := some (InChan.bind [] (bitsOfBytes [0x00#8]) []) })).map (fun t => ((outBits t).length, inPos t, t.statusWord)) =
    some (53, 8, 0x703#32) := by decide +kernel
/-- No byte in the first pass and 0x00 in the second, in a block that goes by R172: after 32 + 21 bits the placeholder's code 0 and
END's code 1 (R128, R171), and one bit of padding (log entry 29). -/
theorem test_compress_placeholder : (after (exec .compress { withStreams State.reset [] with
    inp := some (InChan.bind [] (bitsOfBytes [0x00#8]) []) })).map (fun t => ((outBits t).drop 53, t.statusWord)) =
    some ([false, true, false], 0xE#32) := by decide +kernel
theorem test_decompress : (after (exec .decompress (withStreams State.reset exStream))).map
    (fun t => (outBits t, t.statusWord, inPos t)) = some (bitsOfBytes exBytes, 0x6#32, 70) := by decide +kernel
theorem test_decompress_bad_magic : (after (exec .decompress (withStreams State.reset (exBody ++ exStream)))).map
    (fun t => (outBits t, t.statusWord)) = some ([], 0x103#32) := by decide +kernel

/-! ### The stream records -/

theorem test_magic_record : (after (exec (.streamMagic 0xFACE8201#32)
    (withStreams (busyWith State.reset [.readMagic]) exStream))).map (fun t => (inPos t, t.todo, t.phase)) =
    some (32, [], .busy) := by decide +kernel
theorem test_internal_record : (after (exec .hdrInternal (withStreams (busyWith State.reset [.readTag]) exHeader))).map
    (fun t => (inPos t, t.nnodes, t.stack)) = some (1, 1#10, [.opened 0#10]) := by decide +kernel
theorem test_leaf_record_overflow : (after (exec (.hdrLeaf 0x41#9)
    { withStreams (busyWith State.reset [.readTag]) (true :: bitsOf 0x41#9) with nnodes := 513#10 })).map
    (fun t => (inPos t, t.statusWord)) = some (1, 0x503#32) := by decide +kernel

/-! ### The host's windows (V4's and V3's layout, R54, R55) and the assembler (R87) -/

theorem test_link_word : built.hostRead 0x803#16 = 0x00000402#32 ∧ built.hostRead 0x800#16 = 0x84100000#32 ∧
    built.hostRead 0xC04#16 = 4#32 ∧ built.hostRead 0xA00#16 = 0#32 := by decide +kernel
/-- The example of R55: the code 101. -/
theorem test_code_word :
    (State.reset.setCode endSym (Code.ofPath [true, false, true])).hostRead 0x2000#16 = 0x80000003#32 ∧
    (State.reset.setCode endSym (Code.ofPath [true, false, true])).hostRead 0x2001#16 = 0xA0000000#32 ∧
    (State.reset.setCode endSym (Code.ofPath [true, false, true])).hostRead 0x2008#16 = 0#32 := by decide +kernel
theorem test_assembler :
    asmProgram ['E', 'M', 'I', 'T', ' ', '0', 'x', '4', '2', ' ', ';', 'b'] =
      some [⟨.waits, .write 0#16 0x9042#32⟩] ∧
    asmProgram ['e', 'm', 'i', 't', ' ', '1'] = none ∧
    asmProgram ['E', 'M', 'I', 'T', ' ', '2', '5', '7'] = none := by decide +kernel

/-! ### Witnesses: for every obligation with hypotheses, a state and operands that meet them, for each clause -/

theorem reset_ready : ready State.reset := ⟨Or.inl rfl, rfl⟩
theorem streams_ready (bits : Bits) : ready (withStreams State.reset bits) := ⟨Or.inl rfl, rfl⟩
theorem streams_in (s : State) (bits : Bits) : inHas (withStreams s bits) (inC bits) bits :=
  ⟨rfl, rfl, by simp [inC, InChan.reference, InChan.bind], by simp [inC, InChan.reference, InChan.bind]⟩
theorem streams_out (s : State) (bits : Bits) : outOpen (withStreams s bits) OutChan.reference := ⟨rfl, rfl, rfl⟩
theorem nodeAt_withStreams (s : State) (bits : Bits) (i : Idx) : (withStreams s bits).nodeAt? i = s.nodeAt? i := rfl
theorem codeOf_withStreams (s : State) (bits : Bits) (sym : Sym) : (withStreams s bits).codeOf sym = s.codeOf sym := rfl
/-- The tree at an index depends on the arena alone. -/
theorem holds_congr {s u : State} (e : u.node = s.node) : ∀ (t : Tree) (i : Idx) (ixs : List Idx), holds s t i ixs →
    holds u t i ixs
  | .leaf _ _, _, _, h => by simpa [holds, State.nodeAt?, e] using h
  | .node _ l r, _, _, ⟨a, b, la, lb, h, hl, hr, hx⟩ =>
    ⟨a, b, la, lb, by simpa [State.nodeAt?, e] using h, holds_congr e l a la hl, holds_congr e r b lb hr, hx⟩
theorem holds_withStreams (s : State) (bits : Bits) (t : Tree) (i : Idx) (ixs : List Idx) (h : holds s t i ixs) :
    holds (withStreams s bits) t i ixs := holds_congr (s := s) (u := withStreams s bits) rfl t i ixs h
theorem ready_withStreams (s : State) (bits : Bits) (h : ready s) : ready (withStreams s bits) := h
theorem treeInv_withStreams (s : State) (bits : Bits) (h : treeInv s) : treeInv (withStreams s bits) := by
  obtain ⟨h1, h2, h3, h4, t, ixs, h5, h6⟩ := h
  exact ⟨h1, h2, h3, h4, t, ixs, holds_withStreams s bits t _ ixs h5, h6⟩

theorem built_fields : built.phase = .done ∧ built.tv = true ∧ built.nnodes = 5#10 ∧ built.root = 4#10 ∧ built.quiet = true := by
  decide +kernel
theorem coded_fields : coded.phase = .done ∧ coded.tv = true ∧ coded.cv = true ∧ coded.quiet = true := by decide +kernel
theorem counted_fields : counted.phase = .idle ∧ counted.quiet = true := by decide +kernel
theorem counted_ready : ready counted := ⟨Or.inl counted_fields.1, counted_fields.2⟩
theorem built_ready (bits : Bits) : ready (withStreams built bits) :=
  ready_withStreams _ _ ⟨Or.inr built_fields.1, built_fields.2.2.2.2⟩
theorem built_tv (bits : Bits) : (withStreams built bits).tv = true := built_fields.2.1
theorem coded_ready (bits : Bits) : ready (withStreams coded bits) :=
  ready_withStreams _ _ ⟨Or.inr coded_fields.1, coded_fields.2.2.2⟩
theorem coded_cv (bits : Bits) : (withStreams coded bits).cv = true := coded_fields.2.2.1

theorem built_nodes :
    built.nodeAt? 0#10 = some (Node.mkLeaf 0x41#9 2#32) ∧ built.nodeAt? 1#10 = some (Node.mkLeaf 0x42#9 1#32) ∧
    built.nodeAt? 2#10 = some (Node.mkLeaf endSym 1#32) ∧ built.nodeAt? 3#10 = some (Node.mkInternal 2#32 1#10 2#10) ∧
    built.nodeAt? 4#10 = some (Node.mkInternal 4#32 0#10 3#10) := by decide +kernel
theorem built_holds : holds built exTree 4#10 [4#10, 0#10, 3#10, 1#10, 2#10] :=
  ⟨0#10, 3#10, [0#10], [3#10, 1#10, 2#10], built_nodes.2.2.2.2, ⟨built_nodes.1, rfl⟩,
    ⟨1#10, 2#10, [1#10], [2#10], built_nodes.2.2.2.1, ⟨built_nodes.2.1, rfl⟩, ⟨built_nodes.2.2.1, rfl⟩, rfl⟩, rfl⟩
theorem built_holdsRoot (bits : Bits) : holdsRoot (withStreams built bits) exTree := by
  refine ⟨[4#10, 0#10, 3#10, 1#10, 2#10], ?_⟩
  have : (withStreams built bits).root = 4#10 := built_fields.2.2.2.1
  rw [this]
  exact holds_withStreams _ _ _ _ _ built_holds
theorem built_treeInv (bits : Bits) : treeInv (withStreams built bits) := by
  apply treeInv_withStreams
  have hn := built_fields.2.2.1
  have hr := built_fields.2.2.2.1
  refine ⟨by rw [hn]; decide, by rw [hn]; decide, by rw [hn]; decide, by rw [hn, hr]; decide,
    exTree, [4#10, 0#10, 3#10, 1#10, 2#10], by rw [hr]; exact built_holds, by decide, by decide, by decide,
    by rw [hn]; decide, ?_⟩
  rw [hn]; decide
theorem built_tail : ∀ i : Fin 513, 5 ≤ i.val → built.node[i.val]? = some Node.zero := by decide +kernel
theorem codeOf_congr {s t : State} (h : s.code = t.code) (sym : Sym) : s.codeOf sym = t.codeOf sym := by
  unfold State.codeOf; rw [h]
theorem built_codes (sym : Sym) : built.codeOf sym = Code.none := by
  have h : built.code = State.reset.code := by unfold built; rfl
  rw [codeOf_congr h]
  simp only [State.codeOf, State.reset]
  by_cases h : sym.toNat < 257 <;> simp [h]
theorem coded_entries (sym : Sym) : codeEntryOk (coded.codeOf sym) := by
  have h : coded.code = (((built.setCode 0x41#9 (Code.ofPath [false])).setCode 0x42#9
      (Code.ofPath [true, false])).setCode endSym (Code.ofPath [true, true])).code := by unfold coded; rfl
  rw [codeOf_congr h, State.codeOf_setCode _ _ _ (by decide), State.codeOf_setCode _ _ _ (by decide),
    State.codeOf_setCode _ _ _ (by decide)]
  split
  · exact codeEntryOk_ofPath (by decide)
  split
  · exact codeEntryOk_ofPath (by decide)
  split
  · exact codeEntryOk_ofPath (by decide)
  rw [built_codes]
  exact codeEntryOk_none
theorem coded_codes (bits : Bits) (sym : Sym) : codeEntryOk ((withStreams coded bits).codeOf sym) := coded_entries sym

theorem witness_DecodeInvertsEncode :
    (Instr.emit 256#9).wellFormed = true ∧ (Instr.hdrLeaf 256#9).wellFormed = true ∧ Instr.compress.wellFormed = true := by
  decide
theorem witness_EncodeInvertsDecode :
    decode (.command 0x9100#16) = .ok (.emit 256#9, []) ∧
    decode (.headerField (true :: bitsOf 511#9 ++ [true])) = .ok (.hdrLeaf 511#9, [true]) := by decide +kernel
theorem witness_LegalCommandWords :
    decodeCommand 0x0FFF#16 = .error .reserved ∧ decodeCommand 0x91FF#16 = .error .symbol ∧
    decodeCommand 0x9100#16 = .ok (.emit 256#9) := by decide +kernel
theorem witness_StepRunsPresentedCommand :
    let s : State := { State.reset with host := [⟨.waits, .write 0#16 0xFFFF1000#32⟩] }
    s.eventDue = true ∧ ¬ (Pace.waits = .sequenced ∧ s.phase = .failed) ∧
    decodeCommand ((0xFFFF1000#32).extractLsb' 0 16) = .ok .clr := by decide +kernel
theorem witness_StepRunsNextRecord :
    (let s := withStreams (busyWith State.reset [.readTag]) exHeader
     s.phase = .busy ∧ s.quiet = true ∧ s.inp = some (inC exHeader) ∧ (inC exHeader).script = [] ∧
     s.todo = [.readTag] ∧ decodeHeader ((inC exHeader).data.drop (inC exHeader).pos) = .ok (.hdrInternal, exHeader.drop 1)) ∧
    (let s := withStreams (busyWith State.reset [.readMagic]) exStream
     s.phase = .busy ∧ s.quiet = true ∧ s.inp = some (inC exStream) ∧ (inC exStream).script = [] ∧
     s.todo = [.readMagic] ∧
     decodeMagic ((inC exStream).data.drop (inC exStream).pos) = .ok (.streamMagic 0xFACE8201#32, exStream.drop 32)) := by
  decide +kernel
theorem witness_HostAndEngineTurns :
    (State.reset.phase ≠ .busy ∧ State.reset.host = []) ∧
    (busyWith { State.reset with host := [⟨.early 0, .reset⟩] } [.countByte]).phase = .busy ∧
    (0x400#16 : RegNum) ≠ 0#16 ∧
    (let c : InChan := { inC exStream with script := [.never] }
     let s : State := { busyWith State.reset [.countByte] with inp := some c }
     s.phase = .busy ∧ s.quiet = true ∧ s.inp = some c ∧ c.script = .never :: [] ∧ s.todo = .countByte :: []) ∧
    (let c : OutChan := { OutChan.reference with script := [.never] }
     let s : State := { busyWith State.reset [.flush] with out := some c }
     s.phase = .busy ∧ s.quiet = true ∧ s.out = some c ∧ c.script = .never :: [] ∧ s.todo = .flush :: []) := by
  decide +kernel
theorem witness_DroppedCommands :
    (busyWith State.reset []).phase = .busy ∧ (State.reset.fail .channel).phase = .failed ∧
    (0x1001#16 : CmdWord) ≠ 0x1000#16 ∧ State.reset.phase ≠ .busy := by decide +kernel
theorem witness_ChecksAtAcceptance :
    State.reset.phase = .idle ∧ decodeCommand 0x9101#16 = .error .symbol ∧ State.reset.tv = false ∧
    State.reset.cv = false ∧ (256#9 : Sym).toNat ≤ 256 ∧ State.reset.err ≠ .sequence ∧
    exec .encode State.reset = .next (State.reset.fail .sequence) ∧ (State.reset.fail .sequence).err = .sequence :=
  ⟨rfl, by decide, rfl, rfl, by decide, by decide, (issue_sequence (Or.inl rfl) rfl : execEncode State.reset = _), rfl⟩
theorem witness_ClrAndReset :
    (State.reset.fail .channel).phase ≠ .busy ∧ (busyWith State.reset [.countByte]).phase = .busy := by decide +kernel
theorem witness_FaultIsSticky : (State.reset.fail .channel).phase = .failed ∧
    (after (step (State.reset.fail .channel))).isSome = true := by decide +kernel
theorem witness_FreqWindow : counted.open? = true ∧ counted.hostRead 0x441#16 = 2#32 ∧ counted.hostRead 0x4FF#16 = 0#32 := by
  decide +kernel
theorem witness_NodeWindows :
    built.open? = true ∧ built.nodeAt? 4#10 = some (Node.mkInternal 4#32 0#10 3#10) ∧
    State.reset.open? = true ∧ State.reset.nnodes.toNat ≤ (512#10 : Idx).toNat ∧ (512#10 : Idx).toNat < 513 := by
  decide +kernel
theorem reset_arenaTail : arenaTail State.reset := by
  intro i _ h
  simp [State.reset, h]
theorem witness_CodeWindow : coded.open? = true ∧ codeEntryOk (coded.codeOf 256#9) ∧
    (coded.codeOf 256#9).len.toNat ≤ 255 :=
  ⟨by decide +kernel, coded_entries 256#9, by decide +kernel⟩
/-- A number outside the map of R52. -/
def outsideMap (n : Nat) : Prop := 3 < n ∧ ¬ (0x400 ≤ n ∧ n ≤ 0x500) ∧ ¬ (0x800 ≤ n ∧ n ≤ 0xA00) ∧
  ¬ (0xC00 ≤ n ∧ n ≤ 0xE00) ∧ ¬ (0x1000 ≤ n ∧ n ≤ 0x2008 ∧ n % 16 ≤ 8)
theorem witness_UnmappedRegisters :
    outsideMap (4#16 : RegNum).toNat ∧ outsideMap (0x3FF#16 : RegNum).toNat ∧ outsideMap (0x501#16 : RegNum).toNat ∧
    outsideMap (0xA01#16 : RegNum).toNat ∧ outsideMap (0xE01#16 : RegNum).toNat ∧ outsideMap (0x1009#16 : RegNum).toNat ∧
    outsideMap (0x2009#16 : RegNum).toNat ∧ outsideMap (0xFFFF#16 : RegNum).toNat := by
  refine ⟨?_, ?_, ?_, ?_, ?_, ?_, ?_, ?_⟩ <;> simp [outsideMap]
theorem witness_RootAndNodes : built.open? = true ∧ built.hostRead 2#16 = 4#32 ∧ built.hostRead 3#16 = 5#32 := by
  decide +kernel
theorem witness_BusyAndFailedAccess :
    (busyWith State.reset []).phase = .busy ∧ (State.reset.fail .channel).phase = .failed := by decide +kernel
theorem witness_InReferenceChannel :
    (inC exStream).script = [] ∧ (inC exStream).pos + 72 ≤ (inC exStream).data.length ∧
    (inC exStream).data.length < (inC exStream).pos + 73 ∧ (inC exStream).replay = (inC exStream).data ∧
    (inC exStream).rewound = false ∧ ({ inC exStream with rewound := true } : InChan).rewound = true := by decide +kernel
theorem witness_OutWriteMsbFirst :
    OutChan.reference.script = [] ∧ OutChan.reference.closed = false ∧
    ({ OutChan.reference with closed := true } : OutChan).closed = true ∧ 0 < 1 := by decide +kernel
theorem witness_OutFlushPads :
    OutChan.reference.script = [] ∧ OutChan.reference.closed = false ∧
    ({ OutChan.reference with closed := true } : OutChan).closed = true ∧ OutChan.reference.pad = 0#7 ∧
    ({ OutChan.reference with data := bitsOfBytes exBytes } : OutChan).data = bitsOfBytes exBytes := by decide +kernel
theorem witness_HostAccessEffects : (0x4FF#16 : RegNum) ≠ 0#16 ∧ (0xFFFF#16 : RegNum) ≠ 0#16 := by decide
theorem witness_ChannelErrIsFault :
    (let c : InChan := { inC exStream with script := [.error 3 true] }
     ({ State.reset with inp := some c } : State).inp = some c ∧ c.script = .error 3 true :: []) ∧
    (let c : OutChan := { OutChan.reference with script := [.error 1 false] }
     ({ State.reset with out := some c } : State).out = some c ∧ c.script = .error 1 false :: []) ∧
    coded.inp = none ∧ coded.cv = true ∧ coded.tv = true ∧ coded.out = none ∧
    coded.nodeAt? coded.root = some (Node.mkInternal 4#32 0#10 3#10) ∧
    (endSym : Sym).toNat ≤ 256 ∧ (coded.codeOf endSym).valid = true ∧ 0 < (coded.codeOf endSym).len.toNat ∧
    coded.refusesByte 0x42#8 = false ∧ (coded.codeOf ((0x42#8).setWidth 9)).valid = true ∧ 0 < (coded.codeOf ((0x42#8).setWidth 9)).len.toNat := by
  decide +kernel
/-- IN bound and OUT unbound, for the commands that read IN before their first OUT transaction. -/
theorem witness_ChannelErrIsFault_unboundOut (bits : Bits) :
    let s : State := { withStreams coded bits with out := none }
    let r : State := { withStreams built bits with out := none }
    ready s ∧ s.out = none ∧ s.cv = true ∧ inHas s (inC bits) bits ∧ ready r ∧ r.out = none ∧ r.tv = true ∧
    holdsRoot r exTree ∧ exTree.shape.branches = true ∧ inHas r (inC bits) bits ∧
    exTree.shape.leads [true, true] endSym ∧ exTree.shape.leads [false] 0x41#9 := by
  obtain ⟨ixs, h⟩ := built_holdsRoot bits
  exact ⟨coded_ready bits, rfl, coded_cv bits, streams_in coded bits, built_ready bits, rfl, built_tv bits,
    ⟨ixs, holds_congr (s := withStreams built bits) (u := { withStreams built bits with out := none }) rfl exTree _ _ h⟩, rfl, streams_in built bits, rfl, rfl⟩
theorem witness_CountCounts :
    ready (withStreams State.reset exStream) ∧ inHas (withStreams State.reset exStream) (inC exStream) exStream ∧
    (inC exStream).rewound = false ∧ exStream.length < 2 ^ 32 :=
  ⟨streams_ready _, streams_in _ _, rfl, by decide +kernel⟩
theorem witness_CountFaults :
    (let c : InChan := { inC exStream with rewound := true }
     let s : State := { State.reset with inp := some c }
     ready s ∧ inHas s c exStream ∧ c.rewound = true ∧ exStream.length < 2 ^ 32) ∧
    (let s := withStreams (busyWith (State.reset.setFreq 0x41#9 0xFFFFFFFF#32) [.countByte]) (bitsOfBytes exBytes)
     s.phase = .busy ∧ s.quiet = true ∧ s.todo = .countByte :: [] ∧
     inHas s (inC (bitsOfBytes exBytes)) (bitsOf 0x41#8 ++ bitsOfBytes [0x41#8, 0x42#8]) ∧
     s.freqOf ((0x41#8).setWidth 9) = 0xFFFFFFFF#32) :=
  ⟨⟨⟨Or.inl rfl, rfl⟩, ⟨rfl, rfl, by decide +kernel, rfl⟩, rfl, by decide +kernel⟩,
    rfl, rfl, rfl, streams_in _ _, by decide +kernel⟩
theorem witness_BuildCompletes : ready counted ∧ freqSum counted ≤ maxWeight := ⟨counted_ready, by decide +kernel⟩
theorem witness_BuildGuarantees : ready counted ∧ ready { counted with ovr := true } ∧
    counted.freq = ({ counted with ovr := true } : State).freq ∧
    (after (exec .build counted)).map State.phase = some .done := ⟨counted_ready, counted_ready, rfl, by decide +kernel⟩
theorem witness_BuildOverflows : ready (State.reset.setFreq 0#9 0xFFFFFFFF#32) ∧
    maxWeight < freqSum (State.reset.setFreq 0#9 0xFFFFFFFF#32) := ⟨⟨Or.inl rfl, rfl⟩, by decide +kernel⟩
theorem witness_RemoveMinLeast : ({ built with pq := [2#10, 1#10] } : State).pq ≠ [] ∧
    (({ built with pq := [2#10, 1#10] } : State).removeMin).map Prod.fst = some 1#10 := by decide +kernel
theorem witness_MergeStep :
    (let s : State := { busyWith counted.insertLeaves [.merge] with ovr := false }
     s.phase = .busy ∧ s.quiet = true ∧ s.todo = .merge :: [] ∧ 1 < s.pq.length ∧
     (s.removeMin).map Prod.fst = some 1#10 ∧ (s.removeMin.bind fun x => x.2.removeMin).map Prod.fst = some 2#10 ∧
     (s.weightOf 1#10).toNat + (s.weightOf 2#10).toNat ≤ maxWeight) ∧
    (let s : State := busyWith (State.reset.setFreq 0#9 0xFFFFFFFF#32).insertLeaves [.merge]
     s.phase = .busy ∧ s.quiet = true ∧ 1 < s.pq.length ∧ (s.removeMin).map Prod.fst = some 1#10 ∧
     (s.removeMin.bind fun x => x.2.removeMin).map Prod.fst = some 0#10 ∧
     maxWeight < (s.weightOf 1#10).toNat + (s.weightOf 0#10).toNat) := by decide +kernel
theorem witness_PlaceholderTree : ready State.reset ∧ ∀ sym : Sym, sym.toNat < 256 → State.reset.freqOf sym = 0#32 := by
  refine ⟨reset_ready, ?_⟩
  intro sym h
  simp [State.freqOf, State.reset, h]
theorem witness_WritesMagic : ready (withStreams State.reset []) ∧ outOpen (withStreams State.reset []) OutChan.reference ∧
    (let c : OutChan := { OutChan.reference with closed := true }
     ready { State.reset with out := some c } ∧ c.script = [] ∧ c.closed = true) :=
  ⟨streams_ready _, streams_out _ _, ⟨Or.inl rfl, rfl⟩, rfl, rfl⟩
theorem witness_WritesHeader : ready (withStreams built []) ∧ (withStreams built []).tv = true ∧
    outOpen (withStreams built []) OutChan.reference ∧ holdsRoot (withStreams built []) exTree ∧
    exTree.shape.leaves ≤ 257 ∧ ∀ sym ∈ exTree.shape.symbols, sym.toNat ≤ 256 :=
  ⟨built_ready _, built_tv _, streams_out _ _, built_holdsRoot _, by decide, by decide⟩
theorem witness_ChecksMagic :
    (ready (withStreams State.reset exStream) ∧ inHas (withStreams State.reset exStream) (inC exStream)
      (bitsOf 0xFACE8201#32 ++ exStream.drop 32) ∧ 0xFACE8201#32 = (withStreams State.reset exStream).params.magic) ∧
    (inHas (withStreams State.reset (bitsOf 0xFACE8200#32)) (inC (bitsOf 0xFACE8200#32)) (bitsOf 0xFACE8200#32 ++ []) ∧
      0xFACE8200#32 ≠ State.reset.params.magic) ∧
    (inHas (withStreams State.reset (exStream.take 31)) (inC (exStream.take 31)) (exStream.take 31) ∧
      (exStream.take 31).length < 32) :=
  ⟨⟨streams_ready _, ⟨rfl, rfl, by decide, by decide +kernel⟩, rfl⟩, ⟨streams_in _ _, by decide⟩,
    streams_in _ _, by decide +kernel⟩
theorem witness_ReadsHeader :
    ready (withStreams State.reset (exShape.header ++ exBody)) ∧
    inHas (withStreams State.reset (exShape.header ++ exBody)) (inC (exShape.header ++ exBody)) (exShape.header ++ exBody) ∧
    exShape.branches = true ∧ exShape.leaves ≤ 257 ∧ (∀ sym ∈ exShape.symbols, sym.toNat ≤ 256) ∧
    exShape.header = exHeader :=
  ⟨streams_ready _, streams_in _ _, rfl, by decide, by decide, by decide +kernel⟩
theorem witness_HeaderRoundTrip :
    (ready (withStreams built []) ∧ (withStreams built []).tv = true ∧ treeInv (withStreams built []) ∧
      outOpen (withStreams built []) OutChan.reference) ∧
    (ready (withStreams State.reset exHeader) ∧
      inHas (withStreams State.reset exHeader) (inC exHeader) exHeader ∧
      (after (exec .rdhdr (withStreams State.reset exHeader))).map (fun v => (v.phase, v.out)) =
        some (.done, some OutChan.reference)) :=
  ⟨⟨built_ready _, built_tv _, built_treeInv _, streams_out _ _⟩, streams_ready _, streams_in _ _, by decide +kernel⟩
theorem witness_HeaderFaults :
    (let bits := true :: bitsOf 257#9 ++ [false]
     ready (withStreams State.reset bits) ∧ inHas (withStreams State.reset bits) (inC bits) bits) ∧
    (inHas (withStreams State.reset (exHeader.take 31)) (inC (exHeader.take 31)) (exHeader.take 31) ∧
      exShape.header = exHeader.take 31 ++ exHeader.drop 31 ∧ exHeader.drop 31 ≠ [] ∧ exShape.leaves ≤ 257) ∧
    (let s : State := { withStreams (busyWith State.reset [.readTag]) [false] with nnodes := 513#10 }
     s.phase = .busy ∧ s.quiet = true ∧ s.todo = .readTag :: [] ∧ inHas s (inC [false]) (false :: []) ∧
     513 ≤ s.nnodes.toNat) :=
  ⟨⟨streams_ready _, streams_in _ _⟩, ⟨streams_in _ _, by decide +kernel, by decide, by decide⟩,
    rfl, rfl, rfl, ⟨rfl, rfl, by decide, rfl⟩, by decide⟩
theorem witness_ReadHeaderIsSound : ready (withStreams State.reset []) ∧ inHas (withStreams State.reset []) (inC []) [] :=
  ⟨streams_ready _, streams_in _ _⟩
theorem witness_DerivesCodes : ready (withStreams built []) ∧ (withStreams built []).tv = true ∧
    holdsRoot (withStreams built []) exTree ∧ exTree.shape.leaves ≤ 257 ∧
    ∀ sym ∈ exTree.shape.symbols, sym.toNat ≤ 256 :=
  ⟨built_ready _, built_tv _, built_holdsRoot _, by decide, by decide⟩
theorem witness_CodesArePrefixFree :
    (after (exec .derive (withStreams built []))).map (fun u => ((u.codeOf 0x41#9).valid, (u.codeOf 0x42#9).valid)) =
      some (true, true) ∧ (0x41#9 : Sym) ≠ 0x42#9 ∧ exTree.shape.branches = true := by decide +kernel
theorem witness_EmitWritesCode : ready (withStreams coded []) ∧ (withStreams coded []).cv = true ∧
    (endSym : Sym).toNat ≤ 256 ∧ outOpen (withStreams coded []) OutChan.reference ∧
    ((withStreams coded []).codeOf endSym).valid = true ∧ ((withStreams coded []).codeOf 0#9).valid = false :=
  ⟨coded_ready _, coded_cv _, by decide, streams_out _ _, by decide +kernel, by decide +kernel⟩
theorem witness_EncodeWritesBody :
    let s := withStreams coded (bitsOfBytes exBytes)
    ready s ∧ s.cv = true ∧ inHas s (inC (bitsOfBytes exBytes)) (bitsOfBytes exBytes) ∧ outOpen s OutChan.reference ∧
    (∀ sym, codeEntryOk (s.codeOf sym)) ∧ (∀ v ∈ bytesOf (bitsOfBytes exBytes), (s.codeOf (v.setWidth 9)).valid = true) ∧
    (s.codeOf endSym).valid = true ∧ s.params.zeroCountFails = false ∧
    ∀ v ∈ bytesOf (bitsOfBytes exBytes), s.isPlaceholder (v.setWidth 9) = false :=
  ⟨coded_ready _, coded_cv _, streams_in _ _, streams_out _ _, coded_codes _, by decide +kernel, by decide +kernel,
    by decide +kernel, by decide +kernel⟩
theorem witness_EncodeWithoutCode :
    (let s := withStreams coded (bitsOfBytes [0x41#8, 0x43#8])
     ready s ∧ s.cv = true ∧ outOpen s OutChan.reference ∧ (∀ sym, codeEntryOk (s.codeOf sym)) ∧
     (∀ v ∈ [0x41#8], (s.codeOf (v.setWidth 9)).valid = true ∧ s.refusesByte v = false) ∧
     inHas s (inC (bitsOfBytes [0x41#8, 0x43#8])) (bitsOfBytes [0x41#8] ++ bitsOf 0x43#8 ++ []) ∧
     (s.codeOf ((0x43#8).setWidth 9)).valid = false) ∧
    (let s : State := { withStreams State.reset [] with cv := true }
     ready s ∧ inHas s (inC []) (bitsOfBytes []) ∧ (s.codeOf endSym).valid = false) :=
  ⟨⟨coded_ready _, coded_cv _, streams_out _ _, coded_codes _, by decide +kernel, streams_in _ _, by decide +kernel⟩,
    ⟨Or.inl rfl, rfl⟩, ⟨rfl, rfl, by decide, rfl⟩, by decide +kernel⟩
/-- The placeholder's byte before a block that goes by R246, and before one that does not. -/
theorem witness_EncodeWithoutCode_placeholder :
    (placeholderState true).refusesByte 0x00#8 = true ∧ ((placeholderState true).codeOf 0#9).valid = true ∧
    (placeholderState false).refusesByte 0x00#8 = false ∧ (placeholderState false).isPlaceholder 0#9 = true ∧
    (placeholderState true).isPlaceholder endSym = false := by decide +kernel
theorem witness_FlushCloses : ready (withStreams State.reset []) ∧ outOpen (withStreams State.reset []) OutChan.reference ∧
    ({ OutChan.reference with closed := true } : OutChan).closed = true := ⟨streams_ready _, streams_out _ _, rfl⟩
theorem witness_DecodeReturnsBytes :
    let bits := [false, false, true, false] ++ [true, true] ++ [true]
    let s := withStreams built bits
    ready s ∧ s.tv = true ∧ holdsRoot s exTree ∧ exTree.shape.branches = true ∧ inHas s (inC bits) bits ∧
    outOpen s OutChan.reference ∧
    exTree.shape.spells (exBytes.map fun b => b.setWidth 9) [false, false, true, false] ∧
    exTree.shape.leads [true, true] endSym :=
  ⟨built_ready _, built_tv _, built_holdsRoot _, rfl, streams_in _ _, streams_out _ _,
    ⟨[false], _, rfl, rfl, [false], _, rfl, rfl, [true, false], _, rfl, rfl, rfl⟩, rfl⟩
theorem witness_DecodeTruncated :
    (let s := withStreams built ([false] ++ [true])
     ready s ∧ s.tv = true ∧ holdsRoot s exTree ∧ exTree.shape.branches = true ∧
     inHas s (inC ([false] ++ [true])) ([false] ++ [true]) ∧ outOpen s OutChan.reference ∧
     exTree.shape.spells ([0x41#8].map fun b => b.setWidth 9) [false] ∧ exTree.shape.leads ([true] ++ [true]) endSym ∧
     ([true] : Bits) ≠ []) ∧
    (inHas (withStreams built ([] ++ [])) (inC ([] ++ [])) ([] ++ []) ∧ exTree.shape.spells [] [] ∧
      exTree.shape.leads ([] ++ [false]) 0x41#9 ∧ ([false] : Bits) ≠ []) :=
  ⟨⟨built_ready _, built_tv _, built_holdsRoot _, rfl, streams_in _ _, streams_out _ _, ⟨[false], [], rfl, rfl, rfl⟩, rfl,
    by decide⟩, streams_in _ _, rfl, rfl, by decide⟩
theorem witness_CodecStepsAgree :
    ready (withStreams State.reset []) ∧
    ((((((after (exec .count (withStreams State.reset []))).bind fun s => after (exec .build s)).bind
      fun s => after (exec .derive s)).bind fun s => after (exec .wrmagic s)).bind fun s => after (exec .wrhdr s)).bind
      fun s => after (exec .encode s)).map State.phase = some .done ∧
    ready (withStreams State.reset exStream) ∧
    (((after (exec .rdmagic (withStreams State.reset exStream))).bind fun s => after (exec .rdhdr s)).bind
      fun s => after (exec .decode s)).map State.phase = some .done :=
  ⟨streams_ready _, by decide +kernel, streams_ready _, by decide +kernel⟩
theorem witness_CompressWritesFormat :
    let s := withStreams State.reset (bitsOfBytes exBytes)
    ready s ∧ s.inp = some (InChan.reference (bitsOfBytes exBytes)) ∧ outOpen s OutChan.reference ∧
    exBytes.length < 2 ^ 32 - 1 :=
  ⟨streams_ready _, rfl, streams_out _ _, by decide⟩
theorem witness_DecompressReadsFormat :
    let bits := bitsOf State.reset.params.magic ++ exShape.header ++ [false, false, true, false] ++ [true, true] ++ [false, false]
    let s := withStreams State.reset bits
    ready s ∧ inHas s (inC bits) (bitsOf s.params.magic ++ exShape.header ++ [false, false, true, false] ++ [true, true] ++
      [false, false]) ∧ outOpen s OutChan.reference ∧ exShape.branches = true ∧ exShape.leaves ≤ 257 ∧
    (∀ sym ∈ exShape.symbols, sym.toNat ≤ 256) ∧
    exShape.spells (exBytes.map fun b => b.setWidth 9) [false, false, true, false] ∧ exShape.leads [true, true] endSym :=
  ⟨streams_ready _, streams_in _ _, streams_out _ _, rfl, by decide, by decide,
    ⟨[false], _, rfl, rfl, [false], _, rfl, rfl, [true, false], _, rfl, rfl, rfl⟩, rfl⟩
theorem witness_RoundTrip :
    (let s := withStreams State.reset (bitsOfBytes exBytes)
     ready s ∧ exBytes.length < 2 ^ 32 - 1 ∧ s.inp = some (InChan.reference (bitsOfBytes exBytes)) ∧
     s.out = some (OutChan.bind 0#7 [])) ∧
    (let u : State := { withStreams State.reset exStream with out := some (OutChan.bind 0x55#7 []) }
     ready u ∧ u.params = State.reset.params ∧ u.inp = some (InChan.reference exStream) ∧
     u.out = some (OutChan.bind 0x55#7 [])) :=
  ⟨⟨streams_ready _, by decide, rfl, rfl⟩, ⟨Or.inl rfl, rfl⟩, rfl, rfl, rfl⟩
theorem witness_NoOutputBeforeItsTime :
    (let s := withStreams (busyWith counted [.treeClear]) []
     s.phase = .busy ∧ s.quiet = true ∧ s.todo = .treeClear :: [] ∧
     Task.treeClear ∈ countProgram ++ buildProgram ++ deriveProgram ∧ (after (engineStep s)).isSome = true) ∧
    (let c : InChan := { inC exStream with rewound := true }
     let s : State := { State.reset with inp := some c }
     ready s ∧ inHas s c exStream ∧ c.rewound = true ∧ exStream.length < 2 ^ 32) ∧
    (State.reset.err = .none ∧
      (after (exec .decompress (withStreams State.reset []))).map State.err = some .malformedHeader) ∧
    ready (withStreams State.reset []) :=
  ⟨by decide +kernel, ⟨⟨Or.inl rfl, rfl⟩, ⟨rfl, rfl, by decide +kernel, rfl⟩, rfl, by decide +kernel⟩, by decide +kernel,
    streams_ready _⟩
/-- One byte value at its maximum: the counts fit, their sum with END's does not. -/
theorem witness_NoOutputBeforeItsTime_overflow :
    let bs : List Byte := List.replicate maxWeight 0x41#8
    let s := withStreams State.reset (bitsOfBytes bs)
    ready s ∧ s.inp = some (InChan.reference (bitsOfBytes bs)) ∧ maxWeight ≤ bs.length ∧
    ∀ v : Byte, bs.count v ≤ maxWeight := by
  refine ⟨streams_ready _, rfl, by rw [List.length_replicate], fun v => ?_⟩
  rw [List.count_replicate]
  split
  · exact Nat.le_refl _
  · exact Nat.zero_le _
theorem witness_NoOutputBeforeItsTime_truncated :
    let bits := bitsOf State.reset.params.magic ++ exHeader.take 31
    ready (withStreams State.reset bits) ∧ inHas (withStreams State.reset bits) (inC bits) bits ∧
    exShape.header = exHeader.take 31 ++ exHeader.drop 31 ∧ exHeader.drop 31 ≠ [] ∧ exShape.leaves ≤ 257 ∧
    (∀ sym ∈ exShape.symbols, sym.toNat ≤ 256) :=
  ⟨streams_ready _, streams_in _ _, by decide +kernel, by decide, by decide, by decide⟩
theorem witness_MagicRecord :
    (let s := withStreams (busyWith State.reset [.readMagic]) (bitsOf 0xFACE8201#32)
     s.phase = .busy ∧ s.quiet = true ∧ s.todo = .readMagic :: [] ∧
     inHas s (inC (bitsOf 0xFACE8201#32)) (bitsOf 0xFACE8201#32 ++ []) ∧ 0xFACE8201#32 = s.params.magic) ∧
    0#32 ≠ State.reset.params.magic ∧ State.reset.phase ≠ .busy ∧
    ((busyWith State.reset [.readTag]).phase = .busy ∧ ∀ ts, (busyWith State.reset [.readTag]).todo ≠ .readMagic :: ts) :=
  ⟨⟨rfl, rfl, rfl, streams_in _ _, rfl⟩, by decide, by decide, rfl, by simp [busyWith]⟩
/-- An engine that reads a record, with NNODES and STACK as given and IN holding the given bits. -/
def reading (n : Idx) (st : List Frame) (bits : Bits) : State :=
  withStreams { busyWith State.reset [.readTag] with nnodes := n, stack := st } bits
theorem reading_meets (n : Idx) (st : List Frame) (bits : Bits) :
    (reading n st bits).phase = .busy ∧ (reading n st bits).quiet = true ∧ (reading n st bits).todo = .readTag :: [] ∧
    inHas (reading n st bits) (inC bits) bits ∧ (reading n st bits).nnodes = n ∧ (reading n st bits).stack = st :=
  ⟨rfl, rfl, rfl, streams_in _ _, rfl, rfl⟩
/-- `reading_meets` at each clause: room for one node and none, the last symbol and the first bad one, every shape of STACK. -/
theorem witness_HeaderRecords :
    ((512#10 : Idx).toNat < 513 ∧ 513 ≤ (513#10 : Idx).toNat ∧ (256#9 : Sym).toNat ≤ 256 ∧ 256 < (257#9 : Sym).toNat) ∧
    inHas (reading 512#10 [] [false]) (inC [false]) (false :: []) ∧
    inHas (reading 512#10 [.opened 0#10] (true :: bitsOf 256#9 ++ [])) (inC (true :: bitsOf 256#9 ++ []))
      (true :: bitsOf 256#9 ++ []) ∧
    (reading 512#10 [] [false]).stack = [] ∧ (reading 1#10 [.opened 0#10] []).stack = .opened 0#10 :: [] ∧
    (reading 2#10 [.half 0#10 1#10] []).stack = [.half 0#10 1#10] ∧
    (reading 3#10 [.half 1#10 2#10, .opened 0#10] []).stack =
      ([(1#10, 2#10)].map fun f : Idx × Idx => Frame.half f.1 f.2) ++ [.opened 0#10] ∧
    (reading 5#10 [.half 2#10 3#10, .half 0#10 1#10] []).stack =
      ([(2#10, 3#10), (0#10, 1#10)].map fun f : Idx × Idx => Frame.half f.1 f.2) ++ [] ∧
    State.reset.phase ≠ .busy ∧
    ((busyWith State.reset [.readSym 0#10]).phase = .busy ∧
      ∀ ts, (busyWith State.reset [.readSym 0#10]).todo ≠ .readTag :: ts) :=
  ⟨by decide, (reading_meets _ _ _).2.2.2.1, (reading_meets _ _ _).2.2.2.1, rfl, rfl, rfl, rfl, rfl, by decide, rfl,
    by simp [busyWith]⟩
/-- The last leaf of the header of R143 completes two nodes at once: node 2 with its children 3 and 4, node 0 with 1 and 2 (the
example of R147). -/
theorem test_leaf_closes_two_nodes : (after (exec (.hdrLeaf endSym) (reading 4#10 [.half 2#10 3#10, .half 0#10 1#10]
    (true :: bitsOf endSym)))).map (fun t => (t.nodeAt? 0#10, t.nodeAt? 2#10, t.stack, t.todo)) =
    some (some (Node.mkInternal 0#32 1#10 2#10), some (Node.mkInternal 0#32 3#10 4#10), [], [.checkRoot 0#10]) := by
  decide +kernel
/-- R247: a rewind after the one rewind, answered err by the reference channel and ok by a channel that grants it; and a rewind
answered err by the channel's own error, which may use up the one rewind (log entry 8). -/
theorem test_second_rewind :
    (let c : InChan := { inC exStream with pos := 9, rewound := true }
     c.rewind.2 = c ∧ (InChan.rewind { c with script := [.granted] }).2 = { c with pos := 0 }) ∧
    (InChan.rewind { inC exStream with script := [.error 4 true] }).2 = { inC exStream with pos := 4, rewound := true } ∧
    (InChan.rewind { inC exStream with script := [.error 4 false] }).2 = { inC exStream with pos := 4 } := by
  decide +kernel
theorem reset_steps : (after (step State.reset)).isSome = true := by decide +kernel
theorem witness_FaultAndHiddenStateKept : errInv State.reset ∧ hiddenInv State.reset :=
  ⟨⟨by simp [State.reset], by simp [State.reset]⟩, fun _ => ⟨rfl, rfl, rfl, rfl, rfl⟩⟩
theorem witness_CodesOnlyWithTreeKept : codesInv State.reset := ⟨by simp [State.reset], by simp [State.reset]⟩
theorem witness_ChannelsKept : positionInv (withStreams State.reset exStream) := by
  intro c h
  cases h
  exact Nat.zero_le _
/-- A BIND OUT that is due, and one that a BUSY engine does not see. -/
theorem witness_ChannelsKept_bindOut :
    (let s : State := { State.reset with host := [⟨.waits, .bindOut 0#7 []⟩] }
     s.eventDue = true ∧ (after (step s)).map State.out = some (some OutChan.reference)) ∧
    (let s : State := { withStreams (busyWith State.reset [.writeMagic]) [] with host := [⟨.waits, .bindOut 0#7 []⟩] }
     s.eventDue = false ∧ (after (step s)).map (fun t => (outBits t).length) = some 32) := by decide +kernel
theorem witness_CodeEntriesKept : codeInv coded := by
  refine ⟨coded_entries, by decide +kernel, ?_⟩
  have : coded.stack = [] := by decide +kernel
  intro i d h
  rw [this] at h
  cases h
theorem witness_TreeInvariantsKept :
    ready (withStreams built []) ∧ treeInv (withStreams built []) ∧ arenaTail (withStreams built []) ∧
    (after (exec .derive (withStreams built []))).map State.phase = some .done := by
  refine ⟨built_ready _, built_treeInv _, ?_, by decide +kernel⟩
  intro i h1 h2
  have hn : (withStreams built []).nnodes = 5#10 := built_fields.2.2.1
  rw [hn] at h1
  exact built_tail ⟨i, h2⟩ h1

end Sys2Proof.Tests
end

section
/-!
PROOFS. Lines that run in a ready state, transactions that answer err (R10, R221), and the walk of DECODE to a leaf (R187).
-/

namespace Sys2Proof.Machine

open Sys2Proof Sys2Proof.Safety

/-! ### The engine at its next lines -/

/-- A BUSY engine that no host action disturbs, the given lines still to come. -/
def State.atLines (s : State) (ts : List Task) : Prop := s.quiet = true ∧ s.phase = .busy ∧ s.todo = ts

/-- A command accepted in a ready state is at its first line (R84). -/
theorem atLines_begin {s : State} (h : ready s) (w : CmdWord) (program : List Task) :
    (s.begin w program).atLines program := ⟨h.2, rfl, rfl⟩

/-- A line that leaves the host's actions and STATE alone leaves the engine at the lines it names. -/
theorem State.atLines.of_frame {s t : State} {ts us : List Task} (h : s.atLines ts) (htodo : t.todo = us)
    (hhost : t.host = s.host := by rfl) (hphase : t.phase = s.phase := by rfl) : t.atLines us := by
  obtain ⟨hq, hb, -⟩ := h
  exact ⟨(State.quiet_congr hhost).trans hq, hphase.trans hb, htodo⟩

/-- The next line is a run of one step. -/
theorem State.atLines.runs {s t : State} {x : Task} {ts : List Task} (h : s.atLines (x :: ts))
    (hx : runTask x ts s = .next t) : Runs 1 s t := by
  obtain ⟨hq, hb, htodo⟩ := h
  exact runs_task hq hb htodo hx

/-- The bits that IN has left are among those the budget counts. -/
theorem length_le_inBits {s : State} {c : InChan} {bits : Bits} (h : inHas s c bits) : bits.length ≤ s.inBits := by
  obtain ⟨hi, -, -, rfl⟩ := h
  simp only [State.inBits, hi, Option.elim, List.length_drop]
  omega

/-- Every program has room for 4096 steps and 128 more for each bit of IN (R252). -/
theorem le_budget {x : Task} {ts : List Task} {s : State} {k : Nat} (h : k ≤ 4096 + 128 * s.inBits) :
    k ≤ budget (x :: ts) s :=
  h.trans (Nat.le_mul_of_pos_left _ (Nat.succ_pos _))

/-- A command whose run comes to a line that raises a fault ends with that fault (R222). -/
theorem issue_fails {w : CmdWord} {pre : State → Bool} {x y : Task} {xs ys : List Task} {s m t : State} {e : ErrCode}
    {k : Nat} (hs : ready s) (hpre : pre s = true) (hrun : Runs k (s.begin w (x :: xs)) m) (hm : m.atLines (y :: ys))
    (hy : runTask y ys m = .next (m.fail e)) (hk : k + 1 ≤ 4096 + 128 * s.inBits := by omega)
    (ht : m.fail e = t := by rfl) : issue w pre (x :: xs) s = .next t :=
  issue_of_runs hs.1 hpre (runs_trans hrun (hm.runs (hy.trans (congrArg _ ht)))) (le_budget hk)
    (ht ▸ fail_not_running m e)

/-! ### Transactions that answer err -/

theorem InChan.read_error {c : InChan} {p : Nat} {spends : Bool} {as : List InAnswer}
    (h : c.script = .error p spends :: as) (n : Nat) :
    c.read n = (.err, InChan.spoil { c with script := as } p) := by
  simp only [InChan.read, InChan.nextAnswer, h]

theorem InChan.rewind_error {c : InChan} {p : Nat} {spends : Bool} {as : List InAnswer}
    (h : c.script = .error p spends :: as) :
    c.rewind = (.err, { InChan.spoil { c with script := as } p with rewound := c.rewound || spends }) := by
  simp only [InChan.rewind, InChan.nextAnswer, h]

theorem OutChan.write_error {c : OutChan} {p : Nat} {closes : Bool} {as : List OutAnswer}
    (h : c.script = .error p closes :: as) {n : Nat} (v : BitVec n) :
    c.write v = (.err, OutChan.spoil { c with script := as } (bitsOf v) p closes) := by
  simp only [OutChan.write, OutChan.nextAnswer, h]

theorem OutChan.flush_error {c : OutChan} {p : Nat} {closes : Bool} {as : List OutAnswer}
    (h : c.script = .error p closes :: as) :
    c.flush = (.err, OutChan.spoil { c with script := as } c.padding p closes) := by
  simp only [OutChan.flush, OutChan.nextAnswer, h]
  rfl

theorem State.readIn_err {s : State} {c c' : InChan} {n : Nat} (hi : s.inp = some c) (hr : c.read n = (.err, c'))
    (k : Option (BitVec n) → State → Result) :
    s.readIn n k = .next (State.fail { s with inp := some c' } .channel) := by
  simp only [State.readIn, hi, hr, State.raise]

theorem State.rewindIn_err {s : State} {c c' : InChan} (hi : s.inp = some c) (hr : c.rewind = (.err, c'))
    (k : State → Result) : s.rewindIn k = .next (State.fail { s with inp := some c' } .channel) := by
  simp only [State.rewindIn, hi, hr, State.raise]

theorem State.writeOut_err {s : State} {c c' : OutChan} {n : Nat} {v : BitVec n} (ho : s.out = some c)
    (hr : c.write v = (.err, c')) (k : State → Result) :
    s.writeOut v k = .next (State.fail { s with out := some c' } .channel) := by
  simp only [State.writeOut, ho, hr, State.raise]

theorem State.flushOut_err {s : State} {c c' : OutChan} (ho : s.out = some c) (hr : c.flush = (.err, c'))
    (k : State → Result) : s.flushOut k = .next (State.fail { s with out := some c' } .channel) := by
  simp only [State.flushOut, ho, hr, State.raise]

/-! ### Transactions on an unbound channel (R242) -/

theorem State.readIn_unbound {s : State} (h : s.inp = none) (n : Nat) (k : Option (BitVec n) → State → Result) :
    s.readIn n k = .next (s.fail .channel) := by
  simp only [State.readIn, h, State.raise]

theorem State.rewindIn_unbound {s : State} (h : s.inp = none) (k : State → Result) :
    s.rewindIn k = .next (s.fail .channel) := by
  simp only [State.rewindIn, h, State.raise]

theorem State.writeOut_unbound {s : State} (h : s.out = none) {n : Nat} (v : BitVec n) (k : State → Result) :
    s.writeOut v k = .next (s.fail .channel) := by
  simp only [State.writeOut, h, State.raise]

theorem State.flushOut_unbound {s : State} (h : s.out = none) (k : State → Result) :
    s.flushOut k = .next (s.fail .channel) := by
  simp only [State.flushOut, h, State.raise]

/-! ### Commands that read an unbound IN -/

/-- The lines with a transaction on IN (R113, R145, R147, R174, R186). -/
def Task.onIn : Task → Bool
  | .countByte | .rewind | .readMagic | .readTag | .readSym _ | .encodeByte | .decodeBit => true
  | _ => false

theorem runTask_unboundIn {s : State} {x : Task} (ts : List Task) (hi : s.inp = none) (hx : x.onIn = true := by rfl) :
    runTask x ts s = .next (s.fail .channel) := by
  cases x with simp only [runTask]
  | countByte => exact State.readIn_unbound hi 8 _
  | rewind => exact State.rewindIn_unbound hi _
  | readMagic => exact State.readIn_unbound hi 32 _
  | readTag => exact State.readIn_unbound hi 1 _
  | readSym _ => exact State.readIn_unbound hi 9 _
  | encodeByte => exact State.readIn_unbound hi 8 _
  | decodeBit => exact State.readIn_unbound hi 1 _
  | _ => cases hx

section UnboundIn

variable {s : State} {w : CmdWord} {pre : State → Bool} {ts : List Task}

/-- COUNT and COMPRESS: FREQ is cleared before the first read (R113, R196). -/
theorem issue_countClear_unboundIn (hs : ready s) (hpre : pre s = true) (hi : s.inp = none) :
    issue w pre (.countClear :: .countByte :: ts) s = .next (s.clearFreq.fail .channel) := by
  have h0 := atLines_begin hs w (.countClear :: .countByte :: ts)
  exact issue_fails hs hpre (h0.runs rfl) (h0.of_frame rfl) (runTask_unboundIn _ hi)

/-- RDMAGIC and DECOMPRESS begin with a read (R145, R199). -/
theorem issue_readMagic_unboundIn (hs : ready s) (hpre : pre s = true) (hi : s.inp = none) :
    issue w pre (.readMagic :: ts) s = .next (s.fail .channel) :=
  issue_fails hs hpre (runs_zero _) (atLines_begin hs w _) (runTask_unboundIn _ hi)

/-- RDHDR: the tree is cleared before the first read (R147). -/
theorem exec_rdhdr_unboundIn (hs : ready s) (hi : s.inp = none) :
    exec .rdhdr s = .next (s.clearTree.fail .channel) := by
  have h0 := atLines_begin hs (commandWord .rdhdr) rdhdrProgram
  exact issue_fails hs rfl (h0.runs rfl) (h0.of_frame rfl) (runTask_unboundIn _ hi)

theorem exec_encode_unboundIn (hs : ready s) (hcv : s.cv = true) (hi : s.inp = none) :
    exec .encode s = .next (s.fail .channel) :=
  issue_fails hs hcv (runs_zero _) (atLines_begin hs _ _) (runTask_unboundIn _ hi)

/-- DECODE: CUR is set before the first read (R186). -/
theorem exec_decode_unboundIn (hs : ready s) (htv : s.tv = true) (hi : s.inp = none) :
    exec .decode s = .next (State.fail { s with cur := s.root } .channel) := by
  have h0 := atLines_begin hs (commandWord .decode) decodeProgram
  exact issue_fails hs htv (h0.runs rfl) (h0.of_frame rfl) (runTask_unboundIn _ hi)

end UnboundIn

/-! ### Lines of ENCODE -/

/-- A byte that is read and not refused is to be emitted (R174). -/
theorem encodeByte_value {s : State} {c : InChan} {v : Byte} {rest : Bits} (ts : List Task)
    (h : inHas s c (bitsOf v ++ rest)) (hv : s.refusesByte v = false) :
    runTask .encodeByte ts s =
      .next { s with inp := some (advance c 8), todo := .emit (v.setWidth 9) :: .encodeByte :: ts } := by
  have hv' : State.refusesByte { s with inp := some (advance c 8) } v = false := hv
  simp only [runTask, encodeByte, State.readIn_value h (length_bitsOf v), valOf_bitsOf, hv', Bool.false_eq_true, if_false,
    State.goOn]

/-- Where IN has no whole byte left the loop ends (R174). -/
theorem encodeByte_eod {s : State} {c : InChan} {bits : Bits} (ts : List Task) (h : inHas s c bits)
    (hb : bits.length < 8) :
    runTask .encodeByte ts s = .next { s with inp := some { c with pos := c.data.length }, todo := ts } := by
  simp only [runTask, encodeByte, State.readIn_eod h hb, State.goOn]

/-- A symbol with a code goes on to its bits (R172). -/
theorem emit_valid {s : State} {sym : Sym} (ts : List Task) (h : (s.codeOf sym).valid = true) :
    runTask (.emit sym) ts s = .next { s with todo := .emitBit sym 0 :: ts } := by
  simp only [runTask, emit, h, if_true, State.goOn]

/-- Past the last bit of its code a symbol is done (R172). -/
theorem emitBit_done {s : State} {sym : Sym} {j : Nat} (ts : List Task) (h : (s.codeOf sym).len.toNat ≤ j) :
    runTask (.emitBit sym j) ts s = .next { s with todo := ts } := by
  simp only [runTask, emitBit, Nat.not_lt.2 h, if_false, State.goOn]

/-! ### The walk of DECODE -/

/-- DECODE at a node, with the given channel and lines to come. -/
def State.decoding (s : State) (c : InChan) (i : Idx) (ts : List Task) : State :=
  { s with inp := some c, cur := i, todo := ts }

/-- The lines that follow a decoded symbol: END ends the loop, another symbol is written (R186). -/
def decodedLines (sym : Sym) (ts : List Task) : List Task :=
  if sym = endSym then ts else .decodeOut sym :: .decodeBit :: ts

theorem decodeStart_eq {s : State} {c : InChan} (ts : List Task) (h : s.inp = some c) :
    runTask .decodeStart ts s = .next (s.decoding c s.root ts) := by
  simp only [runTask, decodeStart, State.goOn, State.decoding, ← h]

theorem inHas_decoding {s : State} {c : InChan} {bits : Bits} (h : inHas s c bits) (t : State) (i : Idx)
    (ts : List Task) : inHas (t.decoding c i ts) c bits := by
  obtain ⟨-, hscript, hpos, hbits⟩ := h
  exact ⟨rfl, hscript, hpos, hbits⟩

/-- One bit leads from an internal node to its child (R187). -/
theorem decodeBit_value {s : State} {c : InChan} {i : Idx} {x : Node} {b : Bool} {rest : Bits} (us ts : List Task)
    (h : inHas (s.decoding c i us) c (b :: rest)) (hx : s.nodeAt? i = some x) :
    runTask .decodeBit ts (s.decoding c i us) = arrive ts (s.decoding (advance c 1) (x.child b) us) := by
  have hbit : decide (valOf 1 [b] = 1#1) = b := by cases b <;> decide
  have hnode : (s.decoding (advance c 1) i us).nodeAt? i = some x := hx
  calc runTask .decodeBit ts (s.decoding c i us)
    _ = (s.decoding (advance c 1) i us).withNode i fun x =>
          arrive ts (s.decoding (advance c 1) (x.child (valOf 1 [b] = 1#1)) us) := by
      simp only [runTask, decodeBit]
      exact State.readIn_value (p := [b]) h rfl
    _ = arrive ts (s.decoding (advance c 1) (x.child b) us) := by simp only [State.withNode, hnode, hbit]

/-- At a leaf the symbol is decoded (R186, R187). -/
theorem arrive_leaf {s : State} {c : InChan} {i : Idx} {sym : Sym} {weight : Weight} (us ts : List Task)
    (h : s.nodeAt? i = some (Node.mkLeaf sym weight)) :
    arrive ts (s.decoding c i us) = .next (s.decoding c i (decodedLines sym ts)) := by
  have hnode : (s.decoding c i us).nodeAt? (s.decoding c i us).cur = some (Node.mkLeaf sym weight) := h
  simp only [arrive, State.withNode, hnode, Node.mkLeaf, if_true, decodedLines]
  split <;> rfl

/-- At an internal node the next bit is read (R187). -/
theorem arrive_internal {s : State} {c : InChan} {i a b : Idx} {weight : Weight} (us ts : List Task)
    (h : s.nodeAt? i = some (Node.mkInternal weight a b)) :
    arrive ts (s.decoding c i us) = .next (s.decoding c i (.decodeBit :: ts)) := by
  have hnode : (s.decoding c i us).nodeAt? (s.decoding c i us).cur = some (Node.mkInternal weight a b) := h
  simp only [arrive, State.withNode, hnode, Node.mkInternal, Bool.false_eq_true, if_false]
  rfl

/-- Which trees stand at which indices depends on the arena alone (R11). -/
theorem holds_iff_of_node_eq {s u : State} (h : u.node = s.node) (t : Tree) (i : Idx) (ixs : List Idx) :
    holds u t i ixs ↔ holds s t i ixs := by
  induction t generalizing i ixs with
  | leaf _ _ => simp only [holds, State.nodeAt?, h]
  | node _ _ _ ihl ihr => simp only [holds, State.nodeAt?, h, ihl, ihr]

/-- The first bit of a path leads to a child in the arena, from which the other bits lead on (R38 item 2, R187). -/
theorem holds_child {s : State} {t : Tree} {i : Idx} {ixs : List Idx} {b : Bool} {bs : Bits} {sym : Sym}
    (h : holds s t i ixs) (hl : t.shape.leads (b :: bs) sym) :
    ∃ x u ixs', s.nodeAt? i = some x ∧ holds s u (x.child b) ixs' ∧ u.shape.leads bs sym := by
  cases t with
  | leaf _ _ => exact hl.elim
  | node weight l r =>
    obtain ⟨a, a', la, lb, hx, hleft, hright, -⟩ := h
    cases b with
    | false => exact ⟨_, l, la, hx, hleft, hl⟩
    | true => exact ⟨_, r, lb, hx, hright, hl⟩

/-- In a tree with at least two leaves no leaf's path is empty. -/
theorem leads_ne_nil {t : Shape} {p : Bits} {sym : Sym} (h : t.branches = true) (hl : t.leads p sym) : p ≠ [] := by
  rintro rfl
  cases t with
  | leaf _ => cases h
  | node _ _ => exact hl

/-- The bits of a leaf's path take DECODE to that leaf, a step for each bit, and nothing but IN's position, CUR and the lines to
come changes (R187). -/
theorem runs_decodeWalk {s : State} {c : InChan} {t : Tree} {i : Idx} {ixs : List Idx} {p rest : Bits} {sym : Sym}
    (ts : List Task) (hs : (s.decoding c i (.decodeBit :: ts)).atLines (.decodeBit :: ts)) (ht : holds s t i ixs)
    (hne : p ≠ []) (hl : t.shape.leads p sym) (hin : inHas (s.decoding c i (.decodeBit :: ts)) c (p ++ rest)) :
    ∃ j, Runs p.length (s.decoding c i (.decodeBit :: ts)) (s.decoding (advance c p.length) j (decodedLines sym ts)) := by
  induction p generalizing c t i ixs with
  | nil => exact absurd rfl hne
  | cons b bs ih =>
    obtain ⟨x, u, ixs', hx, hu, hl'⟩ := holds_child ht hl
    have hbit := decodeBit_value (.decodeBit :: ts) ts hin hx
    cases u with
    | leaf sym' weight =>
      cases bs with
      | cons _ _ => exact hl'.elim
      | nil =>
        obtain rfl : sym = sym' := hl'
        exact ⟨_, hs.runs (hbit.trans (arrive_leaf _ ts hu.1))⟩
    | node weight l r =>
      have hbs : bs ≠ [] := by rintro rfl; exact hl'
      obtain ⟨a, a', _, _, hnode, -, -, -⟩ := id hu
      have hstep := hs.runs (hbit.trans (arrive_internal _ ts hnode))
      obtain ⟨j, hrest⟩ := ih (hs.of_frame rfl) hu hbs hl' (inHas_advance (p := [b]) hin _ rfl)
      have hrun := runs_trans hstep hrest
      rw [advance_advance, List.length_singleton, Nat.add_comm 1] at hrun
      exact ⟨j, hrun⟩

/-! ### Commands that write an unbound OUT -/

section UnboundOut

variable {s : State}

theorem flush_unboundOut (ts : List Task) (ho : s.out = none) : runTask .flush ts s = .next (s.fail .channel) := by
  simp only [runTask, flushStep, State.flushOut_unbound ho]

theorem writeMagic_unboundOut (ts : List Task) (ho : s.out = none) :
    runTask .writeMagic ts s = .next (s.fail .channel) := by
  simp only [runTask, writeMagic, State.writeOut_unbound ho]

/-- The first bit of a node's record is refused, whether the node is a leaf or not (R143). -/
theorem writeNode_unboundOut {i : Idx} {st : List Frame} {x : Node} (ts : List Task) (hst : s.stack = .visit i :: st)
    (hx : s.nodeAt? i = some x) (ho : s.out = none) : runTask .writeNode ts s = .next (s.fail .channel) := by
  simp only [runTask, writeNode, hst, State.withNode, hx, writeRecord]
  split <;> exact State.writeOut_unbound ho _ _

theorem emitBit_unboundOut {sym : Sym} {j : Nat} (ts : List Task) (h : j < (s.codeOf sym).len.toNat)
    (ho : s.out = none) : runTask (.emitBit sym j) ts s = .next (s.fail .channel) := by
  simp only [runTask, emitBit, h, if_true, State.writeOut_unbound ho]

theorem decodeOut_unboundOut {sym : Sym} (ts : List Task) (h : sym.toNat < alph) (ho : s.out = none) :
    runTask (.decodeOut sym) ts s = .next (s.fail .channel) := by
  simp only [runTask, decodeOut, h, if_true, State.writeOut_unbound ho]

theorem exec_wrmagic_unboundOut (hs : ready s) (ho : s.out = none) : exec .wrmagic s = .next (s.fail .channel) :=
  issue_fails hs rfl (runs_zero _) (atLines_begin hs _ _) (writeMagic_unboundOut _ ho)

theorem exec_flush_unboundOut (hs : ready s) (ho : s.out = none) : exec .flush s = .next (s.fail .channel) :=
  issue_fails hs rfl (runs_zero _) (atLines_begin hs _ _) (flush_unboundOut _ ho)

theorem exec_wrhdr_unboundOut {x : Node} (hs : ready s) (ho : s.out = none) (htv : s.tv = true)
    (hx : s.nodeAt? s.root = some x) : exec .wrhdr s = .next (s.fail .channel) := by
  have h0 := atLines_begin hs (commandWord .wrhdr) wrhdrProgram
  exact issue_fails hs htv (h0.runs rfl) (h0.of_frame rfl) (writeNode_unboundOut _ rfl hx ho)

theorem exec_emit_unboundOut {sym : Sym} (hs : ready s) (ho : s.out = none) (hcv : s.cv = true) (hsym : sym.toNat ≤ 256)
    (hvalid : (s.codeOf sym).valid = true) (hlen : 0 < (s.codeOf sym).len.toNat) :
    exec (.emit sym) s = .next (s.fail .channel) := by
  have hissue : exec (.emit sym) s = issue (commandWord (.emit sym)) State.hasCodes (emitProgram sym) s :=
    if_pos (decide_eq_true hsym)
  have h0 := atLines_begin hs (commandWord (.emit sym)) (emitProgram sym)
  rw [hissue]
  exact issue_fails hs hcv (h0.runs (emit_valid _ hvalid)) (h0.of_frame rfl) (emitBit_unboundOut _ hlen ho)

/-- ENCODE fails at the first code bit of its first byte. -/
theorem exec_encode_byte_unboundOut {c : InChan} {v : Byte} {rest : Bits} (hs : ready s) (ho : s.out = none)
    (hcv : s.cv = true) (hin : inHas s c (bitsOf v ++ rest)) (hv : s.refusesByte v = false)
    (hvalid : (s.codeOf (v.setWidth 9)).valid = true) (hlen : 0 < (s.codeOf (v.setWidth 9)).len.toNat) :
    exec .encode s = .next (State.fail { s with inp := some (advance c 8) } .channel) := by
  have h0 := atLines_begin hs (commandWord .encode) encodeProgram
  have hread := h0.runs (encodeByte_value _ hin hv)
  have h1 := h0.of_frame (t := { s.begin (commandWord .encode) encodeProgram with
    inp := some (advance c 8), todo := .emit (v.setWidth 9) :: encodeProgram }) rfl
  have hemit := h1.runs (emit_valid _ hvalid)
  exact issue_fails hs hcv (runs_trans hread hemit) (h1.of_frame rfl) (emitBit_unboundOut _ hlen ho)

/-- With no byte left ENCODE fails at the first bit of END's code, or, if that code has none, at the flush. -/
theorem exec_encode_end_unboundOut {c : InChan} {bits : Bits} (hs : ready s) (ho : s.out = none) (hcv : s.cv = true)
    (hin : inHas s c bits) (hbits : bits.length < 8) (hvalid : (s.codeOf endSym).valid = true) :
    exec .encode s = .next (State.fail { s with inp := some { c with pos := c.data.length } } .channel) := by
  have h0 := atLines_begin hs (commandWord .encode) encodeProgram
  have hread := h0.runs (encodeByte_eod _ hin hbits)
  have h1 := h0.of_frame (t := { s.begin (commandWord .encode) encodeProgram with
    inp := some { c with pos := c.data.length }, todo := [.emit endSym, .flush] }) rfl
  have hemit := h1.runs (emit_valid _ hvalid)
  have h2 := h1.of_frame (t := { s.begin (commandWord .encode) encodeProgram with
    inp := some { c with pos := c.data.length }, todo := [.emitBit endSym 0, .flush] }) rfl
  have hrun := runs_trans hread hemit
  rcases Nat.eq_zero_or_pos (s.codeOf endSym).len.toNat with hlen | hlen
  · exact issue_fails hs hcv (runs_trans hrun (h2.runs (emitBit_done _ hlen.le))) (h2.of_frame rfl)
      (flush_unboundOut _ ho)
  · exact issue_fails hs hcv hrun h2 (emitBit_unboundOut _ hlen ho)

/-- DECODE fails where its first symbol is to be written, or, if that is END, at the flush. -/
theorem exec_decode_unboundOut {c : InChan} {t : Tree} {p rest : Bits} {sym : Sym} (hs : ready s) (ho : s.out = none)
    (htv : s.tv = true) (ht : holdsRoot s t) (hbranches : t.shape.branches = true) (hin : inHas s c (p ++ rest))
    (hl : t.shape.leads p sym) (hsym : sym.toNat ≤ 256) :
    ∃ cur, exec .decode s = .next (State.fail { s with inp := some (advance c p.length), cur := cur } .channel) := by
  obtain ⟨ixs, hroot⟩ := ht
  have hne : p ≠ [] := leads_ne_nil hbranches hl
  have hroom := length_le_inBits hin
  rw [List.length_append] at hroom
  have h0 := atLines_begin hs (commandWord .decode) decodeProgram
  have h1 := h0.of_frame (t := (s.begin (commandWord .decode) decodeProgram).decoding c s.root [.decodeBit, .flush]) rfl
  have hbegin : holds (s.begin (commandWord .decode) decodeProgram) t s.root ixs :=
    (holds_iff_of_node_eq (s := s) (u := s.begin _ _) rfl t _ ixs).2 hroot
  obtain ⟨j, hwalk⟩ := runs_decodeWalk [.flush] h1 hbegin hne hl (inHas_decoding hin _ _ _)
  have hrun := runs_trans (h0.runs (decodeStart_eq _ hin.1)) hwalk
  refine ⟨j, ?_⟩
  by_cases hend : sym = endSym
  · rw [decodedLines, if_pos hend] at hrun
    exact issue_fails hs htv hrun (h1.of_frame rfl) (flush_unboundOut _ ho)
  · rw [decodedLines, if_neg hend] at hrun
    have hlt : sym.toNat < alph := lt_of_le_of_ne hsym fun h => hend (BitVec.eq_of_toNat_eq h)
    exact issue_fails hs htv hrun (h1.of_frame rfl) (decodeOut_unboundOut _ hlt ho)

end UnboundOut

/-! ### A transaction answered err fails the command (R10, R221, R242) -/

/-- A transaction on a bound IN that answers err (R221). -/
theorem inp_err_fails {s : State} {c : InChan} {p : Nat} {spends : Bool} {as : List InAnswer} (hi : s.inp = some c)
    (h : c.script = .error p spends :: as) :
    (∀ (n : Nat) (k : Option (BitVec n) → State → Result),
      ∃ c', s.readIn n k = .next (State.fail { s with inp := some c' } .channel)) ∧
    ∀ k : State → Result, ∃ c', s.rewindIn k = .next (State.fail { s with inp := some c' } .channel) :=
  ⟨fun n k => ⟨_, State.readIn_err hi (InChan.read_error h n) k⟩,
    fun k => ⟨_, State.rewindIn_err hi (InChan.rewind_error h) k⟩⟩

/-- A transaction on a bound OUT that answers err (R221). -/
theorem out_err_fails {s : State} {c : OutChan} {p : Nat} {closes : Bool} {as : List OutAnswer} (ho : s.out = some c)
    (h : c.script = .error p closes :: as) :
    (∀ (n : Nat) (v : BitVec n) (k : State → Result),
      ∃ c', s.writeOut v k = .next (State.fail { s with out := some c' } .channel)) ∧
    ∀ k : State → Result, ∃ c', s.flushOut k = .next (State.fail { s with out := some c' } .channel) :=
  ⟨fun _ v k => ⟨_, State.writeOut_err ho (OutChan.write_error h v) k⟩,
    fun k => ⟨_, State.flushOut_err ho (OutChan.flush_error h) k⟩⟩

/-- Settles O24, transaction by transaction and command by command: each command's run up to its first transaction on the
unbound channel is written out, for DECODE by induction on the path to the first symbol. -/
theorem channelErrIsFault : Obligations.ChannelErrIsFault := by
  unfold Obligations.ChannelErrIsFault
  refine ⟨?errIn, ?errOut, ?noIn, ?noOut, ?commandsIn, ?commandsOut⟩
  case errIn => exact fun s c p spends as hi h => inp_err_fails hi h
  case errOut => exact fun s c p closes as ho h => out_err_fails ho h
  case noIn => exact fun s hi => ⟨State.readIn_unbound hi, State.rewindIn_unbound hi⟩
  case noOut => exact fun s ho => ⟨fun _ => State.writeOut_unbound ho, State.flushOut_unbound ho⟩
  case commandsIn =>
    intro s hs hi
    exact ⟨issue_countClear_unboundIn hs rfl hi, issue_readMagic_unboundIn hs rfl hi, exec_rdhdr_unboundIn hs hi,
      fun hcv => exec_encode_unboundIn hs hcv hi, fun htv => exec_decode_unboundIn hs htv hi,
      issue_countClear_unboundIn hs rfl hi, issue_readMagic_unboundIn hs rfl hi⟩
  case commandsOut =>
    intro s hs ho
    exact ⟨exec_wrmagic_unboundOut hs ho, exec_flush_unboundOut hs ho,
      fun _ htv hx => exec_wrhdr_unboundOut hs ho htv hx,
      fun _ hcv hsym hvalid hlen => exec_emit_unboundOut hs ho hcv hsym hvalid hlen,
      fun _ _ _ hcv hin hv hvalid hlen => exec_encode_byte_unboundOut hs ho hcv hin hv hvalid hlen,
      fun _ _ hcv hin hbits hvalid => exec_encode_end_unboundOut hs ho hcv hin hbits hvalid,
      fun _ _ _ _ _ htv ht hb hin hl hsym => exec_decode_unboundOut hs ho htv ht hb hin hl hsym⟩

end Sys2Proof.Machine
end

section
/-!
PROOFS. Everything that a line of the pseudocode, and an engine step, can do.
-/

namespace Sys2Proof.Machine

open Sys2Proof Sys2Proof.Safety

/-- The lines that write no table but FREQ, and no flag. -/
def Task.isPlain : Task → Bool
  | .countClear | .countByte | .rewind | .writeMagic | .writeTree | .writeNode | .writeSym _ | .readMagic | .encodeByte
  | .emit _ | .emitBit _ _ | .decodeStart | .decodeBit | .decodeOut _ | .flush => true
  | .treeClear | .insertLeaves | .merge | .takeRoot | .codeClear | .walk _ | .codeDone | .readTag | .readSym _
  | .checkRoot _ => false

/-- Everything the line `x`, followed by `ts`, can do in a state. -/
inductive LineOutcome (s : State) : Task → List Task → State → Prop where
  /-- It raises a fault (R222), the code table as it was. -/
  | failed {x : Task} {ts : List Task} (s' : State) (e : ErrCode) (hcode : s'.code = s.code) :
      LineOutcome s x ts (s'.fail e)
  /-- Its channel does not answer (R252). -/
  | waited {x : Task} {ts : List Task} : LineOutcome s x ts s
  /-- A plain line goes on with plain lines; it may leave nodes to be written on STACK (R143). -/
  | passed {x : Task} {ts : List Task} (us : List Task) (freq : Vector Weight 256) (cur : Idx) (stack : List Frame)
      (inp : Option InChan) (out : Option OutChan) (hx : x.isPlain = true) (hus : ∀ u ∈ us, u.isPlain = true)
      (hstack : ∀ f ∈ stack, f ∈ s.stack ∨ ∃ i, f = .visit i) :
      LineOutcome s x ts
        { s with freq := freq, cur := cur, stack := stack, inp := inp, out := out, todo := us ++ ts }
  /-- BUILD and RDHDR begin (R126, R147). -/
  | treeCleared {ts : List Task} : LineOutcome s .treeClear ts { s.clearTree with todo := ts }
  /-- BUILD queues nodes: all the leaves, or the node of a merge (R127, R129). -/
  | queued {x : Task} {ts : List Task} (us : List Task) (node : Vector Node 513) (nnodes : Idx) (pq : List Idx)
      (hx : x = .insertLeaves ∨ x = .merge) (hus : us = [] ∨ us = [.merge]) :
      LineOutcome s x ts { s with node := node, nnodes := nnodes, pq := pq, todo := us ++ ts }
  /-- BUILD ends (R131). -/
  | rootTaken {ts : List Task} (r : Idx) (pq : List Idx) :
      LineOutcome s .takeRoot ts { s.treeValid with root := r, pq := pq, todo := ts }
  /-- DERIVE begins (R161). -/
  | codeCleared {ts : List Task} : LineOutcome s .codeClear ts
      { s.clearCode.dropCodes with path := [], stack := [], todo := .walk s.root :: ts }
  /-- The walk leaves an internal node by `0` (R162). -/
  | walkedLeft {ts : List Task} (i l r : Idx) (hpath : s.path.length < 256) : LineOutcome s (.walk i) ts
      { s with path := s.path ++ [false], stack := .right r s.path.length :: s.stack, todo := .walk l :: ts }
  /-- The walk records the code of a leaf and goes on to a pending right child (R162, R163). -/
  | walkedRight {ts : List Task} (i : Idx) (sym : Sym) (r : Idx) (d : Nat) (st : List Frame) (hsym : sym.toNat ≤ 256)
      (hstack : s.stack = .right r d :: st) : LineOutcome s (.walk i) ts
      { s.setCode sym (Code.ofPath s.path) with
        path := s.path.take d ++ [true], stack := st, todo := .walk r :: ts }
  /-- The walk records the code of the last leaf (R162, R163). -/
  | walkedOut {ts : List Task} (i : Idx) (sym : Sym) (hsym : sym.toNat ≤ 256) : LineOutcome s (.walk i) ts
      { s.setCode sym (Code.ofPath s.path) with path := [], todo := ts }
  /-- DERIVE ends (R161). -/
  | codesDone {ts : List Task} : LineOutcome s .codeDone ts { s.codesValid with todo := ts }
  /-- RDHDR has a tag (R147, R149). -/
  | tagged {ts : List Task} (u : Task) (nnodes : Idx) (stack : List Frame) (inp : Option InChan)
      (hu : u = .readTag ∨ ∃ i, u = .readSym i) (hstack : ∀ f ∈ stack, f ∈ s.stack ∨ ∃ i, f = .opened i) :
      LineOutcome s .readTag ts { s with nnodes := nnodes, stack := stack, inp := inp, todo := u :: ts }
  /-- RDHDR has a leaf and closes the nodes it completes (R147, R148). -/
  | closed {ts : List Task} (i : Idx) (u : Task) (node : Vector Node 513) (stack : List Frame) (inp : Option InChan)
      (hu : u = .readTag ∨ ∃ j, u = .checkRoot j) (hstack : ∀ f ∈ stack, f ∈ s.stack ∨ ∃ j l, f = .half j l) :
      LineOutcome s (.readSym i) ts { s with node := node, stack := stack, inp := inp, todo := u :: ts }
  /-- RDHDR ends (R147, R150). -/
  | rootChecked {ts : List Task} (i : Idx) :
      LineOutcome s (.checkRoot i) ts (State.treeValid { s with root := i, todo := ts })

namespace LineOutcome

variable {s t : State} {x : Task} {ts : List Task}

theorem of_raise {s' : State} {e : ErrCode} (h : s'.raise e = .next t) (hcode : s'.code = s.code := by rfl) :
    LineOutcome s x ts t := by
  cases h; exact .failed s' e hcode

theorem of_goOn {freq : Vector Weight 256} {cur : Idx} {stack : List Frame} {inp : Option InChan} {out : Option OutChan}
    (us : List Task)
    (h : State.goOn { s with freq := freq, cur := cur, stack := stack, inp := inp, out := out } (us ++ ts) = .next t)
    (hx : x.isPlain = true := by rfl) (hus : ∀ u ∈ us, u.isPlain = true := by simp [Task.isPlain])
    (hstack : ∀ f ∈ stack, f ∈ s.stack ∨ ∃ i, f = .visit i := by exact fun _ h => Or.inl h) :
    LineOutcome s x ts t := by
  cases h; exact .passed us freq cur stack inp out hx hus hstack

theorem of_readIn {n : Nat} {k : Option (BitVec n) → State → Result} (h : s.readIn n k = .next t)
    (hk : ∀ r c, k r { s with inp := some c } = .next t → LineOutcome s x ts t) : LineOutcome s x ts t := by
  rcases State.readIn_cases h with ⟨c, rfl⟩ | rfl | ⟨r, c, h⟩
  · exact .failed _ _ rfl
  · exact .waited
  · exact hk r c h

theorem of_rewindIn {k : State → Result} (h : s.rewindIn k = .next t)
    (hk : ∀ c, k { s with inp := some c } = .next t → LineOutcome s x ts t) : LineOutcome s x ts t := by
  rcases State.rewindIn_cases h with ⟨c, rfl⟩ | rfl | ⟨c, h⟩
  · exact .failed _ _ rfl
  · exact .waited
  · exact hk c h

theorem of_writeOut {n : Nat} {v : BitVec n} {k : State → Result} (h : s.writeOut v k = .next t)
    (hk : ∀ c, k { s with out := some c } = .next t → LineOutcome s x ts t) : LineOutcome s x ts t := by
  rcases State.writeOut_cases h with ⟨c, rfl⟩ | rfl | ⟨c, h⟩
  · exact .failed _ _ rfl
  · exact .waited
  · exact hk c h

theorem of_flushOut {k : State → Result} (h : s.flushOut k = .next t)
    (hk : ∀ c, k { s with out := some c } = .next t → LineOutcome s x ts t) : LineOutcome s x ts t := by
  rcases State.flushOut_cases h with ⟨c, rfl⟩ | rfl | ⟨c, h⟩
  · exact .failed _ _ rfl
  · exact .waited
  · exact hk c h

theorem of_countByte (h : countByte ts s = .next t) : LineOutcome s .countByte ts t := by
  refine of_readIn h fun r c h => ?_
  cases r with
  | none => exact of_goOn [] h
  | some v =>
    rcases countValue_cases h with rfl | ⟨a, w, h⟩
    · exact .failed _ _ rfl
    · exact of_goOn [.countByte] h

theorem of_insertLeaves (h : insertLeaves ts s = .next t) : LineOutcome s .insertLeaves ts t := by
  obtain ⟨node, nnodes, pq, hframe⟩ := insertLeaves_frame s
  unfold insertLeaves at h
  rw [hframe] at h
  cases h
  exact .queued [] node nnodes pq (Or.inl rfl) (Or.inl rfl)

theorem of_merge (h : merge ts s = .next t) : LineOutcome s .merge ts t := by
  unfold merge at h
  split at h
  · cases h
    exact .queued [] s.node s.nnodes s.pq (Or.inr rfl) (Or.inl rfl)
  split at h
  · cases h
  rename_i a s1 h1
  split at h
  · cases h
  rename_i b s2 h2
  obtain ⟨q1, rfl⟩ := removeMin_cases h1
  obtain ⟨q2, rfl⟩ := removeMin_cases h2
  rcases mergePair_cases h with rfl | ⟨x, h⟩
  · exact .failed _ _ rfl
  · cases h
    exact .queued [.merge] _ _ _ (Or.inr rfl) (Or.inr rfl)

theorem of_takeRoot (h : takeRoot ts s = .next t) : LineOutcome s .takeRoot ts t := by
  unfold takeRoot at h
  split at h
  · cases h
  rename_i r s1 h1
  obtain ⟨q, rfl⟩ := removeMin_cases h1
  cases h
  exact .rootTaken r q

theorem of_walk {i : Idx} (h : walk i ts s = .next t) : LineOutcome s (.walk i) ts t := by
  obtain ⟨x, h⟩ := withNode_cases h
  split at h
  · split at h
    next hsym =>
      have hsym : x.sym.toNat ≤ 256 := of_decide_eq_true hsym
      unfold walkOn at h
      split at h
      next => cases h; exact .walkedOut i _ hsym
      next r d st hstack => cases h; exact .walkedRight i _ r d st hsym hstack
      next => cases h
    next => cases h
  · split at h
    next hpath => cases h; exact .walkedLeft i x.left x.right hpath
    next => cases h

theorem of_writeNode (h : writeNode ts s = .next t) : LineOutcome s .writeNode ts t := by
  unfold writeNode at h
  split at h
  next => exact of_goOn [] h
  next i st hstack =>
    have hrest : ∀ f ∈ st, f ∈ s.stack := fun f hf => hstack ▸ List.mem_cons_of_mem _ hf
    obtain ⟨x, h⟩ := withNode_cases h
    unfold writeRecord at h
    split at h
    · exact of_writeOut h fun c h => of_goOn [.writeSym x.sym, .writeNode] h (hstack := fun f hf => Or.inl (hrest f hf))
    · refine of_writeOut h fun c h => of_goOn [.writeNode] h (hstack := fun f hf => ?_)
      rcases List.mem_cons.1 hf with rfl | hf
      · exact Or.inr ⟨_, rfl⟩
      rcases List.mem_cons.1 hf with rfl | hf
      · exact Or.inr ⟨_, rfl⟩
      · exact Or.inl (hrest f hf)
  next => cases h

theorem of_readTag (h : readTag ts s = .next t) : LineOutcome s .readTag ts t := by
  refine of_readIn h fun r c h => ?_
  cases r with
  | none => exact of_raise h
  | some b =>
    simp only [tagRead] at h
    split at h
    · split at h
      · cases h
        exact .tagged _ _ s.stack _ (Or.inr ⟨_, rfl⟩) fun f hf => Or.inl hf
      · cases h
        refine .tagged _ _ (_ :: s.stack) _ (Or.inl rfl) fun f hf => ?_
        rcases List.mem_cons.1 hf with rfl | hf
        · exact Or.inr ⟨_, rfl⟩
        · exact Or.inl hf
    · exact of_raise h

theorem of_readSym {i : Idx} (h : readSym i ts s = .next t) : LineOutcome s (.readSym i) ts t := by
  refine of_readIn h fun r c h => ?_
  cases r with
  | none => exact of_raise h
  | some sym =>
    simp only [symRead] at h
    split at h
    · obtain ⟨node, st, todo, rfl, htodo, hframes⟩ := closeNode_cases h
      have hstack := fun f hf => (hframes f hf).symm
      rcases htodo with ⟨j, rfl⟩ | rfl
      · exact .closed i _ node st _ (Or.inr ⟨j, rfl⟩) hstack
      · exact .closed i _ node st _ (Or.inl rfl) hstack
    · exact of_raise h

theorem of_decodeBit (h : decodeBit ts s = .next t) : LineOutcome s .decodeBit ts t := by
  refine of_readIn h fun r c h => ?_
  cases r with
  | none => exact of_raise h
  | some b =>
    obtain ⟨x, h⟩ := withNode_cases h
    obtain ⟨y, h⟩ := withNode_cases h
    split at h
    · split at h
      · exact of_goOn [] h
      · exact of_goOn [.decodeOut y.sym, .decodeBit] h
    · exact of_goOn [.decodeBit] h

end LineOutcome

/-- A line is one of these. -/
theorem runTask_cases {x : Task} {ts : List Task} {s t : State} (h : runTask x ts s = .next t) :
    LineOutcome s x ts t := by
  cases x with simp only [runTask] at h
  | countClear => exact .of_goOn [] h
  | countByte => exact .of_countByte h
  | rewind => exact .of_rewindIn h fun c h => .of_goOn [] h
  | treeClear => cases h; exact .treeCleared
  | insertLeaves => exact .of_insertLeaves h
  | merge => exact .of_merge h
  | takeRoot => exact .of_takeRoot h
  | codeClear => cases h; exact .codeCleared
  | walk i => exact .of_walk h
  | codeDone => cases h; exact .codesDone
  | writeMagic => exact .of_writeOut h fun c h => .of_goOn [] h
  | writeTree =>
    exact .of_goOn [.writeNode] h (hstack := fun f hf => Or.inr ⟨_, List.mem_singleton.1 hf⟩)
  | writeNode => exact .of_writeNode h
  | writeSym sym =>
    unfold writeSym at h
    split at h
    · exact .of_writeOut h fun c h => .of_goOn [] h
    · cases h
  | readMagic =>
    refine .of_readIn h fun r c h => ?_
    cases r with
    | none => exact .of_raise h
    | some m =>
      simp only [checkMagic] at h
      split at h
      · exact .of_goOn [] h
      · exact .of_raise h
  | readTag => exact .of_readTag h
  | readSym i => exact .of_readSym h
  | checkRoot i =>
    obtain ⟨x, h⟩ := withNode_cases h
    split at h
    · exact .of_raise h
    · cases h; exact .rootChecked i
  | encodeByte =>
    refine .of_readIn h fun r c h => ?_
    cases r with
    | none => exact .of_goOn [] h
    | some v =>
      simp only at h
      split at h
      · exact .of_raise h
      · exact .of_goOn [.emit (v.setWidth 9), .encodeByte] h
  | emit sym =>
    unfold emit at h
    split at h
    · exact .of_goOn [.emitBit sym 0] h
    · exact .of_raise h
  | emitBit sym j =>
    unfold emitBit at h
    split at h
    · exact .of_writeOut h fun c h => .of_goOn [.emitBit sym (j + 1)] h
    · exact .of_goOn [] h
  | decodeStart => exact .of_goOn [] h
  | decodeBit => exact .of_decodeBit h
  | decodeOut sym =>
    unfold decodeOut at h
    split at h
    · exact .of_writeOut h fun c h => .of_goOn [] h
    · cases h
  | flush => exact .of_flushOut h fun c h => .of_goOn [] h

/-- Everything an engine step can do: the command ends (R84), or its next line runs. -/
theorem engineStep_cases {s t : State} (h : engineStep s = .next t) :
    (s.todo = [] ∧ t = s.tick.complete) ∨ ∃ x ts, s.todo = x :: ts ∧ runTask x ts s.tick = .next t := by
  unfold engineStep at h
  split at h
  next htodo => cases h; exact Or.inl ⟨htodo, rfl⟩
  next x ts htodo => exact Or.inr ⟨x, ts, htodo, h⟩

end Sys2Proof.Machine
end

section
/-!
PROOFS. What every step keeps: ERR and the hidden state, CV beside TV, the form of the code table (R23 to R25, R31 to R35, R38).
-/

namespace Sys2Proof.Machine

open Sys2Proof Sys2Proof.Safety

/-- Outside the FREQ window, and in BUSY and FAILED, a store changes nothing (R53, R73). -/
theorem storeReg_eq (s : State) (r : Reg) (d : Word) : ∃ freq, s.storeReg r d = { s with freq := freq } := by
  cases r with
  | freq sym =>
    simp only [State.storeReg]
    split
    · exact ⟨_, rfl⟩
    · exact ⟨s.freq, rfl⟩
  | _ => exact ⟨s.freq, rfl⟩

/-- What the host's accesses and bindings write: its own side of the port, FREQ, OVR and the channels (R51, R53, R84,
R242). -/
def State.withPort (s : State) (host : List HostEvent) (rdata : Word) (draws : Nat) (freq : Vector Weight 256) (ovr : Bool)
    (inp : Option InChan) (out : Option OutChan) : State :=
  { s with host := host, rdata := rdata, draws := draws, freq := freq, ovr := ovr, inp := inp, out := out }

/-- `step_keeps` for what does not depend on the port: of the host's actions only a reset and a command matter. -/
theorem step_keeps_of_port {P : State → Prop}
    (hport : ∀ s host rdata draws freq ovr inp out, P s → P (s.withPort host rdata draws freq ovr inp out))
    (hengine : ∀ s t, s.running = true → engineStep s = .next t → P s → P t)
    (hclear : ∀ s, P s → P s.clear)
    (hfail : ∀ s e, e ≠ .none → P s → P (s.fail e))
    (hbegin : ∀ s w program, (s.phase = .idle ∨ s.phase = .done) → startable s program → P s → P (s.begin w program))
    {s t : State} (hs : P s) (h : step s = .next t) : P t := by
  refine step_keeps hengine ?host ?read hclear ?bindIn ?bindOut ?store ?drop (fun s e _ => hfail s e) hbegin hs h
  case host => exact fun s rest => hport s rest s.rdata s.draws s.freq s.ovr s.inp s.out
  case read => exact fun s r => hport s s.host (s.hostRead r) (s.draws + 1) s.freq s.ovr s.inp s.out
  case bindIn => exact fun s d rp sc _ => hport s s.host s.rdata s.draws s.freq s.ovr (some (InChan.bind d rp sc)) s.out
  case bindOut => exact fun s pad sc _ => hport s s.host s.rdata s.draws s.freq s.ovr s.inp (some (OutChan.bind pad sc))
  case store =>
    intro s r d hs
    obtain ⟨freq, hstore⟩ := storeReg_eq s r d
    exact hstore ▸ hport s s.host s.rdata s.draws freq s.ovr s.inp s.out hs
  case drop => exact fun s => hport s s.host s.rdata s.draws s.freq true s.inp s.out

/-! ### ERR and the hidden state (R24, R23, R33 to R35) -/

theorem errInv_fail (s : State) {e : ErrCode} (he : e ≠ .none) : errInv (s.fail e) :=
  ⟨by simp [he], fun _ => ⟨rfl, rfl⟩⟩

theorem hiddenInv_fail (s : State) (e : ErrCode) : hiddenInv (s.fail e) := fun _ => ⟨rfl, rfl, rfl, rfl, rfl⟩

theorem errInv_clear (s : State) : errInv s.clear := ⟨by simp, by simp⟩

theorem hiddenInv_clear (s : State) : hiddenInv s.clear := fun _ => ⟨rfl, rfl, rfl, rfl, rfl⟩

/-- In BUSY there is no fault, and nothing is hidden that should not be. -/
theorem faultHidden_of_busy {s : State} (hb : s.phase = .busy) (he : s.err = .none) : errInv s ∧ hiddenInv s :=
  ⟨⟨by simp [hb, he], by simp [hb]⟩, fun h => absurd hb h⟩

theorem engineStep_keeps_faultHidden {s t : State} (hrun : s.running = true) (hstep : engineStep s = .next t)
    (h : errInv s ∧ hiddenInv s) : errInv t ∧ hiddenInv t := by
  have hb := State.running_busy hrun
  obtain ⟨⟨herr, -⟩, -⟩ := h
  have he : s.err = .none := herr.2 (by simp [hb])
  rcases engineStep_cases hstep with ⟨-, rfl⟩ | ⟨x, ts, -, hx⟩
  · exact ⟨⟨by simp [he], by simp⟩, fun _ => ⟨rfl, rfl, rfl, rfl, rfl⟩⟩
  · rcases runTask_phase hx with ⟨s', e, hne, rfl⟩ | ⟨hphase, herr', -⟩
    · exact ⟨errInv_fail s' hne, hiddenInv_fail s' e⟩
    · exact faultHidden_of_busy (hphase.trans hb) (herr'.trans he)

/-- Settles O55, by the outcomes of a step: a line raises a fault or leaves STATE and ERR alone (`runTask_phase`). -/
theorem faultAndHiddenStateKept : Obligations.FaultAndHiddenStateKept := by
  unfold Obligations.FaultAndHiddenStateKept
  intro s t herr hhidden hstep
  refine step_keeps_of_port (P := fun s => errInv s ∧ hiddenInv s) ?port ?engine ?clear ?fail ?begin ⟨herr, hhidden⟩ hstep
  case engine => exact fun s t hrun hstep h => engineStep_keeps_faultHidden hrun hstep h
  case port => exact fun _ _ _ _ _ _ _ _ h => h
  case clear => exact fun s _ => ⟨errInv_clear s, hiddenInv_clear s⟩
  case fail => exact fun s e hne _ => ⟨errInv_fail s hne, hiddenInv_fail s e⟩
  case begin =>
    rintro s w program hp - ⟨⟨herr, -⟩, -⟩
    exact faultHidden_of_busy rfl (herr.2 (by rcases hp with hp | hp <;> simp [hp]))

/-! ### CV stands beside TV (R38) -/

/-- A plain line neither needs a tree nor makes one. -/
theorem codesAfterTree_plain {x : Task} (hx : x.isPlain = true) (tv : Bool) (ts : List Task) :
    codesAfterTree tv (x :: ts) = codesAfterTree tv ts := by
  cases x with
  | treeClear | insertLeaves | merge | takeRoot | codeClear | walk _ | codeDone | readTag | readSym _
  | checkRoot _ => cases hx
  | _ => simp only [codesAfterTree]

theorem codesAfterTree_plain_append {us : List Task} (hus : ∀ u ∈ us, u.isPlain = true) (tv : Bool) (ts : List Task) :
    codesAfterTree tv (us ++ ts) = codesAfterTree tv ts := by
  induction us with
  | nil => rfl
  | cons u us ih =>
    rw [List.cons_append, codesAfterTree_plain (hus u List.mem_cons_self),
      ih fun v hv => hus v (List.mem_cons_of_mem u hv)]

theorem codesInv_fail (s : State) (e : ErrCode) : codesInv (s.fail e) := ⟨by simp, by simp⟩

theorem codesInv_clear (s : State) : codesInv s.clear := ⟨by simp, by simp⟩

theorem LineOutcome.keeps_codes {s t : State} {x : Task} {ts : List Task} (h : LineOutcome s x ts t)
    (hcv : s.cv = true → s.tv = true) (htodo : s.todo = x :: ts) (hlines : codesAfterTree s.tv (x :: ts)) :
    (t.cv = true → t.tv = true) ∧ (t.phase = .busy → codesAfterTree t.tv t.todo) := by
  cases h with
  | failed s' e _ => exact codesInv_fail s' e
  | waited => exact ⟨hcv, fun _ => htodo ▸ hlines⟩
  | passed us _ _ _ _ _ hx hus _ =>
    rw [codesAfterTree_plain hx, ← codesAfterTree_plain_append hus] at hlines
    exact ⟨hcv, fun _ => hlines⟩
  | treeCleared => exact ⟨by simp, fun _ => hlines⟩
  | queued us _ _ _ hx hus =>
    rcases hx with rfl | rfl <;> rcases hus with rfl | rfl <;> exact ⟨hcv, fun _ => hlines⟩
  | rootTaken r pq => exact ⟨fun _ => rfl, fun _ => hlines⟩
  | codeCleared => exact ⟨by simp, fun _ => hlines⟩
  | walkedLeft | walkedRight | walkedOut => exact ⟨hcv, fun _ => hlines⟩
  | codesDone => exact ⟨fun _ => hlines.1, fun _ => hlines.2⟩
  | tagged u _ _ _ hu _ => rcases hu with rfl | ⟨_, rfl⟩ <;> exact ⟨hcv, fun _ => hlines⟩
  | closed _ u _ _ _ hu _ => rcases hu with rfl | ⟨_, rfl⟩ <;> exact ⟨hcv, fun _ => hlines⟩
  | rootChecked i => exact ⟨fun _ => rfl, fun _ => hlines⟩

theorem engineStep_keeps_codes {s t : State} (hrun : s.running = true) (hstep : engineStep s = .next t)
    (h : codesInv s) : codesInv t := by
  obtain ⟨hcv, hlines⟩ := h
  have hlines := hlines (State.running_busy hrun)
  rcases engineStep_cases hstep with ⟨-, rfl⟩ | ⟨x, ts, htodo, hx⟩
  · exact ⟨hcv, by simp⟩
  · rw [htodo] at hlines
    exact (runTask_cases hx).keeps_codes hcv htodo hlines

/-- A program that starts needs no tree for its codes but one it makes, or one that is there (R85). -/
theorem codesAfterTree_of_startable {s : State} {program : List Task} (h : startable s program) :
    codesAfterTree s.tv program := by
  rcases h with h | ⟨htv, h⟩ | ⟨-, rfl | ⟨sym, rfl⟩⟩
  · simp only [List.mem_cons, List.not_mem_nil, or_false] at h
    rcases h with rfl | rfl | rfl | rfl | rfl | rfl | rfl | rfl
    · exact trivial
    · exact trivial
    · exact trivial
    · exact trivial
    · exact trivial
    · exact trivial
    · exact ⟨rfl, trivial⟩
    · exact trivial
  · simp only [List.mem_cons, List.not_mem_nil, or_false] at h
    rcases h with rfl | rfl | rfl
    · exact trivial
    · exact ⟨htv, trivial⟩
    · exact trivial
  · exact trivial
  · exact trivial

/-- Settles O56, by the outcomes of a step and of a line. -/
theorem codesOnlyWithTreeKept : Obligations.CodesOnlyWithTreeKept := by
  unfold Obligations.CodesOnlyWithTreeKept
  intro s t h hstep
  refine step_keeps_of_port (P := codesInv) ?port ?engine ?clear ?fail ?begin h hstep
  case engine => exact fun s t hrun hstep h => engineStep_keeps_codes hrun hstep h
  case port => exact fun _ _ _ _ _ _ _ _ h => h
  case clear => exact fun s _ => codesInv_clear s
  case fail => exact fun s e _ _ => codesInv_fail s e
  case begin => exact fun s w program _ hstart h => ⟨h.1, fun _ => codesAfterTree_of_startable hstart⟩

/-! ### The form of the code table (R31, R35) -/

theorem codeOf_of_code_none {s : State} (h : s.code = Vector.replicate 257 Code.none) (sym : Sym) :
    s.codeOf sym = Code.none := by
  rcases Nat.lt_or_ge sym.toNat 257 with hlt | hge
  · simp [State.codeOf, h, hlt]
  · simp [State.codeOf, h, Nat.not_lt.2 hge]

/-- Every entry has the form of R31 where the table is cleared. -/
theorem codeEntries_of_code_none {s : State} (h : s.code = Vector.replicate 257 Code.none) (sym : Sym) :
    codeEntryOk (s.codeOf sym) := by
  rw [codeOf_of_code_none h]
  exact codeEntryOk_none

/-- Recording a path of at most 256 bits keeps the form of every entry (R163). -/
theorem codeEntries_setCode {s : State} {a : Sym} {p : Bits} (h : ∀ sym, codeEntryOk (s.codeOf sym))
    (ha : a.toNat ≤ 256) (hp : p.length ≤ 256) (sym : Sym) : codeEntryOk ((s.setCode a (Code.ofPath p)).codeOf sym) := by
  rw [State.codeOf_setCode s sym _ ha]
  split
  · exact codeEntryOk_ofPath hp
  · exact h sym

theorem codeInv_of_empty {s : State} (h : ∀ sym, codeEntryOk (s.codeOf sym)) (hpath : s.path = []) (hstack : s.stack = []) :
    codeInv s := ⟨h, by simp [hpath], by simp [hstack]⟩

theorem codeInv_clear (s : State) : codeInv s.clear := codeInv_of_empty (codeEntries_of_code_none rfl) rfl rfl

/-- Frames of other walks put no pending right child on STACK. -/
theorem right_bound_of_frames {old new : List Frame} {other : Frame → Prop} (h : ∀ i d, Frame.right i d ∈ old → d < 256)
    (hnew : ∀ f ∈ new, f ∈ old ∨ other f) (hother : ∀ i d, ¬ other (.right i d)) :
    ∀ i d, Frame.right i d ∈ new → d < 256 :=
  fun i d hf => h i d ((hnew _ hf).resolve_right (hother i d))

theorem LineOutcome.keeps_code {s t : State} {x : Task} {ts : List Task} (h : LineOutcome s x ts t) (hs : codeInv s) :
    codeInv t := by
  obtain ⟨hcode, hpath, hstack⟩ := hs
  cases h with
  | failed s' e hc =>
    have hcode' : ∀ sym, codeEntryOk (s'.codeOf sym) := by simpa only [State.codeOf, hc] using hcode
    exact codeInv_of_empty hcode' rfl rfl
  | waited | queued | rootTaken | codesDone | rootChecked => exact ⟨hcode, hpath, hstack⟩
  | passed _ _ _ _ _ _ _ _ hnew => exact ⟨hcode, hpath, right_bound_of_frames hstack hnew (by simp)⟩
  | tagged _ _ _ _ _ hnew => exact ⟨hcode, hpath, right_bound_of_frames hstack hnew (by simp)⟩
  | closed _ _ _ _ _ _ hnew => exact ⟨hcode, hpath, right_bound_of_frames hstack hnew (by simp)⟩
  | treeCleared => exact ⟨hcode, hpath, by simp⟩
  | codeCleared => exact codeInv_of_empty (codeEntries_of_code_none rfl) rfl rfl
  | walkedLeft i l r hlt =>
    refine ⟨hcode, by simp; omega, fun j d hf => ?_⟩
    rcases List.mem_cons.1 hf with hf | hf
    · cases hf; exact hlt
    · exact hstack j d hf
  | walkedRight i sym r d st hsym hst =>
    have hd : d < 256 := hstack r d (hst ▸ List.mem_cons_self)
    exact ⟨codeEntries_setCode hcode hsym hpath, by simp; omega, fun j e hf =>
      hstack j e (hst ▸ List.mem_cons_of_mem _ hf)⟩
  | walkedOut i sym hsym => exact ⟨codeEntries_setCode hcode hsym hpath, by simp, hstack⟩

/-- Settles O57, by the outcomes of a step and of a line: DERIVE's walk alone records codes, and PATH gets longer only where it
has room. -/
theorem codeEntriesKept : Obligations.CodeEntriesKept := by
  unfold Obligations.CodeEntriesKept
  intro s t h hstep
  refine step_keeps_of_port (P := codeInv) ?port ?engine ?clear ?fail ?begin h hstep
  case engine =>
    intro s t _ hstep h
    rcases engineStep_cases hstep with ⟨-, rfl⟩ | ⟨x, ts, -, hx⟩
    · exact codeInv_of_empty h.1 rfl rfl
    · exact (runTask_cases hx).keeps_code h
  case port => exact fun _ _ _ _ _ _ _ _ h => h
  case clear => exact fun s _ => codeInv_clear s
  case fail => exact fun s e _ h => codeInv_of_empty h.1 rfl rfl
  case begin => exact fun s w program _ _ h => h

end Sys2Proof.Machine
end

section
/-!
PROOFS. Presented commands, CLR and reset, and STATUS (R22, R40, R41, R84, R111).
-/

namespace Sys2Proof.Machine

open Sys2Proof Sys2Proof.Safety

/-! ### Presented commands, CLR and reset -/

/-- Settles O5: the due action is the write of the word, and register number 0 is CMD. -/
theorem stepRunsPresentedCommand : Obligations.StepRunsPresentedCommand := by
  unfold Obligations.StepRunsPresentedCommand
  intro s p d rest i hhost hdue hpace hdecode
  calc step s = hostEvent ⟨p, .write 0#16 d⟩ { s with host := rest } := by
        simp only [step, turn, hdue, if_true, hhost]
    _ = exec i { s with host := rest } := by
        simp only [hostEvent, if_neg hpace, hostAct, hostWrite, regOf_zero, writeCmd, hdecode]

theorem exec_clr_of_not_busy {s : State} (h : s.phase ≠ .busy) : exec .clr s = .next s.clear := by
  show execClr s = _
  cases hphase : s.phase with
  | busy => exact absurd hphase h
  | idle | done | failed => simp only [execClr, hphase]

/-- Settles O10: CLR by STATE, the other clauses by definition. -/
theorem clrAndReset : Obligations.ClrAndReset := by
  unfold Obligations.ClrAndReset
  exact ⟨fun s => rfl, fun s h => exec_clr_of_not_busy h, fun s h => exec_busy .clr rfl s h, fun s => rfl⟩

/-- Settles O11: the tables entry by entry. -/
theorem resetValues : Obligations.ResetValues := by
  unfold Obligations.ResetValues
  refine ⟨rfl, rfl, rfl, rfl, rfl, rfl, ?freq, State.freqOf_end _, ?node, rfl, rfl, ?code, rfl, rfl, rfl, rfl, rfl, rfl,
    rfl, by decide⟩
  case freq => intro sym h; simp [State.freqOf, State.reset, h]
  case node => intro i h; simp [State.nodeAt?, State.reset, h, Node.zero]
  case code => exact codeOf_of_code_none rfl

theorem arenaTail_of_node_zero {s : State} (h : s.node = Vector.replicate 513 Node.zero) : arenaTail s := by
  intro i _ hi
  simp [h, hi]

/-- Settles O60: reset is a cleared state. -/
theorem resetMeetsInvariants : Obligations.ResetMeetsInvariants := by
  unfold Obligations.ResetMeetsInvariants
  have hclear : State.reset.clear = State.reset := rfl
  have hposition : positionInv State.reset := fun _ h => by cases h
  exact ⟨hclear ▸ errInv_clear _, hclear ▸ hiddenInv_clear _, hclear ▸ codesInv_clear _, hclear ▸ codeInv_clear _,
    hposition, rfl, arenaTail_of_node_zero rfl, fun s => ⟨errInv_clear s, hiddenInv_clear s, codesInv_clear s,
      codeInv_clear s, rfl, arenaTail_of_node_zero rfl⟩⟩

/-! ### STATUS -/

/-- STATUS bit by bit (R22). -/
theorem statusWord_bit (s : State) (k : Nat) : s.statusWord.getLsbD k =
    if k < 2 then s.phase.toBits.getLsbD k else if k < 3 then s.tv else if k < 4 then s.cv else if k < 5 then s.ovr
    else if k < 8 then false else if k < 12 then s.err.toBits.getLsbD (k - 8) else false := by
  have e : s.statusWord.getLsbD k = (0#20 ++ s.err.toBits ++ 0#3 ++ BitVec.ofBool s.ovr ++ BitVec.ofBool s.cv ++
    BitVec.ofBool s.tv ++ s.phase.toBits).getLsbD k := rfl
  rw [e]
  simp only [getLsbD_append', Nat.sub_sub, BitVec.getLsbD_zero, BitVec.getLsbD_ofBool]
  grind

theorem hostRead_status (s : State) : s.hostRead 1#16 = s.statusWord := by
  simp only [State.hostRead, regOf_one, Reg.guarded, Bool.false_and, Bool.false_eq_true, if_false, State.regWord]

/-- Settles O14, bit by bit. -/
theorem statusRegister : Obligations.StatusRegister := by
  unfold Obligations.StatusRegister
  intro s
  rw [hostRead_status]
  refine ⟨?state, statusWord_bit s 2, statusWord_bit s 3, statusWord_bit s 4, ?reservedLow, ?err, ?reservedHigh, ?ignored⟩
  case state =>
    ext i hi
    simp only [BitVec.getElem_extractLsb', statusWord_bit, Nat.zero_add, if_pos hi, BitVec.getLsbD_eq_getElem hi]
  case reservedLow =>
    ext i hi
    simp only [BitVec.getElem_extractLsb', statusWord_bit]
    rw [if_neg (by omega), if_neg (by omega), if_neg (by omega), if_neg (by omega), if_pos (by omega), BitVec.getElem_zero]
  case err =>
    ext i hi
    simp only [BitVec.getElem_extractLsb', statusWord_bit]
    rw [if_neg (by omega), if_neg (by omega), if_neg (by omega), if_neg (by omega), if_neg (by omega), if_pos (by omega),
      Nat.add_sub_cancel_left, BitVec.getLsbD_eq_getElem hi]
  case reservedHigh =>
    ext i hi
    simp only [BitVec.getElem_extractLsb', statusWord_bit]
    rw [if_neg (by omega), if_neg (by omega), if_neg (by omega), if_neg (by omega), if_neg (by omega), if_neg (by omega),
      BitVec.getElem_zero]
  case ignored => exact fun d => by simp only [hostWrite, regOf_one, State.storeReg]

end Sys2Proof.Machine
end

section
/-!
PROOFS. Trees in the arena and the indices given out (R11, R28, R37).
-/

namespace Sys2Proof.Machine

open Sys2Proof Sys2Proof.Safety

/-! ### Trees in the arena (R11) -/

/-- The second arena has the entries of the first at the given indices. -/
def Agree (s t : State) (ixs : List Idx) : Prop := ∀ i ∈ ixs, t.nodeAt? i = s.nodeAt? i

theorem Agree.mono {s t : State} {a b : List Idx} (h : Agree s t b) (hab : ∀ i ∈ a, i ∈ b) : Agree s t a :=
  fun i hi => h i (hab i hi)

theorem agree_of_node_eq {s t : State} (h : t.node = s.node) (ixs : List Idx) : Agree s t ixs :=
  fun i _ => by simp only [State.nodeAt?, h]

theorem nodeAt_setNode_of_ne (s : State) {i j : Idx} (x : Node) (h : i ≠ j) : (s.setNode i x).nodeAt? j = s.nodeAt? j :=
  Vector.getElem?_setIfInBounds_ne fun e => h (BitVec.eq_of_toNat_eq e)

theorem agree_setNode {s : State} {i : Idx} {ixs : List Idx} (x : Node) (h : i ∉ ixs) : Agree s (s.setNode i x) ixs :=
  fun _ hj => nodeAt_setNode_of_ne s x fun e => h (e ▸ hj)

theorem holds_of_agree {s u : State} {t : Tree} {i : Idx} {ixs : List Idx} (h : holds s t i ixs) (ha : Agree s u ixs) :
    holds u t i ixs := by
  induction t generalizing i ixs with
  | leaf sym w =>
    obtain ⟨hi, rfl⟩ := h
    exact ⟨(ha i (by simp)).trans hi, rfl⟩
  | node w l r ihl ihr =>
    obtain ⟨a, b, la, lb, hi, hl, hr, rfl⟩ := h
    exact ⟨a, b, la, lb, (ha i (by simp)).trans hi, ihl hl (ha.mono (by simp +contextual)),
      ihr hr (ha.mono (by simp +contextual)), rfl⟩

theorem mem_of_holds {s : State} {t : Tree} {i : Idx} {ixs : List Idx} (h : holds s t i ixs) : i ∈ ixs := by
  cases t with
  | leaf sym w => obtain ⟨-, rfl⟩ := h; simp
  | node w l r => obtain ⟨a, b, la, lb, -, -, -, rfl⟩ := h; simp

theorem leaves_pos (t : Shape) : 1 ≤ t.leaves := by
  induction t with
  | leaf sym => exact le_rfl
  | node l r ihl ihr => simp only [Shape.leaves]; omega

/-- A tree of L leaves has 2L - 1 nodes (R37 item 2). -/
theorem length_of_holds {s : State} {t : Tree} {i : Idx} {ixs : List Idx} (h : holds s t i ixs) :
    ixs.length + 1 = 2 * t.shape.leaves := by
  induction t generalizing i ixs with
  | leaf sym w => obtain ⟨-, rfl⟩ := h; rfl
  | node w l r ihl ihr =>
    obtain ⟨a, b, la, lb, -, hl, hr, rfl⟩ := h
    have := ihl hl
    have := ihr hr
    simp only [Tree.shape, Shape.leaves, List.length_cons, List.length_append]
    omega

/-- A tree stands at an index, its leaves hold symbols 0 to 256, and its nodes have the given indices. -/
def Subtree (s : State) (i : Idx) (ixs : List Idx) : Prop :=
  ∃ t : Tree, holds s t i ixs ∧ ∀ sym ∈ t.shape.symbols, sym.toNat ≤ 256

theorem Subtree.of_agree {s u : State} {i : Idx} {ixs : List Idx} (h : Subtree s i ixs) (ha : Agree s u ixs) :
    Subtree u i ixs := by
  obtain ⟨t, ht, hsym⟩ := h
  exact ⟨t, holds_of_agree ht ha, hsym⟩

theorem subtree_leaf {s : State} {i : Idx} {sym : Sym} {w : Weight} (h : s.nodeAt? i = some (Node.mkLeaf sym w))
    (hsym : sym.toNat ≤ 256) : Subtree s i [i] :=
  ⟨.leaf sym w, ⟨h, rfl⟩, by simpa [Tree.shape, Shape.symbols] using hsym⟩

theorem subtree_node {s : State} {i l r : Idx} {w : Weight} {a b : List Idx}
    (h : s.nodeAt? i = some (Node.mkInternal w l r)) (hl : Subtree s l a) (hr : Subtree s r b) :
    Subtree s i (i :: (a ++ b)) := by
  obtain ⟨tl, htl, hsl⟩ := hl
  obtain ⟨tr, htr, hsr⟩ := hr
  refine ⟨.node w tl tr, ⟨l, r, a, b, h, htl, htr, rfl⟩, fun sym hsym => ?_⟩
  rcases List.mem_append.1 hsym with hsym | hsym
  · exact hsl sym hsym
  · exact hsr sym hsym

/-! ### The indices given out -/

/-- The given indices are those below NNODES, each once, and the entries from NNODES on are zero (R28, R37 item 1). -/
def Filled (s : State) (ixs : List Idx) : Prop :=
  ixs.Nodup ∧ ixs.length = s.nnodes.toNat ∧ (∀ i ∈ ixs, i.toNat < s.nnodes.toNat) ∧ s.nnodes.toNat ≤ 513 ∧ arenaTail s

theorem Filled.of_frame {s t : State} {ixs : List Idx} (h : Filled s ixs) (hnode : t.node = s.node := by rfl)
    (hn : t.nnodes = s.nnodes := by rfl) : Filled t ixs := by
  simpa only [Filled, Safety.arenaTail, hnode, hn] using h

theorem Filled.perm {s : State} {a b : List Idx} (h : Filled s a) (hab : a.Perm b) : Filled s b := by
  obtain ⟨hnodup, hlen, hlt, hcap, htail⟩ := h
  exact ⟨hab.nodup_iff.1 hnodup, hab.length_eq ▸ hlen, fun i hi => hlt i (hab.mem_iff.2 hi), hcap, htail⟩

theorem Filled.arenaTail {s : State} {ixs : List Idx} (h : Filled s ixs) : arenaTail s := by
  obtain ⟨-, -, -, -, htail⟩ := h
  exact htail

/-- An index given out is one of the arena. -/
theorem Filled.lt_of_mem {s : State} {ixs : List Idx} {i : Idx} (h : Filled s ixs) (hi : i ∈ ixs) : i.toNat < 513 := by
  obtain ⟨-, -, hlt, hcap, -⟩ := h
  exact (hlt i hi).trans_le hcap

theorem Filled.head_notMem {s : State} {ixs : List Idx} {i : Idx} (h : Filled s (i :: ixs)) : i ∉ ixs := by
  obtain ⟨hnodup, -⟩ := h
  exact (List.nodup_cons.1 hnodup).1

theorem filled_nil {s : State} (hn : s.nnodes = 0#10) (htail : arenaTail s) : Filled s [] := by
  refine ⟨List.nodup_nil, ?_, by simp, ?_, htail⟩ <;> simp [hn]

theorem Filled.nnodes_notMem {s : State} {ixs : List Idx} (h : Filled s ixs) : s.nnodes ∉ ixs := by
  obtain ⟨-, -, hlt, -, -⟩ := h
  exact fun hmem => lt_irrefl _ (hlt _ hmem)

theorem toNat_nnodes_succ {n : Idx} (h : n.toNat < 513) : (n + 1#10).toNat = n.toNat + 1 := by
  rw [BitVec.toNat_add]
  simp
  omega

/-- `i <- NNODES; NNODES <- NNODES + 1`, whatever becomes of NODE[i] (R127, R129, R147). -/
theorem Filled.allocate {s t : State} {ixs : List Idx} (h : Filled s ixs) (hlt : s.nnodes.toNat < 513)
    (hn : t.nnodes = s.nnodes + 1#10) (hnode : ∀ k : Nat, k ≠ s.nnodes.toNat → t.node[k]? = s.node[k]?) :
    Filled t (s.nnodes :: ixs) := by
  have hmem := h.nnodes_notMem
  obtain ⟨hnodup, hlen, hbelow, -, htail⟩ := h
  have hn' : t.nnodes.toNat = s.nnodes.toNat + 1 := by rw [hn, toNat_nnodes_succ hlt]
  refine ⟨List.nodup_cons.2 ⟨hmem, hnodup⟩, by rw [List.length_cons, hlen, hn'], fun i hi => ?_, by omega,
    fun k hk hk' => ?_⟩
  · rcases List.mem_cons.1 hi with rfl | hi
    · omega
    · have := hbelow i hi
      omega
  · rw [hnode k (by omega)]
    exact htail k (by omega) hk'

theorem Filled.setNode {s : State} {ixs : List Idx} {i : Idx} (x : Node) (h : Filled s ixs) (hi : i ∈ ixs) :
    Filled (s.setNode i x) ixs := by
  obtain ⟨hnodup, hlen, hlt, hcap, htail⟩ := h
  refine ⟨hnodup, hlen, hlt, hcap, fun k hk hk' => ?_⟩
  have := hlt i hi
  rw [State.setNode_node, Vector.getElem?_setIfInBounds_ne (by simp only [State.setNode_nnodes] at hk; omega)]
  exact htail k hk hk'

/-- Items 1 to 5 of R37 depend on the arena, NNODES and ROOT alone. -/
theorem treeInv_of_frame {s t : State} (h : treeInv s) (hnode : t.node = s.node := by rfl)
    (hn : t.nnodes = s.nnodes := by rfl) (hroot : t.root = s.root := by rfl) : treeInv t := by
  obtain ⟨h3, hodd, hcap, hlt, x, ixs, hx, hrest⟩ := h
  unfold treeInv
  rw [hn, hroot]
  exact ⟨h3, hodd, hcap, hlt, x, ixs, holds_of_agree hx (agree_of_node_eq hnode ixs), hrest⟩

/-- A tree at ROOT that has all the nodes given out, two at least, has items 1 to 5 of R37. -/
theorem treeInv_of_filled {s : State} {ixs : List Idx} (ht : Subtree s s.root ixs) (hf : Filled s ixs)
    (h2 : 2 ≤ s.nnodes.toNat) : treeInv s := by
  obtain ⟨t, ht, hsym⟩ := ht
  obtain ⟨hnodup, hlen, hlt, hcap, -⟩ := hf
  have hlength := length_of_holds ht
  cases t with
  | leaf sym w =>
    simp only [Tree.shape, Shape.leaves] at hlength
    omega
  | node w l r =>
    have := leaves_pos l.shape
    have := leaves_pos r.shape
    simp only [Tree.shape, Shape.leaves] at hlength
    exact ⟨by omega, by omega, hcap, hlt _ (mem_of_holds ht), _, ixs, ht, rfl, hsym, hnodup, hlen, hlt⟩

end Sys2Proof.Machine
end

section
/-!
PROOFS. The arena while BUILD fills it (R126 to R131).
-/

namespace Sys2Proof.Machine

open Sys2Proof Sys2Proof.Safety

/-! ### BUILD: the trees in PQ -/

/-- A tree stands at every entry of a queue, and their nodes have the given indices. -/
inductive Forest (s : State) : List Idx → List Idx → Prop where
  /-- No tree. -/
  | nil : Forest s [] []
  /-- A tree and others. -/
  | cons {i : Idx} {q a b : List Idx} (hi : Subtree s i a) (hq : Forest s q b) : Forest s (i :: q) (a ++ b)

theorem Forest.of_agree {s u : State} {q ixs : List Idx} (h : Forest s q ixs) (ha : Agree s u ixs) : Forest u q ixs := by
  induction h with
  | nil => exact .nil
  | cons hi _ ih =>
    exact .cons (hi.of_agree (ha.mono fun _ => List.mem_append_left _)) (ih (ha.mono fun _ => List.mem_append_right _))

/-- An entry's tree taken out of the forest. -/
theorem Forest.erase {s : State} {q ixs : List Idx} {i : Idx} (h : Forest s q ixs) (hi : i ∈ q) :
    ∃ a b, Subtree s i a ∧ Forest s (q.erase i) b ∧ ixs.Perm (a ++ b) := by
  induction h with
  | nil => cases hi
  | @cons j q a b hj hq ih =>
    by_cases hji : j = i
    · subst hji
      exact ⟨a, b, hj, by rwa [List.erase_cons_head], .rfl⟩
    · obtain ⟨a', b', ha', hb', hperm⟩ := ih ((List.mem_cons.1 hi).resolve_left fun e => hji e.symm)
      refine ⟨a', a ++ b', ha', ?_, (hperm.append_left a).trans (List.perm_append_comm_assoc a a' b')⟩
      rw [List.erase_cons_tail (by simpa using hji)]
      exact .cons hj hb'

theorem leastOf_mem (s : State) (a : Idx) (q : List Idx) : s.leastOf a q ∈ a :: q := by
  induction q generalizing a with
  | nil => exact List.mem_cons_self
  | cons b q ih =>
    have h := ih (if s.precedes b a then b else a)
    rw [State.leastOf, List.foldl_cons]
    rcases List.mem_cons.1 h with h | h
    · rw [State.leastOf] at h
      rw [h]
      split <;> simp
    · exact List.mem_cons_of_mem _ (List.mem_cons_of_mem _ h)

/-- removeMin takes one entry out of PQ (R33). -/
theorem removeMin_erase {s t : State} {m : Idx} (h : s.removeMin = some (m, t)) :
    m ∈ s.pq ∧ t = { s with pq := s.pq.erase m } := by
  unfold State.removeMin at h
  split at h
  next => cases h
  next a q hpq =>
    cases h
    exact ⟨hpq ▸ leastOf_mem s a q, by rw [hpq]⟩

/-- BUILD between its leaves and its root: PQ's trees have all the nodes, two at least, and there is room for the merges to
come. -/
def Merging (s : State) : Prop :=
  (∃ ixs, Forest s s.pq ixs ∧ Filled s ixs) ∧ 2 ≤ s.nnodes.toNat ∧ s.nnodes.toNat + s.pq.length ≤ 514

theorem Merging.of_frame {s t : State} (h : Merging s) (hnode : t.node = s.node := by rfl)
    (hn : t.nnodes = s.nnodes := by rfl) (hpq : t.pq = s.pq := by rfl) : Merging t := by
  obtain ⟨⟨ixs, hforest, hfilled⟩, h2, hroom⟩ := h
  unfold Merging
  rw [hn, hpq]
  exact ⟨⟨ixs, hforest.of_agree (agree_of_node_eq hnode ixs), hfilled.of_frame hnode hn⟩, h2, hroom⟩

theorem nodeAt_queueNode (s : State) (x : Node) (h : s.nnodes.toNat < 513) :
    (s.queueNode x).nodeAt? s.nnodes = some x := by
  have := State.nodeAt_setNode s s.nnodes x h
  rwa [if_pos rfl] at this

/-- A new node takes the next index. -/
theorem Filled.queueNode {s : State} {ixs : List Idx} (x : Node) (h : Filled s ixs) (hlt : s.nnodes.toNat < 513) :
    Filled (s.queueNode x) (s.nnodes :: ixs) :=
  h.allocate hlt rfl fun _ hk => Vector.getElem?_setIfInBounds_ne hk.symm

/-- What stands at the indices given out stays where a node is queued. -/
theorem agree_queueNode {s : State} {ixs : List Idx} (x : Node) (h : Filled s ixs) : Agree s (s.queueNode x) ixs :=
  agree_setNode x h.nnodes_notMem

/-- A merge makes one tree of the two taken out of PQ (R129). -/
theorem merging_queueNode {s : State} {q ixs : List Idx} {a b : Idx} (w : Weight) (hforest : Forest s q ixs)
    (hfilled : Filled s ixs) (ha : a ∈ q) (hb : b ∈ q.erase a) (hpq : s.pq = (q.erase a).erase b)
    (h2 : 2 ≤ s.nnodes.toNat) (hroom : s.nnodes.toNat + q.length ≤ 514) :
    Merging (s.queueNode (Node.mkInternal w a b)) := by
  have hlen := List.length_erase_of_mem ha
  have hlen' := List.length_erase_of_mem hb
  have hpos := List.length_pos_of_mem ha
  have hpos' := List.length_pos_of_mem hb
  have hlt : s.nnodes.toNat < 513 := by omega
  obtain ⟨la, rest, hsa, hrest, hperm⟩ := hforest.erase ha
  obtain ⟨lb, lc, hsb, hlc, hperm'⟩ := hrest.erase hb
  have hfilled' : Filled s ((la ++ lb) ++ lc) := by
    rw [List.append_assoc]
    exact hfilled.perm (hperm.trans (hperm'.append_left la))
  have hagree := agree_queueNode (Node.mkInternal w a b) hfilled'
  have htree : Subtree (s.queueNode (Node.mkInternal w a b)) s.nnodes (s.nnodes :: (la ++ lb)) :=
    subtree_node (nodeAt_queueNode s _ hlt) (hsa.of_agree (hagree.mono (by simp +contextual)))
      (hsb.of_agree (hagree.mono (by simp +contextual)))
  refine ⟨⟨_, ?_, hfilled'.queueNode _ hlt⟩, ?_, ?_⟩
  · rw [State.queueNode_pq, hpq]
    exact .cons htree (hlc.of_agree (hagree.mono (by simp +contextual)))
  · rw [State.queueNode_nnodes, toNat_nnodes_succ hlt]
    omega
  · rw [State.queueNode_nnodes, State.queueNode_pq, toNat_nnodes_succ hlt, List.length_cons, hpq]
    omega

/-- Everything the merge loop can do while it has its trees (R126, R129, R130). -/
theorem Merging.merge {s t : State} {ts : List Task} (h : Merging s) (hstep : merge ts s = .next t) :
    (∃ s', t = State.fail s' .weightOverflow) ∨ (s.pq.length ≤ 1 ∧ t = { s with todo := ts }) ∨
    (Merging t ∧ t.todo = .merge :: ts) := by
  obtain ⟨⟨ixs, hforest, hfilled⟩, h2, hroom⟩ := id h
  unfold Machine.merge at hstep
  split at hstep
  next hle => cases hstep; exact Or.inr (Or.inl ⟨hle, rfl⟩)
  split at hstep
  next => cases hstep
  next a s1 h1 =>
    split at hstep
    next => cases hstep
    next b s2 h2' =>
      obtain ⟨ha, rfl⟩ := removeMin_erase h1
      obtain ⟨hb, rfl⟩ := removeMin_erase h2'
      unfold mergePair at hstep
      simp only at hstep
      split at hstep
      · cases hstep
        have hmerged := fun w => merging_queueNode (s := { s with pq := (s.pq.erase a).erase b }) w
          (hforest.of_agree (agree_of_node_eq rfl ixs)) hfilled.of_frame ha hb rfl h2 hroom
        exact Or.inr (Or.inr ⟨(hmerged _).of_frame, rfl⟩)
      · cases hstep
        exact Or.inl ⟨_, rfl⟩

/-- With one tree left BUILD's tree has items 1 to 5 of R37 (R131). -/
theorem Merging.takeRoot {s t : State} {ts : List Task} (h : Merging s) (hone : s.pq.length ≤ 1)
    (hstep : takeRoot ts s = .next t) : t.todo = ts ∧ treeInv t ∧ arenaTail t := by
  obtain ⟨⟨ixs, hforest, hfilled⟩, h2, -⟩ := h
  unfold Machine.takeRoot at hstep
  split at hstep
  next => cases hstep
  next r s' h1 =>
    obtain ⟨hr, rfl⟩ := removeMin_erase h1
    obtain ⟨a, b, hsa, hb, hperm⟩ := hforest.erase hr
    have hlen := List.length_erase_of_mem hr
    have hnil : s.pq.erase r = [] := List.length_eq_zero_iff.1 (by omega)
    rw [hnil] at hb
    cases hb
    rw [List.append_nil] at hperm
    have hfilled' := hfilled.perm hperm
    cases hstep
    exact ⟨rfl, treeInv_of_filled (hsa.of_agree (agree_of_node_eq rfl a)) hfilled'.of_frame h2, hfilled.arenaTail⟩

/-! ### BUILD: the leaves -/

/-- Leaves inserted before others, each with its count. -/
def State.queueLeaves (s : State) (syms : List Sym) (weight : Sym → Weight) : State :=
  syms.foldl (fun u sym => u.queueNode (Node.mkLeaf sym (weight sym))) s

/-- insert_leaves() queues a leaf for each symbol that R127 and R128 give one, ascending. -/
theorem insertLeaves_eq_queueLeaves (s : State) : s.insertLeaves = s.queueLeaves (leafSymbols s) s.freqOf := by
  have hfold : ∀ (syms : List Sym) (u : State), u.freq = s.freq →
      syms.foldl (insertLeaf s.literalsEmpty) u = u.queueLeaves (syms.filter fun sym => 0 < (s.freqOf sym).toNat ||
        (s.literalsEmpty && sym = placeholderSym)) s.freqOf := by
    intro syms
    induction syms with
    | nil => exact fun u _ => rfl
    | cons sym syms ih =>
      intro u hu
      have hfreq : u.freqOf sym = s.freqOf sym := by simp only [State.freqOf, hu]
      rw [List.foldl_cons, List.filter_cons, insertLeaf, hfreq]
      by_cases hleaf : 0 < (s.freqOf sym).toNat ∨ (s.literalsEmpty ∧ sym = placeholderSym)
      · rw [if_pos hleaf, if_pos (by simpa using hleaf)]
        exact ih _ hu
      · rw [if_neg hleaf, if_neg (by simpa using hleaf)]
        exact ih u hu
  exact hfold allSymbols s rfl

/-- While leaves are inserted every node is a tree of its own in PQ, and the next leaves have room. -/
theorem queueLeaves_planted {s : State} {ixs : List Idx} (weight : Sym → Weight) (syms : List Sym)
    (hforest : Forest s s.pq ixs) (hfilled : Filled s ixs) (hpq : s.pq.length = s.nnodes.toNat)
    (hsyms : ∀ sym ∈ syms, sym.toNat ≤ 256) (hroom : s.nnodes.toNat + syms.length ≤ 257) :
    (∃ ixs', Forest (s.queueLeaves syms weight) (s.queueLeaves syms weight).pq ixs' ∧
      Filled (s.queueLeaves syms weight) ixs') ∧
    (s.queueLeaves syms weight).nnodes.toNat = s.nnodes.toNat + syms.length ∧
    (s.queueLeaves syms weight).pq.length = s.nnodes.toNat + syms.length := by
  induction syms generalizing s ixs with
  | nil => exact ⟨⟨ixs, hforest, hfilled⟩, rfl, hpq⟩
  | cons sym syms ih =>
    rw [List.length_cons] at hroom
    have hlt : s.nnodes.toNat < 513 := by omega
    have hn : (s.queueNode (Node.mkLeaf sym (weight sym))).nnodes.toNat = s.nnodes.toNat + 1 := toNat_nnodes_succ hlt
    have hleaf := subtree_leaf (nodeAt_queueNode s (Node.mkLeaf sym (weight sym)) hlt) (hsyms sym List.mem_cons_self)
    have hrest := hforest.of_agree (agree_queueNode (Node.mkLeaf sym (weight sym)) hfilled)
    obtain ⟨hplanted, hnodes, hqueue⟩ := ih (.cons hleaf hrest) (hfilled.queueNode _ hlt)
      (by rw [State.queueNode_pq, List.length_cons, hpq, hn]) (fun x hx => hsyms x (List.mem_cons_of_mem _ hx))
      (by omega)
    rw [hn] at hnodes hqueue
    rw [List.length_cons, ← Nat.add_assoc, Nat.add_right_comm]
    exact ⟨hplanted, hnodes, hqueue⟩

theorem mem_allSymbols {sym : Sym} : sym ∈ allSymbols ↔ sym.toNat ≤ 256 := by
  simp only [allSymbols, List.mem_map, List.mem_range, nsym]
  constructor
  · rintro ⟨k, hk, rfl⟩
    rw [toNat_ofNat_sym (by omega)]
    omega
  · intro h
    exact ⟨sym.toNat, by omega, by simp⟩

theorem length_leafSymbols_le (s : State) : (leafSymbols s).length ≤ 257 :=
  (List.length_filter_le _ _).trans (by simp [allSymbols])

theorem mem_leafSymbols {s : State} {sym : Sym} : sym ∈ leafSymbols s ↔
    sym.toNat ≤ 256 ∧ (0 < (s.freqOf sym).toNat ∨ (s.literalsEmpty = true ∧ sym = placeholderSym)) := by
  simp [leafSymbols, mem_allSymbols]

theorem endSym_mem_leafSymbols (s : State) : endSym ∈ leafSymbols s :=
  mem_leafSymbols.2 ⟨by decide, Or.inl (by rw [State.freqOf_end]; decide)⟩

/-- A literal, or the placeholder, has a leaf (R127, R128). -/
theorem exists_literal_mem_leafSymbols (s : State) : ∃ sym ∈ leafSymbols s, sym ≠ endSym := by
  by_cases hempty : s.literalsEmpty = true
  · exact ⟨placeholderSym, mem_leafSymbols.2 ⟨by decide, Or.inr ⟨hempty, rfl⟩⟩, by decide⟩
  · obtain ⟨k, hk, hne⟩ : ∃ k, ∃ h : k < 256, s.freq[k] ≠ 0#32 := by simpa [State.literalsEmpty] using hempty
    have hsym : (BitVec.ofNat 9 k).toNat = k := toNat_ofNat_sym (by omega)
    have hfreq : s.freqOf (BitVec.ofNat 9 k) = s.freq[k] := by simp [State.freqOf, hsym, hk]
    refine ⟨BitVec.ofNat 9 k, mem_leafSymbols.2 ⟨by omega, Or.inl ?_⟩, fun hend => ?_⟩
    · rw [hfreq, Nat.pos_iff_ne_zero]
      exact fun h0 => hne (BitVec.eq_of_toNat_eq h0)
    · rw [hend] at hsym
      exact hk.ne hsym.symm

/-- There are two leaves at least (R37 item 2). -/
theorem two_le_length_leafSymbols (s : State) : 2 ≤ (leafSymbols s).length := by
  obtain ⟨sym, hsym, hne⟩ := exists_literal_mem_leafSymbols s
  have hend := endSym_mem_leafSymbols s
  by_contra hlt
  have hone : (leafSymbols s).length = 1 := by
    have := List.length_pos_of_mem hsym
    omega
  obtain ⟨x, hx⟩ := List.length_eq_one_iff.1 hone
  rw [hx, List.mem_singleton] at hsym hend
  exact hne (hsym.trans hend.symm)

/-- insert_leaves() in an empty arena starts the merges (R126, R127). -/
theorem merging_insertLeaves {s : State} (hn : s.nnodes = 0#10) (hpq : s.pq = []) (htail : arenaTail s) :
    Merging s.insertLeaves := by
  have hle := length_leafSymbols_le s
  have h2 := two_le_length_leafSymbols s
  have h0 : s.nnodes.toNat = 0 := by simp [hn]
  rw [insertLeaves_eq_queueLeaves]
  obtain ⟨hplanted, hnodes, hqueue⟩ := queueLeaves_planted (ixs := []) s.freqOf (leafSymbols s) (by rw [hpq]; exact .nil)
    (filled_nil hn htail) (by simp [hpq, h0]) (fun sym h => (mem_leafSymbols.1 h).1) (by omega)
  exact ⟨hplanted, by omega, by omega⟩

end Sys2Proof.Machine
end

section
/-!
PROOFS. The arena while RDHDR fills it (R147 to R150).
-/

namespace Sys2Proof.Machine

open Sys2Proof Sys2Proof.Safety

/-! ### RDHDR: the nodes on STACK -/

/-- The nodes on STACK whose records are read and that are not written yet (R147): they and the nodes of their left subtrees
have the given indices. -/
inductive Pending (s : State) : List Frame → List Idx → Prop where
  /-- No node. -/
  | nil : Pending s [] []
  /-- A node whose left subtree is being read. -/
  | opened {p : Idx} {st : List Frame} {b : List Idx} (hst : Pending s st b) : Pending s (.opened p :: st) (p :: b)
  /-- A node whose right subtree is being read. -/
  | half {p l : Idx} {st : List Frame} {a b : List Idx} (hl : Subtree s l a) (hst : Pending s st b) :
      Pending s (.half p l :: st) (p :: (a ++ b))

theorem Pending.of_agree {s u : State} {st : List Frame} {ixs : List Idx} (h : Pending s st ixs) (ha : Agree s u ixs) :
    Pending u st ixs := by
  induction h with
  | nil => exact .nil
  | opened _ ih => exact .opened (ih (ha.mono fun _ => List.mem_cons_of_mem _))
  | half hl _ ih => exact .half (hl.of_agree (ha.mono (by simp +contextual))) (ih (ha.mono (by simp +contextual)))

/-- RDHDR is to read a record's tag: the nodes given out are those on STACK and in the subtrees read. -/
def AtTag (s : State) : Prop := ∃ ixs, Pending s s.stack ixs ∧ Filled s ixs

/-- RDHDR is to read the symbol of node i. -/
def AtSym (s : State) (i : Idx) : Prop := ∃ ixs, Pending s s.stack ixs ∧ Filled s (i :: ixs)

/-- RDHDR has read the whole tree, its root at i. -/
def AtRoot (s : State) (i : Idx) : Prop := ∃ ixs, Subtree s i ixs ∧ Filled s ixs

/-- RDHDR at one of its lines, the given lines following the header. -/
inductive HeaderStage (s : State) (ts : List Task) : Prop where
  /-- A record is next. -/
  | tag (htodo : s.todo = .readTag :: ts) (h : AtTag s)
  /-- A leaf's symbol is next. -/
  | sym (i : Idx) (htodo : s.todo = .readSym i :: ts) (h : AtSym s i)
  /-- The check of the root is next. -/
  | root (i : Idx) (htodo : s.todo = .checkRoot i :: ts) (h : AtRoot s i)

theorem AtTag.of_frame {s t : State} (h : AtTag s) (hnode : t.node = s.node := by rfl)
    (hn : t.nnodes = s.nnodes := by rfl) (hstack : t.stack = s.stack := by rfl) : AtTag t := by
  obtain ⟨ixs, hpending, hfilled⟩ := h
  exact ⟨ixs, hstack ▸ hpending.of_agree (agree_of_node_eq hnode ixs), hfilled.of_frame hnode hn⟩

theorem AtSym.of_frame {s t : State} {i : Idx} (h : AtSym s i) (hnode : t.node = s.node := by rfl)
    (hn : t.nnodes = s.nnodes := by rfl) (hstack : t.stack = s.stack := by rfl) : AtSym t i := by
  obtain ⟨ixs, hpending, hfilled⟩ := h
  exact ⟨ixs, hstack ▸ hpending.of_agree (agree_of_node_eq hnode ixs), hfilled.of_frame hnode hn⟩

theorem AtRoot.of_frame {s t : State} {i : Idx} (h : AtRoot s i) (hnode : t.node = s.node := by rfl)
    (hn : t.nnodes = s.nnodes := by rfl) : AtRoot t i := by
  obtain ⟨ixs, hsub, hfilled⟩ := h
  exact ⟨ixs, hsub.of_agree (agree_of_node_eq hnode ixs), hfilled.of_frame hnode hn⟩

theorem HeaderStage.of_frame {s t : State} {ts : List Task} (h : HeaderStage s ts) (hnode : t.node = s.node := by rfl)
    (hn : t.nnodes = s.nnodes := by rfl) (hstack : t.stack = s.stack := by rfl) (htodo : t.todo = s.todo := by rfl) :
    HeaderStage t ts := by
  cases h with
  | tag ht h => exact .tag (htodo.trans ht) (h.of_frame hnode hn hstack)
  | sym i ht h => exact .sym i (htodo.trans ht) (h.of_frame hnode hn hstack)
  | root i ht h => exact .root i (htodo.trans ht) (h.of_frame hnode hn)

/-- The header begins in an empty arena (R147). -/
theorem atTag_of_empty {s : State} (hn : s.nnodes = 0#10) (hstack : s.stack = []) (htail : arenaTail s) : AtTag s :=
  ⟨[], hstack ▸ .nil, filled_nil hn htail⟩

/-- How many engine steps the header can still take, the end of RDHDR among them (R149, R252). -/
def State.headerSteps (s : State) : Nat :=
  match s.todo with
  | .readTag :: _ => 2 * (513 - s.nnodes.toNat) + 4
  | .readSym _ :: _ => 2 * (513 - s.nnodes.toNat) + 5
  | _ => 2

/-- Only the arena, NNODES, STACK and the lines to come are different. -/
def OnlyHeader (s t : State) : Prop :=
  t = { s with node := t.node, nnodes := t.nnodes, stack := t.stack, todo := t.todo }

/-- What RDHDR does once it has a record's bits (R147 to R149): it goes on, closer to its end and with nothing else
written, or it fails. -/
def Advances (s : State) (ts : List Task) (r : Result) : Prop :=
  (∃ t, r = .next t ∧ HeaderStage t ts ∧ OnlyHeader s t ∧ t.headerSteps < s.headerSteps) ∨
  ∃ e, (e = .treeOverflow ∨ e = .badSymbol) ∧ r = .next (s.fail e)

/-- A record's tag gives its node the next index (R147, R149). -/
theorem AtTag.advances {s : State} {ts us : List Task} (h : AtTag s) (htodo : s.todo = .readTag :: us) (tag : Bool) :
    Advances s ts (tagRead tag ts s) := by
  obtain ⟨ixs, hpending, hfilled⟩ := h
  unfold tagRead
  split
  next hlt =>
    have hlt : s.nnodes.toNat < 513 := hlt
    have hn := toNat_nnodes_succ hlt
    have hsteps : s.headerSteps = 2 * (513 - s.nnodes.toNat) + 4 := by rw [State.headerSteps, htodo]
    left
    split
    · refine ⟨_, rfl, .sym s.nnodes rfl ⟨ixs, hpending.of_agree (agree_of_node_eq rfl ixs),
        hfilled.allocate hlt rfl fun _ _ => rfl⟩, rfl, ?_⟩
      rw [hsteps]
      simp only [State.headerSteps, hn]
      omega
    · refine ⟨_, rfl, .tag rfl ⟨s.nnodes :: ixs, .opened (hpending.of_agree (agree_of_node_eq rfl ixs)),
        hfilled.allocate hlt rfl fun _ _ => rfl⟩, rfl, ?_⟩
      rw [hsteps]
      simp only [State.headerSteps, hn]
      omega
  next => exact Or.inr ⟨_, Or.inl rfl, rfl⟩

/-- A subtree that is complete closes the nodes whose right subtree it is (R147): the nodes given out are then on STACK and in
the subtrees read, or all in the tree. -/
theorem closeNode_stage {s : State} {st : List Frame} {i : Idx} {a b : List Idx} (ts : List Task) (hst : Pending s st b)
    (hi : Subtree s i a) (hfilled : Filled s (a ++ b)) :
    ∃ t, closeNode st i ts s = .next t ∧ OnlyHeader s t ∧ t.nnodes = s.nnodes ∧
      ((t.todo = .readTag :: ts ∧ AtTag t) ∨ ∃ j, t.todo = .checkRoot j :: ts ∧ AtRoot t j) := by
  induction st generalizing s i a b with
  | nil =>
    cases hst
    rw [List.append_nil] at hfilled
    exact ⟨_, rfl, rfl, rfl, Or.inr ⟨i, rfl, a, hi.of_agree (agree_of_node_eq rfl a), hfilled⟩⟩
  | cons f st ih =>
    cases hst with
    | @opened p _ b hst =>
      refine ⟨_, rfl, rfl, rfl, Or.inl ⟨rfl, p :: (a ++ b), ?_, hfilled.perm List.perm_middle⟩⟩
      exact .half (hi.of_agree (agree_of_node_eq rfl a)) (hst.of_agree (agree_of_node_eq rfl b))
    | @half p l _ al b hl hst =>
      have hperm : (a ++ p :: (al ++ b)).Perm (p :: (al ++ a) ++ b) := by
        rw [List.cons_append, List.append_assoc]
        exact List.perm_middle.trans (.cons p (List.perm_append_comm_assoc a al b))
      have hfilled := hfilled.perm hperm
      have hp : p.toNat < 513 := hfilled.lt_of_mem (by simp)
      have hagree := agree_setNode (s := s) (Node.mkInternal 0#32 l i) (Filled.head_notMem hfilled)
      have hnode : (s.setNode p (Node.mkInternal 0#32 l i)).nodeAt? p = some (Node.mkInternal 0#32 l i) := by
        rw [State.nodeAt_setNode s p _ hp, if_pos rfl]
      exact ih (hst.of_agree (hagree.mono (by simp +contextual)))
        (subtree_node hnode (hl.of_agree (hagree.mono (by simp +contextual)))
          (hi.of_agree (hagree.mono (by simp +contextual)))) (hfilled.setNode _ (by simp))

/-- A leaf's symbol completes its record (R147, R148). -/
theorem AtSym.advances {s : State} {i : Idx} {ts us : List Task} (h : AtSym s i) (htodo : s.todo = .readSym i :: us)
    (sym : Sym) : Advances s ts (symRead i sym ts s) := by
  obtain ⟨ixs, hpending, hfilled⟩ := h
  unfold symRead
  split
  next hsym =>
    have hi : i.toNat < 513 := hfilled.lt_of_mem (by simp)
    have hagree := agree_setNode (s := s) (Node.mkLeaf sym 0#32) hfilled.head_notMem
    have hnode : (s.setNode i (Node.mkLeaf sym 0#32)).nodeAt? i = some (Node.mkLeaf sym 0#32) := by
      rw [State.nodeAt_setNode s i _ hi, if_pos rfl]
    obtain ⟨t, hclose, hframe, hn, hstage⟩ := closeNode_stage ts (hpending.of_agree hagree)
      (subtree_leaf hnode (of_decide_eq_true hsym)) (hfilled.setNode (Node.mkLeaf sym 0#32) (by simp))
    have hsteps : s.headerSteps = 2 * (513 - s.nnodes.toNat) + 5 := by rw [State.headerSteps, htodo]
    rw [State.setNode_nnodes] at hn
    refine Or.inl ⟨t, hclose, ?_, hframe, ?_⟩
    · rcases hstage with ⟨ht, h⟩ | ⟨j, ht, h⟩
      · exact .tag ht h
      · exact .root j ht h
    · rw [hsteps]
      rcases hstage with ⟨ht, -⟩ | ⟨j, ht, -⟩ <;> simp only [State.headerSteps, ht, hn] <;> omega
  next => exact Or.inr ⟨_, Or.inr rfl, rfl⟩

/-- The state in which RDHDR has found its tree (R147, R150). -/
def State.headerRead (s : State) (i : Idx) (ts : List Task) : State := State.treeValid { s with root := i, todo := ts }

/-- The check of the root: a tree of one node fails, any other has items 1 to 5 of R37 (R150). -/
theorem AtRoot.checkRoot {s : State} {i : Idx} (h : AtRoot s i) (ts : List Task) :
    checkRoot i ts s = .next (State.fail { s with root := i } .degenerateTree) ∨
    (checkRoot i ts s = .next (s.headerRead i ts) ∧ treeInv (s.headerRead i ts) ∧ arenaTail (s.headerRead i ts)) := by
  obtain ⟨ixs, ⟨t, ht, hsyms⟩, hfilled⟩ := h
  cases t with
  | leaf sym w =>
    left
    have hnode : State.nodeAt? { s with root := i } i = some (Node.mkLeaf sym w) := ht.1
    simp only [Machine.checkRoot, State.withNode, hnode, Node.mkLeaf, if_true, State.raise]
  | node w l r =>
    right
    obtain ⟨a, b, la, lb, hnode, hl, hr, rfl⟩ := id ht
    have hnode' : State.nodeAt? { s with root := i } i = some (Node.mkInternal w a b) := hnode
    have hroot : Subtree (s.headerRead i ts) i (i :: (la ++ lb)) :=
      ⟨.node w l r, holds_of_agree ht (agree_of_node_eq rfl _), hsyms⟩
    refine ⟨?_, treeInv_of_filled hroot hfilled.of_frame ?_, hfilled.arenaTail⟩
    · simp only [Machine.checkRoot, State.withNode, hnode', Node.mkInternal, Bool.false_eq_true, if_false]
      rfl
    · obtain ⟨-, hlen, -⟩ := hfilled
      have hpos := List.length_pos_of_mem (mem_of_holds hl)
      rw [List.length_cons, List.length_append] at hlen
      show 2 ≤ s.nnodes.toNat
      omega

end Sys2Proof.Machine
end

section
/-!
PROOFS. Every command keeps the invariants of a valid tree (R37, R28).
-/

namespace Sys2Proof.Machine

open Sys2Proof Sys2Proof.Safety

/-! ### The invariants of a valid tree through a command (R37, R28) -/

/-- The lines that write neither the arena, NNODES, ROOT nor TV. -/
def Task.sparesTree : Task → Bool
  | .codeClear | .walk _ | .codeDone => true
  | x => x.isPlain

theorem sparesTree_of_isPlain {x : Task} (h : x.isPlain = true) : x.sparesTree = true := by
  cases x with
  | codeClear | walk _ | codeDone => rfl
  | _ => exact h

/-- The lines to come outside BUILD and RDHDR: a new tree is begun only where the lines that fill it follow. -/
inductive TreeLines : List Task → Prop where
  /-- The end. -/
  | nil : TreeLines []
  /-- A line that leaves the tree alone. -/
  | spare {x : Task} {ts : List Task} (hx : x.sparesTree = true) (hts : TreeLines ts) : TreeLines (x :: ts)
  /-- BUILD (R126). -/
  | build {ts : List Task} (hts : TreeLines ts) : TreeLines (buildProgram ++ ts)
  /-- RDHDR (R147). -/
  | header {ts : List Task} (hts : TreeLines ts) : TreeLines (rdhdrProgram ++ ts)

theorem TreeLines.append {us ts : List Task} (hus : ∀ u ∈ us, u.sparesTree = true) (hts : TreeLines ts) :
    TreeLines (us ++ ts) := by
  induction us with
  | nil => exact hts
  | cons u us ih => exact .spare (hus u List.mem_cons_self) (ih fun v hv => hus v (List.mem_cons_of_mem u hv))

/-- A running command as far as its tree goes: what the arena holds before each line. -/
inductive TreeStage (s : State) : Prop where
  /-- The arena is no command's work: a valid tree has items 1 to 5 of R37. -/
  | settled (hlines : TreeLines s.todo) (htree : s.tv = true → treeInv s) (htail : arenaTail s)
  /-- BUILD is to insert the leaves. -/
  | planting {ts : List Task} (htodo : s.todo = .insertLeaves :: .merge :: .takeRoot :: ts) (hts : TreeLines ts)
      (hn : s.nnodes = 0#10) (hpq : s.pq = []) (htail : arenaTail s)
  /-- BUILD is merging. -/
  | merging {ts : List Task} (htodo : s.todo = .merge :: .takeRoot :: ts) (hts : TreeLines ts) (h : Merging s)
  /-- BUILD is to take the root. -/
  | merged {ts : List Task} (htodo : s.todo = .takeRoot :: ts) (hts : TreeLines ts) (h : Merging s)
      (hone : s.pq.length ≤ 1)
  /-- RDHDR is reading. -/
  | header {ts : List Task} (hts : TreeLines ts) (h : HeaderStage s ts)

theorem TreeStage.tick {s : State} (h : TreeStage s) : TreeStage s.tick := by
  cases h with
  | settled hlines htree htail => exact .settled hlines (fun htv => treeInv_of_frame (htree htv)) htail
  | planting htodo hts hn hpq htail => exact .planting htodo hts hn hpq htail
  | merging htodo hts h => exact .merging htodo hts h.of_frame
  | merged htodo hts h hone => exact .merged htodo hts h.of_frame hone
  | header hts h => exact .header hts h.of_frame

/-- What O59 says of a state, and, while a command runs, what makes it so at its end. -/
def TreeKept (s : State) : Prop :=
  (s.phase = .busy → TreeStage s) ∧ (s.phase ≠ .busy → (s.tv = true → treeInv s) ∧ (s.open? = true → arenaTail s))

theorem treeKept_fail (s : State) (e : ErrCode) : TreeKept (s.fail e) := ⟨by simp, by simp [State.open?]⟩

theorem treeKept_of_stage {s : State} (hb : s.phase = .busy) (h : TreeStage s) : TreeKept s :=
  ⟨fun _ => h, fun hn => absurd hb hn⟩

/-- A line that leaves the tree alone leaves it settled. -/
theorem LineOutcome.keeps_settled {s t : State} {x : Task} {ts : List Task} (h : LineOutcome s x ts t)
    (hx : x.sparesTree = true) (hts : TreeLines ts) (htodo : s.todo = x :: ts) (htree : s.tv = true → treeInv s)
    (htail : arenaTail s) : (∃ s' e, t = State.fail s' e) ∨ TreeStage t := by
  have hsettled : ∀ {u : State} (us : List Task), u.todo = us ++ ts → (∀ v ∈ us, v.sparesTree = true) → u.node = s.node →
      u.nnodes = s.nnodes → u.root = s.root → u.tv = s.tv → TreeStage u := by
    intro u us hu hus hnode hn hroot htv
    refine .settled (hu ▸ .append hus hts) (fun h => treeInv_of_frame (htree (htv ▸ h)) hnode hn hroot) ?_
    unfold arenaTail
    rw [hnode, hn]
    exact htail
  cases h with
  | failed s' e _ => exact Or.inl ⟨s', e, rfl⟩
  | waited => exact Or.inr (hsettled [x] htodo (by simpa using hx) rfl rfl rfl rfl)
  | passed us _ _ _ _ _ _ hus _ =>
    exact Or.inr (hsettled us rfl (fun v hv => sparesTree_of_isPlain (hus v hv)) rfl rfl rfl rfl)
  | codeCleared => exact Or.inr (hsettled [.walk s.root] rfl (by simp [Task.sparesTree]) rfl rfl rfl rfl)
  | walkedLeft _ l _ _ => exact Or.inr (hsettled [.walk l] rfl (by simp [Task.sparesTree]) rfl rfl rfl rfl)
  | walkedRight _ _ r _ _ _ _ => exact Or.inr (hsettled [.walk r] rfl (by simp [Task.sparesTree]) rfl rfl rfl rfl)
  | walkedOut | codesDone => exact Or.inr (hsettled [] rfl (by simp) rfl rfl rfl rfl)
  | treeCleared | rootTaken | tagged | closed | rootChecked => cases hx
  | queued _ _ _ _ hq _ => rcases hq with rfl | rfl <;> cases hx

/-- The read of a tag fails, waits, or comes to the record (R147). -/
theorem readTag_cases {s t : State} {ts : List Task} (h : readTag ts s = .next t) :
    (∃ s' e, t = State.fail s' e) ∨ t = s ∨ ∃ tag c, tagRead tag ts { s with inp := some c } = .next t := by
  rcases State.readIn_cases h with ⟨c, rfl⟩ | rfl | ⟨r, c, h⟩
  · exact Or.inl ⟨_, _, rfl⟩
  · exact Or.inr (Or.inl rfl)
  · cases r with
    | none => cases h; exact Or.inl ⟨_, _, rfl⟩
    | some b => exact Or.inr (Or.inr ⟨_, c, h⟩)

/-- The read of a symbol fails, waits, or comes to the leaf (R147). -/
theorem readSym_cases {s t : State} {i : Idx} {ts : List Task} (h : readSym i ts s = .next t) :
    (∃ s' e, t = State.fail s' e) ∨ t = s ∨ ∃ sym c, symRead i sym ts { s with inp := some c } = .next t := by
  rcases State.readIn_cases h with ⟨c, rfl⟩ | rfl | ⟨r, c, h⟩
  · exact Or.inl ⟨_, _, rfl⟩
  · exact Or.inr (Or.inl rfl)
  · cases r with
    | none => cases h; exact Or.inl ⟨_, _, rfl⟩
    | some sym => exact Or.inr (Or.inr ⟨sym, c, h⟩)

theorem Advances.line {s t : State} {ts : List Task} {r : Result} (h : Advances s ts r) (hr : r = .next t)
    (hts : TreeLines ts) : (∃ s' e, t = State.fail s' e) ∨ TreeStage t := by
  rcases h with ⟨t', ht, hstage, -⟩ | ⟨e, -, ht⟩ <;> cases ht.symm.trans hr
  · exact Or.inr (.header hts hstage)
  · exact Or.inl ⟨s, e, rfl⟩

/-- A line of the header on any channel. -/
theorem HeaderStage.line {s t : State} {x : Task} {xs ts : List Task} (h : HeaderStage s ts) (hts : TreeLines ts)
    (htodo : s.todo = x :: xs) (hx : runTask x xs s = .next t) : (∃ s' e, t = State.fail s' e) ∨ TreeStage t := by
  cases h with
  | tag ht h =>
    obtain ⟨rfl, rfl⟩ := List.cons.inj (htodo.symm.trans ht)
    rcases readTag_cases hx with hfail | rfl | ⟨tag, c, hr⟩
    · exact Or.inl hfail
    · exact Or.inr (.header hts (.tag ht h))
    · exact (AtTag.advances (h.of_frame (t := { s with inp := some c })) ht tag).line hr hts
  | sym i ht h =>
    obtain ⟨rfl, rfl⟩ := List.cons.inj (htodo.symm.trans ht)
    rcases readSym_cases hx with hfail | rfl | ⟨sym, c, hr⟩
    · exact Or.inl hfail
    · exact Or.inr (.header hts (.sym i ht h))
    · exact (AtSym.advances (h.of_frame (t := { s with inp := some c })) ht sym).line hr hts
  | root i ht h =>
    obtain ⟨rfl, rfl⟩ := List.cons.inj (htodo.symm.trans ht)
    rcases h.checkRoot xs with hr | ⟨hr, htree, htail⟩ <;> cases hr.symm.trans hx
    · exact Or.inl ⟨_, _, rfl⟩
    · exact Or.inr (.settled hts (fun _ => htree) htail)

/-- A line keeps the stage of the tree, or fails. -/
theorem TreeStage.line {s t : State} {x : Task} {ts : List Task} (h : TreeStage s) (htodo : s.todo = x :: ts)
    (hx : runTask x ts s = .next t) : (∃ s' e, t = State.fail s' e) ∨ TreeStage t := by
  cases h with
  | settled hlines htree htail =>
    rw [htodo] at hlines
    cases hlines with
    | spare hspare hts => exact (runTask_cases hx).keeps_settled hspare hts htodo htree htail
    | build hts => cases hx; exact Or.inr (.planting rfl hts rfl rfl (arenaTail_of_node_zero rfl))
    | header hts =>
      cases hx
      exact Or.inr (.header hts (.tag rfl (atTag_of_empty rfl rfl (arenaTail_of_node_zero rfl))))
  | planting ht hts hn hpq htail =>
    obtain ⟨rfl, rfl⟩ := List.cons.inj (htodo.symm.trans ht)
    have hmerging := merging_insertLeaves hn hpq htail
    rw [runTask, insertLeaves] at hx
    generalize s.insertLeaves = u at hx hmerging
    cases hx
    exact Or.inr (.merging rfl hts hmerging.of_frame)
  | merging ht hts h =>
    obtain ⟨rfl, rfl⟩ := List.cons.inj (htodo.symm.trans ht)
    rcases h.merge hx with ⟨s', rfl⟩ | ⟨hone, rfl⟩ | ⟨hmerging, ht'⟩
    · exact Or.inl ⟨s', _, rfl⟩
    · exact Or.inr (.merged rfl hts h.of_frame hone)
    · exact Or.inr (.merging ht' hts hmerging)
  | merged ht hts h hone =>
    obtain ⟨rfl, rfl⟩ := List.cons.inj (htodo.symm.trans ht)
    obtain ⟨htodo', htree, htail⟩ := h.takeRoot hone hx
    exact Or.inr (.settled (htodo' ▸ hts) (fun _ => htree) htail)
  | header hts h => exact h.line hts htodo hx

theorem engineStep_keeps_tree {s t : State} (hrun : s.running = true) (hstep : engineStep s = .next t)
    (h : TreeKept s) : TreeKept t := by
  have hb := State.running_busy hrun
  have hstage := h.1 hb
  rcases engineStep_cases hstep with ⟨htodo, rfl⟩ | ⟨x, ts, htodo, hx⟩
  · cases hstage with
    | settled _ htree htail => exact ⟨by simp, fun _ => ⟨fun htv => treeInv_of_frame (htree htv), fun _ => htail⟩⟩
    | planting ht | merging ht | merged ht => simp [ht] at htodo
    | header _ h => cases h with | tag ht | sym _ ht | root _ ht => simp [ht] at htodo
  · rcases hstage.tick.line htodo hx with ⟨s', e, rfl⟩ | hstage'
    · exact treeKept_fail s' e
    · rcases runTask_phase hx with ⟨s', e, -, rfl⟩ | ⟨hphase, -, -⟩
      · exact treeKept_fail s' e
      · exact treeKept_of_stage (hphase.trans hb) hstage'

/-- Lines other than BUILD's and RDHDR's, before others. -/
theorem TreeLines.append_spared {us ts : List Task} (hts : TreeLines ts) (hus : us.all Task.sparesTree = true := by rfl) :
    TreeLines (us ++ ts) :=
  .append (List.all_eq_true.1 hus) hts

theorem treeLines_spared {us : List Task} (hus : us.all Task.sparesTree = true := by rfl) : TreeLines us :=
  List.append_nil us ▸ TreeLines.nil.append_spared hus

/-- A program that starts fills the arena by the lines of BUILD and of RDHDR only. -/
theorem treeLines_of_startable {s : State} {program : List Task} (h : startable s program) : TreeLines program := by
  rcases h with h | ⟨-, h⟩ | ⟨-, rfl | ⟨sym, rfl⟩⟩
  · simp only [List.mem_cons, List.not_mem_nil, or_false] at h
    rcases h with rfl | rfl | rfl | rfl | rfl | rfl | rfl | rfl
    · exact treeLines_spared
    · exact .build .nil
    · exact treeLines_spared
    · exact treeLines_spared
    · exact .header .nil
    · exact treeLines_spared
    · exact TreeLines.append_spared (us := countProgram) (.build treeLines_spared)
    · exact TreeLines.append_spared (us := rdmagicProgram) (.header treeLines_spared)
  · simp only [List.mem_cons, List.not_mem_nil, or_false] at h
    rcases h with rfl | rfl | rfl <;> exact treeLines_spared
  · exact treeLines_spared
  · exact treeLines_spared

/-- A stream record is read by a BUSY engine alone (R232). -/
theorem exec_record_of_not_busy {i : Instr} {s : State} (hi : i.isCommand = false) (hs : s.phase ≠ .busy) :
    exec i s = .next s := by
  cases hphase : s.phase with
  | busy => exact absurd hphase hs
  | idle | done | failed =>
    cases i with
    | streamMagic m => simp only [exec, execStreamMagic, hphase]
    | hdrInternal => simp only [exec, execHdrInternal, hphase]
    | hdrLeaf sym => simp only [exec, execHdrLeaf, hphase]
    | _ => cases hi

/-- A state in IDLE or DONE that keeps the invariants keeps them while a command begins. -/
theorem treeKept_begin {s : State} {w : CmdWord} {program : List Task} (htree : s.tv = true → treeInv s)
    (htail : arenaTail s) (hprogram : TreeLines program) : TreeKept (s.begin w program) :=
  treeKept_of_stage rfl (.settled hprogram (fun htv => treeInv_of_frame (htree htv)) htail)

/-- Settles O59: the arena is settled, or BUILD or RDHDR is at one of its stages, and every line keeps it so. -/
theorem treeInvariantsKept : Obligations.TreeInvariantsKept := by
  unfold Obligations.TreeInvariantsKept
  intro i s t hready htree htail hexec hended
  obtain ⟨hphase, -⟩ := hready
  have hidle : s.phase ≠ .busy := by rcases hphase with h | h <;> simp [h]
  cases hi : i.isCommand with
  | false =>
    cases (exec_record_of_not_busy hi hidle).symm.trans hexec
    exact ⟨htree, fun _ => htail⟩
  | true =>
    cases exec_command_cases hi hexec with
    | dropped => exact ⟨fun htv => treeInv_of_frame (htree htv), fun _ => htail⟩
    | cleared => exact ⟨by simp, fun _ => arenaTail_of_node_zero rfl⟩
    | failed e => exact (treeKept_fail s e).2 hended
    | ran k w program _ _ hstart hruns =>
      have hbegin := treeKept_begin (w := w) htree htail (treeLines_of_startable hstart)
      exact (runs_invariant (fun _ _ hrun hstep => engineStep_keeps_tree hrun hstep) hruns hbegin).2 hended

end Sys2Proof.Machine
end

section
/-!
PROOFS. RDHDR on any bits (R151).
-/

namespace Sys2Proof.Machine

open Sys2Proof Sys2Proof.Safety

/-! ### RDHDR on any bits (R151) -/

/-- A channel that answers as the reference channel returns the bits or `eod`, and goes on so (R63). -/
theorem readIn_answers {s : State} {c : InChan} (hi : s.inp = some c) (hc : c.script = []) (n : Nat) :
    ∃ c' : InChan, c'.script = [] ∧ ∃ r, ∀ k : Option (BitVec n) → State → Result,
      s.readIn n k = k r { s with inp := some c' } := by
  by_cases hlen : c.pos + n ≤ c.data.length
  · have hread : c.read n = (.value (valOf n ((c.data.drop c.pos).take n)), { c with pos := c.pos + n }) := by
      rw [InChan.read_plain hc, InChan.plainRead, if_pos hlen]
    exact ⟨{ c with pos := c.pos + n }, hc, some (valOf n ((c.data.drop c.pos).take n)), fun k => by
      simp only [State.readIn, hi, hread]⟩
  · have hread : c.read n = (.eod, { c with pos := c.data.length }) := by
      rw [InChan.read_plain hc, InChan.plainRead, if_neg hlen]
    exact ⟨{ c with pos := c.data.length }, hc, none, fun k => by simp only [State.readIn, hi, hread]⟩

theorem readTag_answers {s : State} {c : InChan} (hi : s.inp = some c) (hc : c.script = []) (ts : List Task) :
    ∃ c' : InChan, c'.script = [] ∧
      (runTask .readTag ts s = .next (State.fail { s with inp := some c' } .truncatedStream) ∨
       ∃ tag, runTask .readTag ts s = tagRead tag ts { s with inp := some c' }) := by
  simp only [runTask, readTag]
  obtain ⟨c', hc', r, hread⟩ := readIn_answers hi hc 1
  cases r with
  | none => exact ⟨c', hc', Or.inl (hread _)⟩
  | some b => exact ⟨c', hc', Or.inr ⟨_, hread _⟩⟩

theorem readSym_answers {s : State} {c : InChan} (hi : s.inp = some c) (hc : c.script = []) (i : Idx) (ts : List Task) :
    ∃ c' : InChan, c'.script = [] ∧
      (runTask (.readSym i) ts s = .next (State.fail { s with inp := some c' } .truncatedStream) ∨
       ∃ sym, runTask (.readSym i) ts s = symRead i sym ts { s with inp := some c' }) := by
  simp only [runTask, readSym]
  obtain ⟨c', hc', r, hread⟩ := readIn_answers hi hc 9
  cases r with
  | none => exact ⟨c', hc', Or.inl (hread _)⟩
  | some sym => exact ⟨c', hc', Or.inr ⟨sym, hread _⟩⟩

/-- RDHDR, begun in `s`, is running in `u`: undisturbed, on a channel that answers, with OUT, FREQ and CODE as they were. -/
def Reading (s u : State) : Prop :=
  u.quiet = true ∧ u.phase = .busy ∧ (∃ c, u.inp = some c ∧ c.script = []) ∧
  u.out = s.out ∧ u.freq = s.freq ∧ u.code = s.code ∧ u.cv = false

/-- What O39 says of the end of RDHDR, begun in `s`. -/
def HeaderEnd (s t : State) : Prop :=
  t.out = s.out ∧ t.freq = s.freq ∧ t.code = s.code ∧
  ((t.phase = .done ∧ t.tv = true ∧ t.cv = false ∧ treeInv t ∧ arenaTail t) ∨
   (t.phase = .failed ∧ (t.err = .truncatedStream ∨ t.err = .treeOverflow ∨ t.err = .badSymbol ∨
      t.err = .degenerateTree)))

theorem HeaderEnd.not_running {s t : State} (h : HeaderEnd s t) : t.running = false := by
  obtain ⟨-, -, -, ⟨hphase, -⟩ | ⟨hphase, -⟩⟩ := h <;> simp [State.running, hphase]

theorem Reading.of_onlyHeader {s u t : State} (h : Reading s u) (ht : OnlyHeader u t) : Reading s t := by
  obtain ⟨hq, hb, hin, hout, hfreq, hcode, hcv⟩ := h
  unfold OnlyHeader at ht
  rw [ht]
  exact ⟨hq, hb, hin, hout, hfreq, hcode, hcv⟩

theorem Reading.withInp {s u : State} {c : InChan} (h : Reading s u) (hc : c.script = []) :
    Reading s { u with inp := some c } := by
  obtain ⟨hq, hb, -, hrest⟩ := h
  exact ⟨hq, hb, ⟨c, rfl, hc⟩, hrest⟩

theorem Reading.fail {s u : State} {e : ErrCode} (h : Reading s u)
    (he : e = .truncatedStream ∨ e = .treeOverflow ∨ e = .badSymbol ∨ e = .degenerateTree) : HeaderEnd s (u.fail e) := by
  obtain ⟨-, -, -, hout, hfreq, hcode, -⟩ := h
  exact ⟨hout, hfreq, hcode, Or.inr ⟨rfl, he⟩⟩

theorem Reading.runs {s u t : State} {x : Task} {ts : List Task} (h : Reading s u) (htodo : u.todo = x :: ts)
    (hx : runTask x ts u = .next t) : Runs 1 u t := by
  obtain ⟨hq, hb, -⟩ := h
  exact runs_task hq hb htodo hx

theorem two_le_headerSteps (s : State) : 2 ≤ s.headerSteps := by
  unfold State.headerSteps
  split <;> omega

/-- One line of the header is behind, or RDHDR is at its end. -/
def HeaderMoves (s u : State) : Prop :=
  (∃ t, Runs 1 u t ∧ Reading s t ∧ HeaderStage t [] ∧ t.headerSteps < u.headerSteps) ∨
  ∃ k t, k ≤ u.headerSteps ∧ Runs k u t ∧ HeaderEnd s t

theorem Reading.moves_of_fails {s u v : State} {x : Task} {ts : List Task} {e : ErrCode} (h : Reading s u)
    (hv : Reading s v) (htodo : u.todo = x :: ts) (hx : runTask x ts u = .next (v.fail e))
    (he : e = .truncatedStream ∨ e = .treeOverflow ∨ e = .badSymbol ∨ e = .degenerateTree) : HeaderMoves s u :=
  Or.inr ⟨1, _, by have := two_le_headerSteps u; omega, h.runs htodo hx, hv.fail he⟩

theorem Reading.moves_of_advances {s u : State} {x : Task} {c : InChan} {r : Result} (h : Reading s u)
    (hc : c.script = []) (htodo : u.todo = [x]) (hx : runTask x [] u = r)
    (hadv : Advances { u with inp := some c } [] r) : HeaderMoves s u := by
  have hv := h.withInp hc
  rcases hadv with ⟨t, ht, hstage, honly, hsteps⟩ | ⟨e, he, ht⟩
  · exact Or.inl ⟨t, h.runs htodo (hx.trans ht), hv.of_onlyHeader honly, hstage, hsteps⟩
  · refine h.moves_of_fails hv htodo (hx.trans ht) ?_
    rcases he with rfl | rfl <;> simp

/-- A line of the header on a channel that answers. -/
theorem HeaderStage.moves {s u : State} (h : HeaderStage u []) (hr : Reading s u) : HeaderMoves s u := by
  obtain ⟨-, -, ⟨c, hi, hc⟩, -⟩ := id hr
  cases h with
  | tag htodo h =>
    obtain ⟨c', hc', hx | ⟨tag, hx⟩⟩ := readTag_answers hi hc []
    · exact hr.moves_of_fails (hr.withInp hc') htodo hx (Or.inl rfl)
    · exact hr.moves_of_advances hc' htodo hx (AtTag.advances (h.of_frame (t := { u with inp := some c' })) htodo tag)
  | sym i htodo h =>
    obtain ⟨c', hc', hx | ⟨sym, hx⟩⟩ := readSym_answers hi hc i []
    · exact hr.moves_of_fails (hr.withInp hc') htodo hx (Or.inl rfl)
    · exact hr.moves_of_advances hc' htodo hx (AtSym.advances (h.of_frame (t := { u with inp := some c' })) htodo sym)
  | root i htodo h =>
    rcases h.checkRoot [] with hx | ⟨hx, htree, htail⟩
    · have hv : Reading s { u with root := i } := hr
      exact hr.moves_of_fails hv htodo hx (by simp)
    · obtain ⟨hq, hb, -, hout, hfreq, hcode, hcv⟩ := id hr
      have hend : Runs 1 (u.headerRead i []) (u.headerRead i []).complete := runs_complete hq hb rfl
      refine Or.inr ⟨2, _, two_le_headerSteps u, runs_trans (hr.runs htodo hx) hend, hout, hfreq, hcode, Or.inl ?_⟩
      exact ⟨rfl, rfl, hcv, treeInv_of_frame htree, htail⟩

/-- RDHDR comes to its end, by induction on the steps it can still take. -/
theorem HeaderStage.ends {s u : State} (h : HeaderStage u []) (hr : Reading s u) :
    ∃ k t, k ≤ u.headerSteps ∧ Runs k u t ∧ HeaderEnd s t := by
  induction hn : u.headerSteps using Nat.strong_induction_on generalizing u with
  | h n ih =>
    rcases h.moves hr with ⟨v, hstep, hrv, hstage, hlt⟩ | ⟨k, t, hk, hruns, hend⟩
    · obtain ⟨k, t, hk, hruns, hend⟩ := ih v.headerSteps (hn ▸ hlt) hstage hrv rfl
      exact ⟨1 + k, t, by omega, runs_trans hstep hruns, hend⟩
    · exact ⟨k, t, hn ▸ hk, hruns, hend⟩

/-- RDHDR after its first line: the tree is cleared and the first record is next (R147). -/
def State.headerStart (s : State) : State :=
  { (s.begin (commandWord .rdhdr) rdhdrProgram).clearTree with todo := [.readTag] }

/-- Settles O39: the lines of the header keep the subtrees read and the nodes on STACK, whatever the bits are, and each record
takes one of the 513 indices. -/
theorem readHeaderIsSound : Obligations.ReadHeaderIsSound := by
  unfold Obligations.ReadHeaderIsSound
  intro s c bits hs hin
  obtain ⟨hi, hc, -⟩ := hin
  have hbegin := atLines_begin hs (commandWord .rdhdr) rdhdrProgram
  have hclear : Runs 1 (s.begin (commandWord .rdhdr) rdhdrProgram) s.headerStart := hbegin.runs rfl
  have hreading : Reading s s.headerStart := ⟨hs.2, rfl, ⟨c, hi, hc⟩, rfl, rfl, rfl, rfl⟩
  have hstage : HeaderStage s.headerStart [] := .tag rfl (atTag_of_empty rfl rfl (arenaTail_of_node_zero rfl))
  obtain ⟨k, t, hk, hruns, hend⟩ := hstage.ends hreading
  have hsteps : s.headerStart.headerSteps = 1030 := rfl
  exact ⟨t, issue_of_runs hs.1 rfl (runs_trans hclear hruns) (le_budget (by omega)) hend.not_running, hend⟩

end Sys2Proof.Machine
end

section
/-!
PROOFS. What every step keeps of the channels and of MAGIC (R59, R60, R62, R243).
-/

namespace Sys2Proof.Machine

open Sys2Proof Sys2Proof.Safety

/-! ### What is kept of the channels -/

/-- The way from `s` to `t` keeps IN's position within its data and the parameters, only appends to OUT and never opens a
closed OUT (R62, R243, R59, R60). -/
structure KeepsChannels (s t : State) : Prop where
  position : positionInv s → positionInv t
  params : t.params = s.params
  out : ∀ c, s.out = some c → ∃ c' p, t.out = some c' ∧ c'.data = c.data ++ p ∧ (c.closed = true → c'.closed = true)

namespace KeepsChannels

variable {s u t : State}

theorem refl (s : State) : KeepsChannels s s := ⟨id, rfl, fun c h => ⟨c, [], h, (List.append_nil _).symm, id⟩⟩

theorem trans (h : KeepsChannels s u) (h' : KeepsChannels u t) : KeepsChannels s t where
  position := h'.position ∘ h.position
  params := h'.params.trans h.params
  out := by
    intro c hc
    obtain ⟨d, p, hd, hdata, hclosed⟩ := h.out c hc
    obtain ⟨d', p', hd', hdata', hclosed'⟩ := h'.out d hd
    exact ⟨d', p ++ p', hd', by rw [hdata', hdata, List.append_assoc], hclosed' ∘ hclosed⟩

/-- Where the channels and the parameters are left alone they are kept. -/
theorem of_frame (h : KeepsChannels s u) (hinp : t.inp = u.inp := by rfl) (hout : t.out = u.out := by rfl)
    (hparams : t.params = u.params := by rfl) : KeepsChannels s t :=
  h.trans ⟨fun hpos c hc => hpos c (hinp ▸ hc), hparams, fun c hc => (refl u).out c hc |>.imp fun _ h => hout ▸ h⟩

/-- IN may become any channel that stands within its data if the one before did. -/
theorem withInp (h : KeepsChannels s u) {c : InChan} (hc : positionInv u → c.pos ≤ c.data.length) :
    KeepsChannels s { u with inp := some c } :=
  h.trans ⟨fun hpos d hd => by cases hd; exact hc hpos, rfl, (refl u).out⟩

/-- OUT may become any channel that has grown from the one before. -/
theorem withOut (h : KeepsChannels s u) {c d : OutChan} (hc : u.out = some c)
    (hgrows : ∃ p, d.data = c.data ++ p ∧ (c.closed = true → d.closed = true)) :
    KeepsChannels s { u with out := some d } := by
  obtain ⟨p, hdata, hclosed⟩ := hgrows
  exact h.trans ⟨id, rfl, fun e he => by cases hc.symm.trans he; exact ⟨d, p, rfl, hdata, hclosed⟩⟩

end KeepsChannels

/-- A next state that is answered keeps the channels of `s`. -/
def AnswerKeeps (s : State) : Result → Prop
  | .next t => KeepsChannels s t
  | .fault _ | .refused _ => True

namespace AnswerKeeps

variable {s u : State}

theorem next {t : State} {r : Result} (h : AnswerKeeps s r) (hr : r = .next t) : KeepsChannels s t := by
  subst hr; exact h

theorem of_next {r : Result} (h : ∀ t, r = .next t → KeepsChannels s t) : AnswerKeeps s r := by
  cases r with
  | next t => exact h t rfl
  | fault _ | refused _ => exact trivial

/-! ### The transactions (R10, R56 to R60) -/

theorem readIn {n : Nat} {k : Option (BitVec n) → State → Result} (h : KeepsChannels s u)
    (hk : ∀ r v, KeepsChannels s v → AnswerKeeps s (k r v)) : AnswerKeeps s (u.readIn n k) := by
  unfold State.readIn
  split
  · exact h.of_frame
  next c hi =>
    have hread : KeepsChannels s { u with inp := some (c.read n).2 } :=
      h.withInp fun hpos => InChan.read_within (hpos c hi) n
    split <;> rename_i hr
    · rw [hr] at hread; exact hk _ _ hread
    · rw [hr] at hread; exact hk _ _ hread
    · rw [hr] at hread; exact hread.of_frame
    · exact h

theorem rewindIn {k : State → Result} (h : KeepsChannels s u) (hk : ∀ v, KeepsChannels s v → AnswerKeeps s (k v)) :
    AnswerKeeps s (u.rewindIn k) := by
  unfold State.rewindIn
  split
  · exact h.of_frame
  next c hi =>
    have hrewind : KeepsChannels s { u with inp := some c.rewind.2 } :=
      h.withInp fun hpos => InChan.rewind_within (hpos c hi)
    split <;> rename_i hr
    · rw [hr] at hrewind; exact hk _ hrewind
    · rw [hr] at hrewind; exact hrewind.of_frame
    · exact h

theorem writeOut {n : Nat} {v : BitVec n} {k : State → Result} (h : KeepsChannels s u)
    (hk : ∀ v, KeepsChannels s v → AnswerKeeps s (k v)) : AnswerKeeps s (u.writeOut v k) := by
  unfold State.writeOut
  split
  · exact h.of_frame
  next c ho =>
    have hwrite : KeepsChannels s { u with out := some (c.write v).2 } := h.withOut ho (c.write_grows v)
    split <;> rename_i hr
    · rw [hr] at hwrite; exact hk _ hwrite
    · rw [hr] at hwrite; exact hwrite.of_frame
    · exact h

theorem flushOut {k : State → Result} (h : KeepsChannels s u) (hk : ∀ v, KeepsChannels s v → AnswerKeeps s (k v)) :
    AnswerKeeps s (u.flushOut k) := by
  unfold State.flushOut
  split
  · exact h.of_frame
  next c ho =>
    have hflush : KeepsChannels s { u with out := some c.flush.2 } := h.withOut ho c.flush_grows
    split <;> rename_i hr
    · rw [hr] at hflush; exact hk _ hflush
    · rw [hr] at hflush; exact hflush.of_frame
    · exact h

theorem withNode {i : Idx} {k : Node → Result} (hk : ∀ x, AnswerKeeps s (k x)) : AnswerKeeps s (u.withNode i k) :=
  of_next fun t ht => by
    obtain ⟨x, hx⟩ := withNode_cases ht
    exact (hk x).next hx

/-! ### The lines of the pseudocode -/

variable (s) (ts : List Task)

theorem countByte : AnswerKeeps s (countByte ts s) := by
  refine readIn (.refl s) fun r v hv => ?_
  cases r with
  | none => exact hv.of_frame
  | some b =>
    refine of_next fun t ht => ?_
    rcases countValue_cases ht with rfl | ⟨a, w, ht⟩
    · exact hv.of_frame
    · cases ht; exact hv.of_frame

theorem insertLeaves : AnswerKeeps s (insertLeaves ts s) := by
  obtain ⟨node, nnodes, pq, hframe⟩ := insertLeaves_frame s
  show KeepsChannels s { s.insertLeaves with todo := ts }
  rw [hframe]
  exact (KeepsChannels.refl s).of_frame

theorem merge : AnswerKeeps s (merge ts s) := by
  unfold Machine.merge
  split
  · exact (KeepsChannels.refl s).of_frame
  split
  · exact trivial
  next a s1 h1 =>
  split
  · exact trivial
  next b s2 h2 =>
  obtain ⟨q1, rfl⟩ := removeMin_cases h1
  obtain ⟨q2, rfl⟩ := removeMin_cases h2
  refine of_next fun t ht => ?_
  rcases mergePair_cases ht with rfl | ⟨x, ht⟩
  · exact (KeepsChannels.refl s).of_frame
  · cases ht; exact (KeepsChannels.refl s).of_frame

theorem takeRoot : AnswerKeeps s (takeRoot ts s) := by
  unfold Machine.takeRoot
  split
  · exact trivial
  next r s1 h1 =>
    obtain ⟨q, rfl⟩ := removeMin_cases h1
    exact (KeepsChannels.refl s).of_frame

theorem walk (i : Idx) : AnswerKeeps s (walk i ts s) := by
  refine withNode fun x => ?_
  split
  · split
    · unfold walkOn
      split
      · exact (KeepsChannels.refl s).of_frame
      · exact (KeepsChannels.refl s).of_frame
      · exact trivial
    · exact trivial
  · split
    · exact (KeepsChannels.refl s).of_frame
    · exact trivial

theorem writeNode : AnswerKeeps s (writeNode ts s) := by
  unfold Machine.writeNode
  split
  · exact (KeepsChannels.refl s).of_frame
  · refine withNode fun x => ?_
    unfold writeRecord
    split <;> exact writeOut (.refl s) fun v hv => hv.of_frame
  · exact trivial

theorem readTag : AnswerKeeps s (readTag ts s) := by
  refine readIn (.refl s) fun r v hv => ?_
  cases r with
  | none => exact hv.of_frame
  | some b =>
    simp only [tagRead]
    split
    · split <;> exact hv.of_frame
    · exact hv.of_frame

theorem readSym (i : Idx) : AnswerKeeps s (readSym i ts s) := by
  refine readIn (.refl s) fun r v hv => ?_
  cases r with
  | none => exact hv.of_frame
  | some sym =>
    simp only [symRead]
    split
    · refine of_next fun t ht => ?_
      obtain ⟨node, st, todo, rfl, -⟩ := closeNode_cases ht
      exact hv.of_frame
    · exact hv.of_frame

theorem readMagic : AnswerKeeps s (readMagic ts s) := by
  refine readIn (.refl s) fun r v hv => ?_
  cases r with
  | none => exact hv.of_frame
  | some m =>
    simp only [checkMagic]
    split <;> exact hv.of_frame

theorem encodeByte : AnswerKeeps s (encodeByte ts s) := by
  refine readIn (.refl s) fun r v hv => ?_
  cases r with
  | none => exact hv.of_frame
  | some b =>
    simp only
    split <;> exact hv.of_frame

theorem decodeBit : AnswerKeeps s (decodeBit ts s) := by
  refine readIn (.refl s) fun r v hv => ?_
  cases r with
  | none => exact hv.of_frame
  | some b =>
    refine withNode fun x => withNode fun y => ?_
    split
    · split <;> exact hv.of_frame
    · exact hv.of_frame

end AnswerKeeps

/-- No line moves IN's position beyond its data, writes MAGIC, takes back a bit of OUT or opens it. -/
theorem runTask_keepsChannels (x : Task) (ts : List Task) (s : State) : AnswerKeeps s (runTask x ts s) := by
  have hs := KeepsChannels.refl s
  cases x with simp only [runTask]
  | countClear | treeClear | codeClear | codeDone | writeTree | decodeStart => exact hs.of_frame
  | countByte => exact .countByte s ts
  | rewind => exact .rewindIn hs fun v hv => hv.of_frame
  | insertLeaves => exact .insertLeaves s ts
  | merge => exact .merge s ts
  | takeRoot => exact .takeRoot s ts
  | walk i => exact .walk s ts i
  | writeMagic => exact .writeOut hs fun v hv => hv.of_frame
  | writeNode => exact .writeNode s ts
  | writeSym sym =>
    unfold writeSym
    split
    · exact .writeOut hs fun v hv => hv.of_frame
    · exact trivial
  | readMagic => exact .readMagic s ts
  | readTag => exact .readTag s ts
  | readSym i => exact .readSym s ts i
  | checkRoot i =>
    refine .withNode fun x => ?_
    split <;> exact hs.of_frame
  | encodeByte => exact .encodeByte s ts
  | emit sym =>
    unfold emit
    split <;> exact hs.of_frame
  | emitBit sym j =>
    unfold emitBit
    split
    · exact .writeOut hs fun v hv => hv.of_frame
    · exact hs.of_frame
  | decodeBit => exact .decodeBit s ts
  | decodeOut sym =>
    unfold decodeOut
    split
    · exact .writeOut hs fun v hv => hv.of_frame
    · exact trivial
  | flush => exact .flushOut hs fun v hv => hv.of_frame

/-! ### Steps -/

theorem engineStep_keepsChannels {s t : State} (h : engineStep s = .next t) : KeepsChannels s t := by
  have htick : KeepsChannels s s.tick := (KeepsChannels.refl s).of_frame
  rcases engineStep_cases h with ⟨-, rfl⟩ | ⟨x, ts, -, hx⟩
  · exact htick.of_frame
  · exact htick.trans ((runTask_keepsChannels x ts s.tick).next hx)

theorem Runs.keepsChannels {k : Nat} {s t : State} (h : Runs k s t) : KeepsChannels s t :=
  runs_invariant (P := KeepsChannels s) (fun _ _ _ hstep hs => hs.trans (engineStep_keepsChannels hstep)) h (.refl s)

theorem CommandOutcome.keepsChannels {i : Instr} {s t : State} (h : CommandOutcome i s t) : KeepsChannels s t := by
  cases h with
  | dropped | cleared | failed => exact (KeepsChannels.refl s).of_frame
  | ran k w program _ _ _ hruns =>
    have hbegin : KeepsChannels s (s.begin w program) := (KeepsChannels.refl s).of_frame
    exact hbegin.trans hruns.keepsChannels

/-- Of the host's actions BIND OUT alone does not keep OUT: it leaves the fresh one (R242). -/
theorem HostOutcome.keepsChannels {a : HostAct} {s t : State} (h : HostOutcome a s t) :
    (∃ pad script, a = .bindOut pad script ∧ t = { s with out := some (OutChan.bind pad script) }) ∨
      KeepsChannels s t := by
  have hs := KeepsChannels.refl s
  cases h with
  | bindOut pad script ha _ => exact Or.inl ⟨pad, script, ha, rfl⟩
  | read | reset => exact Or.inr hs.of_frame
  | bindIn => exact Or.inr (hs.withInp fun _ => Nat.zero_le _)
  | store r d _ _ =>
    obtain ⟨freq, hstore⟩ := storeReg_eq s (regOf r) d
    rw [hstore]
    exact Or.inr hs.of_frame
  | command d i _ _ hd hx => exact Or.inr (exec_command_cases (decodeCommand_facts hd).1 hx).keepsChannels
  | illegalWord d e _ _ _ hx => exact Or.inr (illegal_outcome (i := .clr) hx).keepsChannels

/-- A step that is not a due BIND OUT keeps the channels and the parameters. -/
theorem step_keepsChannels {s t : State} (h : step s = .next t) :
    (s.eventDue = true ∧ ∃ p pad script rest, s.host = ⟨p, .bindOut pad script⟩ :: rest ∧
      t = { s with host := rest, out := some (OutChan.bind pad script) }) ∨ KeepsChannels s t := by
  rcases step_cases h with ⟨⟨p, a⟩, rest, hdue, hhost, hevent⟩ | ⟨-, -, ⟨i, hfetch, hx⟩ | ⟨-, hx⟩⟩ | ⟨-, -, rfl⟩
  · have hrest : KeepsChannels s { s with host := rest } := (KeepsChannels.refl s).of_frame
    unfold hostEvent at hevent
    split at hevent
    · cases hevent; exact Or.inr hrest
    · rcases (hostAct_cases hevent).keepsChannels with ⟨pad, script, rfl, rfl⟩ | hkeeps
      · exact Or.inl ⟨hdue, p, pad, script, rest, hhost, rfl⟩
      · exact Or.inr (hrest.trans hkeeps)
  · obtain ⟨k, -, hruns⟩ := runs_of_record hfetch hx
    exact Or.inr hruns.keepsChannels
  · exact Or.inr (engineStep_keepsChannels hx)
  · exact Or.inr (.refl _)

/-- Settles O58, transaction by transaction, line by line and by the outcomes of a step. -/
theorem channelsKept : Obligations.ChannelsKept := by
  unfold Obligations.ChannelsKept
  constructor
  · intro s t hpos hstep
    rcases step_keepsChannels hstep with ⟨-, _, _, _, _, -, rfl⟩ | hkeeps
    · exact hpos
    · exact hkeeps.position hpos
  · intro s t hstep
    rcases step_keepsChannels hstep with ⟨hdue, p, pad, script, rest, hhost, rfl⟩ | hkeeps
    · exact ⟨rfl, Or.inl ⟨hdue, p, pad, script, rest, hhost, rfl⟩⟩
    · exact ⟨hkeeps.params, Or.inr hkeeps.out⟩

end Sys2Proof.Machine
end

section
/-!
PROOFS. The host register space: the windows, the numbers outside the map, and what a host access changes (R51 to R55, R73, R74).
-/

namespace Sys2Proof.Machine

open Sys2Proof Sys2Proof.Safety

/-! ### Reads and writes by what a number names -/

section Access

variable {s : State} {a : RegNum} {r : Reg}

/-- In IDLE and DONE every register reads its content (R52). -/
theorem hostRead_open (ha : regOf a = r) (hs : s.open? = true) : s.hostRead a = s.regWord r := by
  simp only [State.hostRead, ha, hs, Bool.not_true, Bool.and_false, Bool.false_eq_true, if_false]

/-- A register that R73 leaves specified reads its content in every state. -/
theorem hostRead_unguarded (ha : regOf a = r) (hr : r.guarded = false) : s.hostRead a = s.regWord r := by
  simp only [State.hostRead, ha, hr, Bool.false_and, Bool.false_eq_true, if_false]

/-- In BUSY and FAILED any other reads the free value (R42, R73). -/
theorem hostRead_closed (ha : regOf a = r) (hr : r.guarded = true) (hs : s.open? = false) :
    s.hostRead a = Config.unspecified s.draws := by
  simp only [State.hostRead, ha, hr, hs, Bool.not_false, Bool.and_true, if_true]

/-- A write to a number that does not name CMD is a store (R51). -/
theorem hostWrite_store (ha : regOf a = r) (hr : r ≠ .cmd) (d : Word) : hostWrite a d s = .next (s.storeReg r d) := by
  subst ha
  unfold hostWrite
  split
  next h => exact absurd h hr
  next => rfl

end Access

theorem not_open_of_busy_or_failed {s : State} (h : s.phase = .busy ∨ s.phase = .failed) : s.open? = false := by
  rcases h with h | h <;> simp [State.open?, h]

/-! ### The FREQ window (R53) -/

/-- In IDLE and DONE a store to the FREQ window sets the entry. -/
theorem storeReg_freq_open {s : State} (hs : s.open? = true) (sym : Sym) (d : Word) :
    s.storeReg (.freq sym) d = s.setFreq sym d := by
  simp only [State.storeReg, hs, if_true]

/-- In BUSY and FAILED it is ignored (R73). -/
theorem storeReg_freq_closed {s : State} (hs : s.open? = false) (sym : Sym) (d : Word) :
    s.storeReg (.freq sym) d = s := by
  simp only [State.storeReg, hs, Bool.false_eq_true, if_false]

/-- A store to FREQ[256] is ignored in every state (R27, R53). -/
theorem storeReg_freq_end (s : State) (d : Word) : s.storeReg (.freq endSym) d = s := by
  simp only [State.storeReg]
  split
  · exact State.setFreq_beyond s d (by decide)
  · rfl

theorem regOf_freq_end : regOf 0x500#16 = .freq endSym := regOf_freq le_rfl

theorem ofNat_sym_inj {m n : Nat} (hm : m ≤ 256) (hn : n ≤ 256) (h : BitVec.ofNat 9 m = BitVec.ofNat 9 n) : m = n := by
  rw [← toNat_ofNat_sym hm, ← toNat_ofNat_sym hn, h]

/-- Settles O15: a store to the window is `setFreq`, and FREQ[256] is wired. -/
theorem freqWindow : Obligations.FreqWindow := by
  unfold Obligations.FreqWindow
  refine ⟨?read, ?write, ?wired⟩
  case read => exact fun s n hs hn => hostRead_open (regOf_freq hn) hs
  case write =>
    intro s n d hs hn
    have hsym : (BitVec.ofNat 9 n).toNat < 256 := by rw [toNat_ofNat_sym hn.le]; exact hn
    have hs' : (s.setFreq (BitVec.ofNat 9 n) d).open? = true := hs
    refine ⟨s.setFreq (BitVec.ofNat 9 n) d, ?stored, rfl, ?readBack, ?others⟩
    case stored => rw [hostWrite_store (regOf_freq hn.le) (by simp), storeReg_freq_open hs]
    case readBack =>
      rw [hostRead_open (regOf_freq hn.le) hs', State.regWord, State.freqOf_setFreq s _ d hsym, if_pos rfl]
    case others =>
      intro m hm hne
      rw [State.freqOf_setFreq s _ d hsym, if_neg fun h => hne (ofNat_sym_inj hm hn.le h.symm)]
  case wired =>
    intro s d
    have hread : s.hostRead 0x500#16 = s.freqOf endSym := hostRead_unguarded regOf_freq_end (by decide)
    refine ⟨?_, s.freqOf_end, fun _ => hread.trans s.freqOf_end⟩
    rw [hostWrite_store regOf_freq_end (by simp), storeReg_freq_end]

/-! ### The NODE windows (R54) -/

/-- An index of R28 names its entry of the first NODE window. -/
theorem regOf_nodeLink_idx {i : Idx} (h : i.toNat < 513) : regOf (BitVec.ofNat 16 (0x800 + i.toNat)) = .nodeLink i := by
  rw [regOf_nodeLink h, BitVec.ofNat_toNat, BitVec.setWidth_eq]

/-- An index of R28 names its entry of the second NODE window. -/
theorem regOf_nodeWeight_idx {i : Idx} (h : i.toNat < 513) :
    regOf (BitVec.ofNat 16 (0xC00 + i.toNat)) = .nodeWeight i := by
  rw [regOf_nodeWeight h, BitVec.ofNat_toNat, BitVec.setWidth_eq]

/-- In IDLE and DONE the NODE windows read the entry's words. -/
theorem hostRead_node {s : State} {i : Idx} {x : Node} (hs : s.open? = true) (hx : s.nodeAt? i = some x) :
    s.hostRead (BitVec.ofNat 16 (0x800 + i.toNat)) = x.linkWord ∧
    s.hostRead (BitVec.ofNat 16 (0xC00 + i.toNat)) = x.weight := by
  have hi := State.nodeAt_lt hx
  rw [hostRead_open (regOf_nodeLink_idx hi) hs, hostRead_open (regOf_nodeWeight_idx hi) hs]
  simp only [State.regWord, hx, Option.elim, and_self]

/-- The fields of NODE_LINK (R54). -/
theorem linkWord_fields (x : Node) :
    x.linkWord.getLsbD 31 = x.leaf ∧ x.linkWord.extractLsb' 29 2 = 0#2 ∧ x.linkWord.extractLsb' 20 9 = x.sym ∧
    x.linkWord.extractLsb' 10 10 = x.left ∧ x.linkWord.extractLsb' 0 10 = x.right := by
  refine ⟨?leaf, ?reserved, ?sym, ?left, ?right⟩
  case leaf => exact (Node.linkWord_bit x 31).trans (by simp)
  all_goals
    ext j hj
    rw [BitVec.getElem_extractLsb', Node.linkWord_bit]
  case reserved =>
    rw [if_neg (by omega), if_neg (by omega), if_neg (by omega), if_pos (by omega), BitVec.getElem_zero]
  case sym =>
    rw [if_neg (by omega), if_neg (by omega), if_pos (by omega), Nat.add_sub_cancel_left, BitVec.getLsbD_eq_getElem hj]
  case left =>
    rw [if_neg (by omega), if_pos (by omega), Nat.add_sub_cancel_left, BitVec.getLsbD_eq_getElem hj]
  case right => rw [if_pos (by omega), Nat.zero_add, BitVec.getLsbD_eq_getElem hj]

theorem linkWord_zero : Node.zero.linkWord = 0#32 := by decide

/-- Beyond NNODES the arena's entries are zero where it is as R28 has it. -/
theorem nodeAt_of_arenaTail {s : State} {i : Idx} (h : arenaTail s) (hn : s.nnodes.toNat ≤ i.toNat) (hi : i.toNat < 513) :
    s.nodeAt? i = some Node.zero := h i.toNat hn hi

/-- Settles O16, field by field. -/
theorem nodeWindows : Obligations.NodeWindows := by
  unfold Obligations.NodeWindows
  refine ⟨?fields, ?tail, ?ignored⟩
  case fields =>
    intro s i x hs hx
    obtain ⟨hlink, hweight⟩ := hostRead_node hs hx
    obtain ⟨hleaf, hreserved, hsym, hleft, hright⟩ := linkWord_fields x
    rw [hlink]
    exact ⟨hleaf, hreserved, hsym, hleft, hright, hweight⟩
  case tail =>
    intro s i hs htail hn hi
    obtain ⟨hlink, hweight⟩ := hostRead_node hs (nodeAt_of_arenaTail htail hn hi)
    exact ⟨hlink.trans linkWord_zero, hweight⟩
  case ignored =>
    exact fun s i d hi => ⟨hostWrite_store (regOf_nodeLink hi) (by simp) d, hostWrite_store (regOf_nodeWeight hi) (by simp) d⟩

/-! ### The CODE window (R55) -/

/-- Bit k of a bit sequence, the first one being the most significant of the field (R9). -/
theorem valOf_getLsbD {n : Nat} {p : Bits} (hp : p.length = n) {k : Nat} (hk : k < p.length) :
    (valOf n p).getLsbD (n - 1 - k) = p[k] := by
  rw [← getElem_bitsOf (valOf n p) k (by rw [length_bitsOf]; omega)]
  simp only [bitsOf_valOf n p hp]

/-- Code bit j is bit 31 - (j mod 32) of word 1 + (j div 32) (R55). -/
theorem bitsWord_bit (c : Code) (j : Nat) : (c.bitsWord (1 + j / 32)).getLsbD (31 - j % 32) = c.bits.getLsbD j := by
  have hlt : j % 32 < 32 := Nat.mod_lt j (by decide)
  rw [Code.bitsWord, valOf_getLsbD (by simp) (by simpa using hlt), List.getElem_map, List.getElem_range,
    Nat.add_sub_cancel_left, Nat.div_add_mod]

/-- The fields of word 0 of CODE[s] (R55). -/
theorem headWord_fields (c : Code) :
    c.headWord.getLsbD 31 = c.valid ∧ c.headWord.extractLsb' 0 9 = c.len ∧ c.headWord.extractLsb' 9 22 = 0#22 := by
  refine ⟨?valid, ?len, ?reserved⟩
  case valid => exact (Code.headWord_bit c 31).trans (by simp)
  all_goals
    ext j hj
    rw [BitVec.getElem_extractLsb', Code.headWord_bit]
  case len => rw [if_pos (by omega), Nat.zero_add, BitVec.getLsbD_eq_getElem hj]
  case reserved => rw [if_neg (by omega), if_pos (by omega), BitVec.getElem_zero]

/-- In IDLE and DONE word 0 of the CODE window reads the entry's head. -/
theorem hostRead_codeHead {s : State} {n : Nat} (hs : s.open? = true) (hn : n ≤ 256) :
    s.hostRead (BitVec.ofNat 16 (0x1000 + 16 * n)) = (s.codeOf (BitVec.ofNat 9 n)).headWord :=
  hostRead_open (regOf_codeWord (k := 0) hn (by omega)) hs

/-- In IDLE and DONE the later words of the CODE window read the entry's bits. -/
theorem hostRead_codeBit {s : State} {n j : Nat} (hs : s.open? = true) (hn : n ≤ 256) (hj : j < 256) :
    (s.hostRead (BitVec.ofNat 16 (0x1000 + 16 * n + 1 + j / 32))).getLsbD (31 - j % 32) =
      (s.codeOf (BitVec.ofNat 9 n)).bits.getLsbD j := by
  rw [Nat.add_assoc, hostRead_open (regOf_codeWord hn (by omega)) hs, State.regWord, if_neg (by omega), bitsWord_bit]

/-- Settles O17, field by field and bit by bit. -/
theorem codeWindow : Obligations.CodeWindow := by
  unfold Obligations.CodeWindow
  refine ⟨?head, ?bits, ?ignored⟩
  case head =>
    intro s n hs hn
    rw [hostRead_codeHead hs hn]
    exact headWord_fields _
  case bits =>
    intro s n j hs hn hj
    have hbit := hostRead_codeBit hs hn hj
    refine ⟨hbit, ?_⟩
    rintro ⟨-, hzero, -⟩ hlen
    exact hbit.trans (hzero j hlen)
  case ignored => exact fun s n k d hn hk => hostWrite_store (regOf_codeWord hn hk) (by simp) d

/-! ### The other numbers, and what an access changes -/

/-- Settles O18, by the register map. -/
theorem unmappedRegisters : Obligations.UnmappedRegisters := by
  unfold Obligations.UnmappedRegisters
  refine ⟨?unmapped, ?rootNnodes, ?cmd⟩
  case unmapped =>
    intro s a d h0 h1 h2 h3 h4
    have ha := regOf_unmapped h0 h1 h2 h3 h4
    exact ⟨hostRead_unguarded ha rfl, hostWrite_store ha (by simp) d⟩
  case rootNnodes =>
    exact fun s d hs => ⟨hostRead_open regOf_two hs, hostRead_open regOf_three hs,
      hostWrite_store regOf_two (by simp) d, hostWrite_store regOf_three (by simp) d⟩
  case cmd => exact fun s => hostRead_unguarded regOf_zero rfl

/-- Settles O19: STATUS alone and FREQ[256] are specified there. -/
theorem busyAndFailedAccess : Obligations.BusyAndFailedAccess := by
  unfold Obligations.BusyAndFailedAccess
  intro s hphase
  have hs := not_open_of_busy_or_failed hphase
  refine ⟨?write, hostRead_status s, hostRead_closed regOf_two rfl hs, hostRead_closed regOf_three rfl hs, ?freq, ?node,
    ?code⟩
  case write =>
    intro n d hn
    rw [hostWrite_store (regOf_freq hn) (by simp), storeReg_freq_closed hs]
  case freq =>
    intro n hn
    have hne : BitVec.ofNat 9 n ≠ endSym := fun h => hn.ne (ofNat_sym_inj hn.le le_rfl h)
    exact hostRead_closed (regOf_freq hn.le) (decide_eq_true hne) hs
  case node =>
    exact fun n hn => ⟨hostRead_closed (regOf_nodeLink hn) rfl hs, hostRead_closed (regOf_nodeWeight hn) rfl hs⟩
  case code => exact fun n k hn hk => hostRead_closed (regOf_codeWord hn hk) rfl hs

/-- Settles O20: a number other than 0 does not name CMD, and a store writes FREQ at most. -/
theorem hostAccessEffects : Obligations.HostAccessEffects := by
  unfold Obligations.HostAccessEffects
  refine ⟨fun s a => rfl, fun s a d ha => ⟨s.storeReg (regOf a) d, hostWrite_store rfl (fun h => ha (regOf_cmd h)) d, ?_⟩⟩
  obtain ⟨freq, hstore⟩ := storeReg_eq s (regOf a) d
  rw [hstore]

end Sys2Proof.Machine
end

section
/-!
PROOFS. The reference channels (R61 to R67).
-/

namespace Sys2Proof.Machine

open Sys2Proof

/-- A read that IN cannot satisfy loses the bits left (R63). -/
theorem plainRead_short {c : InChan} {n : Nat} (h : c.data.length < c.pos + n) :
    c.plainRead n = (.eod, { c with pos := c.data.length }) := if_neg (Nat.not_le.2 h)

/-- Settles O21, by the answers of the reference channel. -/
theorem inReferenceChannel : Obligations.InReferenceChannel := by
  unfold Obligations.InReferenceChannel
  refine ⟨?value, ?eod, ?rewind, fun _ _ _ => ⟨rfl, rfl⟩⟩
  case value => exact fun c n hc hn => (InChan.read_plain hc n).trans (if_pos hn)
  case eod =>
    intro c n hc hn
    refine ⟨(InChan.read_plain hc n).trans (plainRead_short hn), fun m hm => ?_⟩
    exact (InChan.read_plain (c := { c with pos := c.data.length }) hc m).trans (plainRead_short (Nat.lt_add_of_pos_right hm))
  case rewind =>
    intro c hc hreplay
    rw [InChan.rewind_plain hc, InChan.plainRewind, InChan.restart, hreplay]
    exact ⟨fun hr => if_neg (by simp [hr]), fun hr => if_pos hr⟩

/-- Settles O22: a write appends `bitsOf`, whose bits `getElem_bitsOf` gives. -/
theorem outWriteMsbFirst : Obligations.OutWriteMsbFirst := by
  unfold Obligations.OutWriteMsbFirst
  constructor
  · intro c n v hc
    rw [OutChan.write_plain hc, OutChan.plainWrite]
    exact ⟨fun h => if_neg (by simp [h]), fun h => if_pos h⟩
  · intro n v
    refine ⟨length_bitsOf v, valOf_bitsOf v, fun k hk => ?_⟩
    have hk' : k < (bitsOf v).length := (length_bitsOf v).symm ▸ hk
    rw [List.getElem?_eq_getElem hk', getElem_bitsOf v k hk']

theorem length_padding (c : OutChan) : c.padding.length = (8 - c.data.length % 8) % 8 := by simp [OutChan.padding]

/-- The reference channel pads with zeros (R67). -/
theorem padding_of_pad_zero {c : OutChan} (h : c.pad = 0#7) :
    c.padding = List.replicate ((8 - c.data.length % 8) % 8) false :=
  List.eq_replicate_iff.2 ⟨length_padding c, by simp [OutChan.padding, h]⟩

/-- Settles O23: a flush appends `padding`, and whole bytes survive the cutting. -/
theorem outFlushPads : Obligations.OutFlushPads := by
  unfold Obligations.OutFlushPads
  intro c hc
  rw [OutChan.flush_plain hc, OutChan.plainFlush]
  refine ⟨fun h => if_pos h, fun h => ?_, fun bs hbs => ?_⟩
  · refine ⟨c.padding, if_neg (by simp [h]), length_padding c, ?_, padding_of_pad_zero⟩
    rw [length_padding]
    omega
  · have hbytes := bytesOf_bitsOfBytes bs [] (by decide)
    rwa [List.append_nil, ← hbs] at hbytes

end Sys2Proof.Machine
end

section
/-!
PROOFS. The encodings: decoder and encoder invert each other, and the legal command words (R82, R83, R86, R91 to R93).
-/

namespace Sys2Proof.Machine

open Sys2Proof

/-! ### The encoder and the decoder -/

/-- A command is encoded as its word, whatever stream there is (R80). -/
theorem encode_command {i : Instr} (hi : i.isCommand = true) (rest : Bits) : encode i rest = .command (commandWord i) := by
  cases i with
  | streamMagic _ | hdrInternal | hdrLeaf _ => cases hi
  | _ => rfl

theorem decode_command {w : CmdWord} {i : Instr} (h : decodeCommand w = .ok i) : decode (.command w) = .ok (i, []) := by
  simp only [decode, h]

theorem decode_magicField {bits : Bits} {x : Instr × Bits} (h : decodeMagic bits = .ok x) :
    decode (.magicField bits) = .ok x := by
  simp only [decode, h]

theorem decode_headerField {bits : Bits} {x : Instr × Bits} (h : decodeHeader bits = .ok x) :
    decode (.headerField bits) = .ok x := by
  simp only [decode, h]

/-- The word of a well-formed command decodes to it (R82, R83). -/
theorem decodeCommand_commandWord {i : Instr} (hi : i.isCommand = true) (hw : i.wellFormed = true) :
    decodeCommand (commandWord i) = .ok i := by
  cases i with
  | emit sym => exact (decodeCommand_emit sym).trans (if_pos hw)
  | streamMagic _ | hdrInternal | hdrLeaf _ => cases hi
  | _ => rfl

/-- Settles O1: a command by its word, a stream record by its bits. -/
theorem decodeInvertsEncode : Obligations.DecodeInvertsEncode := by
  unfold Obligations.DecodeInvertsEncode
  intro i rest hw
  cases hi : i.isCommand with
  | true => rw [encode_command hi, if_pos rfl, decode_command (decodeCommand_commandWord hi hw)]
  | false =>
    cases i with
    | streamMagic m => exact decode_magicField (decodeMagic_bits m rest)
    | hdrInternal => rfl
    | hdrLeaf sym => exact decode_headerField (decodeHeader_leaf sym rest)
    | _ => cases hi

/-- What decodes is a legal command word, a magic field or a header record at the front of a stream. -/
theorem decode_cases {e : Encoded} {i : Instr} {rest : Bits} (h : decode e = .ok (i, rest)) :
    (∃ w, e = .command w ∧ decodeCommand w = .ok i) ∨
    (∃ bits, e = .magicField bits ∧ decodeMagic bits = .ok (i, rest)) ∨
    (∃ bits, e = .headerField bits ∧ decodeHeader bits = .ok (i, rest)) := by
  cases e with simp only [decode] at h
  | command w =>
    split at h
    next hw => cases h; exact Or.inl ⟨w, rfl, hw⟩
    next => cases h
  | magicField bits =>
    split at h
    next hd => cases h; exact Or.inr (Or.inl ⟨bits, rfl, hd⟩)
    next => cases h
  | headerField bits =>
    split at h
    next hd => cases h; exact Or.inr (Or.inr ⟨bits, rfl, hd⟩)
    next => cases h

/-- Settles O2: what each of the three decoders reads is what the encoder writes. -/
theorem encodeInvertsDecode : Obligations.EncodeInvertsDecode := by
  unfold Obligations.EncodeInvertsDecode
  intro e i rest h
  rcases decode_cases h with ⟨w, rfl, hd⟩ | ⟨bits, rfl, hd⟩ | ⟨bits, rfl, hd⟩
  · obtain ⟨hi, hw, hword⟩ := decodeCommand_facts hd
    exact ⟨hword ▸ encode_command hi rest, fun _ => hw⟩
  · obtain ⟨m, rfl, rfl⟩ := decodeMagic_ok hd
    exact ⟨rfl, fun hi => by cases hi⟩
  · rcases decodeHeader_ok hd with ⟨rfl, rfl⟩ | ⟨sym, rfl, rfl⟩ <;> exact ⟨rfl, fun hi => by cases hi⟩

/-- Settles O4, by evaluation. -/
theorem sampleWordsDecode : Obligations.SampleWordsDecode := by
  unfold Obligations.SampleWordsDecode
  exact ⟨rfl, rfl, rfl, rfl, rfl, rfl, rfl⟩

/-! ### The legal command words (R86) -/

/-- The opcodes of no command without an operand: 0x0, 0xF, and 0x9, which is EMIT's (R82). -/
theorem plainCommand_eq_none {op : BitVec 4} : plainCommand op = none ↔ op = 0 ∨ op = 9 ∨ op = 15 := by
  revert op; decide

/-- A word is illegal by one of the four items of R86. -/
theorem decodeCommand_error_iff {c : CmdWord} : (∃ r, decodeCommand c = .error r) ↔
    (c.op = 0 ∨ c.op = 15 ∨ c.rsv ≠ 0 ∨ (c.op ≠ 9 ∧ c.imm9 ≠ 0) ∨ (c.op = 9 ∧ 256 < c.imm9.toNat)) := by
  have hsym : c.imm9.isSymbol = true ↔ ¬ 256 < c.imm9.toNat := by simp [Sym.isSymbol]
  unfold decodeCommand
  split
  next hrsv => exact iff_of_true ⟨_, rfl⟩ (Or.inr (Or.inr (Or.inl hrsv)))
  next hrsv =>
  split
  next hop =>
    split
    next hs =>
      refine iff_of_false (fun ⟨_, h⟩ => by cases h) ?_
      rintro (h | h | h | ⟨h, -⟩ | ⟨-, h⟩)
      · exact absurd (hop.symm.trans h) (by decide)
      · exact absurd (hop.symm.trans h) (by decide)
      · exact hrsv h
      · exact h hop
      · exact hsym.1 hs h
    next hs =>
      exact iff_of_true ⟨_, rfl⟩ (Or.inr (Or.inr (Or.inr (Or.inr ⟨hop, not_not.1 (mt hsym.2 hs)⟩))))
  next hop =>
  split
  next hplain =>
    refine iff_of_true ⟨_, rfl⟩ ?_
    rcases plainCommand_eq_none.1 hplain with h | h | h
    · exact Or.inl h
    · exact absurd h hop
    · exact Or.inr (Or.inl h)
  next i hplain =>
    have hcode : ¬ (c.op = 0 ∨ c.op = 9 ∨ c.op = 15) := fun h => by
      rw [plainCommand_eq_none.2 h] at hplain; cases hplain
    split
    next himm =>
      refine iff_of_false (fun ⟨_, h⟩ => by cases h) ?_
      rintro (h | h | h | ⟨-, h⟩ | ⟨h, -⟩)
      · exact hcode (Or.inl h)
      · exact hcode (Or.inr (Or.inr h))
      · exact hrsv h
      · exact h himm
      · exact hop h
    next himm => exact iff_of_true ⟨_, rfl⟩ (Or.inr (Or.inr (Or.inr (Or.inl ⟨hop, himm⟩))))

/-- The thirteen commands without an operand (R82). -/
def plainCommands : List Instr :=
  [.clr, .count, .build, .wrmagic, .wrhdr, .rdmagic, .rdhdr, .derive, .encode, .flush, .decode, .compress, .decompress]

/-- All legal commands: the thirteen without an operand, and EMIT of each of the 257 symbols (R86). -/
def legalCommands : List Instr := plainCommands ++ allSymbols.map .emit

theorem mem_legalCommands {i : Instr} : i ∈ legalCommands ↔ i.isCommand = true ∧ i.wellFormed = true := by
  simp only [legalCommands, List.mem_append, List.mem_map, mem_allSymbols]
  cases i with
  | emit sym => simp [plainCommands, Instr.isCommand, Instr.wellFormed, Sym.isSymbol]
  | _ => simp [plainCommands, Instr.isCommand, Instr.wellFormed]

theorem nodup_allSymbols : allSymbols.Nodup := by
  refine List.Nodup.map_on (fun a ha b hb hab => ?_) List.nodup_range
  have h := congrArg BitVec.toNat hab
  simp only [List.mem_range, nsym] at ha hb
  simp only [BitVec.toNat_ofNat] at h
  omega

theorem nodup_legalCommands : legalCommands.Nodup := by
  refine List.Nodup.append (by decide) (nodup_allSymbols.map fun _ _ => Instr.emit.inj) ?_
  intro i hi hemit
  obtain ⟨sym, -, rfl⟩ := List.mem_map.1 hemit
  simp [plainCommands] at hi

theorem length_legalCommands : legalCommands.length = 13 + 257 := by
  simp [legalCommands, plainCommands, allSymbols]

/-- A word is legal exactly if it is the word of a legal command. -/
theorem decodeCommand_isOk {c : CmdWord} : (decodeCommand c).isOk = true ↔ ∃ i ∈ legalCommands, commandWord i = c := by
  constructor
  · intro h
    cases hd : decodeCommand c with
    | ok i =>
      obtain ⟨hi, hw, hword⟩ := decodeCommand_facts hd
      exact ⟨i, mem_legalCommands.2 ⟨hi, hw⟩, hword⟩
    | error r => rw [hd] at h; cases h
  · rintro ⟨i, hi, rfl⟩
    obtain ⟨hi, hw⟩ := mem_legalCommands.1 hi
    rw [decodeCommand_commandWord hi hw]
    rfl

/-- Different legal commands have different words: a word decodes to one of them. -/
theorem commandWord_inj {i j : Instr} (hi : i ∈ legalCommands) (hj : j ∈ legalCommands)
    (h : commandWord i = commandWord j) : i = j := by
  obtain ⟨hi, hwi⟩ := mem_legalCommands.1 hi
  obtain ⟨hj, hwj⟩ := mem_legalCommands.1 hj
  have hd := decodeCommand_commandWord hi hwi
  rw [h, decodeCommand_commandWord hj hwj] at hd
  exact (Except.ok.inj hd).symm

/-- The legal words, as numbers, are the words of the legal commands. -/
theorem legalWords_perm : ((List.range 65536).filter fun n => (decodeCommand (BitVec.ofNat 16 n)).isOk).Perm
    (legalCommands.map fun i => (commandWord i).toNat) := by
  refine (List.perm_ext_iff_of_nodup (List.nodup_range.filter _) ?_).2 fun n => ?_
  · exact nodup_legalCommands.map_on fun i hi j hj h => commandWord_inj hi hj (BitVec.eq_of_toNat_eq h)
  · simp only [List.mem_filter, List.mem_range, List.mem_map, decodeCommand_isOk]
    constructor
    · rintro ⟨hn, i, hi, hword⟩
      exact ⟨i, hi, by rw [hword, BitVec.toNat_ofNat]; omega⟩
    · rintro ⟨i, hi, rfl⟩
      exact ⟨(commandWord i).isLt, i, hi, by simp⟩

/-- An illegal word is presented as `illegal` says (R84, R85). -/
theorem writeCmd_illegal {w : CmdWord} {r : IllegalWord} (h : decodeCommand w = .error r) (s : State) :
    writeCmd w s = illegal w s := by
  simp only [writeCmd, h]

/-- What an illegal word does, it does whatever its bits are. -/
theorem illegal_congr (w w' : CmdWord) (s : State) : illegal w s = illegal w' s := by
  rcases phase_cases s with hp | hp
  · rw [illegal_dropped hp, illegal_dropped hp]
  · rw [illegal_accepted hp, illegal_accepted hp]

/-- Settles O3: the legal words are counted through the commands they decode to. -/
theorem legalCommandWords : Obligations.LegalCommandWords := by
  unfold Obligations.LegalCommandWords
  refine ⟨fun c => decodeCommand_error_iff, ?number, ?alike⟩
  case number =>
    rw [List.countP_eq_length_filter, legalWords_perm.length_eq, List.length_map, length_legalCommands]
  case alike =>
    intro c c' r r' s h h'
    rw [writeCmd_illegal h, writeCmd_illegal h', illegal_congr]

end Sys2Proof.Machine
end

section
/-!
PROOFS. The acceptance of a command (R84, R85) and which lines raise which faults (R210).
-/

namespace Sys2Proof.Machine

open Sys2Proof

/-! ### Dropped commands (R84) -/

theorem writeCmd_legal {w : CmdWord} {i : Instr} (h : decodeCommand w = .ok i) (s : State) : writeCmd w s = exec i s := by
  simp only [writeCmd, h]

/-- Settles O8: a presented word is an illegal one or a command's, and CLR's word is CLR's alone. -/
theorem droppedCommands : Obligations.DroppedCommands := by
  unfold Obligations.DroppedCommands
  refine ⟨?busy, ?failed, ?clr⟩
  case busy =>
    intro w s hb
    cases hd : decodeCommand w with
    | error r => exact (writeCmd_illegal hd s).trans (illegal_dropped (Or.inl hb))
    | ok i => exact (writeCmd_legal hd s).trans (exec_busy i (decodeCommand_facts hd).1 s hb)
  case failed =>
    intro w s hf hw
    cases hd : decodeCommand w with
    | error r => exact (writeCmd_illegal hd s).trans (illegal_dropped (Or.inr hf))
    | ok i =>
      obtain ⟨hi, -, hword⟩ := decodeCommand_facts hd
      have hclr : i ≠ .clr := fun h => hw (hword.symm.trans (congrArg commandWord h))
      exact (writeCmd_legal hd s).trans (exec_failed i hi hclr s hf)
  case clr => exact fun s hs => (writeCmd_legal (by decide) s).trans (exec_clr_of_not_busy hs)

/-! ### The faults of the lines (R210 to R221) -/

/-- The faults that a line's pseudocode names, CHANNEL being that of every transaction (R10). -/
def Task.faults : Task → List ErrCode
  | .rewind | .writeMagic | .writeNode | .writeSym _ | .emitBit _ _ | .decodeOut _ | .flush => [.channel]
  | .countByte => [.channel, .weightOverflow]
  | .merge => [.weightOverflow]
  | .readMagic => [.channel, .malformedHeader]
  | .readTag => [.channel, .truncatedStream, .treeOverflow]
  | .readSym _ => [.channel, .truncatedStream, .badSymbol]
  | .checkRoot _ => [.degenerateTree]
  | .encodeByte => [.channel, .noCode]
  | .emit _ => [.noCode]
  | .decodeBit => [.channel, .truncatedStream]
  | .countClear | .treeClear | .insertLeaves | .takeRoot | .codeClear | .walk _ | .codeDone | .writeTree
  | .decodeStart => []

/-- A next state that is answered has ERR as `s` has it, or one of the given faults. -/
def Raises (es : List ErrCode) (s : State) : Result → Prop
  | .next t => t.err = s.err ∨ t.err ∈ es
  | .fault _ | .refused _ => True

namespace Raises

variable {es : List ErrCode} {s u : State}

theorem next {t : State} {r : Result} (h : Raises es s r) (hr : r = .next t) : t.err = s.err ∨ t.err ∈ es := by
  subst hr; exact h

theorem of_next {r : Result} (h : ∀ t, r = .next t → t.err = s.err ∨ t.err ∈ es) : Raises es s r := by
  cases r with
  | next t => exact h t rfl
  | fault _ | refused _ => exact trivial

theorem goOn (ts : List Task) (hu : u.err = s.err := by rfl) : Raises es s (u.goOn ts) := Or.inl hu

theorem raise (e : ErrCode) (he : e ∈ es := by simp [Task.faults]) : Raises es s (u.raise e) := Or.inr he

/-! ### The transactions (R10) -/

variable (hes : .channel ∈ es)
include hes

theorem readIn {n : Nat} {k : Option (BitVec n) → State → Result}
    (hk : ∀ r c, Raises es s (k r { s with inp := some c })) : Raises es s (s.readIn n k) :=
  of_next fun t ht => by
    rcases State.readIn_cases ht with ⟨c, rfl⟩ | rfl | ⟨r, c, h⟩
    · exact Or.inr hes
    · exact Or.inl rfl
    · exact (hk r c).next h

theorem rewindIn {k : State → Result} (hk : ∀ c, Raises es s (k { s with inp := some c })) :
    Raises es s (s.rewindIn k) :=
  of_next fun t ht => by
    rcases State.rewindIn_cases ht with ⟨c, rfl⟩ | rfl | ⟨c, h⟩
    · exact Or.inr hes
    · exact Or.inl rfl
    · exact (hk c).next h

theorem writeOut {n : Nat} {v : BitVec n} {k : State → Result} (hk : ∀ c, Raises es s (k { s with out := some c })) :
    Raises es s (s.writeOut v k) :=
  of_next fun t ht => by
    rcases State.writeOut_cases ht with ⟨c, rfl⟩ | rfl | ⟨c, h⟩
    · exact Or.inr hes
    · exact Or.inl rfl
    · exact (hk c).next h

theorem flushOut {k : State → Result} (hk : ∀ c, Raises es s (k { s with out := some c })) :
    Raises es s (s.flushOut k) :=
  of_next fun t ht => by
    rcases State.flushOut_cases ht with ⟨c, rfl⟩ | rfl | ⟨c, h⟩
    · exact Or.inr hes
    · exact Or.inl rfl
    · exact (hk c).next h

omit hes

theorem withNode {i : Idx} {k : Node → Result} (hk : ∀ x, Raises es s (k x)) : Raises es s (u.withNode i k) :=
  of_next fun t ht => by
    obtain ⟨x, hx⟩ := withNode_cases ht
    exact (hk x).next hx

end Raises

/-- A line leaves ERR alone or raises one of the faults it names. -/
theorem runTask_raises (x : Task) (ts : List Task) (s : State) : Raises x.faults s (runTask x ts s) := by
  have channel : ∀ es, ErrCode.channel ∈ .channel :: es := fun _ => List.mem_cons_self
  cases x with simp only [runTask]
  | countClear | treeClear | codeClear | codeDone | writeTree | decodeStart => exact .goOn ts
  | countByte =>
    refine .readIn (channel _) fun r c => ?_
    cases r with
    | none => exact .goOn ts
    | some v =>
      refine .of_next fun t ht => ?_
      rcases countValue_cases ht with rfl | ⟨a, w, ht⟩
      · exact Or.inr (by simp)
      · cases ht; exact Or.inl rfl
  | rewind => exact .rewindIn (channel _) fun c => .goOn ts
  | insertLeaves =>
    obtain ⟨node, nnodes, pq, hframe⟩ := insertLeaves_frame s
    exact .goOn ts (by rw [hframe])
  | merge =>
    unfold merge
    split
    · exact .goOn ts
    split
    · exact trivial
    next a s1 h1 =>
    split
    · exact trivial
    next b s2 h2 =>
    obtain ⟨q1, rfl⟩ := removeMin_cases h1
    obtain ⟨q2, rfl⟩ := removeMin_cases h2
    refine .of_next fun t ht => ?_
    rcases mergePair_cases ht with rfl | ⟨x, ht⟩
    · exact Or.inr (by simp [Task.faults])
    · cases ht; exact Or.inl rfl
  | takeRoot =>
    unfold takeRoot
    split
    · exact trivial
    next r s1 h1 =>
      obtain ⟨q, rfl⟩ := removeMin_cases h1
      exact .goOn ts
  | walk i =>
    refine .withNode fun x => ?_
    split
    · split
      · unfold walkOn
        split
        · exact .goOn ts
        · exact .goOn _
        · exact trivial
      · exact trivial
    · split
      · exact .goOn _
      · exact trivial
  | writeMagic => exact .writeOut (channel _) fun c => .goOn ts
  | writeNode =>
    unfold writeNode
    split
    · exact .goOn ts
    · refine .withNode fun x => ?_
      unfold writeRecord
      split <;> exact .writeOut (channel _) fun c => .goOn _
    · exact trivial
  | writeSym sym =>
    unfold writeSym
    split
    · exact .writeOut (channel _) fun c => .goOn ts
    · exact trivial
  | readMagic =>
    refine .readIn (channel _) fun r c => ?_
    cases r with
    | none => exact .raise _
    | some m =>
      simp only [checkMagic]
      split
      · exact .goOn ts
      · exact .raise _
  | readTag =>
    refine .readIn (channel _) fun r c => ?_
    cases r with
    | none => exact .raise _
    | some b =>
      simp only [tagRead]
      split
      · split <;> exact .goOn _
      · exact .raise _
  | readSym i =>
    refine .readIn (channel _) fun r c => ?_
    cases r with
    | none => exact .raise _
    | some sym =>
      simp only [symRead]
      split
      · refine .of_next fun t ht => ?_
        obtain ⟨node, st, todo, rfl, -⟩ := closeNode_cases ht
        exact Or.inl rfl
      · exact .raise _
  | checkRoot i =>
    refine .withNode fun x => ?_
    split
    · exact .raise _
    · exact .goOn ts
  | encodeByte =>
    refine .readIn (channel _) fun r c => ?_
    cases r with
    | none => exact .goOn ts
    | some v =>
      simp only
      split
      · exact .raise _
      · exact .goOn _
  | emit sym =>
    unfold emit
    split
    · exact .goOn _
    · exact .raise _
  | emitBit sym j =>
    unfold emitBit
    split
    · exact .writeOut (channel _) fun c => .goOn _
    · exact .goOn ts
  | decodeBit =>
    refine .readIn (channel _) fun r c => ?_
    cases r with
    | none => exact .raise _
    | some b =>
      refine .withNode fun x => .withNode fun y => ?_
      split
      · split <;> exact .goOn _
      · exact .goOn _
  | decodeOut sym =>
    unfold decodeOut
    split
    · exact .writeOut (channel _) fun c => .goOn ts
    · exact trivial
  | flush => exact .flushOut (channel _) fun c => .goOn ts

/-! ### The checks at acceptance (R85) -/

/-- No line's pseudocode names SEQUENCE (R219). -/
theorem sequence_notMem_faults (x : Task) : ErrCode.sequence ∉ x.faults := by
  cases x <;> simp [Task.faults]

/-- A command that runs does not raise SEQUENCE. -/
theorem engineStep_raises_no_sequence {s t : State} (hstep : engineStep s = .next t) (hs : s.err ≠ .sequence) :
    t.err ≠ .sequence := by
  rcases engineStep_cases hstep with ⟨-, rfl⟩ | ⟨x, ts, -, hx⟩
  · exact hs
  · intro ht
    rcases (runTask_raises x ts s.tick).next hx with herr | hmem
    · exact hs (herr.symm.trans ht)
    · exact sequence_notMem_faults x (ht ▸ hmem)

/-- An accepted command raises SEQUENCE only where its precondition fails. -/
theorem precondition_of_sequence {w : CmdWord} {pre : State → Bool} {program : List Task} {s t : State}
    (hs : s.err ≠ .sequence) (ht : t.err = .sequence) (h : issue w pre program s = .next t) : pre s = false := by
  rcases issue_cases h with ⟨-, rfl⟩ | ⟨-, hpre, -⟩ | ⟨-, -, hdrive⟩
  · exact absurd ht hs
  · exact hpre
  · have hbegin : (s.begin w program).err ≠ .sequence := hs
    exact absurd ht (drive_invariant (fun _ _ _ hstep => engineStep_raises_no_sequence hstep) hdrive hbegin)

/-- The commands that can raise SEQUENCE, and where (R85, R219). -/
theorem exec_sequence_cases {i : Instr} {s t : State} (hp : s.phase = .idle ∨ s.phase = .done)
    (h : exec i s = .next t) (hs : s.err ≠ .sequence) (ht : t.err = .sequence) :
    ((i = .wrhdr ∨ i = .derive ∨ i = .decode) ∧ s.tv = false) ∨
    ((i = .encode ∨ ∃ sym, i = .emit sym) ∧ s.cv = false) := by
  have hbusy : s.phase ≠ .busy := by rcases hp with hp | hp <;> simp [hp]
  cases i with
  | clr =>
    cases (exec_clr_of_not_busy hbusy).symm.trans h
    cases ht
  | count | build | wrmagic | rdmagic | rdhdr | flush | compress | decompress =>
    cases precondition_of_sequence hs ht h
  | wrhdr => exact Or.inl ⟨Or.inl rfl, precondition_of_sequence hs ht h⟩
  | derive => exact Or.inl ⟨Or.inr (Or.inl rfl), precondition_of_sequence hs ht h⟩
  | decode => exact Or.inl ⟨Or.inr (Or.inr rfl), precondition_of_sequence hs ht h⟩
  | encode => exact Or.inr ⟨Or.inl rfl, precondition_of_sequence hs ht h⟩
  | emit sym =>
    simp only [exec, execEmit] at h
    split at h
    · exact Or.inr ⟨Or.inr ⟨sym, rfl⟩, precondition_of_sequence hs ht h⟩
    · cases (illegal_accepted hp).symm.trans h
      cases ht
  | streamMagic _ | hdrInternal | hdrLeaf _ =>
    cases (exec_record_of_not_busy rfl hbusy).symm.trans h
    exact absurd ht hs

/-- Settles O9: the checks of `issue` and `illegal`, and no line raises SEQUENCE after them. -/
theorem checksAtAcceptance : Obligations.ChecksAtAcceptance := by
  unfold Obligations.ChecksAtAcceptance
  refine ⟨?illegalWord, ?tree, ?codes, fun i s t hp h hs ht => exec_sequence_cases hp h hs ht⟩
  case illegalWord => exact fun w r s hp hd => (writeCmd_illegal hd s).trans (illegal_accepted hp)
  case tree => exact fun s hp htv => ⟨issue_sequence hp htv, issue_sequence hp htv, issue_sequence hp htv⟩
  case codes =>
    intro s sym hp hcv hsym
    have hemit : exec (.emit sym) s = issue (commandWord (.emit sym)) State.hasCodes (emitProgram sym) s :=
      if_pos (decide_eq_true hsym)
    exact ⟨hemit.trans (issue_sequence hp hcv), issue_sequence hp hcv⟩

end Sys2Proof.Machine
end

section
/-!
PROOFS. The stream records as instructions (R90 to R93, R98, R145, R147 to R149; log entry 12).
-/

namespace Sys2Proof.Machine

open Sys2Proof Sys2Proof.Safety

/-! ### The step that takes a record (R98) -/

/-- A BUSY engine that no host action disturbs takes the record that is fetched. -/
theorem step_of_fetchRecord {s : State} {i : Instr} (hb : s.phase = .busy) (hq : s.quiet = true)
    (h : fetchRecord s = some i) : step s = exec i s := by
  simp only [step, turn, State.eventDue_of_busy hq hb, Bool.false_eq_true, if_false, engineTurn, hb, if_true, h]

/-- Settles O6, by what is fetched. -/
theorem stepRunsNextRecord : Obligations.StepRunsNextRecord := by
  unfold Obligations.StepRunsNextRecord
  intro s c ts i rest hb hq hi hs
  constructor
  all_goals
    intro htodo hd
    refine step_of_fetchRecord hb hq ?_
    simp only [fetchRecord, hb, htodo, hi, hs, hq, and_self, if_true, hd, Except.toOption, Option.map_some]

/-! ### A record at an engine that is not about to read it (R72, R232) -/

/-- An engine that is not BUSY or whose next line is not `x`. -/
def State.notAt (s : State) (x : Task) : Prop := s.phase ≠ .busy ∨ ∀ ts, s.todo ≠ x :: ts

theorem exec_streamMagic_notAt {s : State} (m : Word) (h : s.notAt .readMagic) : exec (.streamMagic m) s = .next s := by
  simp only [exec, execStreamMagic]
  split
  next ts hb ht => exact h.elim (absurd hb) fun h => absurd ht (h ts)
  next => rfl

theorem exec_hdrInternal_notAt {s : State} (h : s.notAt .readTag) : exec .hdrInternal s = .next s := by
  simp only [exec, execHdrInternal]
  split
  next ts hb ht => exact h.elim (absurd hb) fun h => absurd ht (h ts)
  next => rfl

theorem exec_hdrLeaf_notAt {s : State} (sym : Sym) (h : s.notAt .readTag) : exec (.hdrLeaf sym) s = .next s := by
  simp only [exec, execHdrLeaf]
  split
  next ts hb ht => exact h.elim (absurd hb) fun h => absurd ht (h ts)
  next => rfl

/-! ### The magic record (R91, R145) -/

/-- A magic record is read and its value checked. -/
theorem exec_streamMagic_reading {s : State} {c : InChan} {m : Word} {rest : Bits} {ts : List Task}
    (h : s.atLines (.readMagic :: ts)) (hi : inHas s c (bitsOf m ++ rest)) :
    exec (.streamMagic m) s = checkMagic m ts { s with inp := some (advance c 32) } := by
  obtain ⟨hq, hb, htodo⟩ := h
  rw [streamMagic_engineStep hb hq htodo hi, engineStep_cons hq htodo]
  simp only [runTask, readMagic, State.readIn_value hi (length_bitsOf m), valOf_bitsOf]

/-- Settles O53, by the check of the value. -/
theorem magicRecord : Obligations.MagicRecord := by
  unfold Obligations.MagicRecord
  refine ⟨fun s c m rest ts hb hq htodo hi => ?_, fun s m h => exec_streamMagic_notAt m h⟩
  rw [exec_streamMagic_reading ⟨hq, hb, htodo⟩ hi, checkMagic]
  exact ⟨fun h => if_pos h, fun h => if_neg h⟩

/-! ### The header records (R92, R147 to R149) -/

/-- An internal record is read and its tag acted on. -/
theorem exec_hdrInternal_reading {s : State} {c : InChan} {rest : Bits} {ts : List Task}
    (h : s.atLines (.readTag :: ts)) (hi : inHas s c (false :: rest)) :
    exec .hdrInternal s = tagRead false ts { s with inp := some (advance c 1) } := by
  obtain ⟨hq, hb, htodo⟩ := h
  rw [hdrInternal_engineStep hb hq htodo hi, engineStep_cons hq htodo]
  simp only [runTask, readTag]
  rw [State.readIn_value (n := 1) (p := [false]) hi rfl]
  rfl

/-- The engine after a leaf's tag, its symbol next (R147). -/
def State.leafTagged (s : State) (c : InChan) (ts : List Task) : State :=
  { s with inp := some (advance c 1), nnodes := s.nnodes + 1#10, todo := .readSym s.nnodes :: ts }

section LeafRecord

variable {s : State} {c : InChan} {sym : Sym} {rest : Bits} {ts : List Task}

/-- A leaf record whose tag finds the arena full fails there, its symbol unread (R149). -/
theorem exec_hdrLeaf_full (h : s.atLines (.readTag :: ts)) (hi : inHas s c (true :: (bitsOf sym ++ rest)))
    (hn : ¬ s.nnodes.toNat < nodeCap) :
    exec (.hdrLeaf sym) s = .next (State.fail { s with inp := some (advance c 1) } .treeOverflow) := by
  obtain ⟨hq, hb, htodo⟩ := h
  obtain ⟨hlt, -⟩ | ⟨-, hexec⟩ := hdrLeaf_engineStep hb hq htodo hi
  · exact absurd hlt hn
  · rw [hexec, ← recordTag_engineStep hq htodo hi, recordTag_true hq hi, if_neg hn]

/-- A leaf record is read and its symbol acted on, at the index its tag took. -/
theorem exec_hdrLeaf_reading (h : s.atLines (.readTag :: ts)) (hi : inHas s c (true :: (bitsOf sym ++ rest)))
    (hn : s.nnodes.toNat < nodeCap) :
    exec (.hdrLeaf sym) s = symRead s.nnodes sym ts { s.leafTagged c ts with inp := some (advance c 10) } := by
  obtain ⟨hq, hb, htodo⟩ := h
  have htag : engineStep s = .next (s.leafTagged c ts) := by
    rw [← recordTag_engineStep hq htodo hi, recordTag_true hq hi, if_pos hn]
    rfl
  have hsym : inHas (s.leafTagged c ts) (advance c 1) (bitsOf sym ++ rest) := inHas_advance (p := [true]) hi _ rfl
  obtain ⟨-, m, hm, -, hqm, hexec⟩ | ⟨hfull, -⟩ := hdrLeaf_engineStep hb hq htodo hi
  · obtain rfl := Host.Outcome.next.inj (htag.symm.trans hm)
    rw [hexec, engineStep_cons hqm (rfl : (s.leafTagged c ts).todo = .readSym s.nnodes :: ts)]
    simp only [runTask, readSym, State.readIn_value hsym (length_bitsOf sym), valOf_bitsOf, advance_advance]
  · exact absurd hn hfull

end LeafRecord

/-- What is still to do does not matter to the nodes that are closed. -/
theorem closeHalves_todo (fs : List (Idx × Idx)) (i : Idx) (s : State) (todo : List Task) :
    closeHalves fs i { s with todo := todo } =
      ((closeHalves fs i s).1, { (closeHalves fs i s).2 with todo := todo }) := by
  induction fs generalizing i s with
  | nil => rfl
  | cons f fs ih => exact ih f.1 (s.setNode f.1 (Node.mkInternal 0#32 f.2 i))

/-- The return of rd() through half-read nodes to the whole tree (R147). -/
theorem closeNode_halves_root (fs : List (Idx × Idx)) (i : Idx) (us ts : List Task) (s : State) :
    closeNode ((fs.map fun f => .half f.1 f.2) ++ []) i ts { s with todo := us } =
      .next { (closeHalves fs i s).2 with stack := [], todo := .checkRoot (closeHalves fs i s).1 :: ts } := by
  rw [closeNode_halves, closeHalves_todo]
  rfl

/-- The return of rd() through half-read nodes to a node whose right subtree is still to be read (R147). -/
theorem closeNode_halves_opened (fs : List (Idx × Idx)) (q : Idx) (st : List Frame) (i : Idx) (us ts : List Task)
    (s : State) :
    closeNode ((fs.map fun f => .half f.1 f.2) ++ .opened q :: st) i ts { s with todo := us } =
      .next { (closeHalves fs i s).2 with stack := .half q (closeHalves fs i s).1 :: st, todo := .readTag :: ts } := by
  rw [closeNode_halves, closeHalves_todo]
  rfl

/-- Settles O54: a record is its tag and its symbol, acted on as RDHDR's lines do; the closing of half-read nodes is
`closeNode_halves`. -/
theorem headerRecords : Obligations.HeaderRecords := by
  unfold Obligations.HeaderRecords
  refine ⟨?internal, ?leaf, fun s sym h => ⟨exec_hdrInternal_notAt h, exec_hdrLeaf_notAt sym h⟩⟩
  case internal =>
    intro s c rest ts hb hq htodo hi
    rw [exec_hdrInternal_reading ⟨hq, hb, htodo⟩ hi, tagRead]
    exact ⟨fun hn => by rw [if_pos hn, ← htodo]; rfl, fun hn => if_neg (Nat.not_lt.2 hn)⟩
  case leaf =>
    intro s c sym rest ts hb hq htodo hi
    have hat : s.atLines (.readTag :: ts) := ⟨hq, hb, htodo⟩
    refine ⟨fun hn => exec_hdrLeaf_full hat hi (Nat.not_lt.2 hn), fun hn hsym => ?bad, fun hn hsym => ?good⟩
    case bad =>
      have hsym : ¬ sym.isSymbol = true := by simpa [Sym.isSymbol] using hsym
      rw [exec_hdrLeaf_reading hat hi hn, symRead, if_neg hsym]
      rfl
    case good =>
      have hsym : sym.isSymbol = true := decide_eq_true hsym
      intro s' fs st hstack x
      have hexec : exec (.hdrLeaf sym) s = closeNode ((fs.map fun f => .half f.1 f.2) ++ st) s.nnodes ts
          { s' with todo := .readSym s.nnodes :: ts } := by
        rw [exec_hdrLeaf_reading hat hi hn, symRead, if_pos hsym, ← hstack]
        rfl
      rw [hexec]
      constructor
      · rintro rfl
        exact closeNode_halves_root fs s.nnodes _ ts s'
      · rintro q st' rfl
        exact closeNode_halves_opened fs q st' s.nnodes _ ts s'

end Sys2Proof.Machine
end

section
/-!
PROOFS. COUNT: the counting loop as a run of engine steps, and its ends (R113 to R115, R117, R217).
-/

namespace Sys2Proof.Machine

open Sys2Proof Sys2Proof.Safety

/-! ### The whole bytes of a stream (R62, R67) -/

/-- A stream is its whole bytes and fewer than 8 bits left over. -/
theorem exists_eq_bitsOfBytes_append (bits : Bits) :
    ∃ tail : Bits, bits = bitsOfBytes (bytesOf bits) ++ tail ∧ tail.length < 8 := by
  by_cases hlen : bits.length < 8
  · exact ⟨bits, by rw [bytesOf_short bits hlen]; rfl, hlen⟩
  · obtain ⟨tail, htail, hlt⟩ := exists_eq_bitsOfBytes_append (bits.drop 8)
    have htake : (bits.take 8).length = 8 := List.length_take_of_le (Nat.not_lt.1 hlen)
    have hbytes : bytesOf bits = valOf 8 (bits.take 8) :: bytesOf (bits.drop 8) := by
      rw [← bytesOf_append _ _ htake, List.take_append_drop]
    refine ⟨tail, ?_, hlt⟩
    calc bits = bits.take 8 ++ bits.drop 8 := (List.take_append_drop 8 bits).symm
      _ = bitsOf (valOf 8 (bits.take 8)) ++ (bitsOfBytes (bytesOf (bits.drop 8)) ++ tail) := by
        rw [bitsOf_valOf 8 _ htake, ← htail]
      _ = bitsOfBytes (bytesOf bits) ++ tail := by rw [hbytes, ← List.append_assoc]; rfl
termination_by bits.length
decreasing_by rw [List.length_drop]; omega

theorem length_bytesOf_le (bits : Bits) : (bytesOf bits).length ≤ bits.length := by
  obtain ⟨tail, htail, -⟩ := exists_eq_bitsOfBytes_append bits
  have hlen := congrArg List.length htail
  rw [List.length_append, length_bitsOfBytes] at hlen
  omega

/-- No byte value occurs 2^32 times in fewer than 2^32 bits. -/
theorem count_bytesOf_le {bits : Bits} (h : bits.length < 2 ^ 32) (v : Byte) : (bytesOf bits).count v ≤ maxWeight :=
  calc (bytesOf bits).count v ≤ (bytesOf bits).length := List.count_le_length
    _ ≤ bits.length := length_bytesOf_le bits
    _ ≤ maxWeight := Nat.le_pred_of_lt h

/-! ### FREQ as a count (R113, R114) -/

theorem getElem_countTable (bs : List Byte) {i : Nat} (hi : i < 256) :
    (countTable bs)[i] = BitVec.ofNat 32 (bs.count (BitVec.ofNat 8 i)) := Vector.getElem_ofFn hi

/-- No byte counted: FREQ as the first line of COUNT leaves it. -/
theorem countTable_nil : countTable [] = Vector.replicate 256 0#32 := by
  ext1 i hi
  rw [getElem_countTable [] hi, Vector.getElem_replicate]
  rfl

/-- A symbol below 256 has the number of the byte value that it stands for. -/
theorem toNat_symOfByte (v : Byte) : (v.setWidth 9 : Sym).toNat = v.toNat := by
  have := v.isLt
  simp only [BitVec.toNat_setWidth]
  omega

theorem State.freqOf_byte (s : State) (v : Byte) : s.freqOf (v.setWidth 9) = s.freq[v.toNat] := by
  rw [State.freqOf, toNat_symOfByte, Vector.getElem?_eq_getElem v.isLt, Option.getD_some]

theorem getElem_countTable_byte (bs : List Byte) (v : Byte) :
    (countTable bs)[v.toNat] = BitVec.ofNat 32 (bs.count v) := by
  rw [getElem_countTable bs v.isLt, BitVec.ofNat_toNat, BitVec.setWidth_eq]

/-- Counting one byte more raises its own entry and no other. -/
theorem countTable_append_singleton (bs : List Byte) (v : Byte) :
    countTable (bs ++ [v]) = (countTable bs).setIfInBounds v.toNat ((countTable bs)[v.toNat] + 1#32) := by
  ext1 i hi
  have hbyte : v.toNat = i ↔ v = BitVec.ofNat 8 i := by
    rw [← BitVec.toNat_inj, BitVec.toNat_ofNat, Nat.mod_eq_of_lt hi]
  rw [Vector.getElem_setIfInBounds hi, getElem_countTable _ hi, getElem_countTable _ hi, getElem_countTable_byte,
    List.count_append]
  by_cases hv : v = BitVec.ofNat 8 i
  · rw [if_pos (hbyte.2 hv), ← hv, List.count_singleton_self, BitVec.ofNat_add]
  · rw [if_neg (hv ∘ hbyte.1), List.count_singleton, if_neg (by simpa using hv), Nat.add_zero]

/-! ### Lines of COUNT -/

/-- COUNT with the given channel, the counts so far, and the lines to come. -/
def State.counting (s : State) (c : InChan) (f : Vector Weight 256) (ts : List Task) : State :=
  { s with inp := some c, freq := f, todo := ts }

section Lines

variable {s : State} {c : InChan} {f : Vector Weight 256} {us : List Task}

theorem State.atLines.counting (h : s.atLines us) (ts : List Task) : (s.counting c f ts).atLines ts := h.of_frame rfl

theorem inHas_counting {bits : Bits} (h : inHas s c bits) : inHas (s.counting c f us) c bits := by
  obtain ⟨-, hrest⟩ := h
  exact ⟨rfl, hrest⟩

/-- The first line clears FREQ: no byte is counted (R113). -/
theorem countClear_eq (ts : List Task) (hi : s.inp = some c) :
    runTask .countClear ts s = .next (s.counting c (countTable []) ts) := by
  rw [countTable_nil, State.counting, ← hi]
  rfl

/-- One turn of the loop with a byte in IN is the counting of the byte (R113). -/
theorem countByte_value {v : Byte} {rest : Bits} (ts : List Task) (h : inHas s c (bitsOf v ++ rest)) :
    runTask .countByte ts s =
      countValue v { s with inp := some (advance c 8) } fun s' => s'.goOn (.countByte :: ts) := by
  simp only [runTask, countByte, State.readIn_value h (length_bitsOf v), valOf_bitsOf]

/-- A count below its maximum is raised by one (R114). -/
theorem countByte_counts {v : Byte} {rest : Bits} (ts : List Task)
    (h : inHas (s.counting c f us) c (bitsOf v ++ rest)) (hv : f[v.toNat].toNat < maxWeight) :
    runTask .countByte ts (s.counting c f us) =
      .next (s.counting (advance c 8) (f.setIfInBounds v.toNat (f[v.toNat] + 1#32)) (.countByte :: ts)) := by
  rw [countByte_value ts h, countValue, State.freqOf_byte]
  exact (if_pos hv).trans (by rw [State.setFreq, toNat_symOfByte]; rfl)

/-- A count at its maximum fails, its byte consumed and FREQ as it was (R114, R217). -/
theorem countByte_overflows {v : Byte} {rest : Bits} (ts : List Task) (h : inHas s c (bitsOf v ++ rest))
    (hv : s.freqOf (v.setWidth 9) = 0xFFFFFFFF#32) :
    runTask .countByte ts s = .next (State.fail { s with inp := some (advance c 8) } .weightOverflow) := by
  have hfreq : State.freqOf { s with inp := some (advance c 8) } (v.setWidth 9) = 0xFFFFFFFF#32 := hv
  rw [countByte_value ts h, countValue, hfreq, if_neg (by decide)]
  rfl

/-- Where IN has no whole byte left the loop ends (R113). -/
theorem countByte_eod {bits : Bits} (ts : List Task) (h : inHas (s.counting c f us) c bits) (hb : bits.length < 8) :
    runTask .countByte ts (s.counting c f us) = .next (s.counting { c with pos := c.data.length } f ts) := by
  rw [runTask, countByte, State.readIn_eod h hb]
  rfl

/-- The one rewind of the reference channel (R64, R115). -/
theorem rewind_first (ts : List Task) (hi : s.inp = some c) (hc : c.script = []) (hr : c.rewound = false) :
    runTask .rewind ts s = .next { s with inp := some c.restart, todo := ts } := by
  have hack : c.rewind = (.ok, c.restart) := by
    rw [InChan.rewind_plain hc, InChan.plainRewind, if_neg (by rw [hr]; decide)]
  simp only [runTask, rewind, State.rewindIn, hi, hack, State.goOn]

/-- A second rewind of the reference channel fails and leaves IN as it was (R64, R115, R247). -/
theorem rewind_used (ts : List Task) (hi : s.inp = some c) (hc : c.script = []) (hr : c.rewound = true) :
    runTask .rewind ts s = .next (s.fail .channel) := by
  have hack : c.rewind = (.err, c) := by rw [InChan.rewind_plain hc, InChan.plainRewind, if_pos hr]
  simp only [runTask, rewind, State.rewindIn_err hi hack, ← hi]

end Lines

/-! ### The counting loop -/

section Loop

variable {s : State} {c : InChan} {w : CmdWord} {pre : State → Bool} {bits : Bits}

/-- Whole bytes of IN are counted, a step each, as long as the counts fit in 32 bits. -/
theorem runs_countBytes {us : List Task} {rest : Bits} (vs bs : List Byte) (ts : List Task) (hs : s.atLines us)
    (h : inHas (s.counting c (countTable bs) (.countByte :: ts)) c (bitsOfBytes vs ++ rest))
    (hmax : ∀ v, (bs ++ vs).count v ≤ maxWeight) :
    Runs vs.length (s.counting c (countTable bs) (.countByte :: ts))
      (s.counting (advance c (8 * vs.length)) (countTable (bs ++ vs)) (.countByte :: ts)) := by
  induction vs generalizing c bs with
  | nil => rw [List.append_nil]; exact runs_zero _
  | cons v vs ih =>
    have hv : (countTable bs)[v.toNat].toNat < maxWeight := by
      have hcount := hmax v
      rw [List.count_append, List.count_cons_self] at hcount
      rw [getElem_countTable_byte]
      exact (Nat.mod_le _ _).trans_lt (by omega)
    have hsplit : bitsOfBytes (v :: vs) ++ rest = bitsOf v ++ (bitsOfBytes vs ++ rest) := List.append_assoc _ _ _
    rw [hsplit] at h
    have hstep := (hs.counting _).runs (countByte_counts ts h hv)
    rw [← countTable_append_singleton] at hstep
    have hnext := inHas_advance h
      (s.counting (advance c (bitsOf v).length) (countTable (bs ++ [v])) (.countByte :: ts)) rfl
    rw [length_bitsOf] at hnext
    rw [List.append_cons] at hmax ⊢
    have hruns := runs_trans hstep (ih (bs ++ [v]) hnext hmax)
    have hlen : 8 * (vs.length + 1) = 8 + 8 * vs.length := by omega
    rwa [advance_advance, ← hlen, Nat.add_comm] at hruns

/-- The lines of COUNT and COMPRESS up to the rewind: FREQ counts the whole bytes that IN had (R113, R117, R196). -/
theorem runs_countLoop (ts : List Task) (hs : ready s) (h : inHas s c bits)
    (hmax : ∀ v, (bytesOf bits).count v ≤ maxWeight) :
    Runs ((bytesOf bits).length + 2) (s.begin w (.countClear :: .countByte :: ts))
      ((s.begin w (.countClear :: .countByte :: ts)).counting { c with pos := c.data.length }
        (countTable (bytesOf bits)) ts) := by
  obtain ⟨tail, hbits, htail⟩ := exists_eq_bitsOfBytes_append bits
  have hbegin := atLines_begin hs w (.countClear :: .countByte :: ts)
  have hin : inHas (s.begin w (.countClear :: .countByte :: ts)) c bits := h
  generalize s.begin w (.countClear :: .countByte :: ts) = u at hbegin hin ⊢
  obtain ⟨hi, -⟩ := id hin
  rw [hbits] at hin
  have hclear := hbegin.runs (countClear_eq _ hi)
  have hcount := runs_countBytes (bytesOf bits) [] ts hbegin (inHas_counting hin) hmax
  have hleft := inHas_advance hin (u.counting (advance c (bitsOfBytes (bytesOf bits)).length)
    (countTable (bytesOf bits)) (.countByte :: ts)) rfl
  rw [length_bitsOfBytes] at hleft
  have hend := (hbegin.counting _).runs (countByte_eod ts hleft htail)
  have hruns := runs_trans hclear (runs_trans hcount hend)
  rwa [Nat.add_comm 1] at hruns

/-- The counting loop and what follows it are within the budget (R252). -/
theorem countLoop_steps_le (h : inHas s c bits) : (bytesOf bits).length + 4 ≤ 4096 + 128 * s.inBits := by
  have := length_bytesOf_le bits
  have := length_le_inBits h
  omega

/-- COUNT and COMPRESS on a stream whose rewind is used up: the fault comes after the counting (R115, R197). -/
theorem issue_countLoop_rewound {ts : List Task} (hs : ready s) (hpre : pre s = true) (h : inHas s c bits)
    (hr : c.rewound = true) (hmax : ∀ v, (bytesOf bits).count v ≤ maxWeight) :
    issue w pre (.countClear :: .countByte :: .rewind :: ts) s =
      .next (State.fail { s with inp := some { c with pos := c.data.length }, freq := countTable (bytesOf bits) }
        .channel) := by
  have hbegin := atLines_begin hs w (.countClear :: .countByte :: .rewind :: ts)
  have hcount := runs_countLoop (w := w) (.rewind :: ts) hs h hmax
  have hk := countLoop_steps_le h
  obtain ⟨-, hc, -⟩ := h
  generalize countTable (bytesOf bits) = f at hcount ⊢
  exact issue_fails hs hpre hcount (hbegin.counting _) (rewind_used ts rfl hc hr)

end Loop

/-! ### COUNT -/

/-- Settles O25: the counting loop, the rewind and the end of the pseudocode. -/
theorem countCounts : Obligations.CountCounts := by
  unfold Obligations.CountCounts
  intro s c bits hs h hr hlen
  have hbegin := atLines_begin hs (commandWord .count) countProgram
  have hcount := runs_countLoop (w := commandWord .count) [.rewind] hs h (count_bytesOf_le hlen)
  have hk := countLoop_steps_le h
  obtain ⟨-, hc, -⟩ := h
  generalize countTable (bytesOf bits) = f at hcount ⊢
  have hrewind := (hbegin.counting (c := { c with pos := c.data.length }) (f := f) _).runs (rewind_first [] rfl hc hr)
  have hend := runs_trans hcount (runs_trans hrewind (runs_complete hs.2 rfl rfl))
  exact issue_of_runs hs.1 rfl hend (le_budget hk) (complete_not_running _)

/-- Settles O26: the used-up rewind after the counting loop, and the line that counts a byte. -/
theorem countFaults : Obligations.CountFaults := by
  unfold Obligations.CountFaults
  refine ⟨fun s c bits hs h hr hlen => issue_countLoop_rewound hs rfl h hr (count_bytesOf_le hlen), ?overflow⟩
  case overflow =>
    intro s c v rest ts _ hq htodo h hv
    exact (engineStep_cons hq htodo).trans (countByte_overflows ts h hv)

end Sys2Proof.Machine
end

section
/-!
PROOFS. PQ's order and one merge (R33, R129, R130, R132).
-/

namespace Sys2Proof.Machine

open Sys2Proof Sys2Proof.Safety

/-! ### The least entry of PQ (R33, R132) -/

/-- What PQ is ordered by: (weight, index), lexicographically. -/
def State.pqKey (s : State) (i : Idx) : Nat ×ₗ Nat := toLex ((s.weightOf i).toNat, i.toNat)

theorem State.precedes_iff (s : State) (a b : Idx) : s.precedes a b = true ↔ s.pqKey a < s.pqKey b := by
  simp [State.precedes, State.pqKey, Prod.Lex.toLex_lt_toLex]

theorem State.pqKey_injective (s : State) : Function.Injective s.pqKey := by
  intro a b h
  exact BitVec.eq_of_toNat_eq (Prod.ext_iff.1 h).2

/-- The fold keeps the smaller key at every entry. -/
theorem pqKey_leastOf_le (s : State) (a : Idx) (q : List Idx) : ∀ i ∈ a :: q, s.pqKey (s.leastOf a q) ≤ s.pqKey i := by
  induction q generalizing a with
  | nil => simp [State.leastOf]
  | cons b q ih =>
    have hfold : s.leastOf a (b :: q) = s.leastOf (if s.precedes b a then b else a) q := rfl
    have hle := ih (if s.precedes b a then b else a)
    rw [← hfold] at hle
    have hhead := hle _ List.mem_cons_self
    have hab : s.pqKey (s.leastOf a (b :: q)) ≤ s.pqKey a ∧ s.pqKey (s.leastOf a (b :: q)) ≤ s.pqKey b := by
      by_cases hb : s.precedes b a = true
      · rw [if_pos hb] at hhead
        exact ⟨hhead.trans ((s.precedes_iff b a).1 hb).le, hhead⟩
      · rw [if_neg hb] at hhead
        exact ⟨hhead, hhead.trans (not_lt.1 fun h => hb ((s.precedes_iff b a).2 h))⟩
    intro i hi
    rcases List.mem_cons.1 hi with rfl | hi
    · exact hab.1
    · rcases List.mem_cons.1 hi with rfl | hi
      · exact hab.2
      · exact hle i (List.mem_cons_of_mem _ hi)

theorem exists_removeMin {s : State} (h : s.pq ≠ []) : ∃ m, s.removeMin = some (m, { s with pq := s.pq.erase m }) := by
  cases hpq : s.pq with
  | nil => exact absurd hpq h
  | cons a q => exact ⟨s.leastOf a q, by simp only [State.removeMin, hpq]⟩

theorem removeMin_pqKey_le {s t : State} {m : Idx} (h : s.removeMin = some (m, t)) :
    ∀ i ∈ s.pq, s.pqKey m ≤ s.pqKey i := by
  unfold State.removeMin at h
  split at h
  next => cases h
  next a q hpq =>
    cases h
    exact hpq ▸ pqKey_leastOf_le s a q

/-- Settles O30: the fold's result has the least key, and keys tell entries apart. -/
theorem removeMinLeast : Obligations.RemoveMinLeast := by
  unfold Obligations.RemoveMinLeast
  refine ⟨fun s h => (exists_removeMin h).imp fun m hm => ⟨_, hm⟩, fun s t m h => ?_⟩
  obtain ⟨hmem, ht⟩ := removeMin_erase h
  refine ⟨hmem, ht, fun i hi hne => ?_⟩
  have hlt : s.pqKey m < s.pqKey i :=
    lt_of_le_of_ne (removeMin_pqKey_le h i hi) fun e => hne (s.pqKey_injective e).symm
  simpa [State.pqKey, Prod.Lex.toLex_lt_toLex] using hlt

/-! ### One merge (R129, R130) -/

/-- The two nodes made one: a new node over them takes their place in PQ. -/
def State.mergeOf (s : State) (a b : Idx) : State :=
  State.queueNode { s with pq := (s.pq.erase a).erase b } (Node.mkInternal (s.weightOf a + s.weightOf b) a b)

/-- One turn of the merge loop, the two least entries of PQ being known. -/
theorem merge_of_removeMin {s s1 s2 : State} {a b : Idx} (ts : List Task) (hlen : 1 < s.pq.length)
    (h1 : s.removeMin = some (a, s1)) (h2 : s1.removeMin = some (b, s2)) :
    merge ts s = if (s.weightOf a).toNat + (s.weightOf b).toNat ≤ maxWeight
      then .next { s.mergeOf a b with todo := .merge :: ts } else .next (s.fail .weightOverflow) := by
  simp only [merge, if_neg (not_le.2 hlen), h1, h2]
  obtain ⟨-, rfl⟩ := removeMin_erase h1
  obtain ⟨-, rfl⟩ := removeMin_erase h2
  rw [State.mergeOf, BitVec.add_def]
  rfl

/-- Settles O31: the turn's two outcomes, read off `merge_of_removeMin`. -/
theorem mergeStep : Obligations.MergeStep := by
  unfold Obligations.MergeStep
  intro s s1 s2 a b ts _ hq htodo hlen h1 h2
  have hstep : engineStep s = merge ts s := engineStep_cons hq htodo
  rw [hstep, merge_of_removeMin ts hlen h1 h2]
  obtain ⟨-, rfl⟩ := removeMin_erase h1
  obtain ⟨-, rfl⟩ := removeMin_erase h2
  refine ⟨fun hfits => ?_, fun hover => if_neg (not_le.2 hover)⟩
  rw [if_pos hfits, ← htodo, ← BitVec.add_def]
  rfl

end Sys2Proof.Machine
end

section
/-!
PROOFS. The trees of BUILD with their leaves and weights (R127 to R131, R37).
-/

namespace Sys2Proof.Machine

open Sys2Proof Sys2Proof.Safety

/-! ### Trees in the filled part of the arena -/

/-- A tree whose weights are exact sums stands at an index, all its nodes below NNODES. -/
def Stands (s : State) (i : Idx) (t : Tree) : Prop :=
  t.weightsSum ∧ ∃ ixs, holds s t i ixs ∧ ∀ j ∈ ixs, j.toNat < s.nnodes.toNat

theorem Stands.of_frame {s u : State} {i : Idx} {t : Tree} (h : Stands s i t) (hnode : u.node = s.node := by rfl)
    (hn : u.nnodes = s.nnodes := by rfl) : Stands u i t := by
  obtain ⟨hw, ixs, hholds, hlt⟩ := h
  exact ⟨hw, ixs, holds_of_agree hholds (agree_of_node_eq hnode ixs), hn ▸ hlt⟩

/-- A node that is queued leaves the trees below it alone. -/
theorem Stands.queueNode {s : State} {i : Idx} {t : Tree} (h : Stands s i t) (hlt : s.nnodes.toNat < 513) (x : Node) :
    Stands (s.queueNode x) i t := by
  obtain ⟨hw, ixs, hholds, hbelow⟩ := h
  have hnew : s.nnodes ∉ ixs := fun hmem => lt_irrefl _ (hbelow _ hmem)
  have hn : (s.queueNode x).nnodes.toNat = s.nnodes.toNat + 1 := toNat_nnodes_succ hlt
  refine ⟨hw, ixs, holds_of_agree hholds (agree_setNode x hnew), fun j hj => ?_⟩
  have := hbelow j hj
  omega

theorem Stands.weightOf {s : State} {i : Idx} {t : Tree} (h : Stands s i t) : s.weightOf i = t.weight := by
  obtain ⟨-, ixs, hholds, -⟩ := h
  cases t with
  | leaf sym w => simp [State.weightOf, hholds.1, Node.mkLeaf, Tree.weight]
  | node w l r =>
    obtain ⟨a, b, la, lb, hnode, -⟩ := hholds
    simp [State.weightOf, hnode, Node.mkInternal, Tree.weight]

theorem stands_leaf {s : State} (sym : Sym) (w : Weight) (hlt : s.nnodes.toNat < 513) :
    Stands (s.queueNode (Node.mkLeaf sym w)) s.nnodes (.leaf sym w) := by
  have hn : (s.queueNode (Node.mkLeaf sym w)).nnodes.toNat = s.nnodes.toNat + 1 := toNat_nnodes_succ hlt
  refine ⟨trivial, [s.nnodes], ⟨nodeAt_queueNode s _ hlt, rfl⟩, fun j hj => ?_⟩
  rw [List.mem_singleton.1 hj, hn]
  omega

theorem toNat_add_of_le {x y : Weight} (h : x.toNat + y.toNat ≤ maxWeight) : (x + y).toNat = x.toNat + y.toNat :=
  BitVec.toNat_add_of_lt (Nat.lt_succ_of_le h)

/-- A queued node over two trees makes them one, if their weights' sum fits (R129, R130). -/
theorem stands_node {s : State} {a b : Idx} {x y : Tree} (hx : Stands s a x) (hy : Stands s b y)
    (hlt : s.nnodes.toNat < 513) (hfits : x.weight.toNat + y.weight.toNat ≤ maxWeight) :
    Stands (s.queueNode (Node.mkInternal (x.weight + y.weight) a b)) s.nnodes (.node (x.weight + y.weight) x y) := by
  have hn : (s.queueNode (Node.mkInternal (x.weight + y.weight) a b)).nnodes.toNat = s.nnodes.toNat + 1 :=
    toNat_nnodes_succ hlt
  obtain ⟨hwx, la, hla, hbelowx⟩ := hx.queueNode hlt (Node.mkInternal (x.weight + y.weight) a b)
  obtain ⟨hwy, lb, hlb, hbelowy⟩ := hy.queueNode hlt (Node.mkInternal (x.weight + y.weight) a b)
  refine ⟨⟨toNat_add_of_le hfits, hwx, hwy⟩, _, ⟨a, b, la, lb, nodeAt_queueNode s _ hlt, hla, hlb, rfl⟩, fun j hj => ?_⟩
  rcases List.mem_cons.1 hj with rfl | hj
  · omega
  · exact (List.mem_append.1 hj).elim (hbelowx j) (hbelowy j)

/-- What belongs to an entry is taken out with it. -/
theorem forall₂_erase {α β : Type} [BEq α] [LawfulBEq α] {R : α → β → Prop} {q : List α} {ts : List β} {i : α}
    (h : List.Forall₂ R q ts) (hi : i ∈ q) : ∃ t us, R i t ∧ List.Forall₂ R (q.erase i) us ∧ ts.Perm (t :: us) := by
  induction h with
  | nil => cases hi
  | @cons j t q ts hj hq ih =>
    by_cases hji : j = i
    · subst hji
      exact ⟨t, ts, hj, by rwa [List.erase_cons_head], .rfl⟩
    · obtain ⟨t', us, ht', hus, hperm⟩ := ih ((List.mem_cons.1 hi).resolve_left fun e => hji e.symm)
      refine ⟨t', t :: us, ht', ?_, (hperm.cons t).trans (.swap t' t us)⟩
      rw [List.erase_cons_tail (by simpa using hji)]
      exact .cons hj hus

/-! ### BUILD between its leaves and its root -/

/-- The sum of some symbols' counts. -/
def weightSum (weight : Sym → Weight) (syms : List Sym) : Nat := (syms.map fun sym => (weight sym).toNat).sum

/-- The sum of some trees' weights. -/
def treeSum (trees : List Tree) : Nat := (trees.map fun t => t.weight.toNat).sum

/-- The symbols of some trees' leaves. -/
def treeSymbols (trees : List Tree) : List Sym := trees.flatMap fun t => t.shape.symbols

theorem treeSum_cons (t : Tree) (trees : List Tree) : treeSum (t :: trees) = t.weight.toNat + treeSum trees := rfl

theorem treeSymbols_cons (t : Tree) (trees : List Tree) :
    treeSymbols (t :: trees) = t.shape.symbols ++ treeSymbols trees := rfl

theorem treeSum_perm {x y : List Tree} (h : x.Perm y) : treeSum x = treeSum y := (h.map _).sum_eq

theorem treeSymbols_perm {x y : List Tree} (h : x.Perm y) : (treeSymbols x).Perm (treeSymbols y) := h.flatMap_right _

/-- BUILD has queued leaves for the given symbols and made some merges: PQ's trees have these leaves and the counts' sum, the
leaves come first in the arena, and the newest node is first in PQ. -/
structure Growing (syms : List Sym) (weight : Sym → Weight) (s : State) : Prop where
  /-- The arena and the room in it. -/
  merging : Merging s
  /-- The trees in PQ. -/
  trees : ∃ trees, List.Forall₂ (Stands s) s.pq trees ∧ (treeSymbols trees).Perm syms ∧
    treeSum trees = weightSum weight syms
  /-- The leaves. -/
  leaves : ∀ (k : Nat) (sym : Sym), syms[k]? = some sym → s.node[k]? = some (Node.mkLeaf sym (weight sym))
  /-- The leaves are written. -/
  length_le : syms.length ≤ s.nnodes.toNat
  /-- Each merge takes two entries out of PQ and makes one node. -/
  count : s.nnodes.toNat + s.pq.length = 2 * syms.length
  /-- The newest node. -/
  newest : ∃ q, s.pq = (s.nnodes - 1#10) :: q

section Growing

variable {syms : List Sym} {weight : Sym → Weight} {s : State}

theorem Growing.of_frame {t : State} (h : Growing syms weight s) (hnode : t.node = s.node := by rfl)
    (hn : t.nnodes = s.nnodes := by rfl) (hpq : t.pq = s.pq := by rfl) : Growing syms weight t := by
  obtain ⟨trees, hstands, htrees⟩ := h.trees
  exact {
    merging := h.merging.of_frame hnode hn hpq
    trees := ⟨trees, by rw [hpq]; exact hstands.imp fun _ _ hst => hst.of_frame hnode hn, htrees⟩
    leaves := by rw [hnode]; exact h.leaves
    length_le := by rw [hn]; exact h.length_le
    count := by rw [hn, hpq]; exact h.count
    newest := by rw [hn, hpq]; exact h.newest }

theorem Growing.pq_pos (h : Growing syms weight s) : 0 < s.pq.length := by
  obtain ⟨q, hq⟩ := h.newest
  simp [hq]

theorem queueNode_newest (s : State) (x : Node) :
    (s.queueNode x).pq = ((s.queueNode x).nnodes - 1#10) :: s.pq := by
  rw [State.queueNode_pq, State.queueNode_nnodes, BitVec.add_sub_cancel]

theorem mergeOf_pq (s : State) (a b : Idx) : (s.mergeOf a b).pq = s.nnodes :: (s.pq.erase a).erase b := rfl

/-- The two trees at two entries of PQ, and the others. -/
theorem Growing.pick {a b : Idx} (h : Growing syms weight s) (ha : a ∈ s.pq) (hb : b ∈ s.pq.erase a) :
    ∃ x y others, Stands s a x ∧ Stands s b y ∧ List.Forall₂ (Stands s) ((s.pq.erase a).erase b) others ∧
      (treeSymbols (x :: y :: others)).Perm syms ∧ treeSum (x :: y :: others) = weightSum weight syms := by
  obtain ⟨trees, hstands, hsyms, hsum⟩ := h.trees
  obtain ⟨x, us, hx, hus, hperm⟩ := forall₂_erase hstands ha
  obtain ⟨y, others, hy, hothers, hperm'⟩ := forall₂_erase hus hb
  have hall := hperm.trans (hperm'.cons x)
  exact ⟨x, y, others, hx, hy, hothers, (treeSymbols_perm hall).symm.trans hsyms, (treeSum_perm hall).symm.trans hsum⟩

/-- Two entries' weights are part of the counts' sum. -/
theorem Growing.weights_le {a b : Idx} (h : Growing syms weight s) (ha : a ∈ s.pq) (hb : b ∈ s.pq.erase a) :
    (s.weightOf a).toNat + (s.weightOf b).toNat ≤ weightSum weight syms := by
  obtain ⟨x, y, others, hx, hy, -, -, hsum⟩ := h.pick ha hb
  rw [hx.weightOf, hy.weightOf, ← hsum]
  simp only [treeSum_cons]
  omega

/-- A merge whose sum fits (R129). -/
theorem Growing.mergeOf {a b : Idx} (h : Growing syms weight s) (ha : a ∈ s.pq) (hb : b ∈ s.pq.erase a)
    (hfits : (s.weightOf a).toNat + (s.weightOf b).toNat ≤ maxWeight) : Growing syms weight (s.mergeOf a b) := by
  obtain ⟨x, y, others, hx, hy, hothers, hsyms, hsum⟩ := h.pick ha hb
  obtain ⟨⟨ixs, hforest, hfilled⟩, h2, hroom⟩ := h.merging
  have hlen := List.length_erase_of_mem ha
  have hlen' := List.length_erase_of_mem hb
  have hpos := List.length_pos_of_mem ha
  have hpos' := List.length_pos_of_mem hb
  have hlt : s.nnodes.toNat < 513 := by omega
  have hle := h.length_le
  have hcount := h.count
  have hn : (s.mergeOf a b).nnodes.toNat = s.nnodes.toNat + 1 := toNat_nnodes_succ hlt
  rw [hx.weightOf, hy.weightOf] at hfits
  have hnew : Stands (s.mergeOf a b) s.nnodes (.node (x.weight + y.weight) x y) := by
    refine (stands_node hx hy hlt hfits).of_frame ?_
    rw [← hx.weightOf, ← hy.weightOf]
    rfl
  have hold : List.Forall₂ (Stands (s.mergeOf a b)) ((s.pq.erase a).erase b) others :=
    hothers.imp fun _ _ hst => (hst.queueNode hlt _).of_frame
  exact {
    merging := merging_queueNode (s := { s with pq := (s.pq.erase a).erase b }) _
      (hforest.of_agree (agree_of_node_eq rfl ixs)) hfilled.of_frame ha hb rfl h2 hroom
    trees := by
      refine ⟨.node (x.weight + y.weight) x y :: others, .cons hnew hold, ?_, ?_⟩
      · rw [treeSymbols_cons, treeSymbols_cons, ← List.append_assoc] at hsyms
        exact hsyms
      · rw [treeSum_cons, treeSum_cons, ← Nat.add_assoc, ← toNat_add_of_le hfits] at hsum
        exact hsum
    leaves := by
      intro k sym hk
      have hk' : k < syms.length := (List.getElem?_eq_some_iff.1 hk).1
      have hne : s.nnodes.toNat ≠ k := by omega
      exact (Vector.getElem?_setIfInBounds_ne hne).trans (h.leaves k sym hk)
    length_le := by omega
    count := by rw [hn, mergeOf_pq, List.length_cons]; omega
    newest := ⟨_, queueNode_newest _ _⟩ }

/-! ### The leaves -/

/-- Leaves for the given symbols are all the arena holds, and all are in PQ. -/
structure Planted (syms : List Sym) (weight : Sym → Weight) (s : State) : Prop where
  /-- NNODES is their number. -/
  nnodes : s.nnodes.toNat = syms.length
  /-- PQ has them, the newest first. -/
  stands : List.Forall₂ (Stands s) s.pq (syms.reverse.map fun sym => .leaf sym (weight sym))
  /-- The arena has them, the oldest first. -/
  leaves : ∀ (k : Nat) (sym : Sym), syms[k]? = some sym → s.node[k]? = some (Node.mkLeaf sym (weight sym))

theorem queueLeaves_append (s : State) (syms : List Sym) (sym : Sym) (weight : Sym → Weight) :
    s.queueLeaves (syms ++ [sym]) weight = (s.queueLeaves syms weight).queueNode (Node.mkLeaf sym (weight sym)) := by
  simp [State.queueLeaves]

theorem Planted.queueNode (h : Planted syms weight s) (sym : Sym) (hroom : syms.length < 513) :
    Planted (syms ++ [sym]) weight (s.queueNode (Node.mkLeaf sym (weight sym))) := by
  have hlt : s.nnodes.toNat < 513 := h.nnodes ▸ hroom
  refine ⟨?_, ?_, fun k x hk => ?_⟩
  · rw [State.queueNode_nnodes, toNat_nnodes_succ hlt, h.nnodes, List.length_append, List.length_singleton]
  · rw [List.reverse_append, List.reverse_singleton, List.singleton_append, List.map_cons]
    exact .cons (stands_leaf sym _ hlt) (h.stands.imp fun _ _ hst => hst.queueNode hlt _)
  · rw [State.queueNode_node, h.nnodes]
    rcases Nat.lt_trichotomy k syms.length with hk' | rfl | hk'
    · rw [List.getElem?_append_left hk'] at hk
      rw [Vector.getElem?_setIfInBounds_ne hk'.ne']
      exact h.leaves k x hk
    · obtain rfl : sym = x := by simpa using hk
      exact Vector.getElem?_setIfInBounds_self_of_lt hroom
    · rw [List.getElem?_eq_none (by simpa using hk')] at hk
      cases hk

theorem planted_queueLeaves (hn : s.nnodes = 0#10) (hpq : s.pq = []) (hroom : syms.length ≤ 513) :
    Planted syms weight (s.queueLeaves syms weight) := by
  induction syms using List.reverseRecOn with
  | nil => exact ⟨by simp [State.queueLeaves, hn], by simp [State.queueLeaves, hpq], by simp⟩
  | append_singleton syms sym ih =>
    rw [List.length_append, List.length_singleton] at hroom
    rw [queueLeaves_append]
    exact (ih (by omega)).queueNode sym hroom

end Growing

/-- The symbols without a leaf have the count 0 (R127). -/
theorem weightSum_leafSymbols (s : State) : weightSum s.freqOf (leafSymbols s) = freqSum s := by
  have hfilter : ∀ syms : List Sym, weightSum s.freqOf (syms.filter fun sym => 0 < (s.freqOf sym).toNat ||
      (s.literalsEmpty && sym = placeholderSym)) = weightSum s.freqOf syms := by
    intro syms
    induction syms with
    | nil => rfl
    | cons sym syms ih =>
      simp only [weightSum, List.map_cons, List.sum_cons] at ih ⊢
      rw [← ih, List.filter_cons]
      split
      · rw [List.map_cons, List.sum_cons]
      next hleaf =>
        have hzero : (s.freqOf sym).toNat = 0 := by
          by_contra hne
          exact hleaf (by simp [Nat.pos_of_ne_zero hne])
        rw [hzero, Nat.zero_add]
  exact hfilter allSymbols

/-- insert_leaves() in an empty arena queues the leaves (R127). -/
theorem growing_insertLeaves {s : State} (hn : s.nnodes = 0#10) (hpq : s.pq = []) (htail : arenaTail s) :
    Growing (leafSymbols s) s.freqOf s.insertLeaves ∧ s.insertLeaves.pq.length = (leafSymbols s).length := by
  have hle := length_leafSymbols_le s
  have h2 := two_le_length_leafSymbols s
  have hmerging := merging_insertLeaves hn hpq htail
  rw [insertLeaves_eq_queueLeaves] at hmerging ⊢
  have hplanted : Planted (leafSymbols s) s.freqOf _ := planted_queueLeaves hn hpq (by omega)
  have hlen := hplanted.stands.length_eq
  rw [List.length_map, List.length_reverse] at hlen
  refine ⟨⟨hmerging, ⟨_, hplanted.stands, ?_, ?_⟩, hplanted.leaves, hplanted.nnodes.ge, ?_, ?_⟩, hlen⟩
  · rw [treeSymbols, List.flatMap_map]
    simp only [Tree.shape, Shape.symbols, List.flatMap_singleton']
    exact List.reverse_perm _
  · rw [treeSum, weightSum, List.map_map, List.map_reverse, List.sum_reverse]
    rfl
  · rw [hplanted.nnodes, hlen]
    omega
  · rcases List.eq_nil_or_concat (leafSymbols s) with hnil | ⟨syms, sym, hsyms⟩
    · simp [hnil] at h2
    · rw [hsyms, List.concat_eq_append, queueLeaves_append]
      exact ⟨_, queueNode_newest _ _⟩

end Sys2Proof.Machine
end

section
/-!
PROOFS. The run of BUILD and its result, a function of FREQ (R126, R130, R131, R133).
-/

namespace Sys2Proof.Machine

open Sys2Proof Sys2Proof.Safety

/-! ### The merges as a function of the arena and PQ -/

/-- The merge of the two least entries of PQ (R129). -/
def State.mergeLeast (s : State) : State :=
  match s.removeMin with
  | none => s
  | some (a, s1) => match s1.removeMin with
    | none => s
    | some (b, _) => s.mergeOf a b

/-- One state with the arena, NNODES and PQ of another. -/
def State.graft (u s : State) : State := { u with node := s.node, nnodes := s.nnodes, pq := s.pq }

@[simp] theorem State.graft_node (u s : State) : (u.graft s).node = s.node := rfl
@[simp] theorem State.graft_nnodes (u s : State) : (u.graft s).nnodes = s.nnodes := rfl
@[simp] theorem State.graft_pq (u s : State) : (u.graft s).pq = s.pq := rfl

theorem removeMin_graft (u s : State) : (u.graft s).removeMin = s.removeMin.map fun x => (x.1, u.graft x.2) := by
  unfold State.removeMin
  rw [State.graft_pq]
  cases s.pq with
  | nil => rfl
  | cons a q => rfl

theorem queueNode_graft (u s : State) (x : Node) : (u.graft s).queueNode x = u.graft (s.queueNode x) := rfl

theorem mergeOf_graft (u s : State) (a b : Idx) : (u.graft s).mergeOf a b = u.graft (s.mergeOf a b) := rfl

theorem mergeLeast_graft (u s : State) : (u.graft s).mergeLeast = u.graft s.mergeLeast := by
  unfold State.mergeLeast
  rw [removeMin_graft]
  cases s.removeMin with
  | none => rfl
  | some x =>
    simp only [Option.map_some, removeMin_graft]
    cases x.2.removeMin with
    | none => rfl
    | some y => exact mergeOf_graft u s x.1 y.1

theorem mergeLeast_iterate_graft (n : Nat) (u s : State) :
    State.mergeLeast^[n] (u.graft s) = u.graft (State.mergeLeast^[n] s) :=
  (Function.Semiconj.iterate_right (f := u.graft) (fun s => (mergeLeast_graft u s).symm) n s).symm

/-- The merges write nothing else. -/
theorem mergeLeast_iterate_frame (n : Nat) (s : State) :
    State.mergeLeast^[n] s = s.graft (State.mergeLeast^[n] s) :=
  mergeLeast_iterate_graft n s s

/-- Which symbols have a leaf depends on FREQ alone (R127). -/
theorem leafSymbols_congr {s u : State} (h : u.freq = s.freq) : leafSymbols u = leafSymbols s := by
  unfold leafSymbols State.freqOf State.literalsEmpty
  rw [h]

theorem queueLeaves_graft (u s : State) (syms : List Sym) (weight : Sym → Weight) :
    (u.graft s).queueLeaves syms weight = u.graft (s.queueLeaves syms weight) := by
  induction syms generalizing s with
  | nil => rfl
  | cons sym syms ih =>
    rw [State.queueLeaves, List.foldl_cons, queueNode_graft]
    exact ih (s.queueNode (Node.mkLeaf sym (weight sym)))

/-- insert_leaves() depends on FREQ, the arena, NNODES and PQ alone. -/
theorem insertLeaves_graft {u s : State} (h : u.freq = s.freq) : (u.graft s).insertLeaves = u.graft s.insertLeaves := by
  have hfreq : (u.graft s).freqOf = s.freqOf := by funext sym; exact congrArg (fun f => f[sym.toNat]?.getD 1#32) h
  rw [insertLeaves_eq_queueLeaves, insertLeaves_eq_queueLeaves, leafSymbols_congr (u := u.graft s) h, hfreq,
    queueLeaves_graft]

/-- The state in which the merges of BUILD are done. -/
def State.grown (s : State) : State := State.mergeLeast^[(leafSymbols s).length - 1] s.clearTree.insertLeaves

/-- The arena, NNODES and PQ that the merges leave are functions of FREQ (R133). -/
theorem grown_congr {s u : State} (h : u.freq = s.freq) : u.grown = u.clearTree.graft s.grown := by
  have hclear : u.clearTree = u.clearTree.graft s.clearTree := rfl
  have hleaves : u.clearTree.insertLeaves = u.clearTree.graft s.clearTree.insertLeaves := by
    rw [hclear]
    exact insertLeaves_graft h
  rw [State.grown, State.grown, leafSymbols_congr h, hleaves, mergeLeast_iterate_graft]

/-! ### The lines of BUILD -/

section Lines

variable {syms : List Sym} {weight : Sym → Weight} {s : State} {ts : List Task}

/-- A turn of the merge loop with two trees or more: the merge, or the fault, which the counts' sum explains. -/
theorem Growing.turn (h : Growing syms weight s) (hlen : 1 < s.pq.length) (ts : List Task) :
    (Growing syms weight s.mergeLeast ∧ s.mergeLeast.pq.length + 1 = s.pq.length ∧
      merge ts s = .next { s.mergeLeast with todo := .merge :: ts }) ∨
    (maxWeight < weightSum weight syms ∧ merge ts s = .next (s.fail .weightOverflow)) := by
  obtain ⟨a, h1⟩ := exists_removeMin (List.ne_nil_of_length_pos h.pq_pos)
  obtain ⟨ha, -⟩ := removeMin_erase h1
  have hlenA := List.length_erase_of_mem ha
  have hneA : s.pq.erase a ≠ [] := List.ne_nil_of_length_pos (by omega)
  obtain ⟨b, h2⟩ := exists_removeMin (s := { s with pq := s.pq.erase a }) hneA
  obtain ⟨hb, -⟩ := removeMin_erase h2
  have hlenB : ((s.pq.erase a).erase b).length = (s.pq.erase a).length - 1 := List.length_erase_of_mem hb
  have hmerge : s.mergeLeast = s.mergeOf a b := by simp only [State.mergeLeast, h1, h2]
  rw [merge_of_removeMin ts hlen h1 h2]
  by_cases hfits : (s.weightOf a).toNat + (s.weightOf b).toNat ≤ maxWeight
  · rw [if_pos hfits, hmerge]
    refine Or.inl ⟨h.mergeOf ha hb hfits, ?_, rfl⟩
    rw [mergeOf_pq, List.length_cons]
    omega
  · rw [if_neg hfits]
    exact Or.inr ⟨(not_le.1 hfits).trans_le (h.weights_le ha hb), rfl⟩

/-- With one tree left its weight is the counts' sum (R133). -/
theorem Growing.root (h : Growing syms weight s) (hone : s.pq.length = 1) :
    s.pq = [s.nnodes - 1#10] ∧ ∃ t, Stands s (s.nnodes - 1#10) t ∧ t.shape.symbols.Perm syms ∧
      t.weight.toNat = weightSum weight syms := by
  obtain ⟨q, hq⟩ := h.newest
  obtain ⟨trees, hstands, hsyms, hsum⟩ := h.trees
  obtain rfl : q = [] := List.eq_nil_of_length_eq_zero (by simpa [hq] using hone)
  rw [hq] at hstands
  cases hstands with
  | cons ht hnil =>
    cases hnil
    rw [treeSymbols_cons, treeSymbols, List.flatMap_nil, List.append_nil] at hsyms
    exact ⟨hq, _, ht, hsyms, hsum⟩

theorem Growing.weightSum_le (h : Growing syms weight s) (hone : s.pq.length = 1) : weightSum weight syms ≤ maxWeight := by
  obtain ⟨-, t, -, -, hw⟩ := h.root hone
  exact hw ▸ Nat.le_pred_of_lt t.weight.isLt

/-- The merge loop comes to one tree, a turn for each entry of PQ, or to a merge whose sum does not fit. -/
theorem Growing.runs_merges (h : Growing syms weight s) (hs : s.atLines (.merge :: ts)) :
    (Growing syms weight (State.mergeLeast^[s.pq.length - 1] s) ∧ (State.mergeLeast^[s.pq.length - 1] s).pq.length = 1 ∧
      Runs s.pq.length s { State.mergeLeast^[s.pq.length - 1] s with todo := ts }) ∨
    (maxWeight < weightSum weight syms ∧ ∃ k < s.pq.length, ∃ m, Runs k s (s.graft m) ∧
      merge ts (s.graft m) = .next ((s.graft m).fail .weightOverflow)) := by
  obtain ⟨n, hn⟩ : ∃ n, s.pq.length = n + 1 := Nat.exists_eq_succ_of_ne_zero h.pq_pos.ne'
  rw [hn, Nat.add_sub_cancel]
  induction n generalizing s with
  | zero =>
    have hend : merge ts s = .next { s with todo := ts } := if_pos hn.le
    exact Or.inl ⟨h, hn, hs.runs hend⟩
  | succ n ih =>
    rcases h.turn (by omega) ts with ⟨hnext, hlen, hturn⟩ | ⟨hover, hfault⟩
    · have hframe : s.mergeLeast = s.graft s.mergeLeast := mergeLeast_iterate_frame 1 s
      have hlines : s.mergeLeast.atLines (.merge :: ts) := by
        obtain ⟨-, -, htodo⟩ := id hs
        rw [hframe]
        exact hs.of_frame htodo
      have hsame : ({ s.mergeLeast with todo := .merge :: ts } : State) = s.mergeLeast := by
        obtain ⟨-, -, htodo⟩ := hlines
        rw [← htodo]
      have hrun : Runs 1 s s.mergeLeast := hs.runs (hturn.trans (congrArg _ hsame))
      rcases ih hnext hlines (by omega) with ⟨hgrown, hone, hloop⟩ | ⟨hover, k, hk, m, hloop, hfault⟩
      · exact Or.inl ⟨hgrown, hone, Nat.add_comm 1 _ ▸ runs_trans hrun hloop⟩
      · have hgraft : s.mergeLeast.graft m = s.graft m := by
          rw [hframe]
          rfl
        rw [hgraft] at hloop hfault
        exact Or.inr ⟨hover, 1 + k, by omega, m, runs_trans hrun hloop, hfault⟩
    · exact Or.inr ⟨hover, 0, by omega, s, runs_zero s, hfault⟩

/-- With one tree left BUILD takes the newest node as the root (R131). -/
theorem Growing.takeRoot_eq (h : Growing syms weight s) (hone : s.pq.length = 1) (ts : List Task) :
    takeRoot ts s = .next { s with tv := true, root := s.nnodes - 1#10, pq := [], todo := ts } := by
  obtain ⟨hpq, -⟩ := h.root hone
  have hmin : s.removeMin = some (s.nnodes - 1#10, { s with pq := [] }) := by
    simp [State.removeMin, hpq, State.leastOf]
  simp only [takeRoot, hmin]
  rfl

end Lines

/-! ### The run of BUILD -/

section Build

variable {s : State} {ts : List Task}

/-- BUILD with its leaves in PQ, or with some merges done. -/
def State.merging (s m : State) (ts : List Task) : State :=
  { s with tv := false, cv := false, node := m.node, nnodes := m.nnodes, root := 0#10, pq := m.pq, stack := [],
           todo := .merge :: .takeRoot :: ts }

/-- What BUILD leaves, the given lines still to come. -/
def State.treeBuilt (s : State) (ts : List Task) : State :=
  { s with tv := true, cv := false, node := s.grown.node, nnodes := s.grown.nnodes, root := s.grown.nnodes - 1#10,
           pq := [], stack := [], todo := ts }

theorem runs_insertLeaves (h : s.atLines (buildProgram ++ ts)) :
    Runs 2 s (s.merging s.clearTree.insertLeaves ts) := by
  have hclear : Runs 1 s { s.clearTree with todo := .insertLeaves :: .merge :: .takeRoot :: ts } := h.runs rfl
  have hleaves := insertLeaves_graft (s := s.clearTree)
    (u := { s.clearTree with todo := .insertLeaves :: .merge :: .takeRoot :: ts }) rfl
  have hlines : State.atLines { s.clearTree with todo := .insertLeaves :: .merge :: .takeRoot :: ts }
    (.insertLeaves :: .merge :: .takeRoot :: ts) := h.of_frame rfl
  refine runs_trans hclear (hlines.runs ?_)
  exact congrArg (fun u : State => u.goOn (.merge :: .takeRoot :: ts)) hleaves

/-- BUILD within other programs: it comes to its tree, or to a merge whose sum does not fit, as the counts' sum says. -/
theorem runs_build (h : s.atLines (buildProgram ++ ts)) :
    (freqSum s ≤ maxWeight ∧ Growing (leafSymbols s) s.freqOf s.grown ∧ s.grown.pq.length = 1 ∧
      Runs ((leafSymbols s).length + 3) s (s.treeBuilt ts)) ∨
    (maxWeight < freqSum s ∧ ∃ k < (leafSymbols s).length + 2, ∃ m, Runs k s (s.merging m ts) ∧
      merge (.takeRoot :: ts) (s.merging m ts) = .next ((s.merging m ts).fail .weightOverflow)) := by
  obtain ⟨hstart, hlen⟩ := growing_insertLeaves (s := s.clearTree) rfl rfl (arenaTail_of_node_zero rfl)
  change Growing (leafSymbols s) s.freqOf s.clearTree.insertLeaves at hstart
  change (s.merging s.clearTree.insertLeaves ts).pq.length = (leafSymbols s).length at hlen
  have hplant := runs_insertLeaves h
  have hlines : (s.merging s.clearTree.insertLeaves ts).atLines (.merge :: .takeRoot :: ts) := h.of_frame rfl
  have hiter : State.mergeLeast^[(leafSymbols s).length - 1] (s.merging s.clearTree.insertLeaves ts) =
      s.merging s.grown ts := mergeLeast_iterate_graft _ (s.merging s.clearTree.insertLeaves ts) s.clearTree.insertLeaves
  generalize s.clearTree.insertLeaves = leaves at hstart hlen hplant hlines hiter
  have hmerges := (hstart.of_frame (t := s.merging leaves ts)).runs_merges hlines
  rw [hlen, hiter, weightSum_leafSymbols] at hmerges
  rcases hmerges with ⟨hgrown, hone, hmerges⟩ | ⟨hover, k, hk, m, hmerges, hfault⟩
  · have hroot := (hlines.of_frame (t := { s.merging s.grown ts with todo := .takeRoot :: ts }) rfl).runs
      ((hgrown.of_frame (t := { s.merging s.grown ts with todo := .takeRoot :: ts })).takeRoot_eq hone ts)
    have hrun := runs_trans hplant (runs_trans hmerges hroot)
    have hfits := hgrown.weightSum_le hone
    rw [weightSum_leafSymbols] at hfits
    refine Or.inl ⟨hfits, hgrown.of_frame, hone, ?_⟩
    rw [show 2 + ((leafSymbols s).length + 1) = (leafSymbols s).length + 3 by omega] at hrun
    exact hrun
  · exact Or.inr ⟨hover, 2 + k, by omega, m, runs_trans hplant hmerges, hfault⟩

end Build

end Sys2Proof.Machine
end

section
/-!
PROOFS. What BUILD leaves, and DERIVE after an all-zero count (R127 to R133, R37, R161 to R163).
-/

namespace Sys2Proof.Machine

open Sys2Proof Sys2Proof.Safety

/-! ### The tree that BUILD makes -/

/-- The second state has, at ROOT, the tree that BUILD makes of the counts of the first. -/
structure HasTreeOf (s u : State) : Prop where
  /-- The merges came to their end. -/
  growing : Growing (leafSymbols s) s.freqOf s.grown
  /-- One tree was left. -/
  one : s.grown.pq.length = 1
  /-- The arena. -/
  node : u.node = s.grown.node
  /-- NNODES. -/
  nnodes : u.nnodes = s.grown.nnodes
  /-- ROOT. -/
  root : u.root = s.grown.nnodes - 1#10

section Tree

variable {s u : State}

/-- 2L - 1 nodes (R29). -/
theorem HasTreeOf.toNat_nnodes (h : HasTreeOf s u) : u.nnodes.toNat = 2 * (leafSymbols s).length - 1 := by
  have hcount := h.growing.count
  have hone := h.one
  rw [h.nnodes]
  omega

/-- The last node is the root (R131). -/
theorem HasTreeOf.toNat_root (h : HasTreeOf s u) : u.root.toNat = 2 * (leafSymbols s).length - 2 := by
  have hn := h.toNat_nnodes
  have h2 := two_le_length_leafSymbols s
  rw [h.nnodes] at hn
  have hle : (1#10).toNat ≤ s.grown.nnodes.toNat := by
    rw [show (1#10).toNat = 1 from rfl]
    omega
  rw [h.root, BitVec.toNat_sub_of_le hle, hn]
  rfl

theorem HasTreeOf.leaves (h : HasTreeOf s u) (k : Nat) (sym : Sym) (hk : (leafSymbols s)[k]? = some sym) :
    u.node[k]? = some (Node.mkLeaf sym (s.freqOf sym)) := by
  rw [h.node]
  exact h.growing.leaves k sym hk

/-- Items 1 to 5 of R37, and nothing beyond NNODES. -/
theorem HasTreeOf.treeInv_arenaTail (h : HasTreeOf s u) : treeInv u ∧ arenaTail u := by
  obtain ⟨-, htree, htail⟩ := h.growing.merging.takeRoot h.one.le (h.growing.takeRoot_eq h.one [])
  refine ⟨treeInv_of_frame htree h.node h.nnodes h.root, ?_⟩
  unfold arenaTail at htail ⊢
  rw [h.node, h.nnodes]
  exact htail

/-- The tree at ROOT has the leaves of R127, exact sums for weights, and the counts' sum at its root (R37 item 6, R133). -/
theorem HasTreeOf.tree (h : HasTreeOf s u) :
    ∃ t, holdsRoot u t ∧ t.weightsSum ∧ t.shape.symbols.Perm (leafSymbols s) ∧ (u.weightOf u.root).toNat = freqSum s := by
  obtain ⟨-, t, hstands, hsyms, hsum⟩ := h.growing.root h.one
  have hstands' : Stands u u.root t := by
    rw [h.root]
    exact hstands.of_frame h.node h.nnodes
  rw [← weightSum_leafSymbols, ← hsum, hstands'.weightOf]
  obtain ⟨hw, ixs, hholds, -⟩ := hstands'
  exact ⟨t, ⟨ixs, hholds⟩, hw, hsyms, rfl⟩

theorem nodup_leafSymbols (s : State) : (leafSymbols s).Nodup := nodup_allSymbols.filter _

/-- Item 6 of R37. -/
theorem HasTreeOf.builtInv (h : HasTreeOf s u) : builtInv u := by
  obtain ⟨t, hholds, hw, hsyms, -⟩ := h.tree
  have hnodup : t.shape.symbols.Nodup := hsyms.nodup_iff.2 (nodup_leafSymbols s)
  exact ⟨t, hholds, List.count_eq_one_of_mem hnodup (hsyms.mem_iff.2 (endSym_mem_leafSymbols s)), hnodup, hw⟩

end Tree

/-! ### BUILD as a command -/

section Command

variable {s : State}

/-- The state after a BUILD without a fault. -/
def State.afterBuild (s : State) : State :=
  { s.complete with tv := true, cv := false, node := s.grown.node, nnodes := s.grown.nnodes,
                    root := s.grown.nnodes - 1#10 }

theorem build_steps_le (s : State) : (leafSymbols s).length + 4 ≤ 4096 + 128 * s.inBits := by
  have := length_leafSymbols_le s
  omega

/-- If the counts' sum fits, BUILD ends in DONE with its tree. -/
theorem exec_build_of_fits (hs : ready s) (hfits : freqSum s ≤ maxWeight) :
    exec .build s = .next s.afterBuild ∧ HasTreeOf s s.afterBuild := by
  have hbegin : (s.begin (commandWord .build) buildProgram).atLines (buildProgram ++ []) := atLines_begin hs _ _
  have hgraft : (s.begin (commandWord .build) buildProgram).grown =
      (s.begin (commandWord .build) buildProgram).clearTree.graft s.grown := grown_congr rfl
  have hend : State.complete ((s.begin (commandWord .build) buildProgram).treeBuilt []) = s.afterBuild := by
    simp only [State.treeBuilt, hgraft]
    rfl
  have hk := build_steps_le s
  rcases runs_build hbegin with ⟨-, hgrown, hone, hrun⟩ | ⟨hover, -⟩
  · rw [hgraft] at hgrown hone
    have hcomplete := runs_complete (s := (s.begin (commandWord .build) buildProgram).treeBuilt []) hs.2 rfl rfl
    rw [hend] at hcomplete
    exact ⟨issue_of_runs hs.1 rfl (runs_trans hrun hcomplete) (le_budget hk) (complete_not_running _), hgrown.of_frame, hone, rfl, rfl, rfl⟩
  · exact absurd hfits (not_le.2 hover)

/-- If it does not fit, BUILD fails with some of the tree written. -/
theorem exec_build_of_overflow (hs : ready s) (hover : maxWeight < freqSum s) :
    ∃ m : State, exec .build s =
      .next { s.fail .weightOverflow with node := m.node, nnodes := m.nnodes, root := 0#10 } := by
  have hbegin : (s.begin (commandWord .build) buildProgram).atLines (buildProgram ++ []) := atLines_begin hs _ _
  have hsteps := build_steps_le s
  rcases runs_build hbegin with ⟨hfits, -⟩ | ⟨-, k, hk, m, hrun, hfault⟩
  · exact absurd hover (not_lt.2 hfits)
  · change k < (leafSymbols s).length + 2 at hk
    exact ⟨m, issue_fails hs rfl hrun (hbegin.of_frame rfl) hfault⟩

/-- Settles O27: the leaves, then a merge for each entry of PQ but one, by induction on PQ's length. -/
theorem buildCompletes : Obligations.BuildCompletes := by
  unfold Obligations.BuildCompletes
  intro s hs hfits
  obtain ⟨hexec, htree⟩ := exec_build_of_fits hs hfits
  obtain ⟨-, htail⟩ := htree.treeInv_arenaTail
  exact ⟨s.afterBuild, hexec, rfl, two_le_length_leafSymbols s, length_leafSymbols_le s, htree.toNat_nnodes,
    htree.toNat_root, htail, htree.leaves⟩

/-- Settles O29: with one tree left its 32-bit weight would be the counts' sum, so a merge before it fails. -/
theorem buildOverflows : Obligations.BuildOverflows := by
  unfold Obligations.BuildOverflows
  intro s hs hover
  obtain ⟨m, hexec⟩ := exec_build_of_overflow hs hover
  exact ⟨_, hexec, rfl⟩

/-- A BUILD that ends in DONE had counts that fit. -/
theorem exec_build_done {t : State} (hs : ready s) (hexec : exec .build s = .next t) (hdone : t.phase = .done) :
    freqSum s ≤ maxWeight ∧ t = s.afterBuild ∧ HasTreeOf s t := by
  rcases Nat.lt_or_ge maxWeight (freqSum s) with hover | hfits
  · obtain ⟨m, hfail⟩ := exec_build_of_overflow hs hover
    cases hfail.symm.trans hexec
    cases hdone
  · obtain ⟨hend, htree⟩ := exec_build_of_fits hs hfits
    cases hend.symm.trans hexec
    exact ⟨hfits, rfl, htree⟩

theorem freqSum_congr {s u : State} (h : u.freq = s.freq) : freqSum u = freqSum s := by
  unfold freqSum State.freqOf
  rw [h]

/-- Settles O28: each merge keeps the trees' leaves and the sum of their weights, and the merges depend on FREQ alone. -/
theorem buildGuarantees : Obligations.BuildGuarantees := by
  unfold Obligations.BuildGuarantees
  refine ⟨fun s t hs hexec hdone => ?tree, fun s s' t t' hs hs' hfreq hexec hexec' hdone => ?same⟩
  case tree =>
    obtain ⟨-, -, htree⟩ := exec_build_done hs hexec hdone
    obtain ⟨hinv, -⟩ := htree.treeInv_arenaTail
    obtain ⟨-, -, -, -, hweight⟩ := htree.tree
    exact ⟨hinv, htree.builtInv, hweight, htree.toNat_nnodes, htree.toNat_root, htree.leaves⟩
  case same =>
    obtain ⟨hfits, rfl, -⟩ := exec_build_done hs hexec hdone
    obtain ⟨hend, -⟩ := exec_build_of_fits hs' ((freqSum_congr hfreq.symm).trans_le hfits)
    cases hend.symm.trans hexec'
    have hgrown : s'.grown = s'.clearTree.graft s.grown := grown_congr hfreq.symm
    simp only [State.afterBuild, hgrown]
    exact ⟨rfl, rfl, rfl, rfl⟩

end Command

/-! ### DERIVE on a tree of two leaves (R162, R163) -/

section Walk

variable {s : State} {i a b : Idx} {sym : Sym} {w : Weight}

/-- The walk leaves an internal node by `0` (R162). -/
theorem walk_internal (ts : List Task) (hnode : s.nodeAt? i = some (Node.mkInternal w a b))
    (hpath : s.path.length < maxCodeLen) : runTask (.walk i) ts s =
      .next { s with path := s.path ++ [false], stack := .right b s.path.length :: s.stack, todo := .walk a :: ts } := by
  simp only [runTask, walk, State.withNode, hnode, Node.mkInternal, Bool.false_eq_true, if_false, hpath, if_true,
    State.goOn]

/-- At a leaf the path is its symbol's code, and the walk goes on (R163). -/
theorem walk_leaf (ts : List Task) (hnode : s.nodeAt? i = some (Node.mkLeaf sym w)) (hsym : sym.toNat ≤ 256) :
    runTask (.walk i) ts s = walkOn ts (s.setCode sym (Code.ofPath s.path)) := by
  simp only [runTask, walk, State.withNode, hnode, Node.mkLeaf, if_true, Sym.isSymbol, hsym, decide_true]

/-- DERIVE within its walk. -/
def State.deriving (s : State) (code : Vector Code 257) (path : Bits) (stack : List Frame) (ts : List Task) : State :=
  { s with cv := false, code := code, path := path, stack := stack, todo := ts }

/-- The code table of a tree of two leaves. -/
def State.twoCodes (s : State) (x y : Sym) : State :=
  (s.clearCode.setCode x (Code.ofPath [false])).setCode y (Code.ofPath [true])

/-- DERIVE on a tree of two leaves: down to the left one by `0`, then to the right one by `1`. -/
theorem exec_derive_two_leaves {x y : Sym} {wx wy : Weight} (hs : ready s) (htv : s.tv = true)
    (hroot : s.nodeAt? s.root = some (Node.mkInternal w a b)) (ha : s.nodeAt? a = some (Node.mkLeaf x wx))
    (hb : s.nodeAt? b = some (Node.mkLeaf y wy)) (hx : x.toNat ≤ 256) (hy : y.toNat ≤ 256) :
    exec .derive s = .next { s.complete with cv := true, code := (s.twoCodes x y).code } := by
  have h0 := atLines_begin hs (commandWord .derive) deriveProgram
  have hat : ∀ code path stack ts,
      ((s.begin (commandWord .derive) deriveProgram).deriving code path stack ts).atLines ts :=
    fun _ _ _ _ => h0.of_frame rfl
  have hclear : Runs 1 _ ((s.begin (commandWord .derive) deriveProgram).deriving s.clearCode.code [] []
      [.walk s.root, .codeDone]) := h0.runs rfl
  have hdown := (hat s.clearCode.code [] [] _).runs (walk_internal [.codeDone] hroot (Nat.zero_lt_succ _))
  have hleft := (hat s.clearCode.code [false] [.right b 0] _).runs (walk_leaf [.codeDone] ha hx)
  have hright := (hat (s.clearCode.setCode x (Code.ofPath [false])).code [true] [] _).runs (walk_leaf [.codeDone] hb hy)
  have hdone := (hat (s.twoCodes x y).code [] [] [.codeDone]).runs rfl
  have hend := runs_complete (s := State.codesValid
    ((s.begin (commandWord .derive) deriveProgram).deriving (s.twoCodes x y).code [] [] [])) hs.2 rfl rfl
  have hrun := runs_trans hclear (runs_trans hdown (runs_trans hleft (runs_trans hright (runs_trans hdone hend))))
  exact issue_of_runs hs.1 htv hrun (le_budget (by omega)) (complete_not_running _)

end Walk

/-! ### An all-zero count (R128) -/

section AllZero

variable {s : State}

/-- The leaves of the placeholder and of END in an empty arena. -/
def twoLeaves : State :=
  (State.reset.queueNode (Node.mkLeaf placeholderSym 0#32)).queueNode (Node.mkLeaf endSym 1#32)

/-- The placeholder, of weight 0, is the first removed, so it is the left child (R128, R129). -/
theorem twoLeaves_mergeLeast : twoLeaves.mergeLeast.nodeAt? 0#10 = some (Node.mkLeaf placeholderSym 0#32) ∧
    twoLeaves.mergeLeast.nodeAt? 1#10 = some (Node.mkLeaf endSym 1#32) ∧
    twoLeaves.mergeLeast.nodeAt? 2#10 = some (Node.mkInternal 1#32 0#10 1#10) ∧ twoLeaves.mergeLeast.nnodes = 3#10 := by
  decide +kernel

/-- The placeholder and END alone have a leaf (R128). -/
theorem leafSymbols_of_all_zero (h : ∀ sym : Sym, sym.toNat < 256 → s.freqOf sym = 0#32) :
    leafSymbols s = [placeholderSym, endSym] := by
  have hempty : s.literalsEmpty = true := by
    by_contra hne
    obtain ⟨k, hk, hnonzero⟩ : ∃ k, ∃ h : k < 256, s.freq[k] ≠ 0#32 := by simpa [State.literalsEmpty] using hne
    have hsym : (BitVec.ofNat 9 k).toNat = k := toNat_ofNat_sym hk.le
    have hzero := h (BitVec.ofNat 9 k) (by omega)
    exact hnonzero (by simpa [State.freqOf, hsym, hk] using hzero)
  have hfilter : leafSymbols s = allSymbols.filter fun sym => sym = placeholderSym ∨ sym = endSym := by
    refine List.filter_congr fun sym hmem => ?_
    rcases (mem_allSymbols.1 hmem).lt_or_eq with hlt | hend
    · have hne : sym ≠ endSym := fun e => hlt.ne (congrArg BitVec.toNat e)
      simp [h sym hlt, hempty, hne]
    · obtain rfl : sym = endSym := BitVec.eq_of_toNat_eq hend
      simp [State.freqOf_end]
  rw [hfilter]
  decide +kernel

theorem freqSum_of_all_zero (h : ∀ sym : Sym, sym.toNat < 256 → s.freqOf sym = 0#32) : freqSum s = 1 := by
  rw [← weightSum_leafSymbols, leafSymbols_of_all_zero h]
  simp [weightSum, h placeholderSym (by decide), State.freqOf_end]

theorem grown_of_all_zero (h : ∀ sym : Sym, sym.toNat < 256 → s.freqOf sym = 0#32) :
    s.grown = s.clearTree.graft twoLeaves.mergeLeast := by
  have hsyms : leafSymbols s.clearTree = [placeholderSym, endSym] := leafSymbols_of_all_zero h
  have hzero : s.clearTree.freqOf placeholderSym = 0#32 := h placeholderSym (by decide)
  have hleaves : s.clearTree.insertLeaves = s.clearTree.graft twoLeaves := by
    rw [insertLeaves_eq_queueLeaves, hsyms]
    simp only [State.queueLeaves, List.foldl_cons, List.foldl_nil, hzero, State.freqOf_end]
    rfl
  have hone : (leafSymbols s).length - 1 = 1 := by rw [leafSymbols_of_all_zero h]; rfl
  rw [State.grown, hone, hleaves, Function.iterate_one, mergeLeast_graft]

end AllZero

/-- The codes of two symbols in such a table. -/
theorem twoCodes_codes {s : State} {x y : Sym} (hx : x.toNat ≤ 256) (hy : y.toNat ≤ 256) (hne : y ≠ x) :
    (s.twoCodes x y).codeOf x = Code.ofPath [false] ∧ (s.twoCodes x y).codeOf y = Code.ofPath [true] := by
  rw [State.twoCodes, State.codeOf_setCode _ _ _ hy, State.codeOf_setCode _ _ _ hy, if_neg hne, if_pos rfl,
    State.codeOf_setCode _ _ _ hx, if_pos rfl]
  exact ⟨rfl, rfl⟩

/-- Settles O32: BUILD merges the leaves of the placeholder and END, and DERIVE walks the three nodes. -/
theorem placeholderTree : Obligations.PlaceholderTree := by
  unfold Obligations.PlaceholderTree
  intro s hs hzero
  obtain ⟨hbuild, -⟩ := exec_build_of_fits hs (by rw [freqSum_of_all_zero hzero]; decide)
  obtain ⟨hleft, hright, hroot, hn⟩ := twoLeaves_mergeLeast
  have hgrown := grown_of_all_zero hzero
  generalize twoLeaves.mergeLeast = m at *
  have hat : ∀ i, s.afterBuild.nodeAt? i = m.nodeAt? i :=
    fun i => by simp only [State.nodeAt?, State.afterBuild, hgrown, State.graft_node]
  have hend : s.afterBuild = { s.complete with
      tv := true, cv := false, node := s.afterBuild.node, nnodes := 3#10, root := 2#10 } := by
    simp only [State.afterBuild, hgrown, State.graft_nnodes, hn]
    rfl
  rw [← hat] at hleft hright hroot
  generalize s.afterBuild = t at *
  have hready : ready t := by rw [hend]; exact ⟨Or.inr rfl, hs.2⟩
  have hderive := exec_derive_two_leaves hready (by rw [hend]) (by rw [hend] at hroot ⊢; exact hroot) hleft hright
    (by decide) (by decide)
  obtain ⟨hcode, hcode'⟩ := twoCodes_codes (s := t) (x := placeholderSym) (y := endSym) (by decide) (by decide)
    (by decide)
  refine ⟨t, _, hbuild, hderive, rfl, hend, ?tree, ?codeLeft, ?codeRight⟩
  case tree => exact ⟨0#10, 1#10, [0#10], [1#10], hroot, ⟨hleft, rfl⟩, ⟨hright, rfl⟩, rfl⟩
  case codeLeft => exact (congrArg Code.toBits hcode).trans (toBits_ofPath (by decide))
  case codeRight => exact (congrArg Code.toBits hcode').trans (toBits_ofPath (by decide))

end Sys2Proof.Machine
end

section
/-!
PROOFS. The numbering that RDHDR gives a tree's nodes, and the arena that it fills (R30, R147).
-/

namespace Sys2Proof.Safety

open Sys2Proof Sys2Proof.Machine

/-! ### Trees as RDHDR numbers them (R30, R147) -/

/-- The number of nodes. -/
def Shape.nodes : Shape → Nat
  | .leaf _ => 1
  | .node l r => 1 + l.nodes + r.nodes

/-- The arena after RDHDR has read a tree whose root has index i: the nodes in pre-order, each internal one written after its
subtrees (R147). -/
def Shape.plant : Shape → Idx → Vector Node 513 → Vector Node 513
  | .leaf sym, i, v => v.setIfInBounds i.toNat (Node.mkLeaf sym 0#32)
  | .node l r, i, v =>
    (r.plant (i + 1#10 + BitVec.ofNat 10 l.nodes) (l.plant (i + 1#10) v)).setIfInBounds i.toNat
      (Node.mkInternal 0#32 (i + 1#10) (i + 1#10 + BitVec.ofNat 10 l.nodes))

/-- The tree has room in the arena from index i on, and its leaves hold symbols 0 to 256. -/
def Shape.Fits (t : Shape) (i : Idx) : Prop := i.toNat + t.nodes ≤ 513 ∧ ∀ sym ∈ t.symbols, sym.toNat ≤ 256

theorem length_header_leaf (sym : Sym) : (Shape.leaf sym).header.length = 1 + 9 := by simp [Shape.header, recordBits]

theorem length_header_node (l r : Shape) :
    (Shape.node l r).header.length = 1 + l.header.length + r.header.length := by
  simp only [Shape.header, recordBits, List.length_append, List.length_singleton]

theorem header_node (l r : Shape) : (Shape.node l r).header = false :: (l.header ++ r.header) := rfl

theorem header_node_append (l r : Shape) (rest : Bits) :
    (Shape.node l r).header ++ rest = false :: (l.header ++ (r.header ++ rest)) := by
  rw [header_node, List.cons_append, List.append_assoc]

/-- A header of L leaves has 11 L - 1 bits (R94). -/
theorem length_header_add_one (t : Shape) : t.header.length + 1 = 11 * t.leaves := by
  induction t with
  | leaf sym => rw [length_header_leaf]; rfl
  | node l r ihl ihr => rw [length_header_node, Shape.leaves]; omega

theorem nodes_add_one (t : Shape) : t.nodes + 1 = 2 * t.leaves := by
  induction t with
  | leaf _ => rfl
  | node l r ihl ihr => simp only [Shape.nodes, Shape.leaves]; omega

theorem toNat_add_ofNat {i : Idx} {k : Nat} (h : i.toNat + k ≤ 513) : (i + BitVec.ofNat 10 k).toNat = i.toNat + k := by
  rw [BitVec.toNat_add, BitVec.toNat_ofNat]
  omega

/-- The left subtree takes the indices after the root's, the right subtree those after them (R30). -/
theorem fits_node_iff {l r : Shape} {i : Idx} (hi : i.toNat < 513) : (Shape.node l r).Fits i ↔
    l.Fits (i + 1#10) ∧ r.Fits (i + 1#10 + BitVec.ofNat 10 l.nodes) := by
  have hi' := toNat_nnodes_succ hi
  have hsyms : (∀ sym ∈ (Shape.node l r).symbols, sym.toNat ≤ 256) ↔
      (∀ sym ∈ l.symbols, sym.toNat ≤ 256) ∧ ∀ sym ∈ r.symbols, sym.toNat ≤ 256 := List.forall_mem_append
  simp only [Shape.Fits, hsyms, Shape.nodes]
  constructor
  · rintro ⟨hroom, hl, hr⟩
    have hn := toNat_add_ofNat (i := i + 1#10) (k := l.nodes) (by omega)
    exact ⟨⟨by omega, hl⟩, by omega, hr⟩
  · rintro ⟨⟨hroom, hl⟩, hroom', hr⟩
    have hn := toNat_add_ofNat hroom
    exact ⟨by omega, hl, hr⟩

theorem fits_lt {t : Shape} {i : Idx} (h : t.Fits i) : i.toNat < 513 := by
  have := nodes_add_one t
  have := leaves_pos t
  obtain ⟨hroom, -⟩ := h
  omega

theorem fits_zero_iff {t : Shape} : t.Fits 0#10 ↔ t.leaves ≤ 257 ∧ ∀ sym ∈ t.symbols, sym.toNat ≤ 256 := by
  have := nodes_add_one t
  have hroom : (0#10).toNat + t.nodes ≤ 513 ↔ t.leaves ≤ 257 := by
    rw [show (0#10).toNat = 0 from rfl]
    omega
  rw [Shape.Fits, hroom]

/-- Entries outside the tree's indices stay as they were. -/
theorem plant_getElem?_of_outside {t : Shape} {i : Idx} (v : Vector Node 513) {k : Nat} (hroom : i.toNat + t.nodes ≤ 513)
    (hk : k < i.toNat ∨ i.toNat + t.nodes ≤ k) : (t.plant i v)[k]? = v[k]? := by
  induction t generalizing i v with
  | leaf sym =>
    simp only [Shape.nodes] at hk
    exact Vector.getElem?_setIfInBounds_ne (by omega)
  | node l r ihl ihr =>
    simp only [Shape.nodes] at hroom hk
    have hi := toNat_nnodes_succ (n := i) (by omega)
    have hn := toNat_add_ofNat (i := i + 1#10) (k := l.nodes) (by omega)
    rw [Shape.plant, Vector.getElem?_setIfInBounds_ne (by omega), ihr _ (by omega) (by omega), ihl _ (by omega) (by omega)]

theorem toNat_ofNat_idx {n : Nat} (h : n ≤ 513) : (BitVec.ofNat 10 n).toNat = n := by
  rw [BitVec.toNat_ofNat]
  omega

/-- Two arenas with the same entries from n on agree at consecutive indices from n on. -/
theorem agree_range' {s u : State} {n m : Nat} (hroom : n + m ≤ 513)
    (h : ∀ k, n ≤ k → k < n + m → u.node[k]? = s.node[k]?) : Agree s u ((List.range' n m).map (BitVec.ofNat 10)) := by
  intro i hi
  obtain ⟨k, hk, rfl⟩ := List.mem_map.1 hi
  obtain ⟨hnk, hkm⟩ := List.mem_range'_1.1 hk
  simp only [State.nodeAt?, toNat_ofNat_idx (n := k) (by omega)]
  exact h k hnk hkm

/-- The planted arena holds the tree with all weights 0, its nodes at consecutive indices in pre-order (R30, R147). -/
theorem holds_plant {t : Shape} {n : Nat} (s : State) (v : Vector Node 513) (hroom : n + t.nodes ≤ 513) :
    holds { s with node := t.plant (BitVec.ofNat 10 n) v } t.bare (BitVec.ofNat 10 n)
      ((List.range' n t.nodes).map (BitVec.ofNat 10)) := by
  have hn := toNat_ofNat_idx ((Nat.le_add_right n _).trans hroom)
  induction t generalizing n v with
  | leaf sym =>
    simp only [Shape.nodes] at hroom
    refine ⟨?_, rfl⟩
    simp only [State.nodeAt?, Shape.plant, hn]
    exact Vector.getElem?_setIfInBounds_self_of_lt (by omega)
  | node l r ihl ihr =>
    simp only [Shape.nodes] at hroom
    have hl : BitVec.ofNat 10 n + 1#10 = BitVec.ofNat 10 (n + 1) := (BitVec.ofNat_add n 1).symm
    have hr : BitVec.ofNat 10 (n + 1) + BitVec.ofNat 10 l.nodes = BitVec.ofNat 10 (n + 1 + l.nodes) :=
      (BitVec.ofNat_add _ _).symm
    have hln : (BitVec.ofNat 10 (n + 1)).toNat = n + 1 := toNat_ofNat_idx (by omega)
    have hrn : (BitVec.ofNat 10 (n + 1 + l.nodes)).toNat = n + 1 + l.nodes := toNat_ofNat_idx (by omega)
    have hixs : (List.range' n (Shape.node l r).nodes).map (BitVec.ofNat 10) = BitVec.ofNat 10 n ::
        ((List.range' (n + 1) l.nodes).map (BitVec.ofNat 10) ++
          (List.range' (n + 1 + l.nodes) r.nodes).map (BitVec.ofNat 10)) := by
      rw [Shape.nodes, Nat.add_assoc, Nat.add_comm 1, List.range'_succ, List.map_cons, ← List.map_append,
        List.range'_append_1]
    have hleft := ihl v (by omega) hln
    have hright := ihr (l.plant (BitVec.ofNat 10 (n + 1)) v) (by omega) hrn
    simp only [Shape.plant, hl, hr, hn]
    refine ⟨_, _, _, _, ?root, holds_of_agree hleft (agree_range' (by omega) fun k hk hk' => ?left),
      holds_of_agree hright (agree_range' (by omega) fun k hk hk' => ?right), hixs⟩
    case root =>
      simp only [State.nodeAt?, hn]
      exact Vector.getElem?_setIfInBounds_self_of_lt (by omega)
    case left =>
      rw [Vector.getElem?_setIfInBounds_ne (by omega), plant_getElem?_of_outside _ (by omega) (by omega)]
    case right => exact Vector.getElem?_setIfInBounds_ne (by omega)

end Sys2Proof.Safety
end

section
/-!
PROOFS. RDHDR as a run of engine steps: the lines that read a subtree, and their faults (R147 to R149).
-/

namespace Sys2Proof.Machine

open Sys2Proof Sys2Proof.Safety

/-! ### Lines of RDHDR -/

section Lines

variable {s : State} {c : InChan}

theorem readTag_value {b : Bool} {rest : Bits} (ts : List Task) (h : inHas s c (b :: rest)) :
    runTask .readTag ts s = tagRead b ts { s with inp := some (advance c 1) } := by
  have hbit : decide (valOf 1 [b] = 1#1) = b := by cases b <;> decide
  simp only [runTask, readTag]
  rw [State.readIn_value (n := 1) (p := [b]) h rfl]
  simp only [hbit]

theorem readTag_eod (ts : List Task) (h : inHas s c []) : runTask .readTag ts s =
    .next (State.fail { s with inp := some { c with pos := c.data.length } } .truncatedStream) := by
  simp only [runTask, readTag]
  exact State.readIn_eod h Nat.zero_lt_one

/-- With 513 nodes given out the tag of another record fails (R149). -/
theorem readTag_full {b : Bool} {rest : Bits} (ts : List Task) (h : inHas s c (b :: rest)) (hn : ¬ s.nnodes.toNat < 513) :
    runTask .readTag ts s = .next (State.fail { s with inp := some (advance c 1) } .treeOverflow) :=
  (readTag_value ts h).trans (if_neg hn)

theorem readSym_value {i : Idx} {sym : Sym} {rest : Bits} (ts : List Task) (h : inHas s c (bitsOf sym ++ rest)) :
    runTask (.readSym i) ts s = symRead i sym ts { s with inp := some (advance c 9) } := by
  simp only [runTask, readSym, State.readIn_value h (length_bitsOf sym), valOf_bitsOf]

theorem readSym_eod {i : Idx} {bits : Bits} (ts : List Task) (h : inHas s c bits) (hlen : bits.length < 9) :
    runTask (.readSym i) ts s =
      .next (State.fail { s with inp := some { c with pos := c.data.length } } .truncatedStream) := by
  simp only [runTask, readSym]
  exact State.readIn_eod h hlen

/-- A symbol above 256 fails (R148). -/
theorem readSym_bad {i : Idx} {sym : Sym} {rest : Bits} (ts : List Task) (h : inHas s c (bitsOf sym ++ rest))
    (hsym : 256 < sym.toNat) :
    runTask (.readSym i) ts s = .next (State.fail { s with inp := some (advance c 9) } .badSymbol) := by
  rw [readSym_value ts h, symRead, if_neg (by simpa [Sym.isSymbol] using hsym)]
  rfl

/-- The return of rd() writes STACK and the lines to come itself: what they were before does not matter (R147). -/
theorem closeNode_frame (st : List Frame) (i : Idx) (ts : List Task) (s : State) (x : List Frame) (us : List Task) :
    closeNode st i ts { s with stack := x, todo := us } = closeNode st i ts s := by
  induction st generalizing i s with
  | nil => rfl
  | cons f st ih =>
    cases f with
    | visit _ => rfl
    | right _ _ => rfl
    | opened p => rfl
    | half p l => exact ih p (s.setNode p (Node.mkInternal 0#32 l i))

end Lines

/-! ### The run that reads a subtree -/

section Reading

variable {u : State} {c : InChan} {ts : List Task}

/-- k engine steps and one more lead to the answer. -/
def Answers (k : Nat) (s : State) (r : Result) : Prop := ∃ m, Runs k s m ∧ m.running = true ∧ engineStep m = r

theorem Answers.runs {k : Nat} {s t : State} (h : Answers k s (.next t)) : Runs (k + 1) s t := by
  obtain ⟨m, hruns, hrunning, hstep⟩ := h
  exact runs_trans hruns (runs_one hrunning hstep)

theorem Answers.after {j k : Nat} {s m : State} {r : Result} (h : Answers k m r) (hruns : Runs j s m) :
    Answers (j + k) s r := by
  obtain ⟨m', hruns', hlast⟩ := h
  exact ⟨m', runs_trans hruns hruns', hlast⟩

theorem State.atLines.answers {s : State} {x : Task} {xs : List Task} (h : s.atLines (x :: xs)) :
    Answers 0 s (runTask x xs s) := by
  obtain ⟨hq, hb, htodo⟩ := h
  exact ⟨s, runs_zero s, State.running_of_quiet hq hb, engineStep_cons hq htodo⟩

/-- The record of an internal node is read: it is open (R147). -/
def State.withOpened (u : State) (c : InChan) : State :=
  { u with inp := some (advance c 1), nnodes := u.nnodes + 1#10, stack := .opened u.nnodes :: u.stack }

/-- A tree is read, the channel before it being c. -/
def State.withTree (u : State) (c : InChan) (t : Shape) : State :=
  { u with inp := some (advance c t.header.length), nnodes := u.nnodes + BitVec.ofNat 10 t.nodes,
           node := t.plant u.nnodes u.node }

/-- The record of an internal node and its left subtree are read (R147). -/
def State.withHalf (u : State) (c : InChan) (l : Shape) : State :=
  { (u.withOpened c).withTree (advance c 1) l with stack := .half u.nnodes (u.nnodes + 1#10) :: u.stack }

/-- RDHDR reads a tree at its next records and returns it, a step for each transaction. -/
def ReadsTree (u : State) (c : InChan) (ts : List Task) (t : Shape) : Prop :=
  ∃ k < t.header.length, Answers k u (closeNode u.stack u.nnodes ts (u.withTree c t))

theorem State.atLines.leafTagged (h : u.atLines (.readTag :: ts)) (c : InChan) :
    (u.leafTagged c ts).atLines (.readSym u.nnodes :: ts) := h.of_frame rfl

theorem State.atLines.withOpened (h : u.atLines (.readTag :: ts)) (c : InChan) :
    (u.withOpened c).atLines (.readTag :: ts) := by
  obtain ⟨-, -, htodo⟩ := id h
  exact h.of_frame htodo

theorem State.atLines.withHalf (h : u.atLines (.readTag :: ts)) (c : InChan) (l : Shape) :
    (u.withHalf c l).atLines (.readTag :: ts) := by
  obtain ⟨-, -, htodo⟩ := id h
  exact h.of_frame htodo

theorem runs_leafTagged {rest : Bits} (h : u.atLines (.readTag :: ts)) (hin : inHas u c (true :: rest))
    (hn : u.nnodes.toNat < 513) : Runs 1 u (u.leafTagged c ts) := h.runs ((readTag_value ts hin).trans (if_pos hn))

theorem inHas_leafTagged {rest : Bits} (hin : inHas u c (true :: rest)) (ts : List Task) :
    inHas (u.leafTagged c ts) (advance c 1) rest := inHas_advance (p := [true]) hin _ rfl

theorem runs_opened {rest : Bits} (h : u.atLines (.readTag :: ts)) (hin : inHas u c (false :: rest))
    (hn : u.nnodes.toNat < 513) : Runs 1 u (u.withOpened c) := by
  obtain ⟨-, -, htodo⟩ := id h
  refine h.runs ((readTag_value ts hin).trans ((if_pos hn).trans ?_))
  rw [State.withOpened, ← htodo]
  rfl

theorem inHas_opened {rest : Bits} (hin : inHas u c (false :: rest)) : inHas (u.withOpened c) (advance c 1) rest :=
  inHas_advance (p := [false]) hin _ rfl

theorem inHas_half {l : Shape} {rest : Bits} (hin : inHas u c (false :: (l.header ++ rest))) :
    inHas (u.withHalf c l) (advance (advance c 1) l.header.length) rest :=
  inHas_advance (inHas_opened hin) _ rfl

/-- The return of the left subtree to its node (R147). -/
theorem runs_half {l : Shape} {rest : Bits} (h : u.atLines (.readTag :: ts))
    (hin : inHas u c (false :: (l.header ++ rest))) (hn : u.nnodes.toNat < 513)
    (hl : ReadsTree (u.withOpened c) (advance c 1) ts l) : ∃ k ≤ l.header.length, Runs (1 + k) u (u.withHalf c l) := by
  obtain ⟨-, -, htodo⟩ := id h
  obtain ⟨k, hk, hl⟩ := hl
  have hreturn : closeNode (u.withOpened c).stack (u.withOpened c).nnodes ts ((u.withOpened c).withTree (advance c 1) l) =
      .next (u.withHalf c l) := by
    rw [State.withHalf, State.withTree, State.withOpened, htodo]
    rfl
  rw [hreturn] at hl
  exact ⟨k + 1, hk, runs_trans (runs_opened h hin hn) hl.runs⟩

/-- A leaf's symbol completes the tree of that leaf. -/
theorem closeNode_withTree_leaf (sym : Sym) : closeNode u.stack u.nnodes ts (u.withTree c (.leaf sym)) =
    closeNode (u.leafTagged c ts).stack u.nnodes ts (State.setNode
      { u.leafTagged c ts with inp := some (advance (advance c 1) 9) } u.nnodes (Node.mkLeaf sym 0#32)) := by
  rw [← closeNode_frame _ _ _ (u.withTree c (.leaf sym)) u.stack (.readSym u.nnodes :: ts), State.withTree,
    length_header_leaf, ← advance_advance]
  rfl

/-- The right subtree's return completes its node. -/
theorem closeNode_withTree_node (l r : Shape) : closeNode u.stack u.nnodes ts (u.withTree c (.node l r)) =
    closeNode (u.withHalf c l).stack (u.withHalf c l).nnodes ts
      ((u.withHalf c l).withTree (advance (advance c 1) l.header.length) r) := by
  have hnodes : u.nnodes + BitVec.ofNat 10 (Shape.node l r).nodes =
      u.nnodes + 1#10 + BitVec.ofNat 10 l.nodes + BitVec.ofNat 10 r.nodes := by
    rw [Shape.nodes, BitVec.ofNat_add, BitVec.ofNat_add, ← BitVec.add_assoc, ← BitVec.add_assoc]
  rw [← closeNode_frame _ _ _ (u.withTree c (.node l r)) (u.withHalf c l).stack u.todo, State.withTree, hnodes,
    length_header_node, ← advance_advance, ← advance_advance]
  rfl

/-- RDHDR reads every tree that fits (R147): by induction on the tree, the left subtree's return leaves its node half-read, the
right subtree's return closes it. -/
theorem readsTree {t : Shape} {rest : Bits} (h : u.atLines (.readTag :: ts)) (ht : t.Fits u.nnodes)
    (hin : inHas u c (t.header ++ rest)) : ReadsTree u c ts t := by
  induction t generalizing u c rest with
  | leaf sym =>
    obtain ⟨-, hsyms⟩ := id ht
    have hsym : sym.isSymbol = true := decide_eq_true (hsyms sym (List.mem_singleton_self sym))
    have hlast := (h.leafTagged c).answers
    rw [readSym_value ts (inHas_leafTagged hin ts), symRead, if_pos hsym] at hlast
    refine ⟨1, by rw [length_header_leaf]; decide, ?_⟩
    rw [closeNode_withTree_leaf]
    exact hlast.after (runs_leafTagged h hin (fits_lt ht))
  | node l r ihl ihr =>
    have hn := fits_lt ht
    obtain ⟨hl, hr⟩ := (fits_node_iff hn).1 ht
    rw [header_node_append] at hin
    obtain ⟨j, hj, hhalf⟩ := runs_half h hin hn (ihl (h.withOpened c) hl (inHas_opened hin))
    obtain ⟨k, hk, hlast⟩ := ihr (h.withHalf c l) hr (inHas_half hin)
    refine ⟨1 + j + k, by rw [length_header_node]; omega, ?_⟩
    rw [closeNode_withTree_node]
    exact hlast.after hhalf

/-! ### The runs that fail -/

/-- Within m steps the header comes to a fault, IN being d then, and nothing but IN and the arena is different (R148, R149,
R153). -/
def HeaderFails (u : State) (m : Nat) (e : ErrCode) (d : InChan) : Prop :=
  ∃ k ≤ m, ∃ n v, Runs k u (State.fail { u with inp := some d, nnodes := n, node := v } e)

theorem HeaderFails.mono {m m' : Nat} {e : ErrCode} {d : InChan} (h : HeaderFails u m e d) (hm : m ≤ m') :
    HeaderFails u m' e d := by
  obtain ⟨k, hk, hfail⟩ := h
  exact ⟨k, hk.trans hm, hfail⟩

/-- A fault after some lines of the header. -/
theorem HeaderFails.after {w : State} {j m : Nat} {e : ErrCode} {d : InChan} (h : HeaderFails w m e d) (hruns : Runs j u w)
    (hframe : w = { u with inp := w.inp, nnodes := w.nnodes, node := w.node, stack := w.stack, todo := w.todo } := by rfl) :
    HeaderFails u (j + m) e d := by
  obtain ⟨k, hk, n, v, hfail⟩ := h
  rw [hframe] at hfail
  rw [hframe] at hruns
  exact ⟨j + k, Nat.add_le_add_left hk j, n, v, runs_trans hruns hfail⟩

theorem headerFails_of_line {x : Task} {xs : List Task} {e : ErrCode} {d : InChan} (h : u.atLines (x :: xs))
    (hx : runTask x xs u = .next (State.fail { u with inp := some d } e)) : HeaderFails u 1 e d :=
  ⟨1, le_rfl, u.nnodes, u.node, h.runs hx⟩

/-- A leaf record whose symbol's line fails. -/
theorem headerFails_leaf {rest : Bits} {e : ErrCode} {d : InChan} (h : u.atLines (.readTag :: ts))
    (hin : inHas u c (true :: rest)) (hn : u.nnodes.toNat < 513)
    (hx : runTask (.readSym u.nnodes) ts (u.leafTagged c ts) =
      .next (State.fail { u.leafTagged c ts with inp := some d } e)) : HeaderFails u 2 e d :=
  (headerFails_of_line (h.leafTagged c) hx).after (runs_leafTagged h hin hn)

/-- A fault in the left subtree. -/
theorem headerFails_left {rest : Bits} {m : Nat} {e : ErrCode} {d : InChan} (h : u.atLines (.readTag :: ts))
    (hin : inHas u c (false :: rest)) (hn : u.nnodes.toNat < 513) (hl : HeaderFails (u.withOpened c) m e d) :
    HeaderFails u (1 + m) e d := hl.after (runs_opened h hin hn)

/-- A fault in the right subtree. -/
theorem headerFails_right {l : Shape} {rest : Bits} {m : Nat} {e : ErrCode} {d : InChan} (h : u.atLines (.readTag :: ts))
    (hin : inHas u c (false :: (l.header ++ rest))) (hn : u.nnodes.toNat < 513) (hl : l.Fits (u.nnodes + 1#10))
    (hr : HeaderFails (u.withHalf c l) m e d) : HeaderFails u (1 + l.header.length + m) e d := by
  obtain ⟨k, hk, hruns⟩ := runs_half h hin hn (readsTree (h.withOpened c) hl (inHas_opened hin))
  exact (hr.after hruns).mono (by omega)

/-- A header that ends early fails at the end of IN (R153): by induction on the tree, in the left subtree or in the right. -/
theorem headerFails_truncated {t : Shape} {bits more : Bits} (h : u.atLines (.readTag :: ts)) (ht : t.Fits u.nnodes)
    (hin : inHas u c bits) (hbits : t.header = bits ++ more) (hmore : more ≠ []) :
    HeaderFails u (bits.length + 1) .truncatedStream { c with pos := c.data.length } := by
  have hn := fits_lt ht
  induction t generalizing u c bits more with
  | leaf sym =>
    have hlen := congrArg List.length hbits
    have hpos := List.length_pos_iff.2 hmore
    rw [length_header_leaf, List.length_append] at hlen
    cases bits with
    | nil => exact headerFails_of_line h (readTag_eod ts hin)
    | cons b p =>
      obtain ⟨rfl, -⟩ := List.cons.inj hbits
      rw [List.length_cons] at hlen ⊢
      exact (headerFails_leaf h hin hn (readSym_eod ts (inHas_leafTagged hin ts) (by omega))).mono (by omega)
  | node l r ihl ihr =>
    obtain ⟨hl, hr⟩ := (fits_node_iff hn).1 ht
    cases bits with
    | nil => exact headerFails_of_line h (readTag_eod ts hin)
    | cons b p =>
      rw [header_node, List.cons_append] at hbits
      obtain ⟨rfl, htail⟩ := List.cons.inj hbits
      have hright : ∀ q, p = l.header ++ q → r.header = q ++ more →
          HeaderFails u ((false :: p).length + 1) .truncatedStream { c with pos := c.data.length } := by
        rintro q rfl hq
        have hfail := ihr (h.withHalf c l) hr (inHas_half hin) hq hmore (fits_lt hr)
        exact (headerFails_right h hin hn hl hfail).mono (by rw [List.length_cons, List.length_append]; omega)
      rcases List.append_eq_append_iff.1 htail with ⟨q, hp, hq⟩ | ⟨q, hp, hq⟩
      · exact hright q hp hq
      · cases q with
        | nil => exact hright [] (by simpa using hp.symm) hq.symm
        | cons a q =>
          have hfail := ihl (h.withOpened c) hl (inHas_opened hin) hp (List.cons_ne_nil a q) (fits_lt hl)
          exact (headerFails_left h hin hn hfail).mono (by rw [List.length_cons]; omega)

/-- IN begins with the header of a tree that fits. -/
def BeginsWithHeader (u : State) (bits : Bits) : Prop :=
  ∃ (t : Shape) (rest : Bits), bits = t.header ++ rest ∧ t.Fits u.nnodes

/-- A leaf's record is read, or it fails: it ends early or its symbol is above 256. -/
theorem leaf_or_fails {p : Bits} (h : u.atLines (.readTag :: ts)) (hin : inHas u c (true :: p)) (hn : u.nnodes.toNat < 513) :
    BeginsWithHeader u (true :: p) ∨ ∃ e d, HeaderFails u 2 e d := by
  have hin' := inHas_leafTagged hin ts
  by_cases hp : p.length < 9
  case pos => exact Or.inr ⟨_, _, headerFails_leaf h hin hn (readSym_eod ts hin' hp)⟩
  case neg =>
    obtain ⟨sym, rest, rfl⟩ : ∃ (sym : Sym) (rest : Bits), p = bitsOf sym ++ rest :=
      ⟨valOf 9 (p.take 9), p.drop 9, by
        rw [bitsOf_valOf 9 _ (List.length_take_of_le (Nat.not_lt.1 hp)), List.take_append_drop]⟩
    by_cases hsym : sym.toNat ≤ 256
    case pos => exact Or.inl ⟨.leaf sym, rest, rfl, hn, by simpa [Shape.symbols] using hsym⟩
    case neg => exact Or.inr ⟨_, _, headerFails_leaf h hin hn (readSym_bad ts hin' (Nat.not_le.1 hsym))⟩

/-- Whatever bits stand in IN, they begin with the header of a tree that fits, or RDHDR fails (R148, R149, R153): by induction on
their number, since a subtree's header has at least one bit. -/
theorem header_or_fails {bits : Bits} (h : u.atLines (.readTag :: ts)) (hin : inHas u c bits) :
    BeginsWithHeader u bits ∨ ∃ e d, HeaderFails u (bits.length + 1) e d := by
  induction hlen : bits.length using Nat.strong_induction_on generalizing u c bits with
  | h m ih =>
    subst hlen
    cases bits with
    | nil => exact Or.inr ⟨_, _, headerFails_of_line h (readTag_eod ts hin)⟩
    | cons b p =>
      rw [List.length_cons] at ih ⊢
      by_cases hn : u.nnodes.toNat < 513
      case neg => exact Or.inr ⟨_, _, (headerFails_of_line h (readTag_full ts hin hn)).mono (by omega)⟩
      cases b with
      | true =>
        exact (leaf_or_fails h hin hn).imp_right fun ⟨e, d, hfail⟩ => ⟨e, d, hfail.mono (by omega)⟩
      | false =>
        rcases ih p.length (by omega) (h.withOpened c) (inHas_opened hin) rfl with ⟨l, q, rfl, hl⟩ | ⟨e, d, hfail⟩
        case inr => exact Or.inr ⟨e, d, (headerFails_left h hin hn hfail).mono (by omega)⟩
        rw [List.length_append] at ih ⊢
        rcases ih q.length (by omega) (h.withHalf c l) (inHas_half hin) rfl with ⟨r, rest, rfl, hr⟩ | ⟨e, d, hfail⟩
        case inr => exact Or.inr ⟨e, d, (headerFails_right h hin hn hl hfail).mono (by omega)⟩
        exact Or.inl ⟨.node l r, rest, (header_node_append l r rest).symm, (fits_node_iff hn).2 ⟨hl, hr⟩⟩

end Reading

end Sys2Proof.Machine
end

section
/-!
PROOFS. RDHDR as a command: the tree that it leaves, and its faults (R147 to R153).
-/

namespace Sys2Proof.Machine

open Sys2Proof Sys2Proof.Safety

/-! ### From the cleared arena to the check of the root -/

section Lines

variable {u : State} {c : InChan} {t : Shape} {ts : List Task}

/-- The first line is behind, the header's first record next (R147). -/
def State.atHeader (u : State) (ts : List Task) : State := { u.clearTree with todo := .readTag :: ts }

/-- The whole tree is read, its root to be checked (R150). -/
def State.atCheck (u : State) (c : InChan) (t : Shape) (ts : List Task) : State :=
  { u.clearTree.withTree c t with todo := .checkRoot 0#10 :: ts }

/-- The whole tree is read and accepted (R147, R150). -/
def State.withHeader (u : State) (c : InChan) (t : Shape) (ts : List Task) : State :=
  (u.clearTree.withTree c t).headerRead 0#10 ts

theorem State.atLines.atHeader (h : u.atLines (.treeClear :: .readTag :: ts)) :
    (u.atHeader ts).atLines (.readTag :: ts) := h.of_frame rfl

theorem State.atLines.atCheck (h : u.atLines (.treeClear :: .readTag :: ts)) :
    (u.atCheck c t ts).atLines (.checkRoot 0#10 :: ts) := h.of_frame rfl

theorem runs_atHeader (h : u.atLines (.treeClear :: .readTag :: ts)) : Runs 1 u (u.atHeader ts) := h.runs rfl

/-- The header's records lead to the check of the root, which is node 0 (R30). -/
theorem runs_checkRoot {rest : Bits} (h : u.atLines (.treeClear :: .readTag :: ts)) (ht : t.Fits 0#10)
    (hin : inHas u c (t.header ++ rest)) : ∃ k ≤ t.header.length + 1,
      Runs k u (u.atCheck c t ts) := by
  obtain ⟨k, hk, hlast⟩ := readsTree (u := u.atHeader ts) (c := c) h.atHeader ht hin
  exact ⟨1 + (k + 1), by omega, runs_trans (runs_atHeader h) hlast.runs⟩

/-- The arena then holds the tree, its nodes numbered in pre-order (R30). -/
theorem holds_atCheck (hroom : t.nodes ≤ 513) :
    holds (u.atCheck c t ts) t.bare 0#10 ((List.range t.nodes).map (BitVec.ofNat 10)) := by
  have hplant := holds_plant (t := t) (n := 0) (u.atCheck c t ts) (Vector.replicate 513 Node.zero)
    ((Nat.zero_add _).trans_le hroom)
  rwa [← List.range_eq_range'] at hplant

theorem holds_withHeader (hroom : t.nodes ≤ 513) :
    holds (u.withHeader c t ts) t.bare 0#10 ((List.range t.nodes).map (BitVec.ofNat 10)) :=
  holds_of_agree (holds_atCheck (u := u) (c := c) (ts := ts) hroom) (agree_of_node_eq rfl _)

theorem checkRoot_internal {i a b : Idx} {w : Weight} (ts : List Task)
    (h : u.nodeAt? i = some (Node.mkInternal w a b)) : runTask (.checkRoot i) ts u = .next (u.headerRead i ts) := by
  have hnode : State.nodeAt? { u with root := i } i = some (Node.mkInternal w a b) := h
  simp only [runTask, checkRoot, State.withNode, hnode, Node.mkInternal, Bool.false_eq_true, if_false]
  rfl

theorem checkRoot_leaf {i : Idx} {sym : Sym} {w : Weight} (ts : List Task)
    (h : u.nodeAt? i = some (Node.mkLeaf sym w)) :
    runTask (.checkRoot i) ts u = .next (State.fail { u with root := i } .degenerateTree) := by
  have hnode : State.nodeAt? { u with root := i } i = some (Node.mkLeaf sym w) := h
  simp only [runTask, checkRoot, State.withNode, hnode, Node.mkLeaf, if_true, State.raise]

/-- The lines of RDHDR read the header of a tree of at least two leaves (R147, R199). -/
theorem runs_withHeader {rest : Bits} (h : u.atLines (rdhdrProgram ++ ts)) (hb : t.branches = true) (ht : t.Fits 0#10)
    (hin : inHas u c (t.header ++ rest)) : ∃ k ≤ t.header.length + 2, Runs k u (u.withHeader c t ts) := by
  obtain ⟨k, hk, hruns⟩ := runs_checkRoot h ht hin
  obtain ⟨hroom, -⟩ := ht
  have hholds := holds_atCheck (u := u) (c := c) (ts := ts) ((Nat.le_add_left _ _).trans hroom)
  cases t with
  | leaf _ => cases hb
  | node l r =>
    obtain ⟨a, b, la, lb, hroot, -⟩ := hholds
    exact ⟨k + 1, by omega, runs_trans hruns (h.atCheck.runs (checkRoot_internal ts hroot))⟩

end Lines

/-! ### The command -/

section Command

variable {s : State} {c : InChan} {t : Shape}

/-- RDHDR of the header of a tree of at least two leaves ends in DONE with that tree. -/
theorem exec_rdhdr_header {rest : Bits} (hs : ready s) (hin : inHas s c (t.header ++ rest)) (hb : t.branches = true)
    (ht : t.Fits 0#10) : exec .rdhdr s = .next (s.withHeader c t []).complete := by
  have hbegin := atLines_begin hs (commandWord .rdhdr) rdhdrProgram
  obtain ⟨k, hk, hruns⟩ := runs_withHeader (ts := []) hbegin hb ht (c := c) hin
  have hlen := length_le_inBits hin
  rw [List.length_append] at hlen
  have hend := runs_complete (s := (s.begin (commandWord .rdhdr) rdhdrProgram).withHeader c t []) hs.2 rfl rfl
  exact issue_of_runs hs.1 rfl (runs_trans hruns hend) (le_budget (by omega)) (complete_not_running _)

/-- RDHDR of the header of a single leaf fails after it (R150). -/
theorem exec_rdhdr_leaf {sym : Sym} {rest : Bits} (hs : ready s) (hin : inHas s c ((Shape.leaf sym).header ++ rest))
    (hsym : sym.toNat ≤ 256) : exec .rdhdr s = .next (State.fail (s.clearTree.withTree c (.leaf sym)) .degenerateTree) := by
  have hbegin := atLines_begin hs (commandWord .rdhdr) rdhdrProgram
  have hfits : (Shape.leaf sym).Fits 0#10 := fits_zero_iff.2 ⟨(by decide : 1 ≤ 257), by simpa [Shape.symbols] using hsym⟩
  obtain ⟨k, hk, hruns⟩ := runs_checkRoot (ts := []) hbegin hfits (c := c) hin
  have hlen := length_le_inBits hin
  rw [List.length_append] at hlen
  obtain ⟨hroot, -⟩ := holds_atCheck (t := .leaf sym) (by decide : 1 ≤ 513)
  have hend := hbegin.atCheck.runs (checkRoot_leaf [] hroot)
  exact issue_of_runs hs.1 rfl (runs_trans hruns hend) (le_budget (by omega)) (fail_not_running _ _)

/-- A fault of the header is RDHDR's: nothing but the arena, the flags and IN is different (R222). -/
theorem exec_rdhdr_fails {bits : Bits} {e : ErrCode} {d : InChan} (hs : ready s) (hin : inHas s c bits)
    (hfail : HeaderFails ((s.begin (commandWord .rdhdr) rdhdrProgram).atHeader []) (bits.length + 1) e d) :
    ∃ n v, exec .rdhdr s = .next (State.fail { s.clearTree with inp := some d, nnodes := n, node := v } e) := by
  have hbegin := atLines_begin hs (commandWord .rdhdr) rdhdrProgram
  obtain ⟨k, hk, n, v, hruns⟩ := hfail
  have hlen := length_le_inBits hin
  exact ⟨n, v, issue_of_runs hs.1 rfl (runs_trans (runs_atHeader hbegin) hruns) (le_budget (by omega))
    (fail_not_running _ _)⟩

/-- RDHDR of a header that begins with a leaf record of 257 to 511 fails after it (R148). -/
theorem exec_rdhdr_badSymbol {sym : Sym} {rest : Bits} (hs : ready s) (hin : inHas s c (true :: (bitsOf sym ++ rest)))
    (hsym : 256 < sym.toNat) :
    ∃ n v, exec .rdhdr s = .next (State.fail { s.clearTree with inp := some (advance c 10), nnodes := n, node := v }
      .badSymbol) := by
  have hat := (atLines_begin hs (commandWord .rdhdr) rdhdrProgram).atHeader
  have hin' : inHas ((s.begin (commandWord .rdhdr) rdhdrProgram).atHeader []) c (true :: (bitsOf sym ++ rest)) := hin
  have hbad := readSym_bad (i := 0#10) [] (inHas_leafTagged hin' []) hsym
  have hfail := headerFails_leaf hat hin' (Nat.zero_lt_succ _) hbad
  exact exec_rdhdr_fails hs hin (hfail.mono (Nat.le_add_left 2 _))

/-- RDHDR that ends in DONE has read the header of a tree of 2 to 257 leaves with symbols 0 to 256. -/
theorem exec_rdhdr_done {bits : Bits} {v : State} (hs : ready s) (hin : inHas s c bits) (hexec : exec .rdhdr s = .next v)
    (hdone : v.phase = .done) : ∃ (t : Shape) (rest : Bits), bits = t.header ++ rest ∧ t.branches = true ∧ t.Fits 0#10 ∧
      v = (s.withHeader c t []).complete := by
  have hbegin := (atLines_begin hs (commandWord .rdhdr) rdhdrProgram).atHeader
  rcases header_or_fails (c := c) hbegin hin with ⟨t, rest, rfl, hfits⟩ | ⟨e, d, hfail⟩
  case inr =>
    obtain ⟨n, w, hend⟩ := exec_rdhdr_fails hs hin hfail
    cases hend.symm.trans hexec
    cases hdone
  cases t with
  | leaf sym =>
    obtain ⟨-, hsyms⟩ := hfits
    cases (exec_rdhdr_leaf hs hin (hsyms sym (List.mem_singleton_self sym))).symm.trans hexec
    cases hdone
  | node l r =>
    cases (exec_rdhdr_header hs hin rfl hfits).symm.trans hexec
    exact ⟨.node l r, rest, rfl, rfl, hfits, rfl⟩

end Command

/-- Settles O36, by induction on the tree (`readsTree`, `holds_plant`); items 1 to 5 of R37 are O39's. -/
theorem readsHeader : Obligations.ReadsHeader := by
  unfold Obligations.ReadsHeader
  intro s c t rest hs hin hb hleaves hsyms
  have hfits := fits_zero_iff.2 ⟨hleaves, hsyms⟩
  have hexec := exec_rdhdr_header hs hin hb hfits
  obtain ⟨u, hexec', -, -, -, ⟨-, -, -, htree, htail⟩ | ⟨hphase, -⟩⟩ := readHeaderIsSound s c _ hs hin
  case inr =>
    cases hexec.symm.trans hexec'
    cases hphase
  cases hexec.symm.trans hexec'
  have hnodes : t.nodes = 2 * t.leaves - 1 := by have := nodes_add_one t; omega
  obtain ⟨hroom, -⟩ := hfits
  refine ⟨_, hexec, rfl, ?count, ?holds, htree, htail⟩
  case count => exact (toNat_add_ofNat (i := 0#10) hroom).trans ((Nat.zero_add _).trans hnodes)
  case holds =>
    rw [← hnodes]
    exact holds_of_agree (holds_withHeader (u := s) (c := c) (ts := []) (by omega)) (agree_of_node_eq rfl _)

/-- Settles O38: a leaf alone, a header that ends early, and the tag that finds the arena full. -/
theorem headerFaults : Obligations.HeaderFaults := by
  unfold Obligations.HeaderFaults
  refine ⟨fun s c sym rest hs hin => ?leaf, fun s c t bits more hs hin hbits hmore hleaves hsyms => ?short,
    fun s c b rest ts hb hq htodo hin hn => (engineStep_cons hq htodo).trans (readTag_full ts hin (Nat.not_lt.2 hn))⟩
  case leaf =>
    split
    next hsym =>
      refine ⟨_, exec_rdhdr_leaf hs hin hsym, rfl, rfl, ?_, rfl⟩
      show some (advance c (Shape.leaf sym).header.length) = some (advance c 10)
      rw [length_header_leaf]
    next hsym =>
      obtain ⟨n, v, hexec⟩ := exec_rdhdr_badSymbol hs hin (Nat.not_le.1 hsym)
      exact ⟨_, hexec, rfl, rfl, rfl, rfl⟩
  case short =>
    have hat := (atLines_begin hs (commandWord .rdhdr) rdhdrProgram).atHeader
    obtain ⟨n, v, hexec⟩ := exec_rdhdr_fails hs hin
      (headerFails_truncated hat (fits_zero_iff.2 ⟨hleaves, hsyms⟩) hin hbits hmore)
    exact ⟨_, hexec, rfl, rfl, rfl⟩

end Sys2Proof.Machine
end

section
/-!
PROOFS. WRHDR: the run that writes a subtree, and that WRHDR and RDHDR are inverses (R143, R92, R94, R152).
-/

namespace Sys2Proof.Machine

open Sys2Proof Sys2Proof.Safety

/-! ### The run that writes a subtree -/

theorem holdsRoot_of_frame {s u : State} {t : Tree} (h : holdsRoot s t) (hnode : u.node = s.node := by rfl)
    (hroot : u.root = s.root := by rfl) : holdsRoot u t := by
  obtain ⟨ixs, h⟩ := h
  exact ⟨ixs, hroot ▸ holds_of_agree h (agree_of_node_eq hnode ixs)⟩

section Lines

variable {s : State} {c : OutChan} {i : Idx} {st : List Frame} {us : List Task} {w : Weight}

/-- WRHDR with the given channel, the nodes still to be written, and the lines to come. -/
def State.writing (s : State) (c : OutChan) (st : List Frame) (ts : List Task) : State :=
  { s with out := some c, stack := st, todo := ts }

theorem State.atLines.writing (h : s.atLines us) (c : OutChan) (st : List Frame) (ts : List Task) :
    (s.writing c st ts).atLines ts := h.of_frame rfl

theorem outOpen_writing (h : outOpen s c) (p : Bits) (st : List Frame) (ts : List Task) :
    outOpen (s.writing (append c p) st ts) (append c p) := outOpen_append h _ rfl

theorem writeNode_visit {x : Node} (ts : List Task) (hnode : s.nodeAt? i = some x) :
    runTask .writeNode ts (s.writing c (.visit i :: st) us) = writeRecord x st ts (s.writing c (.visit i :: st) us) := by
  have hnode' : (s.writing c (.visit i :: st) us).nodeAt? i = some x := hnode
  calc runTask .writeNode ts (s.writing c (.visit i :: st) us)
    _ = (s.writing c (.visit i :: st) us).withNode i fun x =>
          writeRecord x st ts (s.writing c (.visit i :: st) us) := rfl
    _ = _ := by simp only [State.withNode, hnode']

/-- An internal node is `0`, and its children are still to be written (R143). -/
theorem writeNode_internal {a b : Idx} (ts : List Task) (hout : outOpen (s.writing c (.visit i :: st) us) c)
    (hnode : s.nodeAt? i = some (Node.mkInternal w a b)) :
    runTask .writeNode ts (s.writing c (.visit i :: st) us) =
      .next (s.writing (append c [false]) (.visit a :: .visit b :: st) (.writeNode :: ts)) :=
  (writeNode_visit ts hnode).trans ((if_neg Bool.false_ne_true).trans (State.writeOut_open hout))

/-- A leaf is `1`, and its symbol is next (R143). -/
theorem writeNode_leaf {sym : Sym} (ts : List Task) (hout : outOpen (s.writing c (.visit i :: st) us) c)
    (hnode : s.nodeAt? i = some (Node.mkLeaf sym w)) :
    runTask .writeNode ts (s.writing c (.visit i :: st) us) =
      .next (s.writing (append c [true]) st (.writeSym sym :: .writeNode :: ts)) :=
  (writeNode_visit ts hnode).trans ((if_pos rfl).trans (State.writeOut_open hout))

theorem writeSym_symbol {sym : Sym} (ts : List Task) (hout : outOpen (s.writing c st us) c) (hsym : sym.toNat ≤ 256) :
    runTask (.writeSym sym) ts (s.writing c st us) = .next (s.writing (append c (bitsOf sym)) st ts) := by
  have hsym : sym.isSymbol = true := decide_eq_true hsym
  rw [runTask, writeSym, if_pos hsym, State.writeOut_open hout]
  rfl

/-- WRHDR writes a subtree's header, one step for an internal node and two for a leaf (R143): by induction on the tree. -/
theorem runs_writeTree {t : Tree} {ixs : List Idx} (ts : List Task) (h : s.atLines us) (hout : outOpen s c)
    (ht : holds s t i ixs) (hsyms : ∀ sym ∈ t.shape.symbols, sym.toNat ≤ 256) (p : Bits) :
    Runs (3 * t.shape.leaves - 1) (s.writing (append c p) (.visit i :: st) (.writeNode :: ts))
      (s.writing (append c (p ++ t.shape.header)) st (.writeNode :: ts)) := by
  induction t generalizing i ixs st p with
  | leaf sym w =>
    obtain ⟨hnode, -⟩ := ht
    have htag := (h.writing _ _ _).runs (writeNode_leaf (st := st) ts (outOpen_writing hout p _ _) hnode)
    have hsym := (h.writing _ _ _).runs (writeSym_symbol (.writeNode :: ts)
      (outOpen_writing hout (p ++ [true]) st (.writeSym sym :: .writeNode :: ts))
      (hsyms sym (List.mem_singleton_self sym)))
    rw [append_append] at htag hsym
    have hruns := runs_trans htag hsym
    rwa [List.append_assoc] at hruns
  | node w l r ihl ihr =>
    obtain ⟨a, b, la, lb, hnode, hl, hr, -⟩ := ht
    obtain ⟨hsl, hsr⟩ := List.forall_mem_append.1 hsyms
    have hrecord := (h.writing _ _ _).runs (writeNode_internal (st := st) ts (outOpen_writing hout p _ _) hnode)
    rw [append_append] at hrecord
    have hleft := ihl (st := .visit b :: st) hl hsl (p ++ [false])
    have hright := ihr (st := st) hr hsr (p ++ [false] ++ l.shape.header)
    have hruns := runs_trans hrecord (runs_trans hleft hright)
    have hbits : p ++ (Shape.node l.shape r.shape).header = p ++ [false] ++ l.shape.header ++ r.shape.header := by
      rw [header_node, List.append_assoc, List.append_assoc]
      rfl
    have hsteps : 3 * (Shape.node l.shape r.shape).leaves - 1 =
        1 + (3 * l.shape.leaves - 1 + (3 * r.shape.leaves - 1)) := by
      have := leaves_pos l.shape
      have := leaves_pos r.shape
      rw [Shape.leaves]
      omega
    rwa [Tree.shape, hbits, hsteps]

/-- The lines of WRHDR write the header of the tree at ROOT (R143, R196). -/
theorem runs_wrhdr {t : Tree} {ts : List Task} (h : s.atLines (wrhdrProgram ++ ts)) (hout : outOpen s c)
    (ht : holdsRoot s t) (hsyms : ∀ sym ∈ t.shape.symbols, sym.toNat ≤ 256) :
    Runs (3 * t.shape.leaves + 1) s (s.writing (append c t.shape.header) [] ts) := by
  obtain ⟨ixs, ht⟩ := ht
  have hpos := leaves_pos t.shape
  have hstart : Runs 1 s (s.writing (append c []) [.visit s.root] (.writeNode :: ts)) := by
    obtain ⟨ho, -⟩ := hout
    refine h.runs ?_
    rw [append_nil, State.writing, ← ho]
    rfl
  have htree := runs_writeTree (st := []) ts h hout ht hsyms []
  have hend : Runs 1 (s.writing (append c t.shape.header) [] (.writeNode :: ts))
      (s.writing (append c t.shape.header) [] ts) := (h.writing _ _ _).runs rfl
  have hruns := runs_trans hstart (runs_trans htree hend)
  rwa [show 1 + (3 * t.shape.leaves - 1 + 1) = 3 * t.shape.leaves + 1 by omega] at hruns

end Lines

/-! ### The command -/

/-- WRHDR ends in DONE with the header of the tree at ROOT written. -/
theorem exec_wrhdr_header {s : State} {c : OutChan} {t : Tree} (hs : ready s) (htv : s.tv = true) (hout : outOpen s c)
    (ht : holdsRoot s t) (hleaves : t.shape.leaves ≤ 257) (hsyms : ∀ sym ∈ t.shape.symbols, sym.toNat ≤ 256) :
    exec .wrhdr s = .next (finished s s.inp (some (append c t.shape.header))) := by
  have hbegin := atLines_begin hs (commandWord .wrhdr) wrhdrProgram
  have hruns := runs_wrhdr (c := c) (ts := []) hbegin hout (holdsRoot_of_frame ht) hsyms
  have hend := runs_complete (s := (s.begin (commandWord .wrhdr) wrhdrProgram).writing (append c t.shape.header) [] [])
    hs.2 rfl rfl
  exact issue_of_runs hs.1 htv (runs_trans hruns hend) (le_budget (by omega)) (complete_not_running _)

/-- Settles O34: WRHDR's run, by induction on the tree (`runs_writeTree`), and the length of a header. -/
theorem writesHeader : Obligations.WritesHeader := by
  unfold Obligations.WritesHeader
  exact ⟨fun s c t hs htv hout ht hleaves hsyms => exec_wrhdr_header hs htv hout ht hleaves hsyms,
    fun t => by rw [← length_header_add_one, Nat.add_sub_cancel]⟩

/-! ### WRHDR and RDHDR are inverses (R152) -/

theorem shape_bare (t : Shape) : t.bare.shape = t := by
  induction t with
  | leaf _ => rfl
  | node l r ihl ihr => rw [Shape.bare, Tree.shape, ihl, ihr]

/-- The tree of R37 has 2 to 257 leaves with symbols 0 to 256. -/
theorem exists_tree_of_treeInv {s : State} (h : treeInv s) : ∃ t : Tree, holdsRoot s t ∧ t.shape.branches = true ∧
    t.shape.leaves ≤ 257 ∧ ∀ sym ∈ t.shape.symbols, sym.toNat ≤ 256 := by
  obtain ⟨-, -, hcap, -, t, ixs, ht, hb, hsyms, -, hlen, -⟩ := h
  have hleaves := length_of_holds ht
  exact ⟨t, ⟨ixs, ht⟩, hb, by omega, hsyms⟩

/-- Settles O37: WRHDR writes H(T), which RDHDR reads as T; and what RDHDR has accepted is H(T) for the tree that it leaves. -/
theorem headerRoundTrip : Obligations.HeaderRoundTrip := by
  unfold Obligations.HeaderRoundTrip
  refine ⟨fun s c hs htv htree hout => ?readAfterWrite, fun u v d bits c hu hin hexec hdone hout => ?writeAfterRead⟩
  case readAfterWrite =>
    obtain ⟨x, hx, hb, hleaves, hsyms⟩ := exists_tree_of_treeInv htree
    refine ⟨_, x.shape.header, exec_wrhdr_header hs htv hout hx hleaves hsyms, rfl, fun u d rest hu hin => ?_⟩
    obtain ⟨v, hexec, hv, -, hholds, -, -⟩ := readsHeader u d x.shape rest hu hin hb hleaves hsyms
    have hroot : v.root = 0#10 := by rw [hv]
    exact ⟨v, x, x.shape.bare, hexec, by rw [hv]; rfl, by rw [hv]; rfl, hx, ⟨_, hroot ▸ hholds⟩, shape_bare x.shape⟩
  case writeAfterRead =>
    obtain ⟨t, rest, rfl, -, hfits, rfl⟩ := exec_rdhdr_done hu hin hexec hdone
    obtain ⟨hleaves, hsyms⟩ := fits_zero_iff.1 hfits
    have hroom : t.nodes ≤ 513 := by have := nodes_add_one t; omega
    have hroot : holdsRoot (u.withHeader d t []) t.bare := ⟨_, holds_withHeader hroom⟩
    have hwrite := exec_wrhdr_header (s := (u.withHeader d t []).complete) ⟨Or.inr rfl, hu.2⟩ rfl hout
      (holdsRoot_of_frame hroot) (by rwa [shape_bare]) (by rwa [shape_bare])
    rw [shape_bare] at hwrite
    exact ⟨t.header, rest, _, rfl, rfl, hwrite, rfl⟩

end Sys2Proof.Machine
end

section
/-!
PROOFS. WRMAGIC and RDMAGIC (R141, R145, R146, R91).
-/

namespace Sys2Proof.Machine

open Sys2Proof Sys2Proof.Safety

/-- A write to a closed OUT is refused and takes nothing (R66). -/
theorem OutChan.write_closed {c : OutChan} {n : Nat} (hs : c.script = []) (hc : c.closed = true) (v : BitVec n) :
    c.write v = (.err, c) := by
  rw [OutChan.write_plain hs, OutChan.plainWrite, if_pos hc]

/-- A command of one line ends in DONE with what the line leaves (R84). -/
theorem issue_line {w : CmdWord} {pre : State → Bool} {x : Task} {s t : State} (hs : ready s) (hpre : pre s = true)
    (hx : runTask x [] (s.begin w [x]) = .next t) (htodo : t.todo = [] := by rfl)
    (hhost : t.host = s.host := by rfl) (hphase : t.phase = .busy := by rfl) : issue w pre [x] s = .next t.complete := by
  obtain ⟨hq, hb, htodo⟩ := (atLines_begin hs w [x]).of_frame htodo hhost hphase
  exact issue_of_runs hs.1 hpre (runs_trans ((atLines_begin hs w [x]).runs hx) (runs_complete hq hb htodo))
    (le_budget (by omega)) (complete_not_running t)

theorem issue_line_fails {w : CmdWord} {pre : State → Bool} {x : Task} {s u : State} {e : ErrCode} (hs : ready s)
    (hpre : pre s = true) (hx : runTask x [] (s.begin w [x]) = .next (u.fail e)) :
    issue w pre [x] s = .next (u.fail e) :=
  issue_of_runs hs.1 hpre ((atLines_begin hs w [x]).runs hx) (le_budget (by omega)) (fail_not_running u e)

section Lines

variable {s : State} {ts : List Task}

theorem writeMagic_open {c : OutChan} (h : outOpen s c) : runTask .writeMagic ts s =
    .next { s with out := some (append c (bitsOf s.params.magic)), todo := ts } := by
  simp only [runTask, writeMagic, State.writeOut_open h, State.goOn]

theorem writeMagic_closed {c : OutChan} (ho : s.out = some c) (hs : c.script = []) (hc : c.closed = true) :
    runTask .writeMagic ts s = .next (s.fail .channel) := by
  simp only [runTask, writeMagic, State.writeOut_err ho (OutChan.write_closed hs hc _), ← ho]

/-- With a whole field in IN its value is checked (R145). -/
theorem readMagic_value {c : InChan} {m : Word} {rest : Bits} (h : inHas s c (bitsOf m ++ rest)) :
    runTask .readMagic ts s = checkMagic m ts { s with inp := some (advance c 32) } := by
  simp only [runTask, readMagic, State.readIn_value h (length_bitsOf m), valOf_bitsOf]

theorem readMagic_right {c : InChan} {rest : Bits} (h : inHas s c (bitsOf s.params.magic ++ rest)) :
    runTask .readMagic ts s = .next { s with inp := some (advance c 32), todo := ts } :=
  (readMagic_value h).trans (if_pos rfl)

theorem readMagic_wrong {c : InChan} {m : Word} {rest : Bits} (h : inHas s c (bitsOf m ++ rest))
    (hm : m ≠ s.params.magic) :
    runTask .readMagic ts s = .next (State.fail { s with inp := some (advance c 32) } .malformedHeader) :=
  (readMagic_value h).trans (if_neg hm)

/-- With fewer than 32 bits in IN the read fails (R146). -/
theorem readMagic_short {c : InChan} {bits : Bits} (h : inHas s c bits) (hlen : bits.length < 32) :
    runTask .readMagic ts s =
      .next (State.fail { s with inp := some { c with pos := c.data.length } } .malformedHeader) := by
  simp only [runTask, readMagic]
  exact State.readIn_eod h hlen

end Lines

/-- Settles O33, by the one line of WRMAGIC. -/
theorem writesMagic : Obligations.WritesMagic := by
  unfold Obligations.WritesMagic
  exact ⟨fun s c hs hout => issue_line hs rfl (writeMagic_open hout),
    fun s c hs ho hscript hclosed => issue_line_fails hs rfl (writeMagic_closed ho hscript hclosed)⟩

/-- Settles O35, by the one line of RDMAGIC. -/
theorem checksMagic : Obligations.ChecksMagic := by
  unfold Obligations.ChecksMagic
  refine ⟨fun s c m rest hs hin => ⟨?right, fun hm => issue_line_fails hs rfl (readMagic_wrong hin hm)⟩,
    fun s c bits hs hin hlen => issue_line_fails hs rfl (readMagic_short hin hlen)⟩
  case right =>
    rintro rfl
    exact issue_line hs rfl (readMagic_right hin)

end Sys2Proof.Machine
end

section
/-!
PROOFS. DERIVE: the table that the walk of a subtree records, and the run that walks it (R161 to R164).
-/

namespace Sys2Proof.Safety

open Sys2Proof Sys2Proof.Machine

/-! ### The table that a walk records (R163, R164) -/

/-- The code table after the walk of a subtree on the given path: each leaf overwrites its symbol's entry. -/
def Shape.recordCodes : Shape → Bits → Vector Code 257 → Vector Code 257
  | .leaf sym, p, table => table.setIfInBounds sym.toNat (Code.ofPath p)
  | .node l r, p, table => r.recordCodes (p ++ [true]) (l.recordCodes (p ++ [false]) table)

theorem lastPath_leaf (sym x : Sym) : (Shape.leaf sym).lastPath x = if sym = x then some [] else none := by
  by_cases h : sym = x <;> simp [Shape.lastPath, Shape.paths, h]

/-- The right subtree is walked last, so a leaf of it hides those of the left one. -/
theorem lastPath_node (l r : Shape) (x : Sym) : (Shape.node l r).lastPath x =
    ((r.lastPath x).map (true :: ·)).or ((l.lastPath x).map (false :: ·)) := by
  simp only [Shape.lastPath, Shape.paths, List.reverse_append, List.find?_append, ← List.map_reverse, List.find?_map,
    Option.map_or, Option.map_map]
  rfl

/-- A walk records the last visited leaf's path and keeps the other entries: by induction on the tree. -/
theorem recordCodes_getElem {t : Shape} (p : Bits) (table : Vector Code 257) {k : Nat} (hk : k < 257) :
    (t.recordCodes p table)[k] = (t.lastPath (BitVec.ofNat 9 k)).elim table[k] fun q => Code.ofPath (p ++ q) := by
  induction t generalizing p table with
  | leaf sym =>
    have hsym : sym.toNat = k ↔ sym = BitVec.ofNat 9 k := by bv_omega
    rw [Shape.recordCodes, Vector.getElem_setIfInBounds, lastPath_leaf]
    by_cases h : sym.toNat = k <;> simp [h, ← hsym]
  | node l r ihl ihr =>
    rw [Shape.recordCodes, ihr, ihl, lastPath_node]
    cases r.lastPath (BitVec.ofNat 9 k) with
    | some q => simp
    | none => cases l.lastPath (BitVec.ofNat 9 k) with
      | some q => simp
      | none => rfl

/-- Over a cleared table the walk from the root records the tree's code table. -/
theorem recordCodes_cleared (t : Shape) : t.recordCodes [] (Vector.replicate 257 Code.none) = t.codeTable := by
  ext1 k hk
  rw [recordCodes_getElem, Shape.codeTable, Vector.getElem_ofFn, Vector.getElem_replicate]
  rfl

end Sys2Proof.Safety

namespace Sys2Proof.Machine

open Sys2Proof Sys2Proof.Safety

/-! ### The run that walks a subtree (R162) -/

section Walk

variable {s : State} {us ts : List Task}

theorem State.atLines.deriving (h : s.atLines us) (code : Vector Code 257) (path : Bits) (st : List Frame)
    (ts : List Task) : (s.deriving code path st ts).atLines ts := h.of_frame rfl

/-- With a right child pending at the parent's path the walk goes there by `1`. -/
theorem walkOn_right (code : Vector Code 257) (p q : Bits) (b : Idx) (st : List Frame) :
    walkOn ts (s.deriving code (p ++ q) (.right b p.length :: st) us) =
      .next (s.deriving code (p ++ [true]) st (.walk b :: ts)) := by
  calc walkOn ts (s.deriving code (p ++ q) (.right b p.length :: st) us)
    _ = .next (s.deriving code ((p ++ q).take p.length ++ [true]) st (.walk b :: ts)) := rfl
    _ = _ := by rw [List.take_left]

/-- The walk of a subtree, one step for each node, ends where the walk goes on from a path below the subtree's own
(R162): by induction on the tree. With at most 257 leaves PATH has room for every edge (R35). -/
theorem runs_walkTree {t : Tree} {i : Idx} {ixs : List Idx} {code : Vector Code 257} {p : Bits} {st : List Frame}
    {m : State} (h : s.atLines us) (ht : holds s t i ixs) (hroom : p.length + t.shape.leaves ≤ 257)
    (hsyms : ∀ sym ∈ t.shape.symbols, sym.toNat ≤ 256)
    (hnext : ∀ q vs, walkOn ts (s.deriving (t.shape.recordCodes p code) (p ++ q) st vs) = .next m) :
    Runs (2 * t.shape.leaves - 1) (s.deriving code p st (.walk i :: ts)) m := by
  induction t generalizing i ixs code p st m with
  | leaf sym w =>
    obtain ⟨hnode, -⟩ := ht
    have hend := hnext [] (.walk i :: ts)
    rw [List.append_nil] at hend
    have hleaf := walk_leaf (s := s.deriving code p st (.walk i :: ts)) ts hnode
      (hsyms sym (List.mem_singleton_self sym))
    exact (h.deriving code p st _).runs (hleaf.trans hend)
  | node w l r ihl ihr =>
    obtain ⟨a, b, la, lb, hnode, hl, hr, -⟩ := ht
    obtain ⟨hsl, hsr⟩ := List.forall_mem_append.1 hsyms
    have hposl := leaves_pos l.shape
    have hposr := leaves_pos r.shape
    rw [Tree.shape, Shape.leaves] at hroom ⊢
    have hdown := (h.deriving code p st _).runs (walk_internal ts hnode (show p.length < 256 by omega))
    have hleft := ihl (code := code) (p := p ++ [false]) (st := .right b p.length :: st) hl
      (by rw [List.length_append, List.length_singleton]; omega) hsl
      fun q vs => by rw [List.append_assoc]; exact walkOn_right ..
    have hright := ihr (p := p ++ [true]) (st := st) hr
      (by rw [List.length_append, List.length_singleton]; omega) hsr
      fun q vs => by rw [List.append_assoc]; exact hnext (true :: q) vs
    have hruns := runs_trans hdown (runs_trans hleft hright)
    rwa [show 1 + (2 * l.shape.leaves - 1 + (2 * r.shape.leaves - 1)) =
      2 * (l.shape.leaves + r.shape.leaves) - 1 by omega] at hruns

/-- The lines of DERIVE fill the code table from the tree at ROOT (R161, R196). -/
theorem runs_derive {t : Tree} (h : s.atLines (deriveProgram ++ ts)) (ht : holdsRoot s t)
    (hleaves : t.shape.leaves ≤ 257) (hsyms : ∀ sym ∈ t.shape.symbols, sym.toNat ≤ 256) :
    Runs (2 * t.shape.leaves + 1) s (s.deriving t.shape.codeTable [] [] ts).codesValid := by
  obtain ⟨ixs, ht⟩ := ht
  have hpos := leaves_pos t.shape
  have hclear : Runs 1 s (s.deriving (Vector.replicate 257 Code.none) [] [] (.walk s.root :: .codeDone :: ts)) :=
    h.runs rfl
  have hwalk := runs_walkTree (p := []) (st := []) (ts := .codeDone :: ts)
    (m := s.deriving t.shape.codeTable [] [] (.codeDone :: ts)) h ht (by rwa [List.length_nil, Nat.zero_add]) hsyms
    fun q vs => by rw [recordCodes_cleared]; rfl
  have hdone := (h.deriving t.shape.codeTable [] [] (.codeDone :: ts)).runs rfl
  have hruns := runs_trans hclear (runs_trans hwalk hdone)
  rwa [show 1 + (2 * t.shape.leaves - 1 + 1) = 2 * t.shape.leaves + 1 by omega] at hruns

end Walk

/-! ### The command -/

/-- Settles O40: DERIVE's run, by induction on the tree (`runs_walkTree`), over a cleared table. -/
theorem derivesCodes : Obligations.DerivesCodes := by
  unfold Obligations.DerivesCodes
  intro s t hs htv ht hleaves hsyms
  have hbegin := atLines_begin hs (commandWord .derive) deriveProgram
  have hruns := runs_derive (ts := []) hbegin (holdsRoot_of_frame ht) hleaves hsyms
  have hend := runs_complete (s := State.codesValid
    ((s.begin (commandWord .derive) deriveProgram).deriving t.shape.codeTable [] [] [])) hs.2 rfl rfl
  exact issue_of_runs hs.1 htv (runs_trans hruns hend) (le_budget (by omega)) (complete_not_running _)

end Sys2Proof.Machine
end

section
/-!
PROOFS. EMIT, ENCODE and FLUSH: the run that writes a code and the encoding loop (R95, R96, R171 to R177, R246).
-/

namespace Sys2Proof.Machine

open Sys2Proof Sys2Proof.Safety

/-! ### FLUSH (R177) -/

/-- A flush of a closed OUT is refused and takes nothing (R67). -/
theorem OutChan.flush_closed {c : OutChan} (hs : c.script = []) (hc : c.closed = true) : c.flush = (.err, c) := by
  rw [OutChan.flush_plain hs, OutChan.plainFlush, if_pos hc]

theorem flush_open {s : State} {c : OutChan} {ts : List Task} (h : outOpen s c) :
    runTask .flush ts s = .next { s with out := some (flushed c), todo := ts } := by
  simp only [runTask, flushStep, State.flushOut_open h, State.goOn]

theorem flush_closed {s : State} {c : OutChan} {ts : List Task} (ho : s.out = some c) (hs : c.script = [])
    (hc : c.closed = true) : runTask .flush ts s = .next (s.fail .channel) := by
  simp only [runTask, flushStep, State.flushOut_err ho (OutChan.flush_closed hs hc), ← ho]

/-- Settles O45, by the one line of FLUSH. -/
theorem flushCloses : Obligations.FlushCloses := by
  unfold Obligations.FlushCloses
  exact ⟨fun s c hs hout => issue_line hs rfl (flush_open hout),
    fun s c hs ho hscript hclosed => issue_line_fails hs rfl (flush_closed ho hscript hclosed)⟩

/-! ### The run that writes a code (R172) -/

/-- EMIT and ENCODE with the given channels and the lines to come. -/
def State.encoding (s : State) (i : Option InChan) (d : OutChan) (ts : List Task) : State :=
  { s with inp := i, out := some d, todo := ts }

theorem bitsOf_ofBool (b : Bool) : bitsOf (BitVec.ofBool b) = [b] := by cases b <;> rfl

@[simp] theorem Code.length_toBits (c : Code) : c.toBits.length = c.len.toNat := by simp [Code.toBits]

section Emit

variable {s : State} {i : Option InChan} {d : OutChan} {p : Bits} {sym : Sym} {us : List Task} (ts : List Task)

theorem State.atLines.encoding (h : s.atLines us) (i : Option InChan) (d : OutChan) :
    (s.encoding i d ts).atLines ts := h.of_frame rfl

/-- A run from a state in which nothing is written yet. -/
theorem Runs.fromLines {xs : List Task} {t : State} {k : Nat} (h : Runs k (s.encoding i (append d []) xs) t)
    (hs : s.atLines xs) (hi : s.inp = i) (hout : outOpen s d) : Runs k s t := by
  obtain ⟨-, -, htodo⟩ := hs
  obtain ⟨ho, -⟩ := hout
  rwa [append_nil, State.encoding, ← hi, ← ho, ← htodo] at h

theorem outOpen_encoding (h : outOpen s d) (i : Option InChan) (p : Bits) :
    outOpen (s.encoding i (append d p) ts) (append d p) := outOpen_append h _ rfl

/-- A symbol without a code fails before any bit (R173). -/
theorem emit_invalid (h : (s.codeOf sym).valid = false) : runTask (.emit sym) ts s = .next (s.fail .noCode) := by
  simp only [runTask, emit, h, Bool.false_eq_true, if_false, State.raise]

/-- A bit of the code is written (R172). -/
theorem emitBit_open {j : Nat} (h : outOpen s d) (hj : j < (s.codeOf sym).len.toNat) :
    runTask (.emitBit sym j) ts s =
      .next { s with out := some (append d [(s.codeOf sym).bits.getLsbD j]), todo := .emitBit sym (j + 1) :: ts } := by
  simp only [runTask, emitBit, hj, if_true, State.writeOut_open h, bitsOf_ofBool, State.goOn]

/-- The first k bits of the code are written, a step each, from bit 0 on (R172). -/
theorem runs_emitBits {k : Nat} (h : s.atLines us) (hout : outOpen s d) (hk : k ≤ (s.codeOf sym).len.toNat) :
    Runs k (s.encoding i (append d p) (.emitBit sym 0 :: ts))
      (s.encoding i (append d (p ++ (List.range k).map (s.codeOf sym).bits.getLsbD)) (.emitBit sym k :: ts)) := by
  induction k with
  | zero => rw [List.range_zero, List.map_nil, List.append_nil]; exact runs_zero _
  | succ k ih =>
    have hstep := (h.encoding (.emitBit sym k :: ts) i
      (append d (p ++ (List.range k).map (s.codeOf sym).bits.getLsbD))).runs
        (emitBit_open ts (outOpen_encoding _ hout i _) hk)
    rw [append_append, List.append_assoc] at hstep
    rw [List.range_succ, List.map_append, List.map_singleton]
    exact runs_trans (ih (Nat.le_of_succ_le hk)) hstep

/-- emit(sym): the check of the code, its bits, and the end of the loop over them (R172). -/
theorem runs_emit (h : s.atLines us) (hout : outOpen s d) (hvalid : (s.codeOf sym).valid = true) :
    Runs ((s.codeOf sym).toBits.length + 2) (s.encoding i (append d p) (.emit sym :: ts))
      (s.encoding i (append d (p ++ (s.codeOf sym).toBits)) ts) := by
  have hcheck : Runs 1 (s.encoding i (append d p) (.emit sym :: ts))
      (s.encoding i (append d p) (.emitBit sym 0 :: ts)) := (h.encoding _ _ _).runs (emit_valid ts hvalid)
  have hend : Runs 1 (s.encoding i (append d (p ++ (s.codeOf sym).toBits))
      (.emitBit sym (s.codeOf sym).len.toNat :: ts)) (s.encoding i (append d (p ++ (s.codeOf sym).toBits)) ts) :=
    (h.encoding _ _ _).runs (emitBit_done ts le_rfl)
  have hruns := runs_trans hcheck (runs_trans (runs_emitBits ts h hout le_rfl) hend)
  rwa [Nat.add_comm 1, ← Code.length_toBits] at hruns

end Emit

/-- A command whose run comes to the end of its lines ends in DONE (R84). -/
theorem issue_completes {w : CmdWord} {pre : State → Bool} {x : Task} {xs : List Task} {s t : State} {k : Nat}
    (hs : ready s) (hpre : pre s = true) (hrun : Runs k (s.begin w (x :: xs)) t) (ht : t.atLines [])
    (hk : k + 1 ≤ 4096 + 128 * s.inBits) : issue w pre (x :: xs) s = .next t.complete := by
  obtain ⟨hq, hb, htodo⟩ := ht
  exact issue_of_runs hs.1 hpre (runs_trans hrun (runs_complete hq hb htodo)) (le_budget hk) (complete_not_running t)

/-! ### EMIT -/

/-- EMIT of a symbol is a command with its one line (R171, R86 item 4). -/
theorem exec_emit_of_symbol {sym : Sym} (h : sym.toNat ≤ 256) (s : State) :
    exec (.emit sym) s = issue (commandWord (.emit sym)) State.hasCodes (emitProgram sym) s :=
  if_pos (decide_eq_true h)

/-- Settles O42, by the run that writes a code. -/
theorem emitWritesCode : Obligations.EmitWritesCode := by
  unfold Obligations.EmitWritesCode
  intro s sym c hs hcv hsym hout
  rw [exec_emit_of_symbol hsym]
  refine ⟨fun hvalid => ?code, fun hvalid => issue_line_fails hs hcv (emit_invalid [] hvalid)⟩
  case code =>
    have hbegin := atLines_begin hs (commandWord (.emit sym)) (emitProgram sym)
    have hemit := (runs_emit (p := []) [] hbegin hout hvalid).fromLines hbegin rfl hout
    have hlen : (s.codeOf sym).toBits.length < 2 ^ 9 := Code.length_toBits _ ▸ BitVec.isLt _
    have hsteps : (s.codeOf sym).toBits.length + 2 + 1 ≤ 4096 + 128 * s.inBits := by omega
    exact issue_completes hs hcv hemit (hbegin.encoding _ _ _) hsteps

/-! ### The encoding loop (R174, R95) -/

/-- ENCODE writes the code of the byte: it has one, and it is not refused by R246. -/
def State.encodes (s : State) (v : Byte) : Prop := (s.codeOf (v.setWidth 9)).valid = true ∧ s.refusesByte v = false

/-- The codes of some bytes, one after another (R95). -/
def State.bodyOf (s : State) (vs : List Byte) : Bits := vs.flatMap fun v => (s.codeOf (v.setWidth 9)).toBits

theorem bodyOf_cons (s : State) (v : Byte) (vs : List Byte) :
    s.bodyOf (v :: vs) = (s.codeOf (v.setWidth 9)).toBits ++ s.bodyOf vs := List.flatMap_cons ..

theorem bodyOf_begin (s : State) (w : CmdWord) (program : List Task) (vs : List Byte) :
    (s.begin w program).bodyOf vs = s.bodyOf vs := rfl

/-- No code has more than 256 bits (R31). -/
theorem length_bodyOf_le {s : State} (h : ∀ sym, codeEntryOk (s.codeOf sym)) (vs : List Byte) :
    (s.bodyOf vs).length ≤ 256 * vs.length := by
  induction vs with
  | nil => exact Nat.zero_le _
  | cons v vs ih =>
    obtain ⟨hlen, -⟩ := h (v.setWidth 9)
    rw [bodyOf_cons, List.length_append, Code.length_toBits, List.length_cons]
    omega

section Loop

variable {s : State} {c : InChan} {d : OutChan} {us ts : List Task} {vs : List Byte}

theorem inHas_encoding {bits : Bits} (h : inHas s c bits) (d : OutChan) (ts : List Task) :
    inHas (s.encoding (some c) d ts) c bits := by
  obtain ⟨-, hrest⟩ := h
  exact ⟨rfl, hrest⟩

/-- A byte that R246 refuses fails once it is read. -/
theorem encodeByte_refused {v : Byte} {rest : Bits} (h : inHas s c (bitsOf v ++ rest)) (hv : s.refusesByte v = true) :
    runTask .encodeByte ts s = .next (State.fail { s with inp := some (advance c 8) } .noCode) := by
  have hv' : State.refusesByte { s with inp := some (advance c 8) } v = true := hv
  simp only [runTask, encodeByte, State.readIn_value h (length_bitsOf v), valOf_bitsOf, hv', if_true, State.raise]

/-- The whole bytes that ENCODE writes, by induction on them: a step that reads the byte, then the run that writes its
code. -/
theorem runs_encodeBytes {p rest : Bits} (h : s.atLines us) (hout : outOpen s d)
    (hin : inHas (s.encoding (some c) (append d p) (.encodeByte :: ts)) c (bitsOfBytes vs ++ rest))
    (hvs : ∀ v ∈ vs, s.encodes v) :
    Runs (3 * vs.length + (s.bodyOf vs).length) (s.encoding (some c) (append d p) (.encodeByte :: ts))
      (s.encoding (some (advance c (8 * vs.length))) (append d (p ++ s.bodyOf vs)) (.encodeByte :: ts)) := by
  induction vs generalizing c p with
  | nil => rw [State.bodyOf, List.flatMap_nil, List.append_nil]; exact runs_zero _
  | cons v vs ih =>
    obtain ⟨⟨hvalid, hkept⟩, hvs⟩ := List.forall_mem_cons.1 hvs
    have hsplit : bitsOfBytes (v :: vs) ++ rest = bitsOf v ++ (bitsOfBytes vs ++ rest) := List.append_assoc _ _ _
    rw [hsplit] at hin
    have hread : Runs 1 (s.encoding (some c) (append d p) (.encodeByte :: ts))
        (s.encoding (some (advance c 8)) (append d p) (.emit (v.setWidth 9) :: .encodeByte :: ts)) :=
      (h.encoding _ _ _).runs (encodeByte_value ts hin hkept)
    have hcode := runs_emit (i := some (advance c 8)) (p := p) (.encodeByte :: ts) h hout hvalid
    have hnext := inHas_advance hin (s.encoding (some (advance c (bitsOf v).length))
      (append d (p ++ (s.codeOf (v.setWidth 9)).toBits)) (.encodeByte :: ts)) rfl
    rw [length_bitsOf] at hnext
    have hruns := runs_trans hread (runs_trans hcode (ih hnext hvs))
    rw [advance_advance, List.append_assoc, ← bodyOf_cons] at hruns
    have hpos : 8 * (v :: vs).length = 8 + 8 * vs.length := by rw [List.length_cons]; omega
    have hsteps : 3 * (v :: vs).length + (s.bodyOf (v :: vs)).length =
        1 + ((s.codeOf (v.setWidth 9)).toBits.length + 2 + (3 * vs.length + (s.bodyOf vs).length)) := by
      rw [bodyOf_cons, List.length_append, List.length_cons]
      omega
    rwa [hpos, hsteps]

/-- ENCODE's loop comes, with the codes of some bytes written, to the bits that follow them. -/
theorem runs_encodedBytes {rest : Bits} (h : s.atLines (.encodeByte :: ts)) (hout : outOpen s d)
    (hin : inHas s c (bitsOfBytes vs ++ rest)) (hvs : ∀ v ∈ vs, s.encodes v) :
    Runs (3 * vs.length + (s.bodyOf vs).length) s
      (s.encoding (some (advance c (8 * vs.length))) (append d (s.bodyOf vs)) (.encodeByte :: ts)) ∧
    inHas (s.encoding (some (advance c (8 * vs.length))) (append d (s.bodyOf vs)) (.encodeByte :: ts))
      (advance c (8 * vs.length)) rest := by
  have hbytes := runs_encodeBytes (p := []) (ts := ts) h hout (inHas_encoding hin _ _) hvs
  have hrest := inHas_advance hin (s.encoding (some (advance c (bitsOfBytes vs).length)) (append d (s.bodyOf vs))
    (.encodeByte :: ts)) rfl
  rw [length_bitsOfBytes] at hrest
  exact ⟨hbytes.fromLines h hin.1 hout, hrest⟩

/-- ENCODE's loop ends where IN has no whole byte left (R174). -/
theorem runs_encodeLoop {tail : Bits} (h : s.atLines (.encodeByte :: ts)) (hout : outOpen s d)
    (hin : inHas s c (bitsOfBytes vs ++ tail)) (htail : tail.length < 8) (hvs : ∀ v ∈ vs, s.encodes v) :
    Runs (3 * vs.length + (s.bodyOf vs).length + 1) s
      (s.encoding (some { c with pos := c.data.length }) (append d (s.bodyOf vs)) ts) := by
  obtain ⟨hbytes, hleft⟩ := runs_encodedBytes h hout hin hvs
  have hend := (h.encoding _ _ _).runs (encodeByte_eod ts hleft htail)
  exact runs_trans hbytes hend

/-- The lines of ENCODE write the codes of the bytes and END's code, and flush (R174, R95, R96, R196). -/
theorem runs_encode {tail : Bits} (h : s.atLines (encodeProgram ++ ts)) (hout : outOpen s d)
    (hin : inHas s c (bitsOfBytes vs ++ tail)) (htail : tail.length < 8) (hvs : ∀ v ∈ vs, s.encodes v)
    (hend : (s.codeOf endSym).valid = true) :
    Runs (3 * vs.length + (s.bodyOf vs).length + (s.codeOf endSym).toBits.length + 4) s
      (s.encoding (some { c with pos := c.data.length })
        (flushed (append d (s.bodyOf vs ++ (s.codeOf endSym).toBits))) ts) := by
  have hloop := runs_encodeLoop h hout hin htail hvs
  have hcode := runs_emit (i := some { c with pos := c.data.length }) (p := s.bodyOf vs) (.flush :: ts) h hout hend
  have hflush := (h.encoding (.flush :: ts) (some { c with pos := c.data.length })
    (append d (s.bodyOf vs ++ (s.codeOf endSym).toBits))).runs (flush_open (outOpen_encoding _ hout _ _))
  have hruns := runs_trans hloop (runs_trans hcode hflush)
  have hsteps : 3 * vs.length + (s.bodyOf vs).length + (s.codeOf endSym).toBits.length + 4 =
      3 * vs.length + (s.bodyOf vs).length + 1 + ((s.codeOf endSym).toBits.length + 2 + 1) := by omega
  rwa [hsteps]

/-- ENCODE's steps are within the budget: at most 259 for each byte, which is 8 bits of IN, and for END (R252). -/
theorem encode_steps_le {bits : Bits} (hcodes : ∀ sym, codeEntryOk (s.codeOf sym))
    (hin : inHas s c (bitsOfBytes vs ++ bits)) :
    3 * vs.length + (s.bodyOf vs).length + (s.codeOf endSym).toBits.length + 5 ≤ 4096 + 128 * s.inBits := by
  have hbody := length_bodyOf_le hcodes vs
  obtain ⟨hlen, -⟩ := hcodes endSym
  have hbits := length_le_inBits hin
  rw [List.length_append, length_bitsOfBytes] at hbits
  rw [Code.length_toBits]
  omega

end Loop

/-! ### ENCODE -/

/-- Settles O43: the encoding loop over the whole bytes of IN, END's code and the flush. -/
theorem encodeWritesBody : Obligations.EncodeWritesBody := by
  unfold Obligations.EncodeWritesBody
  intro s c d bits hs hcv hin hout hcodes hvalid hend hplaceholder
  have hvs : ∀ v ∈ bytesOf bits, s.encodes v := by
    refine fun v hv => ⟨hvalid v hv, ?_⟩
    rcases hplaceholder with hparam | hno
    · rw [State.refusesByte, hparam, Bool.false_and]
    · rw [State.refusesByte, hno v hv, Bool.and_false]
  obtain ⟨tail, hbits, htail⟩ := exists_eq_bitsOfBytes_append bits
  rw [hbits] at hin
  have hbegin := atLines_begin hs (commandWord .encode) encodeProgram
  have hrun := runs_encode (ts := []) hbegin hout hin htail hvs hend
  exact issue_completes hs hcv hrun (hbegin.encoding _ _ _) (encode_steps_le hcodes hin)

section WithoutCode

variable {s : State} {c : InChan} {d : OutChan} {vs : List Byte}

/-- ENCODE at a byte that it does not write: NO_CODE at the check of R246, or at the check of the code (R173). -/
theorem exec_encode_bad_byte {bad : Byte} {rest : Bits} (hs : ready s) (hcv : s.cv = true) (hout : outOpen s d)
    (hcodes : ∀ sym, codeEntryOk (s.codeOf sym)) (hin : inHas s c (bitsOfBytes vs ++ (bitsOf bad ++ rest)))
    (hvs : ∀ v ∈ vs, s.encodes v) (hbad : ¬ s.encodes bad) :
    exec .encode s = .next (State.fail { s with
      inp := some (advance c (8 * vs.length + 8)), out := some (append d (s.bodyOf vs)) } .noCode) := by
  have hbegin := atLines_begin hs (commandWord .encode) encodeProgram
  have hsteps := encode_steps_le hcodes hin
  obtain ⟨hbytes, hnext⟩ := runs_encodedBytes (s := s.begin (commandWord .encode) encodeProgram) hbegin hout hin hvs
  rw [bodyOf_begin] at hbytes hnext
  have hline := hbegin.encoding encodeProgram (some (advance c (8 * vs.length))) (append d (s.bodyOf vs))
  cases hrefused : s.refusesByte bad with
  | true =>
    have hfail := hline.runs (encodeByte_refused hnext hrefused)
    rw [advance_advance] at hfail
    exact issue_of_runs hs.1 hcv (runs_trans hbytes hfail) (le_budget (by omega)) (fail_not_running _ _)
  | false =>
    have hinvalid : (s.codeOf (bad.setWidth 9)).valid = false := Bool.eq_false_iff.2 fun h => hbad ⟨h, hrefused⟩
    have hread := hline.runs (encodeByte_value _ hnext hrefused)
    rw [advance_advance] at hread
    exact issue_fails hs hcv (runs_trans hbytes hread) (hbegin.encoding _ _ _) (emit_invalid _ hinvalid)

/-- ENCODE at the end of the bytes if END has no code (R173). -/
theorem exec_encode_no_end (hs : ready s) (hcv : s.cv = true) (hout : outOpen s d)
    (hcodes : ∀ sym, codeEntryOk (s.codeOf sym)) (hin : inHas s c (bitsOfBytes vs)) (hvs : ∀ v ∈ vs, s.encodes v)
    (hend : (s.codeOf endSym).valid = false) :
    exec .encode s = .next (State.fail { s with
      inp := some { c with pos := c.data.length }, out := some (append d (s.bodyOf vs)) } .noCode) := by
  have hbegin := atLines_begin hs (commandWord .encode) encodeProgram
  rw [← List.append_nil (bitsOfBytes vs)] at hin
  have hsteps := encode_steps_le hcodes hin
  have hloop := runs_encodeLoop hbegin hout hin (Nat.succ_pos 7) hvs
  rw [bodyOf_begin] at hloop
  exact issue_fails hs hcv hloop (hbegin.encoding _ _ _) (emit_invalid _ hend)

end WithoutCode

/-- Settles O44: the run over the bytes that have codes comes to the byte without one, or to END. -/
theorem encodeWithoutCode : Obligations.EncodeWithoutCode := by
  unfold Obligations.EncodeWithoutCode
  intro s c d good hs hcv hout hcodes hgood
  refine ⟨fun bad rest hin hbad => ?byte, fun hin hend => exec_encode_no_end hs hcv hout hcodes hin hgood hend⟩
  case byte =>
    rw [List.append_assoc] at hin
    refine exec_encode_bad_byte hs hcv hout hcodes hin hgood fun ⟨hvalid, hkept⟩ => ?_
    rcases hbad with hinvalid | ⟨hparam, hplaceholder⟩
    · exact absurd hvalid (Bool.eq_false_iff.1 hinvalid)
    · rw [State.refusesByte, hparam, hplaceholder] at hkept
      exact absurd hkept (by decide)

end Sys2Proof.Machine
end

section
/-!
PROOFS. DECODE: the loop that decodes the codes of some bytes, END's code and the flush, and the body that ends before END
(R186 to R190).
-/

namespace Sys2Proof.Machine

open Sys2Proof Sys2Proof.Safety

/-! ### Symbols of bytes, and bodies that spell them (R12, R95) -/

/-- No byte is END (R12). -/
theorem byte_ne_endSym (v : Byte) : v.setWidth 9 ≠ endSym := by
  simp only [endSym]
  bv_omega

/-- A body has at least one bit for each of its symbols, if the tree has at least two leaves (R95). -/
theorem length_le_of_spells {t : Shape} {syms : List Sym} {body : Bits} (hb : t.branches = true)
    (h : t.spells syms body) : syms.length ≤ body.length := by
  induction syms generalizing body with
  | nil => exact Nat.zero_le _
  | cons sym syms ih =>
    obtain ⟨q, rest, rfl, hl, hspells⟩ := h
    have hq := List.length_pos_iff.2 (leads_ne_nil hb hl)
    have hrest := ih hspells
    rw [List.length_cons, List.length_append]
    omega

/-! ### Lines of DECODE -/

/-- A decoded byte is written, and the walk begins again at ROOT (R186). -/
theorem decodeOut_byte {s : State} {d : OutChan} {v : Byte} (ts : List Task) (h : outOpen s d) :
    runTask (.decodeOut (v.setWidth 9)) ts s =
      .next { s with out := some (append d (bitsOf v)), cur := s.root, todo := ts } := by
  have hlt : (v.setWidth 9).toNat < alph := by simp only [alph]; bv_omega
  have hbyte : (v.setWidth 9).setWidth 8 = v := by bv_omega
  simp only [runTask, decodeOut, hlt, if_true, hbyte, State.writeOut_open h, State.goOn]

/-- A bit that is not there (R188). -/
theorem decodeBit_eod {s : State} {c : InChan} (ts : List Task) (h : inHas s c []) :
    runTask .decodeBit ts s =
      .next (State.fail { s with inp := some { c with pos := c.data.length } } .truncatedStream) := by
  simp only [runTask, decodeBit, State.readIn_eod h Nat.one_pos, State.raise]

/-- Bits that are not yet a whole path take DECODE to an internal node, a step for each bit (R187). -/
theorem runs_decodePart {s : State} {c : InChan} {t : Tree} {i : Idx} {ixs : List Idx} {part more : Bits} {sym : Sym}
    (ts : List Task) (hs : (s.decoding c i (.decodeBit :: ts)).atLines (.decodeBit :: ts)) (ht : holds s t i ixs)
    (hmore : more ≠ []) (hl : t.shape.leads (part ++ more) sym)
    (hin : inHas (s.decoding c i (.decodeBit :: ts)) c part) :
    ∃ j, Runs part.length (s.decoding c i (.decodeBit :: ts))
      (s.decoding (advance c part.length) j (.decodeBit :: ts)) := by
  induction part generalizing c t i ixs with
  | nil => exact ⟨i, runs_zero _⟩
  | cons b bs ih =>
    obtain ⟨x, u, ixs', hx, hu, hl'⟩ := holds_child ht hl
    have hbit := decodeBit_value (.decodeBit :: ts) ts hin hx
    cases u with
    | leaf sym' weight =>
      obtain ⟨m, ms, rfl⟩ := List.exists_cons_of_ne_nil hmore
      cases bs <;> exact hl'.elim
    | node weight l r =>
      obtain ⟨a, a', _, _, hnode, -, -, -⟩ := id hu
      have hstep := hs.runs (hbit.trans (arrive_internal _ ts hnode))
      obtain ⟨j, hrest⟩ := ih (hs.of_frame rfl) hu hl' (inHas_advance (p := [b]) hin _ rfl)
      have hrun := runs_trans hstep hrest
      rw [advance_advance, List.length_singleton, Nat.add_comm 1] at hrun
      exact ⟨j, hrun⟩

/-! ### The decoding loop (R186, R187) -/

/-- DECODE at a node, with the given channels and lines to come. -/
def State.decodingTo (s : State) (c : InChan) (d : OutChan) (i : Idx) (ts : List Task) : State :=
  State.decoding { s with out := some d } c i ts

section Loop

variable {s : State} {c : InChan} {d : OutChan} {t : Tree} {bs : List Byte} {p body last part more rest : Bits} {sym : Sym}
  {us : List Task} (ts : List Task)

theorem State.atLines.decodingTo (h : s.atLines us) (c : InChan) (d : OutChan) (i : Idx) :
    (s.decodingTo c d i ts).atLines ts := h.of_frame rfl

theorem outOpen_decodingTo (h : outOpen s d) (c : InChan) (p : Bits) (i : Idx) :
    outOpen (s.decodingTo c (append d p) i ts) (append d p) := outOpen_append h _ rfl

/-- The bits of a code take DECODE from ROOT to what follows its symbol (R187). -/
theorem runs_decodeCode (h : s.atLines us) (ht : holdsRoot s t) (hb : t.shape.branches = true)
    (hl : t.shape.leads p sym) (hin : inHas (s.decodingTo c d s.root (.decodeBit :: ts)) c (p ++ rest)) :
    ∃ j, Runs p.length (s.decodingTo c d s.root (.decodeBit :: ts))
      (s.decodingTo (advance c p.length) d j (decodedLines sym ts)) := by
  obtain ⟨ixs, hroot⟩ := ht
  exact runs_decodeWalk ts (h.decodingTo _ c d s.root) (holds_of_agree hroot (agree_of_node_eq rfl ixs))
    (leads_ne_nil hb hl) hl hin

/-- The code of a byte is decoded, the byte is written, and DECODE is at ROOT again (R186). -/
theorem runs_decodeByte {v : Byte} {q : Bits} (h : s.atLines us) (ht : holdsRoot s t) (hb : t.shape.branches = true)
    (hout : outOpen s d) (hl : t.shape.leads q (v.setWidth 9))
    (hin : inHas (s.decodingTo c (append d p) s.root (.decodeBit :: ts)) c (q ++ rest)) :
    Runs (q.length + 1) (s.decodingTo c (append d p) s.root (.decodeBit :: ts))
      (s.decodingTo (advance c q.length) (append d (p ++ bitsOf v)) s.root (.decodeBit :: ts)) := by
  obtain ⟨j, hwalk⟩ := runs_decodeCode ts h ht hb hl hin
  rw [decodedLines, if_neg (byte_ne_endSym v)] at hwalk
  have hwrite := (h.decodingTo _ (advance c q.length) (append d p) j).runs
    (decodeOut_byte (v := v) (.decodeBit :: ts) (outOpen_decodingTo _ hout _ p j))
  rw [append_append] at hwrite
  exact runs_trans hwalk hwrite

/-- The codes of some bytes are decoded, by induction on the bytes: a step for each bit and one for each byte (R186, R189). -/
theorem runs_decodeBytes (h : s.atLines us) (ht : holdsRoot s t) (hb : t.shape.branches = true) (hout : outOpen s d)
    (hspells : t.shape.spells (bs.map fun v => v.setWidth 9) body)
    (hin : inHas (s.decodingTo c (append d p) s.root (.decodeBit :: ts)) c (body ++ rest)) :
    Runs (bs.length + body.length) (s.decodingTo c (append d p) s.root (.decodeBit :: ts))
      (s.decodingTo (advance c body.length) (append d (p ++ bitsOfBytes bs)) s.root (.decodeBit :: ts)) := by
  induction bs generalizing c p body with
  | nil =>
    obtain rfl : body = [] := hspells
    rw [bitsOfBytes, List.flatMap_nil, List.append_nil]
    exact runs_zero _
  | cons v bs ih =>
    obtain ⟨q, body', rfl, hl, hspells'⟩ := hspells
    rw [List.append_assoc] at hin
    have hbyte := runs_decodeByte ts h ht hb hout hl hin
    have hbytes := ih hspells' (inHas_advance hin (s.decodingTo (advance c q.length) (append d (p ++ bitsOf v)) s.root
      (.decodeBit :: ts)) rfl)
    have hruns := runs_trans hbyte hbytes
    rw [advance_advance, List.append_assoc, ← List.length_append] at hruns
    have hsteps : (v :: bs).length + (q ++ body').length = q.length + 1 + (bs.length + body'.length) := by
      rw [List.length_cons, List.length_append]
      omega
    rwa [hsteps]

/-- DECODE comes from its first line, with the codes of some bytes decoded, to the bits that follow them. -/
theorem runs_decodedBytes (h : s.atLines (.decodeStart :: .decodeBit :: ts)) (ht : holdsRoot s t)
    (hb : t.shape.branches = true) (hout : outOpen s d) (hspells : t.shape.spells (bs.map fun v => v.setWidth 9) body)
    (hin : inHas s c (body ++ rest)) :
    Runs (bs.length + body.length + 1) s
      (s.decodingTo (advance c body.length) (append d (bitsOfBytes bs)) s.root (.decodeBit :: ts)) ∧
    inHas (s.decodingTo (advance c body.length) (append d (bitsOfBytes bs)) s.root (.decodeBit :: ts))
      (advance c body.length) rest := by
  have hstart := h.runs (decodeStart_eq (.decodeBit :: ts) hin.1)
  have hopen : s.decoding c s.root (.decodeBit :: ts) = s.decodingTo c (append d []) s.root (.decodeBit :: ts) := by
    rw [append_nil, State.decodingTo, ← hout.1]
  rw [hopen] at hstart
  have hbytes := runs_decodeBytes (p := []) ts h ht hb hout hspells (inHas_decoding hin _ _ _)
  have hruns := runs_trans hstart hbytes
  rw [Nat.add_comm 1] at hruns
  exact ⟨hruns, inHas_advance hin _ rfl⟩

/-- The lines of DECODE write the bytes whose codes stand before END's code, and flush (R186, R189, R190, R199). -/
theorem runs_decode (h : s.atLines (decodeProgram ++ ts)) (ht : holdsRoot s t) (hb : t.shape.branches = true)
    (hout : outOpen s d) (hspells : t.shape.spells (bs.map fun v => v.setWidth 9) body) (hl : t.shape.leads last endSym)
    (hin : inHas s c (body ++ (last ++ rest))) :
    ∃ j, Runs (bs.length + body.length + last.length + 2) s
      (s.decodingTo (advance c (body.length + last.length)) (flushed (append d (bitsOfBytes bs))) j ts) := by
  obtain ⟨hbytes, hnext⟩ := runs_decodedBytes (.flush :: ts) h ht hb hout hspells hin
  obtain ⟨j, hend⟩ := runs_decodeCode (.flush :: ts) h ht hb hl hnext
  rw [decodedLines, if_pos rfl] at hend
  have hflush := (h.decodingTo (.flush :: ts) (advance (advance c body.length) last.length)
    (append d (bitsOfBytes bs)) j).runs (flush_open (outOpen_decodingTo _ hout _ _ j))
  have hruns := runs_trans hbytes (runs_trans hend hflush)
  rw [advance_advance] at hruns
  have hsteps : bs.length + body.length + last.length + 2 = bs.length + body.length + 1 + (last.length + 1) := by omega
  exact ⟨j, hsteps ▸ hruns⟩

/-- DECODE comes to the end of a body in which END has not come, between two codes or inside one (R188). -/
theorem runs_decodeTruncated (h : s.atLines (.decodeStart :: .decodeBit :: ts)) (ht : holdsRoot s t)
    (hb : t.shape.branches = true) (hout : outOpen s d) (hspells : t.shape.spells (bs.map fun v => v.setWidth 9) body)
    (hl : t.shape.leads (part ++ more) sym) (hmore : more ≠ []) (hin : inHas s c (body ++ part)) :
    ∃ j, Runs (bs.length + body.length + part.length + 1) s
        (s.decodingTo (advance c (body ++ part).length) (append d (bitsOfBytes bs)) j (.decodeBit :: ts)) ∧
      inHas (s.decodingTo (advance c (body ++ part).length) (append d (bitsOfBytes bs)) j (.decodeBit :: ts))
        (advance c (body ++ part).length) [] := by
  obtain ⟨hbytes, hnext⟩ := runs_decodedBytes ts h ht hb hout hspells hin
  obtain ⟨ixs, hroot⟩ := ht
  obtain ⟨j, hpart⟩ := runs_decodePart ts (h.decodingTo _ _ _ _) (holds_of_agree hroot (agree_of_node_eq rfl ixs)) hmore
    hl hnext
  have hruns := runs_trans hbytes hpart
  rw [advance_advance, ← List.length_append, Nat.add_right_comm] at hruns
  rw [← List.append_nil (body ++ part)] at hin
  exact ⟨j, hruns, inHas_advance hin _ rfl⟩

/-- DECODE's steps are within the budget: at most two for each bit of the body (R252). -/
theorem decode_steps_le (hb : t.shape.branches = true) (hspells : t.shape.spells (bs.map fun v => v.setWidth 9) body)
    (hin : inHas s c (body ++ rest)) : bs.length + body.length + rest.length + 3 ≤ 4096 + 128 * s.inBits := by
  have hbytes := length_le_of_spells hb hspells
  have hbits := length_le_inBits hin
  rw [List.length_map] at hbytes
  rw [List.length_append] at hbits
  omega

end Loop

/-! ### DECODE -/

/-- Acceptance leaves the arena and ROOT alone (R84). -/
theorem holdsRoot_begin {s : State} {t : Tree} (h : holdsRoot s t) (w : CmdWord) (program : List Task) :
    holdsRoot (s.begin w program) t := by
  obtain ⟨ixs, hroot⟩ := h
  exact ⟨ixs, holds_of_agree hroot (agree_of_node_eq rfl ixs)⟩

/-- Settles O46: the decoding loop over the codes of the bytes, END's code and the flush. -/
theorem decodeReturnsBytes : Obligations.DecodeReturnsBytes := by
  unfold Obligations.DecodeReturnsBytes
  intro s c d t bs body last rest hs htv ht hb hin hout hspells hl
  rw [List.append_assoc] at hin
  have hsteps := decode_steps_le hb hspells hin
  rw [List.length_append] at hsteps
  have hbegin := atLines_begin hs (commandWord .decode) decodeProgram
  have hroot := holdsRoot_begin ht (commandWord .decode) decodeProgram
  obtain ⟨j, hrun⟩ := runs_decode [] hbegin hroot hb hout hspells hl hin
  exact ⟨j, issue_completes hs htv hrun (hbegin.decodingTo _ _ _ _) (by omega)⟩

/-- Settles O47: the decoding loop over the codes of the bytes, the bits of a path that are there, and the read of the one that is
not. -/
theorem decodeTruncated : Obligations.DecodeTruncated := by
  unfold Obligations.DecodeTruncated
  intro s c d t bs body part more sym hs htv ht hb hin hout hspells hl hmore
  have hsteps := decode_steps_le hb hspells hin
  have hbegin := atLines_begin hs (commandWord .decode) decodeProgram
  have hroot := holdsRoot_begin ht (commandWord .decode) decodeProgram
  obtain ⟨j, hrun, hempty⟩ := runs_decodeTruncated [.flush] hbegin hroot hb hout hspells hl hmore hin
  have hfail := (hbegin.decodingTo _ _ _ _).runs (decodeBit_eod [.flush] hempty)
  exact ⟨j, issue_of_runs hs.1 htv (runs_trans hrun hfail) (le_budget (by omega)) (fail_not_running _ _)⟩

end Sys2Proof.Machine
end

section
/-!
PROOFS. A command's body within another command (R196, R199, R206): a line does there what it does in its own command, whatever
earlier bodies left in PQ, STACK and PATH, as long as the body writes each of them before it reads it.
-/

namespace Sys2Proof.Machine

open Sys2Proof Sys2Proof.Safety

/-! ### The surroundings of a body -/

/-- What surrounds a body that runs within another command: that command's word, the lines after the body, and what stands in PQ,
STACK, PATH and OUT, `none` being what the body's own command has there. -/
structure Setting where
  /-- The word of the surrounding command. -/
  cmd : CmdWord
  /-- The lines after the body. -/
  rest : List Task
  /-- PQ. -/
  pq : Option (List Idx)
  /-- STACK. -/
  stack : Option (List Frame)
  /-- PATH. -/
  path : Option Bits
  /-- OUT. -/
  out : Option (Option OutChan)

/-- A state of the body's own command, as it is in the surroundings. -/
def State.within (s : State) (g : Setting) : State :=
  { s with cmd := g.cmd, todo := s.todo ++ g.rest, pq := g.pq.getD s.pq, stack := g.stack.getD s.stack,
           path := g.path.getD s.path, out := g.out.getD s.out }

/-- A line that empties PQ, STACK or PATH, or begins STACK anew, leaves nothing of what stood there. -/
def Setting.after (g : Setting) : Task → Setting
  | .treeClear => { g with pq := none, stack := none }
  | .codeClear => { g with stack := none, path := none }
  | .writeTree => { g with stack := none }
  | _ => g

/-- The line, and those it puts before the following ones, do not use what is different in the surroundings. -/
def Task.ignores (g : Setting) : Task → Prop
  | .insertLeaves | .merge | .takeRoot => g.pq = none
  | .walk _ => g.stack = none ∧ g.path = none
  | .writeNode => g.stack = none ∧ g.out = none
  | .readTag | .readSym _ => g.stack = none
  | .writeMagic | .writeTree | .writeSym _ | .encodeByte | .emit _ | .emitBit _ _ | .decodeBit | .decodeOut _ | .flush =>
    g.out = none
  | .countClear | .countByte | .rewind | .treeClear | .codeClear | .codeDone | .readMagic | .checkRoot _ | .decodeStart =>
    True

/-- None of the lines uses what is different in the surroundings when it comes to it. -/
def Setting.suits (g : Setting) : List Task → Prop
  | [] => True
  | x :: ts => x.ignores g ∧ (g.after x).suits ts

/-! ### What a line keeps -/

/-- STATE and the host's actions are those of `s`, and IN has no more bits. -/
structure Undisturbed (s t : State) : Prop where
  phase : t.phase = s.phase
  host : t.host = s.host
  inBits : t.inBits ≤ s.inBits

theorem Undisturbed.refl (s : State) : Undisturbed s s := ⟨rfl, rfl, le_rfl⟩

theorem Undisturbed.trans {s u t : State} (h : Undisturbed s u) (h' : Undisturbed u t) : Undisturbed s t :=
  ⟨h'.phase.trans h.phase, h'.host.trans h.host, h'.inBits.trans h.inBits⟩

theorem Undisturbed.of_frame {s u t : State} (h : Undisturbed s u) (hphase : t.phase = u.phase := by rfl)
    (hhost : t.host = u.host := by rfl) (hinp : t.inp = u.inp := by rfl) : Undisturbed s t :=
  h.trans ⟨hphase, hhost, by rw [State.inBits, hinp, State.inBits]⟩

/-- The most bits that one pass over the channel can deliver. -/
def InChan.bits (c : InChan) : Nat := max c.data.length c.replay.length

theorem Undisturbed.withInp {s u : State} {c d : InChan} (h : Undisturbed s u) (hc : u.inp = some c)
    (hd : d.bits ≤ c.bits) : Undisturbed s { u with inp := some d } := by
  have hbits : u.inBits = c.bits := by rw [State.inBits, hc]; rfl
  exact h.trans ⟨rfl, rfl, hd.trans hbits.ge⟩

theorem InChan.bits_plainRead (c : InChan) (n : Nat) : (c.plainRead n).2.bits = c.bits := by
  unfold InChan.plainRead
  split <;> rfl

theorem InChan.bits_read_le (c : InChan) (n : Nat) : (c.read n).2.bits ≤ c.bits := by
  unfold InChan.read InChan.nextAnswer
  rcases c.script with _ | ⟨a, as⟩
  · exact (InChan.bits_plainRead c n).le
  · cases a with
    | plain | granted => exact (InChan.bits_plainRead { c with script := as } n).le
    | error _ _ | never => exact le_rfl

theorem InChan.bits_restart_le (c : InChan) : c.restart.bits ≤ c.bits := by simp [InChan.bits, InChan.restart]

theorem InChan.bits_plainRewind_le (c : InChan) : c.plainRewind.2.bits ≤ c.bits := by
  unfold InChan.plainRewind
  split
  · exact le_rfl
  · exact c.bits_restart_le

theorem InChan.bits_rewind_le (c : InChan) : c.rewind.2.bits ≤ c.bits := by
  unfold InChan.rewind InChan.nextAnswer
  rcases c.script with _ | ⟨a, as⟩
  · exact c.bits_plainRewind_le
  · cases a with
    | plain => exact InChan.bits_plainRewind_le { c with script := as }
    | granted => exact InChan.bits_restart_le { c with script := as }
    | error _ _ | never => exact le_rfl

/-! ### What a line does in the surroundings -/

/-- The second answer is what the first one is in the surroundings: the same fault, or the command goes on with lines that the
surroundings suit. -/
inductive Follows (g : Setting) (s : State) : Result → Result → Prop where
  /-- The command goes on. -/
  | goesOn (t : State) (hsuits : g.suits t.todo) (hs : Undisturbed s t) : Follows g s (.next t) (.next (t.within g))
  /-- A fault (R222). -/
  | fails (t : State) (e : ErrCode) : Follows g s (.next (t.fail e)) (.next ((t.within g).fail e))
  /-- The model stops. -/
  | stops (f : Fault) : Follows g s (.fault f) (.fault f)

namespace Follows

variable {g : Setting} {s v : State}

theorem goOn {us : List Task} (hsuits : g.suits us) (hv : Undisturbed s v) :
    Follows g s (v.goOn us) ((v.within g).goOn (us ++ g.rest)) := goesOn { v with todo := us } hsuits hv.of_frame

theorem raise (e : ErrCode) : Follows g s (v.raise e) ((v.within g).raise e) := fails v e

/-! ### The transactions -/

theorem readIn {n : Nat} {k k' : Option (BitVec n) → State → Result} (hsuits : g.suits v.todo) (hv : Undisturbed s v)
    (hk : ∀ r u, Undisturbed s u → Follows g s (k r u) (k' r (u.within g))) :
    Follows g s (v.readIn n k) ((v.within g).readIn n k') := by
  have hinp : (v.within g).inp = v.inp := rfl
  unfold State.readIn
  rw [hinp]
  cases hi : v.inp with
  | none => exact raise .channel
  | some c =>
    have hread := hv.withInp hi (c.bits_read_le n)
    rcases hr : c.read n with ⟨_ | _ | _ | _, c'⟩ <;> simp only [hr] at hread ⊢
    · exact hk _ _ hread
    · exact hk _ _ hread
    · exact raise (v := { v with inp := some c' }) .channel
    · exact goesOn v hsuits hv

theorem rewindIn {k k' : State → Result} (hsuits : g.suits v.todo) (hv : Undisturbed s v)
    (hk : ∀ u, Undisturbed s u → Follows g s (k u) (k' (u.within g))) :
    Follows g s (v.rewindIn k) ((v.within g).rewindIn k') := by
  have hinp : (v.within g).inp = v.inp := rfl
  unfold State.rewindIn
  rw [hinp]
  cases hi : v.inp with
  | none => exact raise .channel
  | some c =>
    have hrewind := hv.withInp hi c.bits_rewind_le
    rcases hr : c.rewind with ⟨_ | _ | _, c'⟩ <;> simp only [hr] at hrewind ⊢
    · exact hk _ hrewind
    · exact raise (v := { v with inp := some c' }) .channel
    · exact goesOn v hsuits hv

theorem within_out (hg : g.out = none) (v : State) (o : Option OutChan) :
    { v.within g with out := o } = State.within { v with out := o } g := by
  simp only [State.within, hg, Option.getD_none]

theorem writeOut {n : Nat} {x : BitVec n} {k k' : State → Result} (hg : g.out = none) (hsuits : g.suits v.todo)
    (hv : Undisturbed s v) (hk : ∀ u, Undisturbed s u → Follows g s (k u) (k' (u.within g))) :
    Follows g s (v.writeOut x k) ((v.within g).writeOut x k') := by
  have hout : (v.within g).out = v.out := by rw [State.within, hg]; rfl
  unfold State.writeOut
  rw [hout]
  cases v.out with
  | none => exact raise .channel
  | some c =>
    simp only [within_out hg]
    rcases c.write x with ⟨_ | _ | _, c'⟩
    · exact hk _ hv.of_frame
    · exact raise (v := { v with out := some c' }) .channel
    · exact goesOn v hsuits hv

theorem flushOut {k k' : State → Result} (hg : g.out = none) (hsuits : g.suits v.todo)
    (hv : Undisturbed s v) (hk : ∀ u, Undisturbed s u → Follows g s (k u) (k' (u.within g))) :
    Follows g s (v.flushOut k) ((v.within g).flushOut k') := by
  have hout : (v.within g).out = v.out := by rw [State.within, hg]; rfl
  unfold State.flushOut
  rw [hout]
  cases v.out with
  | none => exact raise .channel
  | some c =>
    simp only [within_out hg]
    rcases c.flush with ⟨_ | _ | _, c'⟩
    · exact hk _ hv.of_frame
    · exact raise (v := { v with out := some c' }) .channel
    · exact goesOn v hsuits hv

theorem withNode {i : Idx} {k k' : Node → Result} (hk : ∀ x, Follows g s (k x) (k' x)) :
    Follows g s (v.withNode i k) ((v.within g).withNode i k') := by
  have hnode : (v.within g).nodeAt? i = v.nodeAt? i := rfl
  unfold State.withNode
  rw [hnode]
  cases v.nodeAt? i with
  | none => exact stops _
  | some x => exact hk x

/-! ### The lines -/

variable {ts : List Task}

theorem countByte (hs : g.suits s.todo) (hts : g.suits ts) :
    Follows g s (countByte ts s) (countByte (ts ++ g.rest) (s.within g)) := by
  refine readIn hs (.refl s) fun r u hu => ?_
  cases r with
  | none => exact goOn hts hu
  | some v =>
    have hfreq : (u.within g).freqOf (v.setWidth 9) = u.freqOf (v.setWidth 9) := rfl
    simp only [countValue, hfreq]
    split
    · exact goOn (v := u.setFreq _ _) (us := .countByte :: ts) ⟨trivial, hts⟩ hu.of_frame
    · exact raise _

theorem rewind (hs : g.suits s.todo) (hts : g.suits ts) :
    Follows g s (rewind ts s) (rewind (ts ++ g.rest) (s.within g)) :=
  rewindIn hs (.refl s) fun _ hu => goOn hts hu

theorem writeMagic (hg : g.out = none) (hs : g.suits s.todo) (hts : g.suits ts) :
    Follows g s (writeMagic ts s) (writeMagic (ts ++ g.rest) (s.within g)) :=
  writeOut hg hs (.refl s) fun _ hu => goOn hts hu

theorem flushStep (hg : g.out = none) (hs : g.suits s.todo) (hts : g.suits ts) :
    Follows g s (flushStep ts s) (flushStep (ts ++ g.rest) (s.within g)) :=
  flushOut hg hs (.refl s) fun _ hu => goOn hts hu

theorem writeSym (sym : Sym) (hg : g.out = none) (hs : g.suits s.todo) (hts : g.suits ts) :
    Follows g s (writeSym sym ts s) (writeSym sym (ts ++ g.rest) (s.within g)) := by
  unfold Machine.writeSym
  split
  · exact writeOut hg hs (.refl s) fun _ hu => goOn hts hu
  · exact stops _

theorem decodeOut (sym : Sym) (hg : g.out = none) (hs : g.suits s.todo) (hts : g.suits ts) :
    Follows g s (decodeOut sym ts s) (decodeOut sym (ts ++ g.rest) (s.within g)) := by
  unfold Machine.decodeOut
  split
  · exact writeOut hg hs (.refl s) fun u hu => goOn (v := { u with cur := u.root }) hts hu.of_frame
  · exact stops _

theorem within_stack (hg : g.stack = none) (v : State) (st : List Frame) :
    { v.within g with stack := st } = State.within { v with stack := st } g := by
  simp only [State.within, hg, Option.getD_none]

theorem removeMin_within (hg : g.pq = none) (v : State) :
    (v.within g).removeMin = v.removeMin.map fun x => (x.1, x.2.within g) := by
  obtain ⟨cmd, rest, pq, stack, path, out⟩ := g
  obtain rfl : pq = none := hg
  have hpq : (v.within ⟨cmd, rest, none, stack, path, out⟩).pq = v.pq := rfl
  unfold State.removeMin
  rw [hpq]
  cases v.pq with
  | nil => rfl
  | cons a q => rfl

theorem insertLeaves_within (hg : g.pq = none) (v : State) : (v.within g).insertLeaves = v.insertLeaves.within g := by
  obtain ⟨cmd, rest, pq, stack, path, out⟩ := g
  obtain rfl : pq = none := hg
  have hgraft : v.within ⟨cmd, rest, none, stack, path, out⟩ = (v.within ⟨cmd, rest, none, stack, path, out⟩).graft v := rfl
  rw [hgraft, insertLeaves_graft (s := v) (u := v.within ⟨cmd, rest, none, stack, path, out⟩) rfl]
  obtain ⟨node, nnodes, pq, hframe⟩ := insertLeaves_frame v
  rw [hframe]
  rfl

theorem queueNode_within (hg : g.pq = none) (v : State) (x : Node) :
    (v.within g).queueNode x = (v.queueNode x).within g := by
  obtain ⟨cmd, rest, pq, stack, path, out⟩ := g
  obtain rfl : pq = none := hg
  rfl

theorem insertLeaves (hg : g.pq = none) (hts : g.suits ts) :
    Follows g s (insertLeaves ts s) (insertLeaves (ts ++ g.rest) (s.within g)) := by
  unfold Machine.insertLeaves
  rw [insertLeaves_within hg]
  obtain ⟨node, nnodes, pq, hframe⟩ := insertLeaves_frame s
  rw [hframe]
  exact goOn hts (Undisturbed.refl s).of_frame

theorem merge (hg : g.pq = none) (hts : g.suits ts) :
    Follows g s (merge ts s) (merge (ts ++ g.rest) (s.within g)) := by
  have hpq : (s.within g).pq = s.pq := by rw [State.within, hg]; rfl
  unfold Machine.merge
  rw [hpq, removeMin_within hg]
  split
  · exact goOn hts (.refl s)
  cases h1 : s.removeMin with
  | none => exact stops _
  | some x =>
    simp only [Option.map_some, removeMin_within hg]
    cases h2 : x.2.removeMin with
    | none => exact stops _
    | some y =>
      obtain ⟨q1, h1⟩ := removeMin_cases h1
      obtain ⟨q2, h2⟩ := removeMin_cases h2
      have hy : Undisturbed s y.2 := by
        rw [h2, h1]
        exact (Undisturbed.refl s).of_frame
      have hweight : ∀ i, (y.2.within g).weightOf i = y.2.weightOf i := fun _ => rfl
      simp only [Option.map_some, mergePair, hweight, queueNode_within hg]
      split
      · exact goOn (us := .merge :: ts) ⟨hg, hts⟩ hy.of_frame
      · exact raise _

theorem takeRoot (hg : g.pq = none) (hts : g.suits ts) :
    Follows g s (takeRoot ts s) (takeRoot (ts ++ g.rest) (s.within g)) := by
  unfold Machine.takeRoot
  rw [removeMin_within hg]
  cases h : s.removeMin with
  | none => exact stops _
  | some x =>
    obtain ⟨q, h⟩ := removeMin_cases h
    have hx : Undisturbed s x.2 := by
      rw [h]
      exact (Undisturbed.refl s).of_frame
    exact goOn (v := { x.2.treeValid with root := x.1 }) hts hx.of_frame

theorem walkOn {u : State} (hg : g.stack = none ∧ g.path = none) (hts : g.suits ts) (hu : Undisturbed s u) :
    Follows g s (walkOn ts u) (walkOn (ts ++ g.rest) (u.within g)) := by
  have hus : ∀ j, g.suits (.walk j :: ts) := fun _ => ⟨hg, hts⟩
  obtain ⟨cmd, rest, pq, stack, path, out⟩ := g
  obtain ⟨rfl, rfl⟩ : stack = none ∧ path = none := hg
  have hstack : (u.within ⟨cmd, rest, pq, none, none, out⟩).stack = u.stack := rfl
  unfold Machine.walkOn
  rw [hstack]
  split
  · exact goOn (v := { u with path := [] }) hts hu.of_frame
  · next r d st _ => exact goOn (v := { u with path := u.path.take d ++ [true], stack := st }) (hus r) hu.of_frame
  · exact stops _

theorem walk (i : Idx) (hg : g.stack = none ∧ g.path = none) (hts : g.suits ts) :
    Follows g s (walk i ts s) (walk i (ts ++ g.rest) (s.within g)) := by
  have hpath : (s.within g).path = s.path := by rw [State.within, hg.2]; rfl
  refine withNode fun x => ?_
  rw [hpath]
  split
  · split
    · exact walkOn (u := s.setCode x.sym (Code.ofPath s.path)) hg hts (Undisturbed.refl s).of_frame
    · exact stops _
  · split
    · have hset (f : Frame) : { s.within g with path := s.path ++ [false], stack := f :: (s.within g).stack } =
          State.within { s with path := s.path ++ [false], stack := f :: s.stack } g := by
        simp only [State.within, hg, Option.getD_none]
      rw [hset]
      exact goOn (us := .walk x.left :: ts) ⟨hg, hts⟩ (Undisturbed.refl s).of_frame
    · exact stops _

theorem writeNode (hg : g.stack = none ∧ g.out = none) (hs : g.suits s.todo) (hts : g.suits ts) :
    Follows g s (writeNode ts s) (writeNode (ts ++ g.rest) (s.within g)) := by
  have hus : g.suits (.writeNode :: ts) := ⟨hg, hts⟩
  obtain ⟨hgs, hout⟩ := hg
  have hstack : (s.within g).stack = s.stack := by rw [State.within, hgs]; rfl
  unfold Machine.writeNode
  rw [hstack]
  rcases s.stack with _ | ⟨⟨i⟩ | _ | _ | _, st⟩
  · exact goOn hts (.refl s)
  · refine withNode fun x => ?_
    unfold writeRecord
    split
    · refine writeOut hout hs (.refl s) fun u hu => ?_
      rw [within_stack hgs]
      exact goOn (us := .writeSym x.sym :: .writeNode :: ts) ⟨hout, hus⟩ hu.of_frame
    · refine writeOut hout hs (.refl s) fun u hu => ?_
      rw [within_stack hgs]
      exact goOn hus hu.of_frame
  · exact stops _
  · exact stops _
  · exact stops _

theorem readTag (hg : g.stack = none) (hs : g.suits s.todo) (hts : g.suits ts) :
    Follows g s (readTag ts s) (readTag (ts ++ g.rest) (s.within g)) := by
  refine readIn hs (.refl s) fun r u hu => ?_
  cases r with
  | none => exact raise _
  | some b =>
    have hn : (u.within g).nnodes = u.nnodes := rfl
    simp only [tagRead, hn]
    split
    · split
      · exact goOn (v := { u with nnodes := u.nnodes + 1#10 }) (us := .readSym u.nnodes :: ts) ⟨hg, hts⟩ hu.of_frame
      · have hset (f : Frame) : { u.within g with nnodes := u.nnodes + 1#10, stack := f :: (u.within g).stack } =
            State.within { u with nnodes := u.nnodes + 1#10, stack := f :: u.stack } g := by
          simp only [State.within, hg, Option.getD_none]
        rw [hset]
        exact goOn (us := .readTag :: ts) ⟨hg, hts⟩ hu.of_frame
    · exact raise _

theorem closeNode {u : State} (st : List Frame) (i : Idx) (hg : g.stack = none) (hts : g.suits ts) (hu : Undisturbed s u) :
    Follows g s (closeNode st i ts u) (closeNode st i (ts ++ g.rest) (u.within g)) := by
  induction st generalizing i u with
  | nil =>
    unfold Machine.closeNode
    rw [within_stack hg]
    exact goOn (us := .checkRoot i :: ts) ⟨trivial, hts⟩ hu.of_frame
  | cons f st ih =>
    cases f with
    | visit _ | right _ _ => exact stops _
    | opened p =>
      unfold Machine.closeNode
      rw [within_stack hg]
      exact goOn (us := .readTag :: ts) ⟨hg, hts⟩ hu.of_frame
    | half p l => exact ih (u := u.setNode p (Node.mkInternal 0#32 l i)) p hu.of_frame

theorem readSym (i : Idx) (hg : g.stack = none) (hs : g.suits s.todo) (hts : g.suits ts) :
    Follows g s (readSym i ts s) (readSym i (ts ++ g.rest) (s.within g)) := by
  refine readIn hs (.refl s) fun r u hu => ?_
  cases r with
  | none => exact raise _
  | some sym =>
    have hstack : (u.within g).stack = u.stack := by rw [State.within, hg]; rfl
    simp only [symRead, hstack]
    split
    · exact closeNode (u := u.setNode i (Node.mkLeaf sym 0#32)) u.stack i hg hts hu.of_frame
    · exact raise _

theorem checkRoot (i : Idx) (hts : g.suits ts) :
    Follows g s (checkRoot i ts s) (checkRoot i (ts ++ g.rest) (s.within g)) := by
  refine withNode (v := { s with root := i }) fun x => ?_
  split
  · exact raise (v := { s with root := i }) _
  · exact goOn (v := State.treeValid { s with root := i }) hts (Undisturbed.refl s).of_frame

theorem readMagic (hs : g.suits s.todo) (hts : g.suits ts) :
    Follows g s (readMagic ts s) (readMagic (ts ++ g.rest) (s.within g)) := by
  refine readIn hs (.refl s) fun r u hu => ?_
  cases r with
  | none => exact raise _
  | some m =>
    have hmagic : (u.within g).params.magic = u.params.magic := rfl
    simp only [checkMagic, hmagic]
    split
    · exact goOn hts hu
    · exact raise _

theorem encodeByte (hg : g.out = none) (hs : g.suits s.todo) (hts : g.suits ts) :
    Follows g s (encodeByte ts s) (encodeByte (ts ++ g.rest) (s.within g)) := by
  refine readIn hs (.refl s) fun r u hu => ?_
  cases r with
  | none => exact goOn hts hu
  | some v =>
    have hrefuses : (u.within g).refusesByte v = u.refusesByte v := rfl
    simp only [hrefuses]
    split
    · exact raise _
    · exact goOn (us := .emit (v.setWidth 9) :: .encodeByte :: ts) ⟨hg, hg, hts⟩ hu

theorem emit (sym : Sym) (hg : g.out = none) (hts : g.suits ts) :
    Follows g s (emit sym ts s) (emit sym (ts ++ g.rest) (s.within g)) := by
  have hcode : (s.within g).codeOf sym = s.codeOf sym := rfl
  unfold Machine.emit
  rw [hcode]
  split
  · exact goOn (us := .emitBit sym 0 :: ts) ⟨hg, hts⟩ (.refl s)
  · exact raise _

theorem emitBit (sym : Sym) (j : Nat) (hg : g.out = none) (hs : g.suits s.todo) (hts : g.suits ts) :
    Follows g s (emitBit sym j ts s) (emitBit sym j (ts ++ g.rest) (s.within g)) := by
  have hcode : (s.within g).codeOf sym = s.codeOf sym := rfl
  unfold Machine.emitBit
  rw [hcode]
  split
  · exact writeOut hg hs (.refl s) fun u hu => goOn (us := .emitBit sym (j + 1) :: ts) ⟨hg, hts⟩ hu
  · exact goOn hts (.refl s)

theorem decodeBit (hg : g.out = none) (hs : g.suits s.todo) (hts : g.suits ts) :
    Follows g s (decodeBit ts s) (decodeBit (ts ++ g.rest) (s.within g)) := by
  refine readIn hs (.refl s) fun r u hu => ?_
  cases r with
  | none => exact raise _
  | some b =>
    refine withNode fun x => withNode (v := { u with cur := x.child (b = 1#1) }) fun y => ?_
    split
    · split
      · exact goOn (v := { u with cur := x.child (b = 1#1) }) hts hu.of_frame
      · exact goOn (v := { u with cur := x.child (b = 1#1) }) (us := .decodeOut y.sym :: .decodeBit :: ts) ⟨hg, hg, hts⟩
          hu.of_frame
    · exact goOn (v := { u with cur := x.child (b = 1#1) }) (us := .decodeBit :: ts) ⟨hg, hts⟩ hu.of_frame

end Follows

/-- A line does in the surroundings what it does in its own command, if it does not use what is different there. -/
theorem runTask_follows {g : Setting} {x : Task} {ts : List Task} {s : State} (htodo : s.todo = x :: ts)
    (hsuits : g.suits (x :: ts)) : Follows (g.after x) s (runTask x ts s) (runTask x (ts ++ g.rest) (s.within g)) := by
  have hs : g.suits s.todo := htodo ▸ hsuits
  obtain ⟨hx, hts⟩ := hsuits
  have hrefl := Undisturbed.refl s
  cases x with
  | countClear => exact .goOn (v := s.clearFreq) hts hrefl.of_frame
  | countByte => exact .countByte hs hts
  | rewind => exact .rewind hs hts
  | treeClear => exact .goOn (v := s.clearTree) hts hrefl.of_frame
  | insertLeaves => exact .insertLeaves hx hts
  | merge => exact .merge hx hts
  | takeRoot => exact .takeRoot hx hts
  | codeClear =>
    exact .goOn (v := { s.clearCode.dropCodes with path := [], stack := [] }) (us := .walk s.root :: ts)
      ⟨⟨rfl, rfl⟩, hts⟩ hrefl.of_frame
  | walk i => exact .walk i hx hts
  | codeDone => exact .goOn (v := s.codesValid) hts hrefl.of_frame
  | writeMagic => exact .writeMagic hx hs hts
  | writeTree =>
    exact .goOn (v := { s with stack := [.visit s.root] }) (us := .writeNode :: ts) ⟨⟨rfl, hx⟩, hts⟩ hrefl.of_frame
  | writeNode => exact .writeNode hx hs hts
  | writeSym sym => exact .writeSym sym hx hs hts
  | readMagic => exact .readMagic hs hts
  | readTag => exact .readTag hx hs hts
  | readSym i => exact .readSym i hx hs hts
  | checkRoot i => exact .checkRoot i hts
  | encodeByte => exact .encodeByte hx hs hts
  | emit sym => exact .emit sym hx hts
  | emitBit sym j => exact .emitBit sym j hx hs hts
  | decodeStart => exact .goOn (v := { s with cur := s.root }) hts hrefl.of_frame
  | decodeBit => exact .decodeBit hx hs hts
  | decodeOut sym => exact .decodeOut sym hx hs hts
  | flush => exact .flushStep hx hs hts

/-! ### OUT before its time (R75) -/

/-- The line, or one that it puts before the following ones, writes or flushes OUT. -/
def Task.usesOut : Task → Bool
  | .writeMagic | .writeTree | .writeNode | .writeSym _ | .encodeByte | .emit _ | .emitBit _ _ | .decodeBit | .decodeOut _
  | .flush => true
  | .countClear | .countByte | .rewind | .treeClear | .insertLeaves | .merge | .takeRoot | .codeClear | .walk _ | .codeDone
  | .readMagic | .readTag | .readSym _ | .checkRoot _ | .decodeStart => false

/-- Surroundings that differ in OUT alone. -/
def Setting.ofOut (cmd : CmdWord) (rest : List Task) (out : Option OutChan) : Setting :=
  ⟨cmd, rest, none, none, none, some out⟩

theorem ignores_ofOut {x : Task} (hx : x.usesOut = false) (cmd : CmdWord) (rest : List Task) (out : Option OutChan) :
    x.ignores (.ofOut cmd rest out) := by
  cases x <;> simp_all [Task.ignores, Task.usesOut, Setting.ofOut]

theorem Setting.after_outer (g : Setting) (x : Task) :
    (g.after x).cmd = g.cmd ∧ (g.after x).rest = g.rest ∧ (g.after x).out = g.out := by
  cases x <;> exact ⟨rfl, rfl, rfl⟩

/-- The answer leaves what the surroundings have in OUT. -/
theorem Follows.out_eq {g : Setting} {s t : State} {r r' : Result} {o : Option OutChan} (h : Follows g s r r')
    (hg : g.out = some o) (ht : r' = .next t) : t.out = o := by
  have hout : ∀ u : State, (u.within g).out = o := fun u => by rw [State.within, hg]; rfl
  cases h with
  | goesOn u | fails u => cases ht; exact hout u
  | stops f => cases ht

/-- A line that does not use OUT leaves it alone. -/
theorem runTask_out {x : Task} {ts : List Task} {s t : State} (hx : x.usesOut = false) (htodo : s.todo = x :: ts)
    (h : runTask x ts s = .next t) : t.out = s.out := by
  have hsame : State.within { s with todo := [x] } (.ofOut s.cmd ts s.out) = s := by
    simp only [State.within, Setting.ofOut, Option.getD_none, Option.getD_some, List.singleton_append, ← htodo]
  have hline := runTask_follows (g := .ofOut s.cmd ts s.out) (s := { s with todo := [x] }) rfl
    ⟨ignores_ofOut hx _ _ _, trivial⟩
  rw [hsame] at hline
  obtain ⟨-, -, hout⟩ := Setting.after_outer (.ofOut s.cmd ts s.out) x
  exact hline.out_eq hout h

/-! ### A command within another command -/

/-- Another command `w` has come to the given lines with everything as in `s`, but for PQ, STACK and PATH. -/
def Amid (w : CmdWord) (ts : List Task) (s u : State) : Prop :=
  ∃ q st p, u = { s with phase := .busy, cmd := w, todo := ts, pq := q, stack := st, path := p }

theorem amid_begin (s : State) (w : CmdWord) (program : List Task) : Amid w program s (s.begin w program) :=
  ⟨s.pq, s.stack, s.path, rfl⟩

theorem Runs.of_not_running {k : Nat} {s t : State} (h : Runs k s t) (hs : s.running = false) : k = 0 ∧ t = s := by
  cases k with
  | zero => exact ⟨rfl, h.symm⟩
  | succ k => exact absurd h.1 (by rw [hs]; decide)

/-- How a body's run ends within another command: the command has come to the lines after it, one step before the body's own
command is done, or it has failed as the body's own command has. -/
def EndsWithin (w : CmdWord) (rest : List Task) (v : State) (k : Nat) (u t : State) : Prop :=
  (t.complete = t ∧ t.host = v.host ∧ t.inBits ≤ v.inBits ∧ ∃ j u', k = j + 1 ∧ Runs j u u' ∧ Amid w rest t u') ∨
  (t.phase = .failed ∧ Runs k u t)

/-- A body's run in the surroundings, by induction on its steps. -/
theorem Runs.endsWithin {g : Setting} {k : Nat} {v t : State} (h : Runs k v t) (hv : v.atLines v.todo)
    (ht : t.running = false) (hsuits : g.suits v.todo) (hout : g.out = none) :
    EndsWithin g.cmd g.rest v k (v.within g) t := by
  have hrunning := State.running_of_quiet hv.1 hv.2.1
  induction k generalizing v g with
  | zero =>
    cases h
    exact absurd hrunning (by rw [ht]; decide)
  | succ k ih =>
    obtain ⟨-, m, hstep, hm⟩ := h
    obtain ⟨hq, hb, -⟩ := hv
    cases htodo : v.todo with
    | nil =>
      cases (engineStep_nil hq htodo).symm.trans hstep
      obtain ⟨rfl, rfl⟩ := hm.of_not_running (complete_not_running v)
      refine Or.inl ⟨rfl, rfl, le_rfl, 0, _, rfl, runs_zero _, g.pq.getD v.pq, g.stack.getD v.stack, g.path.getD v.path, ?_⟩
      simp only [State.within, State.complete, hout, htodo, hb, List.nil_append, Option.getD_none]
    | cons x ts =>
      rw [engineStep_cons hq htodo] at hstep
      have hline := runTask_follows htodo (htodo ▸ hsuits)
      have hat : (v.within g).atLines (x :: (ts ++ g.rest)) := ⟨hq, hb, by rw [State.within, htodo]; rfl⟩
      obtain ⟨hcmd, hrest, hout'⟩ := g.after_outer x
      rw [hstep] at hline
      generalize hr : runTask x (ts ++ g.rest) (v.within g) = r at hline
      cases hline with
      | goesOn _ hsuits' hframe =>
        have hm' : m.atLines m.todo := ⟨(State.quiet_congr hframe.host).trans hq, hframe.phase.trans hb, rfl⟩
        have hfirst := hat.runs hr
        rcases ih hm hm' hsuits' (hout'.trans hout) (State.running_of_quiet hm'.1 hm'.2.1) with
          ⟨hcomplete, hhost, hbits, j, u', rfl, hruns, hamid⟩ | ⟨hphase, hruns⟩
        · rw [hcmd, hrest] at hamid
          exact Or.inl ⟨hcomplete, hhost.trans hframe.host, hbits.trans hframe.inBits, j + 1, u', rfl,
            Nat.add_comm 1 j ▸ runs_trans hfirst hruns, hamid⟩
        · exact Or.inr ⟨hphase, Nat.add_comm 1 k ▸ runs_trans hfirst hruns⟩
      | fails m' e =>
        obtain ⟨rfl, rfl⟩ := hm.of_not_running (fail_not_running m' e)
        have hfail : (m'.within (g.after x)).fail e = m'.fail e := by
          simp only [State.within, State.fail, hout', hout]
          rfl
        exact Or.inr ⟨rfl, hfail ▸ hat.runs hr⟩

end Sys2Proof.Machine
end

section
/-!
PROOFS. The step commands and the commands made of them leave the same state (R196, R199, R206).
-/

namespace Sys2Proof.Machine

open Sys2Proof Sys2Proof.Safety

/-! ### The flags at the end of a command (R25) -/

/-- TV and CV after a line, or after the lines that it puts before the following ones. -/
def Task.flags : Bool × Bool → Task → Bool × Bool
  | _, .treeClear => (false, false)
  | (_, cv), .takeRoot | (_, cv), .readTag | (_, cv), .readSym _ | (_, cv), .checkRoot _ => (true, cv)
  | (tv, _), .codeClear => (tv, false)
  | (tv, _), .codeDone => (tv, true)
  | flags, _ => flags

/-- TV and CV as they will be once the lines to come have run without a fault. -/
def State.flagsToCome (s : State) : Bool × Bool := s.todo.foldl Task.flags (s.tv, s.cv)

theorem flags_plain {x : Task} (hx : x.isPlain = true) (flags : Bool × Bool) : Task.flags flags x = flags := by
  cases x with
  | treeClear | insertLeaves | merge | takeRoot | codeClear | walk _ | codeDone | readTag | readSym _ | checkRoot _ => cases hx
  | _ => rfl

theorem foldl_flags_plain {us : List Task} (hus : ∀ u ∈ us, u.isPlain = true) (flags : Bool × Bool) :
    us.foldl Task.flags flags = flags := by
  induction us with
  | nil => rfl
  | cons u us ih =>
    obtain ⟨hu, hus⟩ := List.forall_mem_cons.1 hus
    rw [List.foldl_cons, flags_plain hu, ih hus]

/-- A line fails or does to TV and CV what was to come. -/
theorem LineOutcome.keeps_flagsToCome {s t : State} {x : Task} {ts : List Task} (h : LineOutcome s x ts t)
    (htodo : s.todo = x :: ts) : t.phase = .failed ∨ t.flagsToCome = s.flagsToCome := by
  simp only [State.flagsToCome, htodo, List.foldl_cons]
  cases h with
  | failed => exact Or.inl rfl
  | waited => rw [htodo]; exact Or.inr rfl
  | passed us _ _ _ _ _ hx hus _ =>
    rw [flags_plain hx, List.foldl_append, foldl_flags_plain hus]
    exact Or.inr rfl
  | queued us _ _ _ hx hus => rcases hx with rfl | rfl <;> rcases hus with rfl | rfl <;> exact Or.inr rfl
  | tagged u _ _ _ hu _ | closed _ u _ _ _ hu _ => rcases hu with rfl | ⟨i, rfl⟩ <;> exact Or.inr rfl
  | treeCleared | rootTaken | codeCleared | walkedLeft | walkedRight | walkedOut | codesDone | rootChecked =>
    exact Or.inr rfl

/-- A run that ends without a fault has done to TV and CV what was to come. -/
theorem Runs.flags {k : Nat} {s t : State} (h : Runs k s t) (ht : t.phase ≠ .failed) : t.flagsToCome = s.flagsToCome := by
  refine (runs_invariant (P := fun u => u.phase = .failed ∨ u.flagsToCome = s.flagsToCome) ?_ h (Or.inr rfl)).resolve_left ht
  intro u v hrun hstep hu
  have hu := hu.resolve_left fun hphase => by rw [State.running_busy hrun] at hphase; cases hphase
  rcases engineStep_cases hstep with ⟨htodo, rfl⟩ | ⟨x, ts, htodo, hx⟩
  · refine Or.inr (Eq.trans ?_ hu)
    simp only [State.flagsToCome, htodo]
    rfl
  · exact ((runTask_cases hx).keeps_flagsToCome htodo).imp_right fun h => h.trans hu

/-! ### From one step command to the next -/

/-- Within the steps that `n` lines of a program allow, with at most `b` bits in IN, a command `w` that began in `u₀` has come to
the given lines, having done what step commands did that ended in `s`. -/
structure ComesTo (u₀ : State) (b n : Nat) (w : CmdWord) (ts : List Task) (s : State) : Prop where
  /-- The next step command can be issued. -/
  ready : ready s
  /-- IN has no more bits. -/
  inBits : s.inBits ≤ b
  /-- The run of the command `w`. -/
  runs : ∃ k ≤ n * (4096 + 128 * b), ∃ u, Runs k u₀ u ∧ Amid w ts s u

theorem comesTo_begin {s : State} (hs : Safety.ready s) (w : CmdWord) (program : List Task) :
    ComesTo (s.begin w program) s.inBits 0 w program s :=
  ⟨hs, le_rfl, 0, Nat.zero_le _, _, runs_zero _, amid_begin s w program⟩

/-- The body of a command writes PQ, STACK and PATH before it reads them. -/
def SelfContained (program : List Task) : Prop := ∀ g : Setting, g.out = none → g.suits program

section

variable {u₀ s t : State} {b n : Nat} {w w' : CmdWord} {pre : State → Bool} {program rest : List Task}

theorem ComesTo.budget_le (h : ComesTo u₀ b n w (program ++ rest) s) {k j : Nat} (hk : k ≤ n * (4096 + 128 * b))
    (hj : j ≤ budget program s) : k + j ≤ (n + program.length) * (4096 + 128 * b) := by
  have hbits := h.inBits
  have hbudget : budget program s ≤ program.length * (4096 + 128 * b) := Nat.mul_le_mul_left _ (by omega)
  rw [Nat.add_mul]
  omega

/-- The next step command's run, within the command `w`. -/
theorem ComesTo.endsWithin (h : ComesTo u₀ b n w (program ++ rest) s) (hpre : pre s = true)
    (hexec : issue w' pre program s = .next t) (ht : t.phase ≠ .busy) (hself : SelfContained program) :
    ∃ j ≤ budget program s, Runs j (s.begin w' program) t ∧
      ∃ k ≤ n * (4096 + 128 * b), ∃ u, Runs k u₀ u ∧ EndsWithin w rest (s.begin w' program) j u t := by
  obtain ⟨k, hk, u, hruns, q, st, p, hu⟩ := h.runs
  rw [issue_accepted h.ready.1 hpre] at hexec
  obtain ⟨j, hj, hown, -⟩ := runs_of_drive hexec
  refine ⟨j, hj, hown, k, hk, u, hruns, ?_⟩
  rw [hu]
  exact hown.endsWithin (g := ⟨w, rest, some q, some st, some p, none⟩) (atLines_begin h.ready w' program)
    (by simp [State.running, ht]) (hself _ rfl) rfl

/-- A step command that was not dropped and did not fail at acceptance. -/
theorem pre_of_done (hs : Safety.ready s) (hexec : issue w' pre program s = .next t) (hdone : t.phase = .done) :
    pre s = true := by
  by_contra hpre
  cases (issue_sequence hs.1 (by simpa using hpre)).symm.trans hexec
  cases hdone

/-- A step command that is done brings the command `w` to the lines after that command's body, with the flags of that body. -/
theorem ComesTo.next (h : ComesTo u₀ b n w (program ++ rest) s) (hexec : issue w' pre program s = .next t)
    (hdone : t.phase = .done) (hself : SelfContained program) :
    ComesTo u₀ b (n + program.length) w rest t ∧ (t.tv, t.cv) = program.foldl Task.flags (s.tv, s.cv) := by
  obtain ⟨j, hj, hown, k, hk, u, hruns, hend⟩ :=
    h.endsWithin (pre_of_done h.ready hexec hdone) hexec (by simp [hdone]) hself
  rcases hend with ⟨hcomplete, hhost, hbits, j', u', rfl, hbody, hamid⟩ | ⟨hphase, -⟩
  · have htodo : t.todo = [] := by rw [← hcomplete]; rfl
    have hflags := hown.flags (by simp [hdone])
    simp only [State.flagsToCome, htodo, List.foldl_nil] at hflags
    exact ⟨⟨⟨Or.inr hdone, (State.quiet_congr hhost).trans h.ready.2⟩, hbits.trans h.inBits, k + j',
      h.budget_le hk (Nat.le_of_succ_le hj), u', runs_trans hruns hbody, hamid⟩, hflags⟩
  · rw [hphase] at hdone
    cases hdone

/-- A step command that fails fails the command `w` (R206). -/
theorem ComesTo.fails (h : ComesTo u₀ b n w (program ++ rest) s) (hpre : pre s = true)
    (hexec : issue w' pre program s = .next t) (hfailed : t.phase = .failed) (hself : SelfContained program) :
    ∃ k ≤ (n + program.length) * (4096 + 128 * b), Runs k u₀ t := by
  obtain ⟨j, hj, -, k, hk, u, hruns, hend⟩ := h.endsWithin hpre hexec (by simp [hfailed]) hself
  rcases hend with ⟨hcomplete, -⟩ | ⟨-, hbody⟩
  · rw [← hcomplete] at hfailed
    cases hfailed
  · exact ⟨k + j, h.budget_le hk hj, runs_trans hruns hbody⟩

/-- With the last step command the command `w` ends too, in DONE or in FAILED (R206). -/
theorem ComesTo.ends (h : ComesTo u₀ b n w program s) (hpre : pre s = true)
    (hexec : issue w' pre program s = .next t) (ht : t.phase ≠ .busy) (hself : SelfContained program) :
    ∃ k ≤ (n + program.length) * (4096 + 128 * b), Runs k u₀ t := by
  have h' : ComesTo u₀ b n w (program ++ []) s := by rwa [List.append_nil]
  obtain ⟨j, hj, -, k, hk, u, hruns, hend⟩ := h'.endsWithin hpre hexec ht hself
  refine ⟨k + j, h'.budget_le hk hj, runs_trans hruns ?_⟩
  rcases hend with ⟨hcomplete, hhost, -, j', u', rfl, hbody, q, st, p, hu'⟩ | ⟨-, hbody⟩
  · have hend := runs_complete (s := u') (by rw [hu']; exact (State.quiet_congr hhost).trans h.ready.2) (by rw [hu'])
      (by rw [hu'])
    have ht' : u'.complete = t := by rw [hu', ← hcomplete]; rfl
    exact runs_trans hbody (ht' ▸ hend)
  · exact hbody

end

theorem selfContained_count : SelfContained countProgram := fun _ _ => ⟨trivial, trivial, trivial, trivial⟩
theorem selfContained_build : SelfContained buildProgram := fun _ _ => ⟨trivial, rfl, rfl, rfl, trivial⟩
theorem selfContained_derive : SelfContained deriveProgram := fun _ _ => ⟨trivial, trivial, trivial⟩
theorem selfContained_wrmagic : SelfContained wrmagicProgram := fun _ h => ⟨h, trivial⟩
theorem selfContained_wrhdr : SelfContained wrhdrProgram := fun _ h => ⟨h, trivial⟩
theorem selfContained_encode : SelfContained encodeProgram := fun _ h => ⟨h, h, h, trivial⟩
theorem selfContained_rdmagic : SelfContained rdmagicProgram := fun _ _ => ⟨trivial, trivial⟩
theorem selfContained_rdhdr : SelfContained rdhdrProgram := fun _ _ => ⟨trivial, rfl, trivial⟩
theorem selfContained_decode : SelfContained decodeProgram := fun _ h => ⟨trivial, h, h, trivial⟩

/-! ### COMPRESS and DECOMPRESS as their step commands -/

section Codec

variable {s t : State} {n : Nat}

theorem exec_compress_of_runs (hs : ready s) (ht : t.phase ≠ .busy) (hn : n ≤ compressProgram.length)
    (h : ∃ k ≤ n * (4096 + 128 * s.inBits), Runs k (s.begin (commandWord .compress) compressProgram) t) :
    exec .compress s = .next t := by
  obtain ⟨k, hk, hruns⟩ := h
  exact issue_of_runs hs.1 rfl hruns (hk.trans (Nat.mul_le_mul_right _ hn)) (by simp [State.running, ht])

theorem exec_decompress_of_runs (hs : ready s) (ht : t.phase ≠ .busy) (hn : n ≤ decompressProgram.length)
    (h : ∃ k ≤ n * (4096 + 128 * s.inBits), Runs k (s.begin (commandWord .decompress) decompressProgram) t) :
    exec .decompress s = .next t := by
  obtain ⟨k, hk, hruns⟩ := h
  exact issue_of_runs hs.1 rfl hruns (hk.trans (Nat.mul_le_mul_right _ hn)) (by simp [State.running, ht])

/-- COMPRESS begins with the body of COUNT (R196). -/
theorem comesTo_compress (hs : ready s) : ComesTo (s.begin (commandWord .compress) compressProgram) s.inBits 0
    (commandWord .compress) (countProgram ++ (buildProgram ++ (deriveProgram ++ (wrmagicProgram ++ (wrhdrProgram ++
      encodeProgram))))) s := comesTo_begin hs _ _

/-- DECOMPRESS begins with the body of RDMAGIC (R199). -/
theorem comesTo_decompress (hs : ready s) : ComesTo (s.begin (commandWord .decompress) decompressProgram) s.inBits 0
    (commandWord .decompress) (rdmagicProgram ++ (rdhdrProgram ++ decodeProgram)) s := comesTo_begin hs _ _

end Codec

/-- Settles O48: each step command's run is, within COMPRESS or DECOMPRESS, the run of that command's body (`Runs.endsWithin`), and
DERIVE and RDHDR leave the flag that the last command needs. -/
theorem codecStepsAgree : Obligations.CodecStepsAgree := by
  unfold Obligations.CodecStepsAgree
  refine ⟨fun s s1 s2 s3 s4 s5 t hs h1 d1 h2 d2 h3 d3 h4 d4 h5 d5 h6 ht => ?compress,
    fun s s1 s2 t hs h1 d1 h2 d2 h3 ht => ?decompress⟩
  case compress =>
    obtain ⟨c1, -⟩ := (comesTo_compress hs).next h1 d1 selfContained_count
    obtain ⟨c2, -⟩ := c1.next h2 d2 selfContained_build
    obtain ⟨c3, f3⟩ := c2.next h3 d3 selfContained_derive
    obtain ⟨c4, f4⟩ := c3.next h4 d4 selfContained_wrmagic
    obtain ⟨c5, f5⟩ := c4.next h5 d5 selfContained_wrhdr
    have hcv : s5.cv = true := congrArg Prod.snd (f5.trans (f4.trans f3))
    exact exec_compress_of_runs hs ht le_rfl (c5.ends hcv h6 ht selfContained_encode)
  case decompress =>
    obtain ⟨c1, -⟩ := (comesTo_decompress hs).next h1 d1 selfContained_rdmagic
    obtain ⟨c2, f2⟩ := c1.next h2 d2 selfContained_rdhdr
    have htv : s2.tv = true := congrArg Prod.fst f2
    exact exec_decompress_of_runs hs ht le_rfl (c2.ends htv h3 ht selfContained_decode)

end Sys2Proof.Machine
end

section
/-!
PROOFS. Paths to the leaves of a tree and the codes of a derived table (R38, R161 to R165, R203).
-/

namespace Sys2Proof.Safety

open Sys2Proof Sys2Proof.Machine

/-! ### Paths to leaves (R38) -/

/-- A path that continues another one that leads to a leaf is that path: a leaf has no children. -/
theorem leads_prefix {t : Shape} {p rest : Bits} {a b : Sym} (ha : t.leads p a) (hb : t.leads (p ++ rest) b) :
    rest = [] ∧ a = b := by
  induction t generalizing p with
  | leaf sym =>
    cases p with
    | cons _ _ => exact ha.elim
    | nil =>
      cases rest with
      | cons _ _ => exact hb.elim
      | nil => exact ⟨rfl, Eq.trans ha (Eq.symm hb)⟩
  | node l r ihl ihr =>
    cases p with
    | nil => exact ha.elim
    | cons bit p =>
      cases bit with
      | false => exact ihl ha hb
      | true => exact ihr ha hb

/-- A path has fewer edges than the tree has leaves. -/
theorem length_lt_of_leads {t : Shape} {p : Bits} {a : Sym} (h : t.leads p a) : p.length < t.leaves := by
  induction t generalizing p with
  | leaf sym =>
    cases p with
    | cons _ _ => exact h.elim
    | nil => exact Nat.one_pos
  | node l r ihl ihr =>
    have hl := leaves_pos l
    have hr := leaves_pos r
    cases p with
    | nil => exact h.elim
    | cons bit p =>
      rw [List.length_cons, Shape.leaves]
      cases bit with
      | false =>
        have hlt := ihl h
        omega
      | true =>
        have hlt := ihr h
        omega

/-- The last visited leaf's path leads to a leaf that holds the symbol (R164). -/
theorem leads_of_lastPath {t : Shape} {p : Bits} {a : Sym} (h : t.lastPath a = some p) : t.leads p a := by
  induction t generalizing p with
  | leaf sym =>
    rw [lastPath_leaf] at h
    split at h
    next hsym => cases h; exact hsym.symm
    next => cases h
  | node l r ihl ihr =>
    rw [lastPath_node] at h
    cases hr : r.lastPath a with
    | some q =>
      rw [hr] at h
      cases h
      exact ihr hr
    | none =>
      rw [hr] at h
      obtain ⟨q, hl, rfl⟩ := Option.map_eq_some_iff.1 h
      exact ihl hl

theorem isSome_lastPath_iff {t : Shape} {a : Sym} : (t.lastPath a).isSome = true ↔ a ∈ t.symbols := by
  induction t with
  | leaf sym =>
    rw [lastPath_leaf, Shape.symbols, List.mem_singleton]
    split
    next h => simp [h]
    next h => simpa using Ne.symm h
  | node l r ihl ihr =>
    rw [lastPath_node, Shape.symbols, List.mem_append, ← ihl, ← ihr, Option.isSome_or, Option.isSome_map, Option.isSome_map,
      Bool.or_eq_true, or_comm]

end Sys2Proof.Safety

namespace Sys2Proof.Machine

open Sys2Proof Sys2Proof.Safety

/-! ### The codes of a derived table (R161 to R165) -/

section Derived

variable {s : State} {t : Shape} (hcode : s.code = t.codeTable) (hleaves : t.leaves ≤ 257)
  (hsyms : ∀ sym ∈ t.symbols, sym.toNat ≤ 256)
include hcode hsyms

theorem codeOf_derived (a : Sym) : s.codeOf a = (t.lastPath a).elim Code.none Code.ofPath := by
  rw [State.codeOf, hcode]
  by_cases ha : a.toNat < 257
  · rw [Vector.getElem?_eq_getElem ha, Option.getD_some, Shape.codeTable, Vector.getElem_ofFn, BitVec.ofNat_toNat,
      BitVec.setWidth_eq]
  · have hnone : t.lastPath a = none := by
      rw [← Option.not_isSome_iff_eq_none, isSome_lastPath_iff]
      exact fun hmem => ha (Nat.lt_succ_of_le (hsyms a hmem))
    rw [Vector.getElem?_eq_none (Nat.not_lt.1 ha), hnone]
    rfl

/-- A symbol has a code exactly if a leaf holds it (R38 item 1). -/
theorem valid_derived_iff (a : Sym) : (s.codeOf a).valid = true ↔ a ∈ t.symbols := by
  rw [codeOf_derived hcode hsyms, ← isSome_lastPath_iff]
  cases t.lastPath a with
  | none => exact Iff.rfl
  | some p => exact Iff.rfl

include hleaves

/-- A symbol's code is a path to a leaf that holds it, of at most 256 edges (R38 items 2 and 3). -/
theorem leads_derived {a : Sym} (h : (s.codeOf a).valid = true) :
    t.leads (s.codeOf a).toBits a ∧ (s.codeOf a).len.toNat ≤ 256 := by
  obtain ⟨p, hp⟩ := Option.isSome_iff_exists.1 (isSome_lastPath_iff.2 ((valid_derived_iff hcode hsyms a).1 h))
  have hleads := leads_of_lastPath hp
  have hlen : p.length ≤ 256 := Nat.le_of_lt_succ ((length_lt_of_leads hleads).trans_le hleaves)
  have hentry : s.codeOf a = Code.ofPath p := by rw [codeOf_derived hcode hsyms, hp]; rfl
  rw [hentry, toBits_ofPath hlen, length_ofPath hlen]
  exact ⟨hleads, hlen⟩

/-- Entries of a derived table have the form of R31. -/
theorem codeEntryOk_derived (a : Sym) : codeEntryOk (s.codeOf a) := by
  rw [codeOf_derived hcode hsyms]
  cases hp : t.lastPath a with
  | none => exact codeEntryOk_none
  | some p =>
    exact codeEntryOk_ofPath (Nat.le_of_lt_succ ((length_lt_of_leads (leads_of_lastPath hp)).trans_le hleaves))

/-- No code begins another one (R38 item 4, R203). -/
theorem not_begins_derived {a b : Sym} (hne : a ≠ b) (ha : (s.codeOf a).valid = true) (hb : (s.codeOf b).valid = true) :
    ¬ begins (s.codeOf a).toBits (s.codeOf b).toBits := by
  rintro ⟨rest, hrest⟩
  obtain ⟨hleads, -⟩ := leads_derived hcode hleaves hsyms ha
  obtain ⟨hleads', -⟩ := leads_derived hcode hleaves hsyms hb
  rw [hrest] at hleads'
  obtain ⟨-, heq⟩ := leads_prefix hleads hleads'
  exact hne heq

end Derived

/-- Settles O41: each code is a path to a leaf of its symbol, and a path to a leaf goes no further. -/
theorem codesArePrefixFree : Obligations.CodesArePrefixFree := by
  unfold Obligations.CodesArePrefixFree
  intro s u t hs htv ht hleaves hsyms hexec
  have hcode : u.code = t.shape.codeTable := by
    cases (derivesCodes s t hs htv ht hleaves hsyms).symm.trans hexec
    rfl
  refine ⟨fun a b hne ha hb => not_begins_derived hcode hleaves hsyms hne ha hb, valid_derived_iff hcode hsyms,
    fun a ha => (leads_derived hcode hleaves hsyms ha).1, fun hb a ha => ?_⟩
  obtain ⟨hleads, hlen⟩ := leads_derived hcode hleaves hsyms ha
  have hpos := List.length_pos_iff.2 (leads_ne_nil hb hleads)
  rw [Code.length_toBits] at hpos
  exact ⟨hpos, hlen⟩

end Sys2Proof.Machine
end

section
/-!
PROOFS. COMPRESS and DECOMPRESS by their step commands: the stream format, written and read, and the round trip (R90 to R96, R196,
R199, R201).
-/

namespace Sys2Proof.Machine

open Sys2Proof Sys2Proof.Safety

/-! ### The counts of a byte sequence (R113, R133) -/

/-- Every byte is counted once. -/
theorem sum_count_bytes (bs : List Byte) :
    ((List.range 256).map fun i => bs.count (BitVec.ofNat 8 i)).sum = bs.length := by
  induction bs with
  | nil => exact List.sum_eq_zero fun n hn => by obtain ⟨i, -, rfl⟩ := List.mem_map.1 hn; rfl
  | cons v bs ih =>
    have hone : ((List.range 256).map fun i => if v == BitVec.ofNat 8 i then 1 else 0).sum = 1 := by
      have hbyte : ∀ i ∈ List.range 256, (if v == BitVec.ofNat 8 i then 1 else 0) = if v.toNat = i then 1 else 0 := by
        intro i hi
        have hlt := List.mem_range.1 hi
        have hiff : v = BitVec.ofNat 8 i ↔ v.toNat = i := by
          rw [← BitVec.toNat_inj, BitVec.toNat_ofNat, Nat.mod_eq_of_lt hlt]
        simp only [beq_iff_eq, hiff]
      rw [List.map_congr_left hbyte]
      calc ((List.range 256).map fun i => if v.toNat = i then 1 else 0).sum
        _ = ∑ i ∈ Finset.range 256, if v.toNat = i then 1 else 0 := rfl
        _ = 1 := by rw [Finset.sum_ite_eq, if_pos (Finset.mem_range.2 v.isLt)]
    simp only [List.count_cons, List.sum_map_add, ih, hone, List.length_cons]

theorem toNat_ofNat_weight {n : Nat} (h : n ≤ maxWeight) : (BitVec.ofNat 32 n).toNat = n := by
  rw [BitVec.toNat_ofNat]
  exact Nat.mod_eq_of_lt (Nat.lt_succ_of_le h)

/-- A count below 2^32 is its entry of FREQ. -/
theorem toNat_freqOf_countTable {s : State} {bs : List Byte} (hfreq : s.freq = countTable bs)
    (hmax : ∀ v, bs.count v ≤ maxWeight) {i : Nat} (hi : i < 256) :
    (s.freqOf (BitVec.ofNat 9 i)).toNat = bs.count (BitVec.ofNat 8 i) := by
  have hsym : (BitVec.ofNat 9 i).toNat = i := toNat_ofNat_sym hi.le
  rw [State.freqOf, hsym, hfreq, Vector.getElem?_eq_getElem hi, Option.getD_some, getElem_countTable bs hi,
    toNat_ofNat_weight (hmax _)]

/-- The counts' sum is the number of the bytes, and one for END (R133). -/
theorem freqSum_countTable {s : State} {bs : List Byte} (hfreq : s.freq = countTable bs)
    (hmax : ∀ v, bs.count v ≤ maxWeight) : freqSum s = bs.length + 1 := by
  have hend : (s.freqOf (BitVec.ofNat 9 256)).toNat = 1 := congrArg BitVec.toNat s.freqOf_end
  have hbytes : ∀ i ∈ List.range 256, (s.freqOf (BitVec.ofNat 9 i)).toNat = bs.count (BitVec.ofNat 8 i) :=
    fun i hi => toNat_freqOf_countTable hfreq hmax (List.mem_range.1 hi)
  rw [freqSum, allSymbols, List.map_map, List.range_succ, List.map_append, List.sum_append, ← sum_count_bytes bs,
    ← List.map_congr_left hbytes]
  exact congrArg _ ((Nat.add_zero _).trans hend)

theorem freqOf_pos_of_mem {s : State} {bs : List Byte} (hfreq : s.freq = countTable bs)
    (hmax : ∀ v, bs.count v ≤ maxWeight) {v : Byte} (hv : v ∈ bs) : 0 < (s.freqOf (v.setWidth 9)).toNat := by
  rw [State.freqOf_byte, hfreq, getElem_countTable_byte, toNat_ofNat_weight (hmax v)]
  exact List.count_pos_iff.2 hv

/-- COUNT of a stream whose counts fit. -/
theorem exec_count_of_counts {s : State} {c : InChan} {bits : Bits} (hs : ready s) (hin : inHas s c bits)
    (hr : c.rewound = false) (hmax : ∀ v, (bytesOf bits).count v ≤ maxWeight) :
    exec .count s = .next { finished s (some c.restart) s.out with freq := countTable (bytesOf bits) } := by
  have hbegin := atLines_begin hs (commandWord .count) countProgram
  have hcount := runs_countLoop (w := commandWord .count) [.rewind] hs hin hmax
  have hk := countLoop_steps_le hin
  obtain ⟨-, hc, -⟩ := hin
  generalize countTable (bytesOf bits) = f at hcount ⊢
  have hrewind := (hbegin.counting (c := { c with pos := c.data.length }) (f := f) [.rewind]).runs (rewind_first [] rfl hc hr)
  exact issue_completes hs rfl (runs_trans hcount hrewind) (hbegin.of_frame rfl) hk

/-! ### The tree of the counts -/

theorem length_symbols (t : Shape) : t.symbols.length = t.leaves := by
  induction t with
  | leaf _ => rfl
  | node l r ihl ihr => rw [Shape.symbols, List.length_append, ihl, ihr, Shape.leaves]

/-- BUILD's tree has 2 to 257 leaves, for the symbols that R127 gives a leaf. -/
theorem HasTreeOf.codable {s u : State} (h : HasTreeOf s u) : ∃ x : Tree, holdsRoot u x ∧ x.shape.branches = true ∧
    x.shape.leaves ≤ 257 ∧ ∀ sym, sym ∈ x.shape.symbols ↔ sym ∈ leafSymbols s := by
  obtain ⟨x, hx, -, hperm, -⟩ := h.tree
  have hleaves : x.shape.leaves = (leafSymbols s).length := (length_symbols _).symm.trans hperm.length_eq
  have h2 := two_le_length_leafSymbols s
  refine ⟨x, hx, ?_, hleaves.trans_le (length_leafSymbols_le s), fun sym => hperm.mem_iff⟩
  cases x with
  | leaf _ _ =>
    rw [← hleaves, Tree.shape, Shape.leaves] at h2
    exact absurd h2 (by decide)
  | node _ _ _ => rfl

/-- The placeholder's leaf, if there is one, is the first. -/
theorem leafSymbols_zero {s : State} (h : placeholderSym ∈ leafSymbols s) : (leafSymbols s)[0]? = some placeholderSym := by
  obtain ⟨-, hleaf⟩ := List.mem_filter.1 h
  rw [← List.head?_eq_getElem?, leafSymbols, List.head?_filter]
  exact List.find?_cons_of_pos hleaf

/-- A symbol that was counted is not the placeholder (R128). -/
theorem HasTreeOf.not_isPlaceholder {s u : State} (h : HasTreeOf s u) {sym : Sym} (hcount : 0 < (s.freqOf sym).toNat) :
    u.isPlaceholder sym = false := by
  by_contra hne
  have hplace : u.isPlaceholder sym = true := by simpa using hne
  simp only [State.isPlaceholder, Bool.and_eq_true, decide_eq_true_eq] at hplace
  obtain ⟨⟨rfl, -⟩, hnode⟩ := hplace
  have hleaf := h.leaves 0 placeholderSym (leafSymbols_zero (mem_leafSymbols.2 ⟨by decide, Or.inl hcount⟩))
  have hweight : s.freqOf placeholderSym = 0#32 := by
    have hnode' : u.node[0]? = some (Node.mkLeaf placeholderSym 0#32) := hnode
    exact congrArg Node.weight (Option.some.inj (hleaf.symm.trans hnode'))
  rw [hweight] at hcount
  exact absurd hcount (by decide)

/-! ### COMPRESS (R196) -/

/-- The codes of bytes that have one spell the bytes (R95). -/
theorem spells_bodyOf {s : State} {t : Shape} {vs : List Byte}
    (h : ∀ v ∈ vs, t.leads (s.codeOf (v.setWidth 9)).toBits (v.setWidth 9)) :
    t.spells (vs.map fun v => v.setWidth 9) (s.bodyOf vs) := by
  induction vs with
  | nil => rfl
  | cons v vs ih =>
    obtain ⟨hv, hvs⟩ := List.forall_mem_cons.1 h
    exact ⟨_, _, bodyOf_cons s v vs, hv, ih hvs⟩

theorem inHas_reference {s : State} {bits : Bits} (h : s.inp = some (InChan.reference bits)) :
    inHas s (InChan.reference bits) bits := ⟨h, rfl, Nat.zero_le _, rfl⟩

/-- After COUNT IN delivers the bytes again (R58, R64). -/
theorem inHas_restart {s : State} {bits : Bits} (h : s.inp = some (InChan.reference bits).restart) :
    inHas s (InChan.reference bits).restart bits := ⟨h, rfl, Nat.zero_le _, rfl⟩

theorem bytesOf_bitsOfBytes_self (bs : List Byte) : bytesOf (bitsOfBytes bs) = bs := by
  have h := bytesOf_bitsOfBytes bs [] (by decide)
  rwa [List.append_nil] at h

/-- The state has the tree of some bytes' counts at ROOT, and its codes. -/
structure TablesOf (bs : List Byte) (x : Tree) (u : State) : Prop where
  /-- The tree. -/
  root : holdsRoot u x
  /-- It has at most 257 leaves. -/
  leaves : x.shape.leaves ≤ 257
  /-- They hold symbols. -/
  symbols : ∀ sym ∈ x.shape.symbols, sym.toNat ≤ 256
  /-- The code table. -/
  code : u.code = x.shape.codeTable
  /-- The bytes have leaves. -/
  byte_mem : ∀ v ∈ bs, v.setWidth 9 ∈ x.shape.symbols
  /-- END has one. -/
  end_mem : endSym ∈ x.shape.symbols
  /-- No byte's leaf is the placeholder's. -/
  byte_counted : ∀ v ∈ bs, u.isPlaceholder (v.setWidth 9) = false

section Compress

variable {s u : State} {bs : List Byte} {x : Tree}

theorem TablesOf.of_frame {t : State} (h : TablesOf bs x u) (hnode : t.node = u.node := by rfl)
    (hroot : t.root = u.root := by rfl) (hcode : t.code = u.code := by rfl) : TablesOf bs x t where
  root := holdsRoot_of_frame h.root hnode hroot
  leaves := h.leaves
  symbols := h.symbols
  code := hcode.trans h.code
  byte_mem := h.byte_mem
  end_mem := h.end_mem
  byte_counted := fun v hv => by
    have hnodeAt : ∀ i, t.nodeAt? i = u.nodeAt? i := fun i => by rw [State.nodeAt?, State.nodeAt?, hnode]
    rw [← h.byte_counted v hv, State.isPlaceholder, State.isPlaceholder, State.weightOf, State.weightOf, hroot, hnodeAt,
      hnodeAt]

/-- A leaf's symbol has a code, which leads to such a leaf (O41). -/
theorem TablesOf.leads (h : TablesOf bs x u) {sym : Sym} (hsym : sym ∈ x.shape.symbols) :
    (u.codeOf sym).valid = true ∧ x.shape.leads (u.codeOf sym).toBits sym := by
  have hvalid := (valid_derived_iff h.code h.symbols sym).2 hsym
  exact ⟨hvalid, (leads_derived h.code h.leaves h.symbols hvalid).1⟩

/-- The state after COUNT of some bytes. -/
def State.counted (s : State) (bs : List Byte) : State :=
  { finished s (some (InChan.reference (bitsOfBytes bs)).restart) s.out with freq := countTable bs }

/-- What a BUILD without a fault changes. -/
theorem afterBuild_eq (m : State) : m.afterBuild = { m.complete with
    tv := true, cv := false, node := m.afterBuild.node, nnodes := m.afterBuild.nnodes, root := m.afterBuild.root } := by
  simp only [State.afterBuild]

theorem ready_counted (hs : ready s) (bs : List Byte) : ready (s.counted bs) := ⟨Or.inr rfl, hs.2⟩

theorem exec_count_bytes (hs : ready s) (hinp : s.inp = some (InChan.reference (bitsOfBytes bs)))
    (hmax : ∀ v, bs.count v ≤ maxWeight) : exec .count s = .next (s.counted bs) := by
  have hexec := exec_count_of_counts hs (inHas_reference hinp) rfl (by rwa [bytesOf_bitsOfBytes_self])
  rwa [bytesOf_bitsOfBytes_self] at hexec

/-- COUNT, BUILD and DERIVE of fewer than 2^32 - 1 bytes leave the tables of their counts. -/
theorem exec_tables (hs : ready s) (hinp : s.inp = some (InChan.reference (bitsOfBytes bs))) (hlen : bs.length < 2 ^ 32 - 1) :
    ∃ b u x, exec .count s = .next (s.counted bs) ∧ exec .build (s.counted bs) = .next b ∧ b.phase = .done ∧
      exec .derive b = .next u ∧ TablesOf bs x u ∧ treeInv u ∧
      u = { finished s (some (InChan.reference (bitsOfBytes bs)).restart) s.out with
        tv := true, cv := true, freq := countTable bs, code := x.shape.codeTable, node := u.node, nnodes := u.nnodes,
        root := u.root } := by
  have hmax : ∀ v, bs.count v ≤ maxWeight := fun v => List.count_le_length.trans hlen.le
  have hfreq : (s.counted bs).freq = countTable bs := rfl
  obtain ⟨hbuild, htree⟩ := exec_build_of_fits (ready_counted hs bs) ((freqSum_countTable hfreq hmax).trans_le hlen)
  have hbuilt := afterBuild_eq (s.counted bs)
  have hpos : ∀ v ∈ bs, 0 < ((s.counted bs).freqOf (v.setWidth 9)).toNat := fun v hv => freqOf_pos_of_mem hfreq hmax hv
  generalize (s.counted bs).afterBuild = b at hbuild htree hbuilt
  obtain ⟨x, hx, -, hleaves, hmem⟩ := htree.codable
  obtain ⟨hinv, -⟩ := htree.treeInv_arenaTail
  have hsyms : ∀ sym ∈ x.shape.symbols, sym.toNat ≤ 256 := fun sym h => (mem_leafSymbols.1 ((hmem sym).1 h)).1
  have htables : TablesOf bs x { b.complete with cv := true, code := x.shape.codeTable } := {
    root := holdsRoot_of_frame hx
    leaves := hleaves
    symbols := hsyms
    code := rfl
    byte_mem := fun v hv => (hmem _).2 (mem_leafSymbols.2 ⟨by rw [toNat_symOfByte]; exact v.isLt.le, Or.inl (hpos v hv)⟩)
    end_mem := (hmem _).2 (endSym_mem_leafSymbols _)
    byte_counted := fun v hv => htree.not_isPlaceholder (hpos v hv) }
  have hready : ready b := by rw [hbuilt]; exact ⟨Or.inr rfl, hs.2⟩
  refine ⟨b, _, x, exec_count_bytes hs hinp hmax, hbuild, by rw [hbuilt]; rfl,
    derivesCodes _ x hready (by rw [hbuilt]) hx hleaves hsyms, htables, treeInv_of_frame hinv, ?_⟩
  rw [hbuilt]
  rfl

/-- What the engine writes for some bytes: the magic, the tree's header, the codes, END's code (R90). -/
def State.streamOf (u : State) (x : Tree) (bs : List Byte) : Bits :=
  bitsOf u.params.magic ++ x.shape.header ++ u.bodyOf bs ++ (u.codeOf endSym).toBits

/-- WRMAGIC, WRHDR and ENCODE with the tables of some bytes write the bytes' stream. -/
theorem exec_writes {c : InChan} {d : OutChan} (h : TablesOf bs x u) (hu : ready u) (htv : u.tv = true) (hcv : u.cv = true)
    (hin : inHas u c (bitsOfBytes bs)) (hout : outOpen u d) :
    ∃ v w, exec .wrmagic u = .next v ∧ v.phase = .done ∧ exec .wrhdr v = .next w ∧ w.phase = .done ∧
      exec .encode w = .next (finished u (some { c with pos := c.data.length })
        (some (flushed (append d (u.streamOf x bs))))) := by
  obtain ⟨wmagic, -⟩ := writesMagic
  obtain ⟨wheader, -⟩ := writesHeader
  have hmagic := wmagic u d hu hout
  generalize hv : finished u u.inp (some (append d (bitsOf u.params.magic))) = v at hmagic
  have hreadyV : ready v := by rw [← hv]; exact ⟨Or.inr rfl, hu.2⟩
  have htablesV : TablesOf bs x v := by rw [← hv]; exact h.of_frame
  have houtV := outOpen_append hout v (by rw [← hv]; rfl)
  have hheader := wheader v _ x hreadyV (by rw [← hv]; exact htv) houtV htablesV.root h.leaves h.symbols
  generalize hw : finished v v.inp (some (append (append d (bitsOf u.params.magic)) x.shape.header)) = w at hheader
  have hreadyW : ready w := by rw [← hw]; exact ⟨Or.inr rfl, hreadyV.2⟩
  have htablesW : TablesOf bs x w := by rw [← hw]; exact htablesV.of_frame
  have houtW := outOpen_append houtV w (by rw [← hw]; rfl)
  have hinW : inHas w c (bitsOfBytes bs) := by rw [← hw, ← hv]; exact hin
  have hcodes : ∀ sym, w.codeOf sym = u.codeOf sym := fun _ => by rw [← hw, ← hv]; rfl
  have hencode := encodeWritesBody w c _ (bitsOfBytes bs) hreadyW (by rw [← hw, ← hv]; exact hcv) hinW houtW
    (codeEntryOk_derived htablesW.code h.leaves h.symbols)
    (by rw [bytesOf_bitsOfBytes_self]; exact fun v hv => (htablesW.leads (h.byte_mem v hv)).1)
    (htablesW.leads h.end_mem).1 (Or.inr (by rw [bytesOf_bitsOfBytes_self]; exact htablesW.byte_counted))
  refine ⟨v, w, hmagic, by rw [← hv]; rfl, hheader, by rw [← hw]; rfl, hencode.trans ?_⟩
  simp only [hcodes, bytesOf_bitsOfBytes_self, append_append, State.streamOf, State.bodyOf, List.append_assoc]
  rw [← hw, ← hv]
  rfl

/-- Settles O49: the six step commands one after another, which COMPRESS agrees with (O48). -/
theorem compressWritesFormat : Obligations.CompressWritesFormat := by
  unfold Obligations.CompressWritesFormat
  intro s d bs hs hinp hout hlen
  obtain ⟨b, u, x, hcount, hbuild, hbuilt, hderive, htables, hinv, hcoded⟩ := exec_tables hs hinp hlen
  have hready : ready u := by rw [hcoded]; exact ⟨Or.inr rfl, hs.2⟩
  have houtU : outOpen u d := by rw [hcoded]; exact hout
  obtain ⟨v, w, hmagic, hv, hheader, hw, hencode⟩ := exec_writes htables hready (by rw [hcoded]) (by rw [hcoded])
    (inHas_restart (by rw [hcoded]; rfl)) houtU
  obtain ⟨hagree, -⟩ := codecStepsAgree
  have hexec := hagree s _ _ _ v w _ hs hcount rfl hbuild hbuilt hderive (by rw [hcoded]; rfl) hmagic hv hheader hw hencode
    (show Phase.done ≠ .busy by decide)
  refine ⟨_, x, u.bodyOf bs, (u.codeOf endSym).toBits, hexec, ?_, holdsRoot_of_frame htables.root, treeInv_of_frame hinv,
    spells_bodyOf fun v hv => (htables.leads (htables.byte_mem v hv)).2, (htables.leads htables.end_mem).2⟩
  have hparams : u.params = s.params := by rw [hcoded]; rfl
  rw [State.streamOf, hparams, ← length_bitsOfBytes]
  generalize bitsOf s.params.magic ++ x.shape.header ++ u.bodyOf bs ++ (u.codeOf endSym).toBits = p
  rw [hcoded]
  rfl

end Compress

/-! ### DECOMPRESS (R199) -/

/-- Settles O50: the three step commands one after another (O35, O36, O46), which DECOMPRESS agrees with (O48). -/
theorem decompressReadsFormat : Obligations.DecompressReadsFormat := by
  unfold Obligations.DecompressReadsFormat
  intro s c d t bs body last rest hs hin hout hb hleaves hsyms hspells hl
  rw [List.append_assoc, List.append_assoc, List.append_assoc] at hin
  obtain ⟨hmagic, -⟩ := checksMagic
  obtain ⟨hmagic, -⟩ := hmagic s c _ _ hs hin
  have hmagic := hmagic rfl
  have hin1 := inHas_advance hin (finished s (some (advance c (bitsOf s.params.magic).length)) s.out) rfl
  rw [length_bitsOf] at hin1
  obtain ⟨u, hheader, hu, -, hholds, htree, -⟩ := readsHeader (finished s (some (advance c 32)) s.out) _ t _
    ⟨Or.inr rfl, hs.2⟩ hin1 hb hleaves hsyms
  have hin2 := inHas_advance hin1 u (by rw [hu]; rfl)
  have hout2 : outOpen u d := by rw [hu]; exact hout
  have hready : ready u := by rw [hu]; exact ⟨Or.inr rfl, hs.2⟩
  have hroot : holdsRoot u t.bare := ⟨_, by rw [hu] at hholds ⊢; exact hholds⟩
  rw [← List.append_assoc] at hin2
  obtain ⟨cur, hdecode⟩ := decodeReturnsBytes u _ d t.bare bs body last rest hready (by rw [hu]) hroot
    (by rwa [shape_bare]) hin2 hout2 (by rwa [shape_bare]) (by rwa [shape_bare])
  obtain ⟨-, hagree⟩ := codecStepsAgree
  have hexec := hagree s _ u _ hs hmagic rfl hheader (by rw [hu]; rfl) hdecode (show Phase.done ≠ .busy by decide)
  refine ⟨_, hexec, treeInv_of_frame htree, ?_⟩
  have hpos (n : Nat) : 32 + n + (body.length + last.length) = 32 + n + body.length + last.length := by omega
  simp only [advance_advance, hpos]
  rw [hu]
  rfl

/-! ### The round trip (R201) -/

/-- The arena holds at most one tree at an index. -/
theorem holds_unique {s : State} {t u : Tree} {i : Idx} {ixs ixs' : List Idx} (ht : holds s t i ixs)
    (hu : holds s u i ixs') : t = u := by
  induction t generalizing u i ixs ixs' with
  | leaf sym w =>
    obtain ⟨hnode, -⟩ := ht
    cases u with
    | leaf sym' w' => cases hnode.symm.trans hu.1; rfl
    | node w' l r => obtain ⟨_, _, _, _, hnode', -⟩ := hu; cases hnode.symm.trans hnode'
  | node w l r ihl ihr =>
    obtain ⟨_, _, _, _, hnode, hl, hr, -⟩ := ht
    cases u with
    | leaf sym' w' => cases hnode.symm.trans hu.1
    | node w' l' r' =>
      obtain ⟨_, _, _, _, hnode', hl', hr', -⟩ := hu
      cases hnode.symm.trans hnode'
      rw [ihl hl hl', ihr hr hr']

/-- Whole bytes need no padding (R67). -/
theorem flushed_bytes (pad : BitVec 7) (bs : List Byte) :
    (flushed (append (OutChan.bind pad []) (bitsOfBytes bs))).data = bitsOfBytes bs := by
  have hlen : (append (OutChan.bind pad []) (bitsOfBytes bs)).data.length = 8 * bs.length := length_bitsOfBytes bs
  rw [flushed, OutChan.padding, hlen, Nat.mul_mod_right]
  exact List.append_nil _

/-- Settles O51: DECOMPRESS reads the format that COMPRESS writes (O49, O50), and the padding is not read. -/
theorem roundTrip : Obligations.RoundTrip := by
  unfold Obligations.RoundTrip
  intro s bs pad hs hlen hinp hout
  obtain ⟨t, x, body, last, hexec, ht, hroot, htree, hspells, hl⟩ :=
    compressWritesFormat s (OutChan.bind pad []) bs hs hinp ⟨hout, rfl, rfl⟩ hlen
  obtain ⟨y, ⟨_, hy⟩, hb, hleaves, hsyms⟩ := exists_tree_of_treeInv htree
  obtain ⟨_, hx⟩ := hroot
  obtain rfl := holds_unique hx hy
  refine ⟨t, _, hexec, by rw [ht]; rfl, by rw [ht]; rfl, rfl, fun u pad' hu hparams hinp' hout' => ?_⟩
  have hin := inHas_reference hinp'
  obtain ⟨v, hv, -, hend⟩ := decompressReadsFormat u _ (OutChan.bind pad' []) x.shape bs body last _ hu
    (by rw [hparams]; exact hin) ⟨hout', rfl, rfl⟩ hb hleaves hsyms hspells hl
  exact ⟨v, _, hv, by rw [hend]; rfl, by rw [hend]; rfl, rfl, flushed_bytes pad' bs⟩

end Sys2Proof.Machine
end

section
/-!
PROOFS. OUT before its time in COMPRESS and DECOMPRESS (R75, R197, R200, R212, R217).
-/

namespace Sys2Proof.Machine

open Sys2Proof Sys2Proof.Safety

/-! ### Counts that do not fit (R114, R197) -/

/-- The first byte whose count does not fit. -/
theorem exists_overflow {bs : List Byte} {n : Nat} (h : ∃ w, n < bs.count w) :
    ∃ vs v rest, bs = vs ++ v :: rest ∧ (∀ w, vs.count w ≤ n) ∧ vs.count v = n := by
  induction bs using List.reverseRecOn with
  | nil =>
    obtain ⟨w, hw⟩ := h
    exact absurd hw (Nat.not_lt_zero n)
  | append_singleton bs v ih =>
    by_cases hbs : ∃ w, n < bs.count w
    · obtain ⟨vs, w, rest, rfl, hvs⟩ := ih hbs
      exact ⟨vs, w, rest ++ [v], List.append_assoc _ _ _, hvs⟩
    · obtain ⟨w, hw⟩ := h
      have hle : ∀ w, bs.count w ≤ n := fun w => Nat.not_lt.1 fun hlt => hbs ⟨w, hlt⟩
      have hcount := hle w
      rw [List.count_append, List.count_singleton] at hw
      split at hw
      · next hvw =>
        obtain rfl : v = w := by simpa using hvw
        exact ⟨bs, v, [], rfl, hle, by omega⟩
      · omega

/-- COUNT and COMPRESS fail at a byte whose count is at its maximum. -/
theorem issue_countLoop_overflows {s : State} {c : InChan} {w : CmdWord} {pre : State → Bool} {ts : List Task} {v : Byte}
    {vs : List Byte} {rest : Bits} (hs : ready s) (hpre : pre s = true)
    (h : inHas s c (bitsOfBytes vs ++ (bitsOf v ++ rest))) (hmax : ∀ v, vs.count v ≤ maxWeight)
    (hv : vs.count v = maxWeight) : ∃ d f, issue w pre (.countClear :: .countByte :: ts) s =
      .next (State.fail { s with inp := some d, freq := f } .weightOverflow) := by
  have hbegin := atLines_begin hs w (.countClear :: .countByte :: ts)
  have hin : inHas (s.begin w (.countClear :: .countByte :: ts)) c (bitsOfBytes vs ++ (bitsOf v ++ rest)) := h
  have hlen := length_le_inBits h
  rw [List.length_append, length_bitsOfBytes] at hlen
  have hclear := hbegin.runs (countClear_eq _ hin.1)
  have hcount := runs_countBytes vs [] ts hbegin (inHas_counting hin) hmax
  rw [List.nil_append] at hcount
  have hentry : (countTable vs)[v.toNat] = 0xFFFFFFFF#32 := by
    rw [getElem_countTable_byte, hv]
    rfl
  generalize countTable vs = f at hcount hentry
  have hleft := inHas_advance hin ((s.begin w (.countClear :: .countByte :: ts)).counting
    (advance c (bitsOfBytes vs).length) f (.countByte :: ts)) rfl
  rw [length_bitsOfBytes] at hleft
  have hfault := (hbegin.counting _).runs (countByte_overflows ts hleft ((State.freqOf_byte _ _).trans hentry))
  exact ⟨_, f, issue_of_runs hs.1 hpre (runs_trans hclear (runs_trans hcount hfault)) (le_budget (by omega))
    (fail_not_running _ _)⟩

section Compress

variable {s : State} {bs : List Byte}

/-- COMPRESS of bytes of which one occurs 2^32 times fails in COUNT. -/
theorem exec_compress_count_overflows (hs : ready s) (hinp : s.inp = some (InChan.reference (bitsOfBytes bs)))
    (hover : ∃ v, maxWeight < bs.count v) : ∃ d f, exec .compress s =
      .next (State.fail { s with inp := some d, freq := f } .weightOverflow) := by
  obtain ⟨vs, v, rest, rfl, hmax, hv⟩ := exists_overflow hover
  have hbits : bitsOfBytes (vs ++ v :: rest) = bitsOfBytes vs ++ (bitsOf v ++ bitsOfBytes rest) := List.flatMap_append
  exact issue_countLoop_overflows hs rfl (hbits ▸ inHas_reference hinp) hmax hv

/-- COMPRESS of bytes whose counts fit and whose weights do not fails in BUILD, with FREQ and IN as COUNT leaves them. -/
theorem exec_compress_build_overflows (hs : ready s) (hinp : s.inp = some (InChan.reference (bitsOfBytes bs)))
    (hmax : ∀ v, bs.count v ≤ maxWeight) (hlen : maxWeight ≤ bs.length) : ∃ m : State, exec .compress s =
      .next { (s.counted bs).fail .weightOverflow with node := m.node, nnodes := m.nnodes, root := 0#10 } := by
  have hfreq : (s.counted bs).freq = countTable bs := rfl
  have hsum : maxWeight < freqSum (s.counted bs) := (Nat.lt_succ_of_le hlen).trans_eq (freqSum_countTable hfreq hmax).symm
  obtain ⟨m, hbuild⟩ := exec_build_of_overflow (ready_counted hs bs) hsum
  obtain ⟨hcount, -⟩ := (comesTo_compress hs).next (exec_count_bytes hs hinp hmax) rfl selfContained_count
  have hfails := hcount.fails (pre := State.noPrecondition) rfl hbuild rfl selfContained_build
  exact ⟨m, exec_compress_of_runs hs (show Phase.failed ≠ .busy by decide) (by decide) hfails⟩

end Compress

/-! ### The lines before DECODE's (R200) -/

/-- A line of DECODE. -/
def Task.decodes : Task → Bool
  | .decodeStart | .decodeBit | .decodeOut _ | .flush => true
  | _ => false

/-- After a line of DECODE come lines of DECODE. -/
theorem decodes_todo {x : Task} {ts : List Task} {s t : State} (h : runTask x ts s = .next t) (htodo : s.todo = x :: ts)
    (hx : ∀ y ∈ x :: ts, y.decodes = true) : ∀ y ∈ t.todo, y.decodes = true := by
  have hfail : ∀ (u : State) (e : ErrCode), ∀ y ∈ (u.fail e).todo, y.decodes = true := fun _ _ _ hy => nomatch hy
  have hwait : ∀ y ∈ s.todo, y.decodes = true := htodo ▸ hx
  obtain ⟨hx, hts⟩ := List.forall_mem_cons.1 hx
  have hbit : ∀ y ∈ .decodeBit :: ts, y.decodes = true := List.forall_mem_cons.2 ⟨rfl, hts⟩
  cases x with simp only [runTask] at h
  | decodeStart => cases h; exact hts
  | decodeBit =>
    rcases State.readIn_cases h with ⟨_, rfl⟩ | rfl | ⟨r, c, h⟩
    · exact hfail _ _
    · exact hwait
    cases r with
    | none => cases h; exact hfail _ _
    | some b =>
      obtain ⟨x, h⟩ := withNode_cases h
      obtain ⟨y, h⟩ := withNode_cases h
      split at h
      · split at h
        · cases h; exact hts
        · cases h; exact List.forall_mem_cons.2 ⟨rfl, hbit⟩
      · cases h; exact hbit
  | decodeOut sym =>
    unfold decodeOut at h
    split at h
    · rcases State.writeOut_cases h with ⟨_, rfl⟩ | rfl | ⟨c, h⟩
      · exact hfail _ _
      · exact hwait
      · cases h; exact hts
    · cases h
  | flush =>
    rcases State.flushOut_cases h with ⟨_, rfl⟩ | rfl | ⟨c, h⟩
    · exact hfail _ _
    · exact hwait
    · cases h; exact hts
  | _ => cases hx

/-- DECODE's faults. -/
theorem decodes_faults {x : Task} (hx : x.decodes = true) : x.faults ⊆ [.channel, .truncatedStream] := by
  cases x with
  | decodeStart | decodeBit | decodeOut _ | flush => simp [Task.faults]
  | _ => cases hx

/-- DECOMPRESS that began with OUT as given: before DECODE's lines OUT is untouched, and after them no fault of the magic or the
header is raised. -/
inductive Decompressing (o : Option OutChan) (u : State) : Prop where
  /-- RDMAGIC's and RDHDR's lines, none of which uses OUT. -/
  | header (us : List Task) (htodo : u.todo = us ++ decodeProgram) (hus : (Setting.ofOut u.cmd decodeProgram o).suits us)
      (herr : u.err = .none) (hout : u.out = o)
  /-- They have failed. -/
  | failed (hphase : u.phase = .failed) (hout : u.out = o)
  /-- DECODE's lines. -/
  | decode (htodo : ∀ y ∈ u.todo, y.decodes = true) (herr : u.err ∈ [.none, .channel, .truncatedStream])

theorem after_ofOut (cmd : CmdWord) (rest : List Task) (out : Option OutChan) (x : Task) :
    (Setting.ofOut cmd rest out).after x = .ofOut cmd rest out := by
  cases x <;> rfl

section Decompress

variable {o : Option OutChan} {s t u v : State}

/-- A line of RDMAGIC or RDHDR leaves OUT alone and fails or goes on with such lines. -/
theorem Decompressing.header_line {x : Task} {us : List Task} (htodo : u.todo = x :: us ++ decodeProgram)
    (hus : (Setting.ofOut u.cmd decodeProgram o).suits (x :: us)) (herr : u.err = .none) (hout : u.out = o)
    (h : runTask x (us ++ decodeProgram) u = .next v) : Decompressing o v := by
  have hsame : State.within { u with todo := x :: us } (.ofOut u.cmd decodeProgram o) = u := by
    simp only [State.within, Setting.ofOut, Option.getD_none, Option.getD_some, ← htodo, ← hout]
  have hline := runTask_follows (s := { u with todo := x :: us }) rfl hus
  rw [after_ofOut, hsame] at hline
  generalize runTask x us _ = r at hline
  generalize hr : runTask x (us ++ (Setting.ofOut u.cmd decodeProgram o).rest) u = r' at hline
  cases hr.symm.trans h
  cases hline with
  | goesOn t hsuits _ =>
    rcases runTask_phase h with ⟨w, e, -, hfail⟩ | ⟨-, herr', -⟩
    · exact .failed (hfail ▸ rfl) rfl
    · exact .header t.todo rfl hsuits (herr'.trans herr) rfl
  | fails t e => exact .failed rfl rfl

/-- A line of DECODE goes on with such lines and raises none but their faults. -/
theorem Decompressing.decode_line {x : Task} {ts : List Task} (htodo : u.todo = x :: ts)
    (hdecodes : ∀ y ∈ u.todo, y.decodes = true) (herr : u.err ∈ [.none, .channel, .truncatedStream])
    (h : runTask x ts u = .next v) : Decompressing o v := by
  rw [htodo] at hdecodes
  refine .decode (decodes_todo h htodo hdecodes) ?_
  rcases (runTask_raises x ts u).next h with hsame | hmem
  · rwa [hsame]
  · exact List.mem_cons_of_mem _ (decodes_faults (hdecodes x List.mem_cons_self) hmem)

theorem Decompressing.step (hu : Decompressing o u) (hrun : u.running = true) (hstep : engineStep u = .next v) :
    Decompressing o v := by
  cases hu with
  | header us htodo hus herr hout =>
    rcases engineStep_cases hstep with ⟨hnil, -⟩ | ⟨x, ts, hcons, hx⟩
    · exact absurd (htodo.symm.trans hnil) (List.append_ne_nil_of_right_ne_nil _ (List.cons_ne_nil _ _))
    cases us with
    | nil =>
      have hdecodes : ∀ y ∈ decodeProgram, y.decodes = true := by decide
      have herr' : u.err ∈ [.none, .channel, .truncatedStream] := herr ▸ List.mem_cons_self
      exact .decode_line (u := u.tick) hcons (by rwa [State.tick_todo, htodo]) herr' hx
    | cons y us =>
      obtain ⟨rfl, rfl⟩ := List.cons.inj (htodo.symm.trans hcons)
      exact .header_line (u := u.tick) htodo hus herr hout hx
  | failed hphase _ => rw [State.running_busy hrun] at hphase; cases hphase
  | decode htodo herr =>
    rcases engineStep_cases hstep with ⟨-, rfl⟩ | ⟨x, ts, hcons, hx⟩
    · exact .decode (fun _ hy => nomatch hy) herr
    · exact .decode_line (u := u.tick) hcons htodo herr hx

/-- DECOMPRESS from no fault: with a fault of the magic or the header OUT is untouched. -/
theorem exec_decompress_decompressing (hs : ready s) (herr : s.err = .none) (hexec : exec .decompress s = .next t) :
    Decompressing s.out t := by
  rw [exec, execDecompress, issue_accepted hs.1 rfl] at hexec
  have hsuits : (Setting.ofOut (s.begin (commandWord .decompress) decompressProgram).cmd decodeProgram s.out).suits
      (rdmagicProgram ++ rdhdrProgram) := ⟨trivial, trivial, rfl, trivial⟩
  exact drive_invariant (fun _ _ hrun hstep hu => hu.step hrun hstep) hexec (.header _ rfl hsuits herr rfl)

/-- DECOMPRESS of a stream that ends in its header fails there. -/
theorem exec_decompress_truncated {c : InChan} {x : Shape} {bits more : Bits} (hs : ready s)
    (hin : inHas s c (bitsOf s.params.magic ++ bits)) (hx : x.header = bits ++ more) (hmore : more ≠ [])
    (hleaves : x.leaves ≤ 257) (hsyms : ∀ sym ∈ x.symbols, sym.toNat ≤ 256) : ∃ n w, exec .decompress s =
      .next (State.fail { s.clearTree with inp := some { c with pos := c.data.length }, nnodes := n, node := w }
        .truncatedStream) := by
  obtain ⟨hmagic, -⟩ := checksMagic
  obtain ⟨hmagic, -⟩ := hmagic s c _ _ hs hin
  have hmagic := hmagic rfl
  have hin' := inHas_advance hin (finished s (some (advance c (bitsOf s.params.magic).length)) s.out) rfl
  rw [length_bitsOf] at hin'
  obtain ⟨hnext, -⟩ := (comesTo_decompress hs).next hmagic rfl selfContained_rdmagic
  have hat := (atLines_begin hnext.ready (commandWord .rdhdr) rdhdrProgram).atHeader
  obtain ⟨n, w, hheader⟩ := exec_rdhdr_fails hnext.ready hin'
    (headerFails_truncated hat (fits_zero_iff.2 ⟨hleaves, hsyms⟩) hin' hx hmore)
  have hfails := hnext.fails (pre := State.noPrecondition) rfl hheader rfl selfContained_rdhdr
  exact ⟨n, w, exec_decompress_of_runs hs (show Phase.failed ≠ .busy by decide) (by decide) hfails⟩

end Decompress

/-- Settles O52: the lines before WRMAGIC's do not use OUT, and nor do those before DECODE's. -/
theorem noOutputBeforeItsTime : Obligations.NoOutputBeforeItsTime := by
  unfold Obligations.NoOutputBeforeItsTime
  refine ⟨fun s t x ts _ hq htodo hx hstep => ?lines,
    fun s c bits hs hin hr hlen => issue_countLoop_rewound hs rfl hin hr (count_bytesOf_le hlen),
    fun s bs hs hinp hlen => ?overflow, fun s t hs herr hexec hcode => ?header,
    fun s c x bits more hs hin hx hmore hleaves hsyms => ?truncated⟩
  case lines =>
    have hprograms : ∀ x ∈ countProgram ++ buildProgram ++ deriveProgram, x.usesOut = false := by decide
    have hunused : x.usesOut = false := hx.elim (hprograms x) fun ⟨_, hwalk⟩ => hwalk ▸ rfl
    exact runTask_out hunused htodo ((engineStep_cons hq htodo).symm.trans hstep)
  case overflow =>
    by_cases hmax : ∀ v, bs.count v ≤ maxWeight
    · obtain ⟨m, hexec⟩ := exec_compress_build_overflows hs hinp hmax hlen
      exact ⟨_, hexec, rfl, rfl, rfl, fun _ => rfl⟩
    · have hover : ∃ v, maxWeight < bs.count v := by simpa using hmax
      obtain ⟨d, f, hexec⟩ := exec_compress_count_overflows hs hinp hover
      exact ⟨_, hexec, rfl, rfl, rfl, fun h => absurd h hmax⟩
  case header =>
    cases exec_decompress_decompressing hs herr hexec with
    | header _ _ _ _ hout | failed _ hout => exact hout
    | decode _ herr' => rcases hcode with h | h | h | h <;> rw [h] at herr' <;> exact absurd herr' (by decide)
  case truncated =>
    obtain ⟨n, w, hexec⟩ := exec_decompress_truncated hs hin hx hmore hleaves hsyms
    exact ⟨_, hexec, rfl⟩

end Sys2Proof.Machine
end

section
/-!
PROOFS. The turns of the host and of an engine whose channel does not answer, fault entry, and the fault in FAILED (R73, R84,
R222, R226, R232, R241, R244, R252).
-/

namespace Sys2Proof.Machine

open Sys2Proof

/-! ### The host's actions in FAILED (R84, R226) -/

/-- In BUSY and FAILED a write to any register but CMD is ignored (R73). -/
theorem storeReg_closed {s : State} (hs : s.open? = false) (r : Reg) (d : Word) : s.storeReg r d = s := by
  cases r with
  | freq sym => exact storeReg_freq_closed hs sym d
  | _ => rfl

/-- In FAILED an action of the host is reset or the write of CLR's word, or it leaves STATE and ERR alone. -/
theorem hostAct_keeps_fault {a : HostAct} {s t : State} (hs : s.phase = .failed) (h : hostAct a s = .next t) :
    a = .reset ∨ (∃ d, a = .write 0#16 d ∧ d.extractLsb' 0 16 = 0x1000#16) ∨ (t.phase = .failed ∧ t.err = s.err) := by
  cases hostAct_cases h with
  | reset ha => exact Or.inl ha
  | read | bindIn | bindOut => exact Or.inr (Or.inr ⟨hs, rfl⟩)
  | store r d =>
    rw [storeReg_closed (not_open_of_busy_or_failed (Or.inr hs))]
    exact Or.inr (Or.inr ⟨hs, rfl⟩)
  | command d i _ ha hd hx =>
    obtain ⟨hi, -, hword⟩ := decodeCommand_facts hd
    by_cases hclr : i = .clr
    · subst hclr
      exact Or.inr (Or.inl ⟨d, ha, hword.symm⟩)
    · cases (exec_failed i hi hclr s hs).symm.trans hx
      exact Or.inr (Or.inr ⟨hs, rfl⟩)
  | illegalWord _ _ _ _ _ hx =>
    cases (illegal_dropped (Or.inr hs)).symm.trans hx
    exact Or.inr (Or.inr ⟨hs, rfl⟩)

/-- Settles O13: the engine does nothing in FAILED, and of the host's actions only reset and CLR act on the fault. -/
theorem faultIsSticky : Obligations.FaultIsSticky := by
  unfold Obligations.FaultIsSticky
  intro s t hs h
  rcases step_cases h with ⟨⟨p, a⟩, rest, -, hhost, hevent⟩ | ⟨-, hbusy, -⟩ | ⟨-, -, rfl⟩
  · unfold hostEvent at hevent
    split at hevent
    next =>
      cases hevent
      exact Or.inr (Or.inr ⟨hs, rfl⟩)
    next =>
      rcases hostAct_keeps_fault (s := { s with host := rest }) hs hevent with rfl | ⟨d, rfl, hclr⟩ | hkept
      · exact Or.inl ⟨p, rest, hhost⟩
      · exact Or.inr (Or.inl ⟨p, d, rest, hhost, hclr⟩)
      · exact Or.inr (Or.inr hkept)
  · exact absurd (hs.symm.trans hbusy) (by decide)
  · exact Or.inr (Or.inr ⟨hs, rfl⟩)

/-! ### Transactions that are not answered (R252) -/

section Never

variable {s : State}

theorem InChan.read_never {c : InChan} {as : List InAnswer} (h : c.script = .never :: as) (n : Nat) :
    c.read n = (.never, c) := by
  simp only [InChan.read, InChan.nextAnswer, h]

theorem InChan.rewind_never {c : InChan} {as : List InAnswer} (h : c.script = .never :: as) : c.rewind = (.never, c) := by
  simp only [InChan.rewind, InChan.nextAnswer, h]

theorem OutChan.write_never {c : OutChan} {as : List OutAnswer} (h : c.script = .never :: as) {n : Nat} (v : BitVec n) :
    c.write v = (.never, c) := by
  simp only [OutChan.write, OutChan.nextAnswer, h]

theorem OutChan.flush_never {c : OutChan} {as : List OutAnswer} (h : c.script = .never :: as) : c.flush = (.never, c) := by
  simp only [OutChan.flush, OutChan.nextAnswer, h]

theorem State.readIn_never {c : InChan} {as : List InAnswer} (hi : s.inp = some c) (h : c.script = .never :: as) {n : Nat}
    (k : Option (BitVec n) → State → Result) : s.readIn n k = .next s := by
  simp only [State.readIn, hi, InChan.read_never h]

theorem State.rewindIn_never {c : InChan} {as : List InAnswer} (hi : s.inp = some c) (h : c.script = .never :: as)
    (k : State → Result) : s.rewindIn k = .next s := by
  simp only [State.rewindIn, hi, InChan.rewind_never h]

theorem State.writeOut_never {c : OutChan} {as : List OutAnswer} (ho : s.out = some c) (h : c.script = .never :: as) {n : Nat}
    (v : BitVec n) (k : State → Result) : s.writeOut v k = .next s := by
  simp only [State.writeOut, ho, OutChan.write_never h]

theorem State.flushOut_never {c : OutChan} {as : List OutAnswer} (ho : s.out = some c) (h : c.script = .never :: as)
    (k : State → Result) : s.flushOut k = .next s := by
  simp only [State.flushOut, ho, OutChan.flush_never h]

end Never

/-! ### The step by whose turn it is (R232, R244, R245) -/

/-- An early action that is due is the step, in every state. -/
theorem step_of_early {s : State} {a : HostAct} {rest : List HostEvent} (h : s.host = ⟨.early 0, a⟩ :: rest) :
    step s = hostAct a { s with host := rest } := by
  have hdue : s.eventDue = true := by
    unfold State.eventDue
    rw [h]
    cases s.phase <;> rfl
  have hpace : ¬ (Pace.early 0 = .sequenced ∧ s.phase = .failed) := fun hp => nomatch hp.1
  simp only [step, turn, hdue, if_true, h, hostEvent, if_neg hpace]

/-- Only a line that reads a record has one fetched for it (R98). -/
theorem fetchRecord_eq_none {s : State} {x : Task} {ts : List Task} (htodo : s.todo = x :: ts)
    (hx : x ≠ .readMagic ∧ x ≠ .readTag) : fetchRecord s = none := by
  obtain ⟨hmagic, htag⟩ := hx
  cases hf : fetchRecord s with
  | none => rfl
  | some i =>
    obtain ⟨-, -, c, us, -, -, ⟨hus, -⟩ | ⟨hus, -⟩⟩ := fetchRecord_cases hf
    · exact absurd (List.cons.inj (htodo.symm.trans hus)).1 hmagic
    · exact absurd (List.cons.inj (htodo.symm.trans hus)).1 htag

/-- The step of a BUSY engine that no host action disturbs is its next line, where that reads no record. -/
theorem step_of_line {s : State} {x : Task} {ts : List Task} (hb : s.phase = .busy) (hq : s.quiet = true)
    (htodo : s.todo = x :: ts) (hx : x ≠ .readMagic ∧ x ≠ .readTag := by decide) : step s = runTask x ts s := by
  simp only [step, turn, State.eventDue_of_busy hq hb, Bool.false_eq_true, if_false, engineTurn, hb, if_true,
    fetchRecord_eq_none htodo hx, engineStep_cons hq htodo]

/-- Outside BUSY nothing happens without the host (R232). -/
theorem step_of_no_host {s : State} (hb : s.phase ≠ .busy) (hhost : s.host = []) : step s = .next s := by
  have hdue : s.eventDue = false := by simp only [State.eventDue, hhost]
  simp only [step, turn, hdue, Bool.false_eq_true, if_false, engineTurn, if_neg hb]

/-- Settles O7: the host's due action by the register it names, the engine's turn by the transaction of its next line. -/
theorem hostAndEngineTurns : Obligations.HostAndEngineTurns := by
  unfold Obligations.HostAndEngineTurns
  obtain ⟨hdropped, -, -⟩ := droppedCommands
  refine ⟨fun s => step_of_no_host, fun s rest _ hhost => step_of_early hhost, ?command, ?store, ?inp, ?out⟩
  case command =>
    intro s d rest hb hhost
    calc step s = hostWrite 0#16 d { s with host := rest } := step_of_early hhost
      _ = writeCmd (d.extractLsb' 0 16) { s with host := rest } := by simp only [hostWrite, regOf_zero]
      _ = .next { s with host := rest, ovr := true } := hdropped _ _ hb
  case store =>
    intro s a d rest hb ha hhost
    have hclosed : State.open? { s with host := rest } = false := not_open_of_busy_or_failed (Or.inl hb)
    calc step s = hostWrite a d { s with host := rest } := step_of_early hhost
      _ = .next (State.storeReg { s with host := rest } (regOf a) d) := hostWrite_store rfl (fun h => ha (regOf_cmd h)) d
      _ = .next { s with host := rest } := by rw [storeReg_closed hclosed]
  case inp =>
    intro s c as hi hnever
    refine ⟨fun n k => State.readIn_never hi hnever k, fun k => State.rewindIn_never hi hnever k, fun ts hb hq htodo => ?_⟩
    rcases htodo with htodo | htodo
    · rw [step_of_line hb hq htodo, runTask, countByte, State.readIn_never hi hnever]
    · rw [step_of_line hb hq htodo, runTask, rewind, State.rewindIn_never hi hnever]
  case out =>
    intro s c as ho hnever
    refine ⟨fun n v k => State.writeOut_never ho hnever v k, fun k => State.flushOut_never ho hnever k,
      fun ts hb hq htodo => ?_⟩
    rcases htodo with htodo | htodo
    · rw [step_of_line hb hq htodo, runTask, writeMagic, State.writeOut_never ho hnever]
    · rw [step_of_line hb hq htodo, runTask, flushStep, State.flushOut_never ho hnever]

/-! ### Fault entry (R222) -/

/-- Settles O12: the fields as `State.fail` has them, and the three outputs read STATE. -/
theorem faultEntry : Obligations.FaultEntry := by
  unfold Obligations.FaultEntry
  intro s e
  simp [State.busyOut, State.doneOut, State.errorOut]

end Sys2Proof.Machine
end
